-- ==== Sys2Proof/Word.lean ====
section
/-! DEFINITION. The words of the K9: a general register and an instruction word are 64 bits (R41, R45), memory is
addressed in bytes (R7). -/

namespace Sys2Proof

/-- A 64-bit word (R41, R45). -/
abbrev Word := BitVec 64

/-- A byte of memory (R7). -/
abbrev Byte := BitVec 8

/-- A register field of an instruction word (R45): 7 bits. -/
abbrev Reg := BitVec 7

end Sys2Proof
end

