-- ==== Sys2Proof/Syntax.lean ====
section
/-! DEFINITION. The instructions, record operations and machine events of spec/opcode_table.json, one constructor a row. A
context instruction carries the fields R46 and R47 give it, with every code that R51, R48, R49 and R55 call illegal left out
of the types; a record operation, whose operands stand in
the record, carries none; an event carries what names it, unless the actor of the step (State.actor) says it. -/

namespace Sys2Proof

/-- Physical scull number, 0 to 2,047 (R1, R105). -/
abbrev ScullId := BitVec 11
/-- Context slot, 0 to 63 (R12). -/
abbrev Slot := BitVec 6
/-- Shell number, die × 32 + shell within the die (R1, R339). -/
abbrev ShellId := BitVec 8
/-- Crew identifier (R106). -/
abbrev CrewId := BitVec 32
/-- Hardware queue, 0 to 4,095 (R283). -/
abbrev QueueId := BitVec 12
/-- Tool hart, 0 to 127 (R371). -/
abbrev HartId := BitVec 7
/-- Chamber directory slot, 0 to 32,767 (R308). -/
abbrev ChamberSlot := BitVec 15
/-- Future table entry, 0 to 262,143 (R357). -/
abbrev FutureIndex := BitVec 18
/-- Coherence node number (R339). -/
abbrev Node := BitVec 9

/-- Address mode of format M (R51). -/
inductive Mode where
  | loc | core | shl | crw | glb | chm
  deriving DecidableEq, Repr

/-- Ordering scope (R51, R151). -/
inductive Scope where
  | plain | core | shell | die | package | system
  deriving DecidableEq, Repr

/-- Access size of format M (R51): 1, 2, 4 or 8 bytes. -/
inductive Size where
  | b | q | h | w
  deriving DecidableEq, Repr

/-- The two sizes of a global atomic (R174). -/
inductive AtomSize where
  | h | w
  deriving DecidableEq, Repr

/-- Full/empty code of format M (R51). -/
inductive FullEmpty where
  | plain | sync | take
  deriving DecidableEq, Repr

/-- Rounding mode (R48, R59). -/
inductive Rounding where
  | rne | rtz | rup | rdn
  deriving DecidableEq, Repr

/-- Precision bit P of a scalar FP instruction (R48): 0 FP64, 1 FP32. -/
inductive Prec where
  | d | s
  deriving DecidableEq, Repr

/-- Branch condition (R49). -/
inductive Cond where
  | eq | ne | lt | ge | ltu | geu
  deriving DecidableEq, Repr

/-- The three engines of a scull (R55, R218). -/
inductive EngineId where
  | matrix | vector | copy
  deriving DecidableEq, Repr

/-- Barrier level (R55, R196). -/
inductive BarLevel where
  | cgrp | sgrp | crew
  deriving DecidableEq, Repr

/-- A memory operand of format M (R51): mode, base, index and offset. -/
structure MemRef where
  mode : Mode
  a : Reg
  b : Reg
  off : BitVec 18
  deriving DecidableEq, Repr

/-- What an access does, as the fault record codes it (R325). -/
inductive AccessKind where
  | load | store | atomic | fetch | fullEmpty | siphon
  deriving DecidableEq, Repr

/-- A master that accesses memory or can be frozen (R125, R386). -/
inductive Master where
  | context (sc : ScullId) (slot : Slot)
  | engine (sc : ScullId) (e : EngineId)
  | hart (h : HartId)
  | pcie (f : BitVec 8)
  | flow (f : BitVec 24)
  deriving DecidableEq, Repr

/-- The migration progress that a request carries: MPHASE and CHUNK as its agent last received them (R354). -/
structure Stamp where
  phase : BitVec 32
  chunk : BitVec 32
  s : Nat := 16
  fail : BitVec 4 := 0
  stkmap : List Nat := List.range 16
  deriving DecidableEq, Repr

/-- A LAUNCH from the host or a tool hart (R19): the crew it names, its target as in ga (R191), the entry and the two arguments. -/
structure OutsideLaunch where
  crew : CrewId
  target : Word
  entry : Word
  g1 : Word
  g2 : Word
  deriving DecidableEq, Repr

/-- Where an uncorrectable error is detected (R331, R333). -/
inductive ErrorSite where
  | reserveEntry (sc : ScullId) (index : Nat) (r : Reg)
  | wideRegister (sc : ScullId) (w : BitVec 5)
  | latchTile (sc : ScullId)
  | spadWord (sc : ScullId) (word : Nat)
  | memLine (pa : Nat)
  | cacheLine (node : Node) (line : Nat)
  | register (sc : ScullId) (slot : Slot) (r : Reg)
  | accumulator (sc : ScullId) (acc : BitVec 2)
  | tlbEntry (sc : ScullId) (index : Nat)
  | walkerEntry (shell : ShellId) (index : Nat)
  | coxMemory (shell : ShellId)
  | queueRing (q : QueueId)
  | chamberDescriptor (slot : ChamberSlot)
  | futureEntry (i : FutureIndex)
  | tagEntry (node : Node) (index : Nat)
  deriving DecidableEq, Repr

/-- A 96-bit descriptor of a nest record (R58): four signed strides and a base. -/
structure Descriptor where
  s3 : BitVec 16
  s2 : BitVec 16
  s1 : BitVec 16
  s0 : BitVec 16
  base : BitVec 32
  deriving DecidableEq, Repr

/-- A 512-bit nest record (R57) with its modifiers (R59) field by field. -/
structure Record where
  op : BitVec 16
  t3 : BitVec 16
  t2 : BitVec 16
  t1 : BitVec 16
  t0 : BitVec 16
  d3 : Descriptor
  d2 : Descriptor
  d1 : Descriptor
  d0 : Descriptor
  res : BitVec 1
  opx : BitVec 8
  spc3 : BitVec 2
  spc2 : BitVec 2
  spc1 : BitVec 2
  spc0 : BitVec 2
  fe3 : BitVec 2
  fe2 : BitVec 2
  fe1 : BitVec 2
  fe0 : BitVec 2
  scm : BitVec 2
  fmtd : BitVec 4
  fmtb : BitVec 4
  fmta : BitVec 4
  sat : BitVec 1
  rnd : BitVec 2
  semen : BitVec 1
  semn : BitVec 5
  deriving DecidableEq, Repr

/-- Who takes a step: the context or hart that issues the instruction, or what an event without operands of its own concerns. A message of the
coherence domain travels for an agent under its incarnation (R346), or is a request that carries its agent's progress (R354); a LAUNCH of the
host or of a tool hart comes with what it holds (R19). -/
inductive Actor where
  | none
  | context (sc : ScullId) (slot : Slot)
  | hart (h : HartId)
  | engine (sc : ScullId) (e : EngineId)
  | scull (sc : ScullId)
  | item (id : Nat)
  | chamber (slot : ChamberSlot)
  | future (i : FutureIndex)
  | agent (n : Node) (inc : BitVec 8)
  | request (p : Stamp)
  | outside (q : OutsideLaunch)
  deriving DecidableEq, Repr

/-- The rows of spec/opcode_table.json: the instructions of contexts (64-bit words, R55) and of tool harts (custom-1, R374),
the operations of nest records (R241 to R251, R262), and the machine's other indivisible steps, those
without fields last: their operand is the step's actor (State.actor). -/
inductive Instr where
  /-- R78. Writes the 64-bit sum of ga and gb to gd. -/
  | add (d a b : Reg)
  /-- R78. Writes ga minus gb, modulo 2^64, to gd. -/
  | sub (d a b : Reg)
  /-- R78. Writes the 32-bit sum of ga and gb, sign-extended, to gd. -/
  | addw (d a b : Reg)
  /-- R78. Writes the 32-bit difference of ga and gb, sign-extended, to gd. -/
  | subw (d a b : Reg)
  /-- R78. Writes the signed minimum of ga and gb to gd. -/
  | min (d a b : Reg)
  /-- R78. Writes the signed maximum of ga and gb to gd. -/
  | max (d a b : Reg)
  /-- R78. Writes the unsigned minimum of ga and gb to gd. -/
  | minu (d a b : Reg)
  /-- R78. Writes the unsigned maximum of ga and gb to gd. -/
  | maxu (d a b : Reg)
  /-- R78. Writes the absolute value of ga to gd; -2^63 gives itself. -/
  | abs (d a : Reg)
  /-- R79. Signed saturating add that sets CTX.FFLAGS.SAT when the result is clamped. -/
  | adds (d a b : Reg)
  /-- R79. Signed saturating subtract that sets CTX.FFLAGS.SAT when the result is clamped. -/
  | subs (d a b : Reg)
  /-- R83. Adds the sign-extended 36-bit immediate to ga. -/
  | addi (d a : Reg) (imm : BitVec 36)
  /-- R83. Adds the immediate to ga and writes the 32-bit result, sign-extended. -/
  | addwi (d a : Reg) (imm : BitVec 36)
  /-- R83. Bitwise AND of ga with the sign-extended immediate. -/
  | andi (d a : Reg) (imm : BitVec 36)
  /-- R83. Bitwise OR of ga with the sign-extended immediate. -/
  | ori (d a : Reg) (imm : BitVec 36)
  /-- R83. Bitwise XOR of ga with the sign-extended immediate. -/
  | xori (d a : Reg) (imm : BitVec 36)
  /-- R78. Writes the low 64 bits of ga times gb. -/
  | mul (d a b : Reg)
  /-- R78. Writes the high 64 bits of the signed product. -/
  | mulh (d a b : Reg)
  /-- R78. Writes the high 64 bits of the unsigned product. -/
  | mulhu (d a b : Reg)
  /-- R78. Writes the high 64 bits of signed ga times unsigned gb. -/
  | mulhsu (d a b : Reg)
  /-- R78. Writes the 32-bit product of the low halves, sign-extended. -/
  | mulw (d a b : Reg)
  /-- R81. Starts a signed 64-bit division whose quotient is written later; the context waits. -/
  | div (d a b : Reg)
  /-- R81. Starts an unsigned 64-bit division whose quotient is written later. -/
  | divu (d a b : Reg)
  /-- R81. Starts a signed 64-bit division whose remainder is written later. -/
  | rem (d a b : Reg)
  /-- R81. Starts an unsigned 64-bit division whose remainder is written later. -/
  | remu (d a b : Reg)
  /-- R81. Starts a signed 32-bit division whose quotient is written later, sign-extended. -/
  | divw (d a b : Reg)
  /-- R81. Starts an unsigned 32-bit division whose quotient is written later, sign-extended. -/
  | divuw (d a b : Reg)
  /-- R78. Bitwise AND of ga and gb. -/
  | and (d a b : Reg)
  /-- R78. Bitwise OR of ga and gb. -/
  | or (d a b : Reg)
  /-- R78. Bitwise XOR of ga and gb. -/
  | xor (d a b : Reg)
  /-- R78. Writes ga AND NOT gb. -/
  | andn (d a b : Reg)
  /-- R78. Writes ga OR NOT gb. -/
  | orn (d a b : Reg)
  /-- R78. Writes NOT (ga XOR gb). -/
  | xnor (d a b : Reg)
  /-- R80. Shifts ga left by gb[5:0]. -/
  | sll (d a b : Reg)
  /-- R80. Shifts ga right logically by gb[5:0]. -/
  | srl (d a b : Reg)
  /-- R80. Shifts ga right arithmetically by gb[5:0]. -/
  | sra (d a b : Reg)
  /-- R80. Rotates ga left by gb[5:0]. -/
  | rol (d a b : Reg)
  /-- R80. Rotates ga right by gb[5:0]. -/
  | ror (d a b : Reg)
  /-- R83. Shifts ga left by imm[5:0]. -/
  | slli (d a : Reg) (count : BitVec 6)
  /-- R83. Shifts ga right logically by imm[5:0]. -/
  | srli (d a : Reg) (count : BitVec 6)
  /-- R83. Shifts ga right arithmetically by imm[5:0]. -/
  | srai (d a : Reg) (count : BitVec 6)
  /-- R83. Rotates ga right by imm[5:0]. -/
  | rori (d a : Reg) (count : BitVec 6)
  /-- R87. Counts the leading zeros of ga; 64 for zero. -/
  | clz (d a : Reg)
  /-- R87. Counts the trailing zeros of ga; 64 for zero. -/
  | ctz (d a : Reg)
  /-- R87. Counts the one bits of ga. -/
  | popc (d a : Reg)
  /-- R87. Reverses the bit order of ga. -/
  | brev (d a : Reg)
  /-- R87. Reverses the byte order of ga. -/
  | bswap (d a : Reg)
  /-- R87. Sign-extends the low byte of ga. -/
  | sextb (d a : Reg)
  /-- R87. Sign-extends the low 16 bits of ga. -/
  | sextq (d a : Reg)
  /-- R87. Sign-extends the low 32 bits of ga. -/
  | sexth (d a : Reg)
  /-- R87. Zero-extends the low byte of ga. -/
  | zextb (d a : Reg)
  /-- R87. Zero-extends the low 16 bits of ga. -/
  | zextq (d a : Reg)
  /-- R87. Zero-extends the low 32 bits of ga. -/
  | zexth (d a : Reg)
  /-- R84. Extracts a bit field of ga and sign-extends it. -/
  | bfx (d a : Reg) (pos widthM1 : BitVec 6)
  /-- R84. Extracts a bit field of ga and zero-extends it. -/
  | bfxu (d a : Reg) (pos widthM1 : BitVec 6)
  /-- R84. Inserts the low bits of ga into a field of gd. -/
  | bfi (d a : Reg) (pos widthM1 : BitVec 6)
  /-- R85. Writes the sign-extended 43-bit immediate to gd. -/
  | movi (d : Reg) (imm : BitVec 43)
  /-- R85. Writes the immediate into gd[63:43] and keeps the lower bits. -/
  | movhi (d : Reg) (imm : BitVec 21)
  /-- R86. Writes pc plus a signed byte offset to gd. -/
  | addpc (d : Reg) (imm : BitVec 43)
  /-- R88. Builds a core-mode address from a crew index and an offset. -/
  | mkcore (d a b : Reg)
  /-- R95. Adds two FP values with one rounding. -/
  | fadd (d a b : Reg) (p : Prec) (rm : Rounding)
  /-- R95. Subtracts two FP values with one rounding. -/
  | fsub (d a b : Reg) (p : Prec) (rm : Rounding)
  /-- R95. Multiplies two FP values with one rounding. -/
  | fmul (d a b : Reg) (p : Prec) (rm : Rounding)
  /-- R95. Divides two FP values with one rounding, at fixed latency. -/
  | fdiv (d a b : Reg) (p : Prec) (rm : Rounding)
  /-- R95. Writes the rounded square root of ga. -/
  | fsqrt (d a : Reg) (p : Prec) (rm : Rounding)
  /-- R96. Writes the IEEE minimumNumber of ga and gb. -/
  | fmin (d a b : Reg) (p : Prec)
  /-- R96. Writes the IEEE maximumNumber of ga and gb. -/
  | fmax (d a b : Reg) (p : Prec)
  /-- R96. Clears the sign bit of ga. -/
  | fabs (d a : Reg) (p : Prec)
  /-- R96. Inverts the sign bit of ga. -/
  | fneg (d a : Reg) (p : Prec)
  /-- R95. Computes round(ga*gb + gc), fused. -/
  | fma (d a b c : Reg) (p : Prec) (rm : Rounding)
  /-- R95. Computes round(ga*gb - gc), fused. -/
  | fms (d a b c : Reg) (p : Prec) (rm : Rounding)
  /-- R95. Computes round(-(ga*gb) - gc), fused. -/
  | fnma (d a b c : Reg) (p : Prec) (rm : Rounding)
  /-- R95. Computes round(-(ga*gb) + gc), fused. -/
  | fnms (d a b c : Reg) (p : Prec) (rm : Rounding)
  /-- R97. Converts between FP32 and FP64. -/
  | fcvtff (d a : Reg) (p : Prec) (rm : Rounding)
  /-- R97. Converts FP to INT64 with saturation. -/
  | fcvtfi (d a : Reg) (p : Prec) (rm : Rounding)
  /-- R97. Converts FP to UINT64 with saturation. -/
  | fcvtfu (d a : Reg) (p : Prec) (rm : Rounding)
  /-- R97. Converts INT64 to FP with rounding. -/
  | fcvtif (d a : Reg) (p : Prec) (rm : Rounding)
  /-- R97. Converts UINT64 to FP with rounding. -/
  | fcvtuf (d a : Reg) (p : Prec) (rm : Rounding)
  /-- R98. Writes a one-hot mask that classifies ga. -/
  | fclass (d a : Reg) (p : Prec)
  /-- R99. Writes 1 when ga equals gb as FP values. -/
  | feq (d a b : Reg) (p : Prec)
  /-- R99. Writes 1 when ga is less than gb as FP values. -/
  | flt (d a b : Reg) (p : Prec)
  /-- R99. Writes 1 when ga is less than or equal to gb as FP values. -/
  | fle (d a b : Reg) (p : Prec)
  /-- R91. Compares ga with gb under the condition field and branches pc-relative when it holds. -/
  | b (cond : Cond) (a b : Reg) (off : BitVec 29)
  /-- R89. Sets gd when ga is less than gb, signed. -/
  | slt (d a b : Reg)
  /-- R89. Sets gd when ga is less than gb, unsigned. -/
  | sltu (d a b : Reg)
  /-- R89. Sets gd when ga equals gb. -/
  | seq (d a b : Reg)
  /-- R89. Sets gd when ga differs from gb. -/
  | sne (d a b : Reg)
  /-- R89. Sets gd when ga is less than the immediate, signed. -/
  | slti (d a : Reg) (imm : BitVec 36)
  /-- R89. Sets gd when ga is less than the immediate, unsigned. -/
  | sltui (d a : Reg) (imm : BitVec 36)
  /-- R89. Sets gd when ga equals the immediate. -/
  | seqi (d a : Reg) (imm : BitVec 36)
  /-- R92. Jumps pc-relative and links pc+8 into gd. -/
  | jl (d : Reg) (imm : BitVec 43)
  /-- R92. Jumps to ga plus an offset and links pc+8 into gd. -/
  | jlr (d a : Reg) (imm : BitVec 36)
  /-- R90. Writes ga when gc is nonzero, and gb otherwise. -/
  | sel (d a b c : Reg)
  /-- R162. Loads a zero-extended value, with optional sync or take F action and an optional overlap bit. -/
  | ld (d : Reg) (m : MemRef) (size : Size) (fe : FullEmpty) (ov : Bool)
  /-- R162. Loads a sign-extended value, with optional F action and overlap bit. -/
  | lds (d : Reg) (m : MemRef) (size : Size) (fe : FullEmpty) (ov : Bool)
  /-- R156. Acquire load at a scope, zero-extended. -/
  | ldAq (d : Reg) (m : MemRef) (size : Size) (scope : Scope)
  /-- R156. Acquire load at a scope, sign-extended. -/
  | ldsAq (d : Reg) (m : MemRef) (size : Size) (scope : Scope)
  /-- R163. Stores gd to memory, with optional sync or take F action and an optional overlap bit. -/
  | st (d : Reg) (m : MemRef) (size : Size) (fe : FullEmpty) (ov : Bool)
  /-- R156. Cumulative release store at a scope. -/
  | stRl (d : Reg) (m : MemRef) (size : Size) (scope : Scope)
  /-- R167. Reads the F bit of a scratchpad word. -/
  | fbrd (d : Reg) (m : MemRef)
  /-- R167. Sets the F bit of a scratchpad word full and wakes its waiters. -/
  | fbset (m : MemRef)
  /-- R167. Sets the F bit of a scratchpad word empty and wakes its waiters. -/
  | fbclr (m : MemRef)
  /-- R169. Joins the queue for a word's reservation and reads the word once this context holds it. -/
  | aqr (d : Reg) (m : MemRef)
  /-- R169. Writes the reserved word and hands the reservation to the next waiter. -/
  | arl (d : Reg) (m : MemRef)
  /-- R169. Releases the reservation without writing the word. -/
  | arc (m : MemRef)
  /-- R174. Atomic add at the home agent, returning the old value. -/
  | aadd (d a b : Reg) (off : BitVec 18) (size : AtomSize) (scope : Scope)
  /-- R174. Atomic AND at the home agent. -/
  | aand (d a b : Reg) (off : BitVec 18) (size : AtomSize) (scope : Scope)
  /-- R174. Atomic OR at the home agent. -/
  | aor (d a b : Reg) (off : BitVec 18) (size : AtomSize) (scope : Scope)
  /-- R174. Atomic XOR at the home agent. -/
  | axor (d a b : Reg) (off : BitVec 18) (size : AtomSize) (scope : Scope)
  /-- R174. Atomic signed minimum at the home agent. -/
  | amin (d a b : Reg) (off : BitVec 18) (size : AtomSize) (scope : Scope)
  /-- R174. Atomic signed maximum at the home agent. -/
  | amax (d a b : Reg) (off : BitVec 18) (size : AtomSize) (scope : Scope)
  /-- R174. Atomic unsigned minimum at the home agent. -/
  | aminu (d a b : Reg) (off : BitVec 18) (size : AtomSize) (scope : Scope)
  /-- R174. Atomic unsigned maximum at the home agent. -/
  | amaxu (d a b : Reg) (off : BitVec 18) (size : AtomSize) (scope : Scope)
  /-- R174. Atomic swap at the home agent. -/
  | aswp (d a b : Reg) (off : BitVec 18) (size : AtomSize) (scope : Scope)
  /-- R175. Atomic compare-and-swap at the home agent, taking the new value from gb. -/
  | acas (d a b : Reg) (off : BitVec 18) (size : AtomSize) (scope : Scope)
  /-- R177. Appends an INT64 add to the destination scull's deposit log. -/
  | depAdd (d : Reg) (m : MemRef)
  /-- R177. Appends an FP32 add deposit. -/
  | depFadds (d : Reg) (m : MemRef)
  /-- R177. Appends an FP64 add deposit. -/
  | depFaddd (d : Reg) (m : MemRef)
  /-- R177. Appends a signed-minimum deposit. -/
  | depMin (d : Reg) (m : MemRef)
  /-- R177. Appends a signed-maximum deposit. -/
  | depMax (d : Reg) (m : MemRef)
  /-- R177. Appends an OR deposit. -/
  | depOr (d : Reg) (m : MemRef)
  /-- R158. Probes the touched banks and drains global stores, ordering earlier accesses before later ones at a scope. -/
  | fence (scope : Scope)
  /-- R158. A fence probe reaches a bank behind the context's earlier accesses and echoes once they have performed. -/
  | fenceProbe (sc : ScullId) (slot : Slot) (target : ScullId)
  /-- R158. A probe echo returns to the fencing context; the last echo and the drain complete the fence. -/
  | fenceEcho (sc : ScullId) (slot : Slot) (target : ScullId)
  /-- R184. A producer claims a free siphon slot, waiting while FREE is 0. -/
  | sipw (d : Reg) (m : MemRef)
  /-- R184. A producer publishes its claimed slot in claim order. -/
  | sipp (d : Reg) (m : MemRef)
  /-- R184. A reader claims a filled slot, waiting while FILLED is 0. -/
  | sipr (d : Reg) (m : MemRef)
  /-- R184. A reader frees its oldest claimed slot. -/
  | sipf (m : MemRef)
  /-- R184. Initialises a siphon header from gd. -/
  | sipi (d : Reg) (m : MemRef)
  /-- R187. Sends gb to a link register of a context of the sender's crew. -/
  | send (k : BitVec 2) (a b : Reg)
  /-- R188. Reads a present link register and clears its presence, waiting while it is empty. -/
  | krd (d : Reg) (k : BitVec 2)
  /-- R188. Writes the presence bit of a link register. -/
  | ktst (d : Reg) (k : BitVec 2)
  /-- R191. Sends an active message that creates a context of the sender's crew on a scull or a chamber holder. -/
  | launch (d a b c e : Reg)
  /-- R194. Submits a crew packet directly to the launch unit. -/
  | claunch (d a : Reg)
  /-- R195. Waits until the deciding party's notice count differs from the one in a launch status. -/
  | lwait (a : Reg)
  /-- R198. Arrives at a barrier of the named level, with optional settle, after a fence at the level's scope. -/
  | bar (level : BarLevel) (settle : Bool)
  /-- R180. Once every member has arrived at a settling instance, each destination scull applies the crew's deposits in sorted order. -/
  | barrierSettle (crew : CrewId) (level : BarLevel) (group : Nat)
  /-- R198. Every member of the barrier instance becomes READY in one cycle. -/
  | barrierComplete (crew : CrewId) (level : BarLevel) (group : Nat)
  /-- R201. Takes one unit of a semaphore, waiting in arrival order while it is zero. -/
  | semp (n : BitVec 5)
  /-- R200. Adds one unit to a semaphore, saturating, and serves waiters. -/
  | semv (n : BitVec 5)
  /-- R200. Reads a semaphore count. -/
  | semrd (d : Reg) (n : BitVec 5)
  /-- R200. Sets a semaphore count and serves waiters. -/
  | semset (n : BitVec 5) (a : Reg)
  /-- R219. Binds an engine to the context, waiting or revoking as needed, and resets its registers. -/
  | ebind (e : EngineId)
  /-- R220. Unbinds an engine once its commands have completed and hands it to the next in its bind queue. -/
  | efree (e : EngineId)
  /-- R221. Posts a nest record to the matrix engine. -/
  | mpost (a : Reg) (off : BitVec 18)
  /-- R221. Posts a nest record to the vector engine. -/
  | vpost (a : Reg) (off : BitVec 18)
  /-- R221. Posts a nest record and global base to the copy engine. -/
  | cpost (d a : Reg) (off : BitVec 18)
  /-- R225. Waits until every command the context posted to the named engines has completed. -/
  | esync (mask : BitVec 3)
  /-- R227. Saves matrix engine state and accumulators to scratchpad once the queue is empty. -/
  | esaveM (a : Reg) (off : BitVec 18)
  /-- R227. Saves vector engine state to scratchpad once the queue is empty. -/
  | esaveV (a : Reg) (off : BitVec 18)
  /-- R227. Saves copy engine state to scratchpad once the queue is empty. -/
  | esaveC (a : Reg) (off : BitVec 18)
  /-- R227. Restores matrix engine state and accumulators from an image and clears LV. -/
  | erestoreM (a : Reg) (off : BitVec 18)
  /-- R227. Restores vector engine state from an image. -/
  | erestoreV (a : Reg) (off : BitVec 18)
  /-- R227. Checks the copy engine image signature and changes no register. -/
  | erestoreC (a : Reg) (off : BitVec 18)
  /-- R385. The endpoint decides an inbound fabric-write packet: refuse, freeze the flow, or deliver it to the window's scull. -/
  | fabricWritePacket (flow : BitVec 24) (window : BitVec 16) (offset : Nat) (data : List Word) (poisoned : Bool)
  /-- R386. A write to a send aperture is checked and joined into an outbound fabric-write packet. -/
  | apertureWrite (m : Master) (offset : Nat) (data : List Word)
  /-- R317. Creates a named chamber from a request block and returns a handle or a status. -/
  | cmake (d a b : Reg)
  /-- R317. Attaches the crew to a chamber by name, refilling or trapping on a miss, and acquires at a scope. -/
  | catt (d a b : Reg)
  /-- R317. Releases at a scope and detaches the crew from a chamber. -/
  | cdet (a b : Reg)
  /-- R317. Ends a chamber, making it DEAD. -/
  | cdrop (a : Reg)
  /-- R318. Writes a chamber's status word, or 0 when the name is not live. -/
  | cqry (d a : Reg)
  /-- R317. Starts eviction of a chamber and waits until it is EVICTED or DEAD. -/
  | cevt (a : Reg)
  /-- R362. Allocates an IDLE future entry with a lifetime. -/
  | falloc (d a : Reg)
  /-- R363. Arms a future with a call descriptor and queues the call to a local pool or sends it remotely. -/
  | fcall (a b c : Reg)
  /-- R364. Waits for a future to settle, optionally evicting the context. -/
  | fwait (d a : Reg) (evict : Bool)
  /-- R366. Writes a future's state word without waiting. -/
  | fpoll (d a : Reg)
  /-- R367. Commits a reply to a future from a scull. -/
  | fput (d a b : Reg)
  /-- R368. Frees or cancels a future according to its state. -/
  | fcan (d a : Reg)
  /-- R374. A tool hart waits for and takes the oldest queued call of its pools. -/
  | hfutTake (rd rs1 : BitVec 5)
  /-- R374. A tool hart reads its reply buffer and commits the reply. -/
  | hfutPut (rd rs1 rs2 : BitVec 5)
  /-- R374. A tool hart reads the state word of a future of any domain. -/
  | hfutPoll (rd rs1 : BitVec 5)
  /-- R374. A tool hart commits a failure slot with a reason. -/
  | hfutFail (rd rs1 rs2 : BitVec 5)
  /-- R387. A call message on a calls-in flow creates a proxy entry and queues it, or answers Fail. -/
  | remoteCallMessage (flow : BitVec 24) (handle deadline rtool : Word) (arg : List Byte)
  /-- R375. A reply message commits the named open entry as hfut.put does, or is discarded. -/
  | remoteReplyMessage (flow : BitVec 24) (handle : Word) (reply : List Byte)
  /-- R387. A fail message commits a failure for the named entry. -/
  | remoteFailMessage (flow : BitVec 24) (handle : Word) (reason : BitVec 16)
  /-- R387. A cancel message cancels the proxy unless it is committed. -/
  | remoteCancelMessage (flow : BitVec 24) (handle : Word)
  /-- R101. Reads a control register. -/
  | ctlr (d : Reg) (n : BitVec 16)
  /-- R102. Writes a control register field by field under its access codes. -/
  | ctlw (a : Reg) (n : BitVec 16)
  /-- R102. Sets bits of a control register and returns the old value. -/
  | ctls (d a : Reg) (n : BitVec 16)
  /-- R102. Clears bits of a control register and returns the old value. -/
  | ctlc (d a : Reg) (n : BitVec 16)
  /-- R117. Takes cause 0x0C with the 16-bit code as CTX.TVAL. -/
  | trap (code : BitVec 16)
  /-- R33. Retires the context naming a successor entry and keeps the crew's frames. -/
  | haltKeep (a : Reg)
  /-- R306. The cox writes the heartbeat-lost message into the supervisor's k3 once presence is clear. -/
  | heartbeatLostMessage (sc : ScullId) (crew : CrewId)
  /-- R121. Reads the global time counter. -/
  | rdgtc (d : Reg)
  /-- R122. Waits until GTC reaches a deadline. -/
  | waitt (d a : Reg)
  /-- R123. Invalidates one page of an ASID in every TLB of the package and waits for completion. -/
  | tlbi (a : Reg)
  /-- R123. Invalidates every entry of an ASID package-wide and waits for completion. -/
  | tlbiasid (a : Reg)
  /-- R123. A TLB reports its invalidation; the last report completes the issuer's wait. -/
  | tlbInvalidateReport (sc : ScullId) (slot : Slot) (agent : Nat)
  /-- R124. Loads a capability register from a scratchpad image. -/
  | capld (cap : BitVec 3) (a : Reg)
  /-- R124. Stores a capability register's image to scratchpad. -/
  | capst (cap : BitVec 3) (a : Reg)
  /-- R124. Clears a capability register. -/
  | capclr (cap : BitVec 3)
  /-- R330. Thaws a frozen master and reissues its failing access. -/
  | mthaw (d a : Reg)
  /-- R330. Kills a master: a context becomes FREE, an engine is unbound, a hart, function or flow is reset. -/
  | mkill (d a : Reg)
  /-- R326. The service advances FS.HEAD, freeing room for held records. -/
  | fsHeadWrite (v : BitVec 32)
  /-- R327. A RETRY verdict makes the dropped access reissue from translation. -/
  | verdictRetry (seq : BitVec 32)
  /-- R327. A FAIL verdict makes the dropped instruction trap with translation unresolvable, or stops a copy command. -/
  | verdictFail (seq : BitVec 32) (reason : BitVec 8)
  /-- R135. The cox marks a page UNPINNING and copies its image out. -/
  | pageUnpin (sc : ScullId) (crew : CrewId) (page : Nat)
  /-- R131. An unpinning page's accepted accesses have performed and its image is written; the page is PARKED. -/
  | pageParked (sc : ScullId) (crew : CrewId) (page : Nat)
  /-- R134. The cox finishes copying a page image into a frame, pins it and reissues the waiters in order. -/
  | pageRefillComplete (sc : ScullId) (crew : CrewId) (page : Nat)
  /-- R32. The cox resumes a HARVEST-PARKED context on a scull of its shell. -/
  | harvestResume (shell : ShellId)
  /-- R284. A whole 64-byte write to a queue window is enqueued at TAIL, held if the ring is full, or discarded. -/
  | queueWindowWrite (q : QueueId) (data : List Word)
  /-- R283. Writing STATE DISABLED sets HEAD to TAIL and discards pending and held packets. -/
  | queueDisable (q : QueueId)
  /-- R298. Writing STATE ENABLED resumes a queue, popping after the faulting packet. -/
  | queueEnable (q : QueueId)
  /-- R287. The commit reaches a member scull, which creates its contexts with their initial registers. -/
  | crewCommitArrival (crew : CrewId) (sc : ScullId)
  /-- R285. A marker packet starts no context and completes its task when started. -/
  | markerPacket (q : QueueId)
  /-- R295. The last context of a task retires: OUT decrements, the job counter steps and the host is signalled. -/
  | taskComplete (crew : CrewId)
  /-- R383. The host advances HS.HEAD, freeing room for held signals. -/
  | hsHeadWrite (v : BitVec 32)
  /-- R299. A PREEMPT control packet sets PPND in the crew's owner contexts or revokes a harvest crew. -/
  | preemptPacket (q : QueueId)
  /-- R300. Every page of a draining crew is parked and its deposits spilled; the crew is PREEMPTED and the status is written. -/
  | crewDrainComplete (crew : CrewId)
  /-- R304. A RESUME control packet reserves the crew and starts one context per HALT.KEEP acknowledgement. -/
  | resumePacket (q : QueueId)
  /-- R334. An uncorrectable cox memory error halts the cox and isolates its shell. -/
  | coxFailure (shell : ShellId)
  /-- R334. The runtime resets an isolated shell through the management port and marks it available. -/
  | shellReturnToService (shell : ShellId)
  /-- R333. An uncorrectable error is detected and the affected data is poisoned or the structure handled per table. -/
  | uncorrectableError (site : ErrorSite)
  /-- R333. A correctable error is corrected in place and counted. -/
  | correctableError (die : BitVec 4)
  /-- R342. A read request at the home is served from memory or forwarded to the list head. -/
  | cohRead (node : Node) (line : Nat) (inc : BitVec 8)
  /-- R342. A write or upgrade request makes the requester head in M and starts the invalidation walk. -/
  | cohWrite (node : Node) (line : Nat) (inc : BitVec 8)
  /-- R342. A forwarded request reaches the head, which supplies data and links the requester. -/
  | cohForward (node req : Node) (line : Nat) (write : Bool)
  /-- R342. An invalidation walk reaches a list member, which invalidates and passes it on. -/
  | cohInvalidateHop (node req : Node) (line : Nat)
  /-- R342. The tail's acknowledgement reaches the writer and the write completes. -/
  | cohInvalidateAck (req : Node) (line : Nat) (sender : Node) (inc : BitVec 8)
  /-- R344. The requester reports completion and the home closes the line's transaction. -/
  | cohCompletionReport (node : Node) (line : Nat) (inc : BitVec 8)
  /-- R343. An agent evicts a line, unlinking itself and writing back modified data. -/
  | cohEvict (node : Node) (line : Nat)
  /-- R343. A neighbour or the home receives an unlink message and repoints. -/
  | cohUnlink (dst : Option Node) (line : Nat) (sender : Node) (inc : BitVec 8) (side : Bool) (link : Option Node)
  /-- R345. A write-back reaches the home and is applied once prior transactions close. -/
  | cohWriteback (node : Node) (line : Nat) (inc : BitVec 8)
  /-- R345. The home's acknowledgement lets the agent unlink and free its leaving buffer entry. -/
  | cohWritebackAck (node : Node) (line : Nat)
  /-- R347. An agent declared dead is swept from every line list and its modified lines poisoned. -/
  | agentDeathSweep (node : Node)
  /-- R347. The runtime retires a caching agent through the management port. -/
  | agentRetire (node : Node)
  /-- R350. Writing MC.MEMCAP lowers or restores the HBM capacity and clears VACD. -/
  | memcapWrite (v : Word)
  /-- R350. Starts retirement of a logical stack, entering the swapping phase. -/
  | retire (f : BitVec 4)
  /-- R354. A home that no longer holds a granule replays the request to the right home. -/
  | hbmRequestReplay (pa : Nat) (phase chunk : BitVec 32)
  /-- R388. Writing GTC.STEP advances GTC in the next cycle and fires the deadlines it reaches. -/
  | gtcStep (v : BitVec 32)
  /-- R389. Average power or die temperature exceeds its limit and the engines are throttled. -/
  | powerThrottle (watts : Nat) (temps : List Nat)
  /-- R389. A die reaches 115 C: every scull is fenced, harts halt and an alarm is raised. -/
  | thermalTrip (die : BitVec 3)
  /-- R382. A write through a scull inspection window changes state of a FROZEN context. -/
  | inspectionWindowWrite (off : Nat) (v : Word)
  /-- R379. A write to a device register that has no behaviour of its own updates its fields. -/
  | registerWrite (off : Nat) (v : Word)
  /-- R374. A pending interrupt ends a tool hart's hfut.take wait with rd := 0 and no call taken. -/
  | hartInterrupt (h : HartId)
  /-- R373. A tool hart's load, store or fetch is checked against hcap0-hcap7 and freezes the hart when it fails. -/
  | hartAccess (h : HartId) (kind : AccessKind) (va : Word) (size : Nat)
  /-- R329. The context-frozen or copy-engine-frozen message is written into the supervisor's k3 once its presence is clear. -/
  | supervisorFreezeMessage (crew : CrewId) (copy : Bool) (slot : Slot) (sc : ScullId)
  /-- R388. A port timestamps a PTP event message with GTC under IEEE 1588-2019. -/
  | ptpEventMessage (port : BitVec 3)
  /-- R20. A launch message is decided at its scull in the cycle it arrives: accepted, refused or invalid. -/
  | activeMessageArrival
  /-- R82. A division finishes 10 to 40 cycles after issue, writes gd and returns its context to READY. -/
  | divideComplete
  /-- R175. The home agent applies an arriving atomic indivisibly and returns the old value. -/
  | atomicAtHome
  /-- R179. The cox spills the oldest deposit entries in blocks of 64 to the crew's backing area when more than 1,536 entries are occupied. -/
  | depositSpill
  /-- R152. A scratchpad access arrives at its bank and is applied or joins the word's wait queue. -/
  | scratchpadAccessArrival
  /-- R26. The result of an outstanding load or the acceptance of a store returns, writing the register and making the context READY. -/
  | accessResponse
  /-- R187. The target scull writes the link register and its presence bit once presence is clear. -/
  | sendDelivery
  /-- R187. The delivery report reaches the sender and ends its wait. -/
  | sendReport
  /-- R192. The launch status word returns to the sender and is written to gd. -/
  | launchStatusReturn
  /-- R21. An accepted context leaves STARTING once its clean window, frames and any revoked resources are granted. -/
  | contextStart
  /-- R31. Scrubbing of a dirty window or frame completes and returns it to the clean pool. -/
  | scrubComplete
  /-- R224. The engine starts its next queued command in the cycle after the previous one completes. -/
  | commandStart
  /-- R234. The sequencer issues a slice, beat or group element of the running command. -/
  | sequencerUnitIssue
  /-- R224. A command completes once all its elements and F actions have performed, signalling its semaphore and raising a pending trap. -/
  | commandComplete
  /-- R241. Vector elementwise add. -/
  | vadd
  /-- R241. Vector elementwise subtract. -/
  | vsub
  /-- R241. Vector elementwise multiply. -/
  | vmul
  /-- R241. Vector elementwise FP divide. -/
  | vdiv
  /-- R241. Vector fused multiply-add with one rounding. -/
  | vfma
  /-- R241. Vector elementwise minimum. -/
  | vmin
  /-- R241. Vector elementwise maximum. -/
  | vmax
  /-- R241. Vector absolute value. -/
  | vabs
  /-- R241. Vector negation. -/
  | vneg
  /-- R241. Vector square root. -/
  | vsqrt
  /-- R241. Vector correctly rounded reciprocal. -/
  | vrcp
  /-- R241. Vector scale by a power of two. -/
  | vscalb
  /-- R241. Vector round to integral value under RND. -/
  | vrint
  /-- R241. Vector bitwise AND. -/
  | vand
  /-- R241. Vector bitwise OR. -/
  | vor
  /-- R241. Vector bitwise XOR. -/
  | vxor
  /-- R241. Vector AND NOT. -/
  | vandn
  /-- R241. Vector shift left. -/
  | vshl
  /-- R241. Vector logical shift right. -/
  | vshr
  /-- R241. Vector arithmetic shift right. -/
  | vsra
  /-- R241. Vector population count. -/
  | vcnt
  /-- R242. Vector compare equal. -/
  | vceq
  /-- R242. Vector compare less than. -/
  | vclt
  /-- R242. Vector compare less than or equal. -/
  | vcle
  /-- R242. Vector select by a byte condition. -/
  | vsel
  /-- R243. Vector format conversion under RND and SAT. -/
  | vcvt
  /-- R244. Vector e to the power a. -/
  | vexp
  /-- R244. Vector 2 to the power a. -/
  | vexp2
  /-- R244. Vector natural logarithm. -/
  | vlog
  /-- R244. Vector base-2 logarithm. -/
  | vlog2
  /-- R244. Vector sine. -/
  | vsin
  /-- R244. Vector cosine. -/
  | vcos
  /-- R244. Vector hyperbolic tangent. -/
  | vtanh
  /-- R244. Vector reciprocal square root. -/
  | vrsqrt
  /-- R244. Vector logistic sigmoid. -/
  | vsigm
  /-- R245. Vector sum reduction by the fixed tree. -/
  | vrsum
  /-- R245. Vector minimum reduction. -/
  | vrmin
  /-- R245. Vector maximum reduction. -/
  | vrmax
  /-- R245. Vector AND reduction. -/
  | vrand
  /-- R245. Vector OR reduction. -/
  | vror
  /-- R245. Vector XOR reduction. -/
  | vrxor
  /-- R246. Complex butterfly writing x+y and x-y. -/
  | vbfly
  /-- R247. Complex multiply by a twiddle taken from the ROM. -/
  | vtwid
  /-- R246. Complex multiply with one rounding per component. -/
  | vcmul
  /-- R248. Unpacks ternary bytes into five trits each, recording bad codes. -/
  | vunp3
  /-- R249. Writes each element's linear index, converted to FMTD. -/
  | viota
  /-- R250. Copy engine element copy. -/
  | ccopy
  /-- R250. Copy engine gather through an index vector. -/
  | cgath
  /-- R250. Copy engine scatter through an index vector. -/
  | cscat
  /-- R250. Clears words to zero and sets them empty. -/
  | cclr
  /-- R250. Sets the F bits of words full without changing their data. -/
  | csetf
  /-- R251. Claims, writes and publishes whole siphon slots. -/
  | csipw
  /-- R251. Claims, copies out and frees whole siphon slots. -/
  | csipr
  /-- R250. Prefetches global bytes into the shell L2. -/
  | cpref
  /-- R271. Matrix product accumulated into an accumulator. -/
  | mmul
  /-- R271. Negated matrix product accumulated into an accumulator. -/
  | mmuln
  /-- R275. Loads a tile from scratchpad into an accumulator with conversion. -/
  | mlda
  /-- R276. Drains an accumulator tile to scratchpad with conversion. -/
  | mdrn
  /-- R277. Drains an accumulator tile into the A latch and sets LST. -/
  | mdrnBypass
  /-- R278. Adds one accumulator into another. -/
  | madda
  /-- R278. Zeroes the accumulators named in MASK. -/
  | mclr
  /-- R255. The copy engine applies an arriving fabric write word by word, sets F full, bumps FWCNT and signals its semaphore. -/
  | fabricWrite
  /-- R386. The far endpoint's acknowledgement of a packet makes its aperture writes perform at system scope. -/
  | fabricWriteAck
  /-- R386. An open outbound packet closes after 64 cycles without a continuing write. -/
  | aperturePacketTimeout
  /-- R313. The last frame of an evicting chamber is unpinned, leaving it EVICTED or, for DISCARD, DEAD. -/
  | chamberEvictComplete
  /-- R314. A refill finishes copying the images, the chamber becomes RESIDENT and waiting accesses reissue. -/
  | chamberRefillComplete
  /-- R315. GTC reaches a LEASE chamber's deadline and the chamber becomes DEAD. -/
  | chamberLeaseExpiry
  /-- R369. GTC reaches an uncommitted armed or pending entry's deadline and a timeout is committed. -/
  | futureTimeout
  /-- R370. The future table claims, writes and publishes one reply slot, waiting while FREE is 0. -/
  | futureSlotInject
  /-- R365. An evicted waiter is admitted back on its scull once its entry settles and resources allow. -/
  | fwaitEvictResume
  /-- R376. An uncorrectable error retires a future entry and fails its waiters. -/
  | futureEntryError
  /-- R34. Writing SC.KEEP.REL releases all kept frames of the scull. -/
  | keepRelease
  /-- R33. The keep timeout passes without a successor launch and the kept frames are released. -/
  | keepTimeout
  /-- R118. Returns from a handler to CTX.TPC and clears HND. -/
  | rte
  /-- R31. Retires the context once its engine queues and accesses have drained. -/
  | halt
  /-- R120. Clears the scull's heartbeat counter. -/
  | beat
  /-- R120. The heartbeat counter reaches the interval and the scull is fenced. -/
  | heartbeatMissed
  /-- R122. GTC reaches a waiting context's deadline and the context becomes READY. -/
  | waittDeadline
  /-- R143. The shell walker finishes a walk, filling the TLB or dropping the access with a fault record. -/
  | tlbWalkComplete
  /-- R145. A missing instruction word arrives and the fetching context may issue again. -/
  | ifetchMissFill
  /-- R326. The fault unit writes a record into its ring when there is room and signals the service. -/
  | faultRecordWrite
  /-- R37. A request for a resource held by a harvest context selects it and stops its issue, engines and registers. -/
  | revocation
  /-- R37. The frame write-back finishes and the resource passes to the requester. -/
  | revocationGrant
  /-- R39. Once outstanding loads complete, the cox moves a revoked context's image to its backing area and frees reserve banks. -/
  | harvestImageMove
  /-- R294. A harvest packet admits contexts on each member scull that meets R35. -/
  | harvestAdmission
  /-- R290. The launch unit picks the next eligible queue head by level and round robin and starts it. -/
  | launchUnitStart
  /-- R292. A member scull judges a crew reservation and agrees or refuses. -/
  | crewReservationRequest
  /-- R292. Every member has agreed and the launch unit commits, pops the packet and assigns a CREWID. -/
  | crewCommit
  /-- R292. A refusal or queue change withdraws every reservation and bumps the launch unit's notice count. -/
  | crewReservationWithdraw
  /-- R383. The device writes a signal record into the host ring and posts a user interrupt or MSI-X. -/
  | hostSignal
  /-- R301. A context with PPND is diverted at its next issue, saving its record and jumping to PREH. -/
  | preemptDiversion
  /-- R350. The vacate acknowledgement writes back lines above MEMCAP and waits for old accesses. -/
  | vack
  /-- R350. The vacate drain finishes and VACD is set. -/
  | vacateComplete
  /-- R351. Exchanges one chunk of rows between two stacks after its accepted requests perform. -/
  | swapChunk
  /-- R352. Moves one chunk of granules to the S-1 interleave after its accepted requests perform. -/
  | compactChunk
  /-- R390. The package boots from the hub ROM, verifies and applies the table and firmware, and sets ST. -/
  | reset
  /-- R393. The management port answers an SPDM request with signed measurements. -/
  | spdmRequest
  /-- R305. The runtime unfences a scull fenced after a missed heartbeat, through its cox. -/
  | scullUnfence
  /-- R369. A request reaches the future table, which serves one per cycle in arrival order and decides settlements against timeouts. -/
  | futureTableRequest
  /-- R319. A chamber request reaches the directory, which serves it in arrival order and answers the issuer. -/
  | chamberDirectoryRequest
  deriving DecidableEq, Repr

end Sys2Proof
end

