-- ==== Sys2Proof/Machine/Fp.lean ====
section
/-! DEFINITION. Floating-point values and arithmetic (R203 to R211): a value is read exactly, an operation is exact, and one rounding
delivers bits and flags. -/

namespace Sys2Proof.Machine

/-- How a format ends at its top exponent (R203). -/
inductive FpTop where
  | ieee | e4m3 | e2m1
  deriving DecidableEq, Repr

/-- A floating-point format (R203): exponent and fraction widths, bias, top, and the least exponent of a unit in the last place. -/
structure FpFmt where
  expBits : Nat
  fracBits : Nat
  bias : Int
  top : FpTop
  deriving DecidableEq, Repr

def fp64 : FpFmt := { expBits := 11, fracBits := 52, bias := 1023, top := .ieee }
def fp32 : FpFmt := { expBits := 8, fracBits := 23, bias := 127, top := .ieee }
def fp16 : FpFmt := { expBits := 5, fracBits := 10, bias := 15, top := .ieee }
def bf16 : FpFmt := { expBits := 8, fracBits := 7, bias := 127, top := .ieee }
def e5m2 : FpFmt := { expBits := 5, fracBits := 2, bias := 15, top := .ieee }
def e4m3 : FpFmt := { expBits := 4, fracBits := 3, bias := 7, top := .e4m3 }
def e2m1 : FpFmt := { expBits := 2, fracBits := 1, bias := 1, top := .e2m1 }

/-- A value read from a format: a NaN (signalling or not), an infinity, or (−1)^neg × man × 2^exp. -/
inductive FVal where
  | nan (signalling : Bool)
  | inf (neg : Bool)
  | fin (neg : Bool) (man : Nat) (exp : Int)
  deriving DecidableEq, Repr

/-! Flags, in the bit order of CTX.FFLAGS (R112, R210). -/
def flagNV : BitVec 5 := 16
def flagDZ : BitVec 5 := 8
def flagOF : BitVec 5 := 4
def flagUF : BitVec 5 := 2
def flagNX : BitVec 5 := 1

/-- The exponent of the unit in the last place of subnormals. -/
def FpFmt.qmin (f : FpFmt) : Int := 1 - f.bias - f.fracBits
/-- The exponent of the unit in the last place at the top, and the largest significand there (R203). -/
def FpFmt.qmax (f : FpFmt) : Int :=
  match f.top with
  | .ieee => (2 ^ f.expBits - 2 : Nat) - f.bias - f.fracBits
  | _ => (2 ^ f.expBits - 1 : Nat) - f.bias - f.fracBits
def FpFmt.manMax (f : FpFmt) : Nat :=
  match f.top with
  | .e4m3 => 2 ^ (f.fracBits + 1) - 2
  | _ => 2 ^ (f.fracBits + 1) - 1
def FpFmt.width (f : FpFmt) : Nat := 1 + f.expBits + f.fracBits
def FpFmt.signBit (f : FpFmt) (neg : Bool) : Nat := if neg then 2 ^ (f.expBits + f.fracBits) else 0

/-- The largest finite value's bits, without sign (R203). -/
def FpFmt.maxBits (f : FpFmt) : Nat :=
  match f.top with
  | .ieee => 2 ^ (f.expBits + f.fracBits) - 2 ^ f.fracBits - 1
  | .e4m3 => 2 ^ (f.expBits + f.fracBits) - 2
  | .e2m1 => 2 ^ (f.expBits + f.fracBits) - 1

/-- The canonical NaN (R203); E2M1, which has none, gives +0 (R204). -/
def FpFmt.nanBits (f : FpFmt) : Nat :=
  match f.top with
  | .ieee => 2 ^ (f.expBits + f.fracBits) - 2 ^ (f.fracBits - 1)
  | .e4m3 => 2 ^ (f.expBits + f.fracBits) - 1
  | .e2m1 => 0

/-- What an entry of ±∞ in the overflow table delivers (R209). -/
def FpFmt.infBits (f : FpFmt) (neg : Bool) : Nat :=
  match f.top with
  | .ieee => f.signBit neg + (2 ^ (f.expBits + f.fracBits) - 2 ^ f.fracBits)
  | .e4m3 => f.signBit neg + (2 ^ (f.expBits + f.fracBits) - 1)
  | .e2m1 => f.signBit neg + f.maxBits

/-- The value of a bit pattern (R203, R204). E5M2's NaNs are quiet. -/
def FpFmt.read (f : FpFmt) (bits : Nat) : FVal :=
  let neg := bits.testBit (f.expBits + f.fracBits)
  let e := bits / 2 ^ f.fracBits % 2 ^ f.expBits
  let m := bits % 2 ^ f.fracBits
  match f.top with
  | .ieee =>
    if e = 2 ^ f.expBits - 1 then
      if m = 0 then .inf neg else .nan (f.fracBits ≠ 2 && m < 2 ^ (f.fracBits - 1))
    else if e = 0 then .fin neg m f.qmin else .fin neg (m + 2 ^ f.fracBits) (f.qmin + e - 1)
  | .e4m3 =>
    if e = 2 ^ f.expBits - 1 ∧ m = 2 ^ f.fracBits - 1 then .nan false
    else if e = 0 then .fin neg m f.qmin else .fin neg (m + 2 ^ f.fracBits) (f.qmin + e - 1)
  | .e2m1 => if e = 0 then .fin neg m f.qmin else .fin neg (m + 2 ^ f.fracBits) (f.qmin + e - 1)

/-- Bits in a number: 0 for 0. -/
def bitLen (n : Nat) : Nat := if n = 0 then 0 else Nat.log2 n + 1

/-- man × 2^exp (plus less than one unit of man where sticky) divided by 2^q: the integer part, and how the rest compares with one
half: 0 nothing, 1 below, 2 a tie, 3 above. -/
def splitAt (man : Nat) (exp q : Int) (sticky : Bool) : Nat × Nat :=
  if q ≤ exp then (man * 2 ^ (exp - q).toNat, if sticky then 1 else 0)
  else
    let k := (q - exp).toNat
    if k > bitLen man + 1 then (0, if man = 0 ∧ !sticky then 0 else 1)
    else
      let rest := man % 2 ^ k
      let half := 2 ^ (k - 1)
      (man / 2 ^ k, if rest = 0 then (if sticky then 1 else 0) else if rest < half then 1
        else if rest = half then (if sticky then 3 else 2) else 3)

/-- Whether the magnitude rounds up (R209). -/
def roundsUp (rm : Rounding) (neg : Bool) (m rest : Nat) : Bool :=
  match rm with
  | .rne => rest = 3 || (rest = 2 && m % 2 = 1)
  | .rtz => false
  | .rup => rest ≠ 0 && !neg
  | .rdn => rest ≠ 0 && neg

/-- Which overflow entries are infinities (R209). -/
def overflowsToInf (rm : Rounding) (neg : Bool) : Bool :=
  match rm with
  | .rne => true | .rtz => false | .rup => !neg | .rdn => neg

/-- The delivery of an overflow (R209, R210). -/
def FpFmt.overflow (f : FpFmt) (rm : Rounding) (sat neg : Bool) : Nat × BitVec 5 :=
  (if !sat && overflowsToInf rm neg then f.infBits neg else f.signBit neg + f.maxBits, flagOF ||| flagNX)

/-- Tiny (R210): the value, rounded with an unbounded exponent range, is below the least normal value in magnitude. -/
def FpFmt.tiny (f : FpFmt) (rm : Rounding) (neg : Bool) (man : Nat) (exp : Int) (sticky : Bool) : Bool :=
  let p := f.fracBits + 1
  let qu : Int := exp + bitLen man - p
  let (u0, ur) := splitAt man exp qu sticky
  let u := if roundsUp rm neg u0 ur then u0 + 1 else u0
  qu < f.qmin && !(qu == f.qmin - 1 && u == 2 ^ p)

/-- round(x, mode, format) (R209, R210) of a nonzero magnitude man × 2^exp, sticky where a rest below one unit of man is left. -/
def FpFmt.roundFin (f : FpFmt) (rm : Rounding) (sat neg : Bool) (man : Nat) (exp : Int) (sticky : Bool) : Nat × BitVec 5 :=
  let p := f.fracBits + 1
  let qu : Int := exp + bitLen man - p
  let q := max qu f.qmin
  let (m0, rest) := splitAt man exp q sticky
  let m1 := if roundsUp rm neg m0 rest then m0 + 1 else m0
  let (m, q') := if m1 = 2 ^ p then (2 ^ (p - 1), q + 1) else (m1, q)
  if q' > f.qmax ∨ (q' = f.qmax ∧ m > f.manMax) then f.overflow rm sat neg
  else
    let inexact := rest ≠ 0
    let flags := (if inexact then flagNX else 0) ||| (if inexact ∧ f.tiny rm neg man exp sticky then flagUF else 0)
    (f.signBit neg + (q' - f.qmin).toNat * 2 ^ f.fracBits + m, flags)

/-- What an operation comes to before its rounding: a value, a rest below one unit, and flags already raised. -/
structure FOut where
  v : FVal
  sticky : Bool
  flags : BitVec 5
  deriving DecidableEq, Repr

/-- A value without rest or flags. -/
def exactly (v : FVal) : FOut := { v := v, sticky := false, flags := 0 }
/-- A NaN, with NV where nv. -/
def nanOut (nv : Bool) : FOut := { v := .nan false, sticky := false, flags := if nv then flagNV else 0 }

/-- Delivers a result in a format (R204, R209 to R211): canonical NaN, infinities (an overflow of their sign where the format has
none), signed zeros, or one rounding. -/
def FpFmt.deliver (f : FpFmt) (rm : Rounding) (sat : Bool) (o : FOut) : Nat × BitVec 5 :=
  match o.v with
  | .nan _ => (f.nanBits, if f.top = .e2m1 then o.flags ||| flagNV else o.flags)
  | .inf neg =>
    if f.top = .ieee then (f.infBits neg, o.flags)
    else let r := f.overflow rm sat neg; (r.1, o.flags ||| r.2)
  | .fin neg man exp =>
    if man = 0 ∧ !o.sticky then (f.signBit neg, o.flags)
    else let r := f.roundFin rm sat neg man exp o.sticky; (r.1, o.flags ||| r.2)

def FVal.isNan : FVal → Bool
  | .nan _ => true | _ => false
def FVal.isSnan : FVal → Bool
  | .nan s => s | _ => false
def FVal.flip : FVal → FVal
  | .nan s => .nan s | .inf n => .inf (!n) | .fin n m e => .fin (!n) m e
def FVal.isZero : FVal → Bool
  | .fin _ m _ => m == 0 | _ => false
def FVal.sign : FVal → Bool
  | .nan _ => false | .inf n => n | .fin n _ _ => n

/-- (−1)^neg × man. -/
def signedMan (neg : Bool) (man : Nat) : Int := if neg then -(man : Int) else man
/-- A finite value's significand at exponent e, e not above its own. -/
def scaledTo (neg : Bool) (man : Nat) (exp e : Int) : Int := signedMan neg (man * 2 ^ (exp - e).toNat)

/-- The exact sum of two finite values, with R209's sign for an exact zero. -/
def addFin (rm : Rounding) (nx : Bool) (mx : Nat) (ex : Int) (ny : Bool) (my : Nat) (ey : Int) : FVal :=
  if mx = 0 ∧ my = 0 then .fin (if nx = ny then nx else rm = .rdn) 0 0
  else if mx = 0 then .fin ny my ey
  else if my = 0 then .fin nx mx ex
  else
    let e := min ex ey
    let t := scaledTo nx mx ex e + scaledTo ny my ey e
    if t = 0 then .fin (rm = .rdn) 0 0 else .fin (t < 0) t.natAbs e

/-- x + y (R95, R210). -/
def fpAdd (rm : Rounding) (x y : FVal) : FOut :=
  if x.isNan ∨ y.isNan then nanOut (x.isSnan || y.isSnan)
  else match x, y with
    | .inf a, .inf b => if a = b then exactly (.inf a) else nanOut true
    | .inf a, _ => exactly (.inf a)
    | _, .inf b => exactly (.inf b)
    | .fin a m e, .fin b n g => exactly (addFin rm a m e b n g)
    | _, _ => nanOut false

def fpSub (rm : Rounding) (x y : FVal) : FOut := fpAdd rm x y.flip

/-- x × y, exact (R210). -/
def fpMul (x y : FVal) : FOut :=
  if x.isNan ∨ y.isNan then nanOut (x.isSnan || y.isSnan)
  else match x, y with
    | .fin a m e, .fin b n g => exactly (.fin (a != b) (m * n) (e + g))
    | _, _ => if x.isZero ∨ y.isZero then nanOut true else exactly (.inf (x.sign != y.sign))

/-- x × y + z, exact before the rounding; ∞ × 0 gives NaN with NV even beside a quiet NaN (R95). -/
def fpFma (rm : Rounding) (x y z : FVal) : FOut :=
  let invalid := match x, y with
    | .inf _, .fin _ m _ => m == 0
    | .fin _ m _, .inf _ => m == 0
    | _, _ => false
  if invalid then nanOut true
  else if x.isNan ∨ y.isNan ∨ z.isNan then nanOut (x.isSnan || y.isSnan || z.isSnan)
  else fpAdd rm (fpMul x y).v z

/-- x ÷ y (R95): enough quotient bits for one rounding, and whether a rest is left. DESIGN CHOICE (log 85): 0 / 0 and infinity / infinity, of which
R95 and R210 name neither result nor flag, deliver the canonical NaN with NV. -/
def fpDiv (x y : FVal) : FOut :=
  if x.isNan ∨ y.isNan then nanOut (x.isSnan || y.isSnan)
  else match x, y with
    | .inf _, .inf _ => nanOut true
    | .inf a, _ => exactly (.inf (a != y.sign))
    | _, .inf b => exactly (.fin (x.sign != b) 0 0)
    | .fin a m e, .fin b n g =>
      if n = 0 then
        if m = 0 then nanOut true else { v := .inf (a != b), sticky := false, flags := flagDZ }
      else if m = 0 then exactly (.fin (a != b) 0 0)
      else
        let k := bitLen n + 60
        { v := .fin (a != b) (m * 2 ^ k / n) (e - g - k), sticky := m * 2 ^ k % n ≠ 0, flags := 0 }
    | _, _ => nanOut false

/-- The integer square root, one bit of the root at a time from bit n − 1. -/
def isqrtFrom (x : Nat) : Nat → Nat → Nat
  | 0, r => r
  | n + 1, r => let t := r + 2 ^ n; isqrtFrom x n (if t * t ≤ x then t else r)
def isqrt (x : Nat) : Nat := isqrtFrom x (bitLen x / 2 + 1) 0

/-- √x (R95). -/
def fpSqrt (x : FVal) : FOut :=
  match x with
  | .nan s => nanOut s
  | .inf neg => if neg then nanOut true else exactly (.inf false)
  | .fin neg m e =>
    if m = 0 then exactly (.fin neg 0 0)
    else if neg then nanOut true
    else
      let k : Nat := if e % 2 = 0 then 120 else 121
      let n := m * 2 ^ k
      let r := isqrt n
      { v := .fin false r ((e - k) / 2), sticky := r * r ≠ n, flags := 0 }

/-- The order of two values that are not NaN: less, equal, greater, −0 equal to +0 (R99). -/
def fpCompare (x y : FVal) : Ordering :=
  let key : FVal → Int := fun v => match v with
    | .inf n => if n then -1 else 1
    | _ => 0
  match x, y with
  | .fin a m e, .fin b n g =>
    let q := min e g
    if m = 0 ∨ n = 0 then compare (signedMan a m) (signedMan b n) else compare (scaledTo a m e q) (scaledTo b n g q)
  | _, _ => compare (key x) (key y)

def fpEq (x y : FVal) : Bool := !x.isNan && !y.isNan && fpCompare x y == .eq
def fpLt (x y : FVal) : Bool := !x.isNan && !y.isNan && fpCompare x y == .lt
def fpLe (x y : FVal) : Bool := !x.isNan && !y.isNan && fpCompare x y != .gt

/-- minimumNumber and maximumNumber with −0 below +0 (R96): which operand is delivered, none for the canonical NaN. -/
def fpPickMin (x y : FVal) : Option Bool :=
  if x.isNan ∧ y.isNan then none
  else if x.isNan then some false
  else if y.isNan then some true
  else match fpCompare x y with
    | .lt => some true
    | .gt => some false
    | .eq => some x.sign
def fpPickMax (x y : FVal) : Option Bool :=
  if x.isNan ∧ y.isNan then none
  else if x.isNan then some false
  else if y.isNan then some true
  else match fpCompare x y with
    | .gt => some true
    | .lt => some false
    | .eq => some (!x.sign)

/-- A finite value rounded to an integer, and whether it was inexact. -/
def roundInt (rm : Rounding) (neg : Bool) (man : Nat) (exp : Int) : Int × Bool :=
  let (m0, rest) := splitAt man exp 0 false
  (signedMan neg (if roundsUp rm neg m0 rest then m0 + 1 else m0), rest ≠ 0)

/-- FP → integer with bounds lo and hi (R97, R211). -/
def fpToInt (rm : Rounding) (lo hi : Int) (x : FVal) : Int × BitVec 5 :=
  match x with
  | .nan _ => (hi, flagNV)
  | .inf neg => (if neg then lo else hi, flagNV)
  | .fin neg m e =>
    if e > 100 ∧ m ≠ 0 then (if neg then lo else hi, flagNV)
    else
      let r := roundInt rm neg m e
      if r.1 < lo then (lo, flagNV) else if r.1 > hi then (hi, flagNV)
      else (r.1, if r.2 then flagNX else 0)

/-- An integer as a value. -/
def intVal (x : Int) : FVal := .fin (x < 0) x.natAbs 0

/-- A value rounded to an integral value (VRINT, R241): NX when it changes. -/
def fpRint (rm : Rounding) (x : FVal) : FOut :=
  match x with
  | .nan s => nanOut s
  | .inf n => exactly (.inf n)
  | .fin neg m e =>
    if e ≥ 0 then exactly x
    else
      let r := roundInt rm neg m e
      { v := .fin neg r.1.natAbs 0, sticky := false, flags := if r.2 then flagNX else 0 }

/-- FCLASS's bit (R98). -/
def FpFmt.classOf (f : FpFmt) (bits : Nat) : Nat :=
  match f.read bits with
  | .inf neg => if neg then 0 else 7
  | .nan s => if s then 8 else 9
  | .fin neg m e =>
    if m = 0 then (if neg then 3 else 4)
    else if e = f.qmin ∧ m < 2 ^ f.fracBits then (if neg then 2 else 5)
    else (if neg then 1 else 6)

end Sys2Proof.Machine
end

