-- ==== Sys2Proof/WellFormed.lean ====
section
/-! DEFINITION. Which instructions the manual gives words to (R48 to R55, R84, R104, R115, R228), and which events name something the
package has (R1, R127, R130, R339). -/

namespace Sys2Proof

/-- The scratchpad modes of R52. -/
def Mode.scratchpad (m : Mode) : Bool := m != .glb

/-- The control-register numbers R104, R115 and R228 assign. -/
def ctlAssigned (n : BitVec 16) : Bool :=
  n.toNat ≤ 0x000D || (0x0100 ≤ n.toNat && n.toNat ≤ 0x0105) || n == 0x0200 || n == 0x0201 || n == 0x0210
    || n == 0x0211 || n == 0x0220

/-- R52, LD, LDS and ST: a full/empty access is of size .w in a scratchpad mode. -/
def fullEmptyForm (m : MemRef) (size : Size) (fe : FullEmpty) : Bool :=
  fe == .plain || (size == .w && m.mode.scratchpad)

/-- An assigned coherence node (R339). -/
def nodeAssigned (n : Node) : Bool := n.toNat ≤ 257

namespace Instr

/-- The conditions of R52, R55 and R84 on the fields of an instruction, and the ranges of an event's operands. -/
def wellFormed : Instr → Bool
  | .ld _ m size fe _ | .lds _ m size fe _ | .st _ m size fe _ => fullEmptyForm m size fe
  | .ldAq _ _ _ scope | .ldsAq _ _ _ scope | .stRl _ _ _ scope => scope != .plain
  | .fbrd _ m | .fbset m | .fbclr m => m.mode.scratchpad
  | .aqr _ m | .arl _ m | .arc m => m.mode.scratchpad
  | .depAdd _ m | .depFadds _ m | .depFaddd _ m | .depMin _ m | .depMax _ m | .depOr _ m => m.mode.scratchpad
  | .sipw _ m | .sipp _ m | .sipr _ m | .sipf m | .sipi _ m => m.mode.scratchpad
  | .fence scope => scope != .plain
  | .esync mask => mask != 0
  | .bar level settle => !settle || level == .crew
  | .bfx _ _ pos wm1 | .bfxu _ _ pos wm1 | .bfi _ _ pos wm1 => pos.toNat + wm1.toNat + 1 ≤ 64
  | .ctlr _ n | .ctlw _ n | .ctls _ _ n | .ctlc _ _ n => ctlAssigned n
  | .pageUnpin _ _ v | .pageParked _ _ v | .pageRefillComplete _ _ v => v < 96
  | .correctableError die => die.toNat ≤ 8
  | .cohRead n _ _ | .cohWrite n _ _ | .cohCompletionReport n _ _ | .cohWriteback n _ _ => nodeAssigned n
  | .cohForward n r _ _ | .cohInvalidateHop n r _ => nodeAssigned n && nodeAssigned r
  | .cohInvalidateAck r _ s _ => nodeAssigned r && nodeAssigned s
  | .cohEvict n _ | .cohWritebackAck n _ | .agentDeathSweep n | .agentRetire n => nodeAssigned n
  | .hartAccess _ _ _ size => size == 1 || size == 2 || size == 4 || size == 8
  | .uncorrectableError (.spadWord _ w) => w < 49152
  | _ => true

end Instr
end Sys2Proof
end

