-- ==== Sys2Proof/Decode.lean ====
section
/-! DEFINITION. The words of the instructions (R45 to R55), the custom-1 words of a tool hart (R374) and the 512-bit nest records
(R57 to R59): the decoder, total on any word and rejecting by name (R56 step 1), and the encoder. -/

namespace Sys2Proof

/-- Why R56 step 1 calls a word illegal. -/
inductive DecodeError where
  | majorZero | majorUnassigned | minorUnassigned | reserved | illegalCode | accessForm | ctlUnassigned | notCustom1
  deriving DecidableEq, Repr

/-- What the decoder answers. -/
abbrev Decoded := Except DecodeError Instr

/-! ### Fields (R45, R46) -/

def majorOf (w : Word) : BitVec 8 := w.extractLsb' 56 8
def minorOf (w : Word) : BitVec 6 := w.extractLsb' 50 6
def fieldD (w : Word) : Reg := w.extractLsb' 43 7
def fieldA (w : Word) : Reg := w.extractLsb' 36 7
def fieldB (w : Word) : Reg := w.extractLsb' 29 7
def fieldC (w : Word) : Reg := w.extractLsb' 22 7
def fieldE (w : Word) : Reg := w.extractLsb' 15 7
def fieldFn (w : Word) : BitVec 15 := w.extractLsb' 0 15
def fieldImm36 (w : Word) : BitVec 36 := w.extractLsb' 0 36
def fieldImm43 (w : Word) : BitVec 43 := w.extractLsb' 0 43
def fieldOff29 (w : Word) : BitVec 29 := w.extractLsb' 0 29
def fieldOff18 (w : Word) : BitVec 18 := w.extractLsb' 0 18
def fieldMode (w : Word) : BitVec 3 := w.extractLsb' 26 3
def fieldScope (w : Word) : BitVec 3 := w.extractLsb' 23 3
def fieldSize (w : Word) : BitVec 2 := w.extractLsb' 21 2
def fieldFe (w : Word) : BitVec 2 := w.extractLsb' 19 2
def fieldOv (w : Word) : BitVec 1 := w.extractLsb' 18 1
def fieldResE (w : Word) : BitVec 18 := w.extractLsb' 18 18

def wordA (maj : BitVec 8) (min : BitVec 6) (d a b c e : Reg) (fn : BitVec 15) : Word :=
  maj ++ min ++ d ++ a ++ b ++ c ++ e ++ fn
def wordI (maj : BitVec 8) (min : BitVec 6) (d a : Reg) (imm : BitVec 36) : Word := maj ++ min ++ d ++ a ++ imm
def wordL (maj : BitVec 8) (min : BitVec 6) (d : Reg) (imm : BitVec 43) : Word := maj ++ min ++ d ++ imm
def wordB (maj : BitVec 8) (min : BitVec 6) (cond a b : Reg) (off : BitVec 29) : Word :=
  maj ++ min ++ cond ++ a ++ b ++ off
def wordM (maj : BitVec 8) (min : BitVec 6) (d a b : Reg) (mode scope : BitVec 3) (size fe : BitVec 2) (ov : BitVec 1)
    (off : BitVec 18) : Word :=
  maj ++ min ++ d ++ a ++ b ++ mode ++ scope ++ size ++ fe ++ ov ++ off
def wordE (maj : BitVec 8) (min : BitVec 6) (d a : Reg) (off : BitVec 18) : Word :=
  maj ++ min ++ d ++ a ++ (0 : BitVec 18) ++ off
/-- Format S has the layout of format I, with sys in place of imm (R46). -/
def wordS (maj : BitVec 8) (min : BitVec 6) (d a : Reg) (sys : BitVec 36) : Word := wordI maj min d a sys

/-! ### Codes (R48, R49, R51, R55) -/

def Mode.code : Mode → BitVec 3
  | .loc => 0 | .core => 1 | .shl => 2 | .crw => 3 | .glb => 4 | .chm => 5
def Mode.ofCode (c : BitVec 3) : Option Mode :=
  match c.toNat with
  | 0 => some .loc | 1 => some .core | 2 => some .shl | 3 => some .crw | 4 => some .glb | 5 => some .chm | _ => none
def Scope.code : Scope → BitVec 3
  | .plain => 0 | .core => 1 | .shell => 2 | .die => 3 | .package => 4 | .system => 5
def Scope.ofCode (c : BitVec 3) : Option Scope :=
  match c.toNat with
  | 0 => some .plain | 1 => some .core | 2 => some .shell | 3 => some .die | 4 => some .package | 5 => some .system
  | _ => none
def Size.code : Size → BitVec 2
  | .b => 0 | .q => 1 | .h => 2 | .w => 3
def Size.ofCode (c : BitVec 2) : Size :=
  match c.toNat with
  | 0 => .b | 1 => .q | 2 => .h | _ => .w
def AtomSize.code : AtomSize → BitVec 2
  | .h => 2 | .w => 3
def AtomSize.ofCode (c : BitVec 2) : Option AtomSize :=
  match c.toNat with
  | 2 => some .h | 3 => some .w | _ => none
def FullEmpty.code : FullEmpty → BitVec 2
  | .plain => 0 | .sync => 1 | .take => 2
def FullEmpty.ofCode (c : BitVec 2) : Option FullEmpty :=
  match c.toNat with
  | 0 => some .plain | 1 => some .sync | 2 => some .take | _ => none
def Rounding.code : Rounding → BitVec 3
  | .rne => 0 | .rtz => 1 | .rup => 2 | .rdn => 3
def Rounding.ofCode (c : BitVec 3) : Option Rounding :=
  match c.toNat with
  | 0 => some .rne | 1 => some .rtz | 2 => some .rup | 3 => some .rdn | _ => none
def Prec.code : Prec → BitVec 1
  | .d => 0 | .s => 1
def Prec.ofCode (c : BitVec 1) : Prec := if c = 0 then .d else .s
def Cond.code : Cond → Reg
  | .eq => 0 | .ne => 1 | .lt => 2 | .ge => 3 | .ltu => 4 | .geu => 5
def Cond.ofCode (c : Reg) : Option Cond :=
  match c.toNat with
  | 0 => some .eq | 1 => some .ne | 2 => some .lt | 3 => some .ge | 4 => some .ltu | 5 => some .geu | _ => none
def EngineId.code : EngineId → BitVec 2
  | .matrix => 0 | .vector => 1 | .copy => 2
def EngineId.ofCode (c : BitVec 2) : Option EngineId :=
  match c.toNat with
  | 0 => some .matrix | 1 => some .vector | 2 => some .copy | _ => none
def BarLevel.code : BarLevel → BitVec 2
  | .cgrp => 0 | .sgrp => 1 | .crew => 2
def BarLevel.ofCode (c : BitVec 2) : Option BarLevel :=
  match c.toNat with
  | 0 => some .cgrp | 1 => some .sgrp | 2 => some .crew | _ => none

/-! ### The formats' readers: reserved fields are zero (R47, R53, R54) -/

/-- Answers when a reserved part is zero. -/
def zeroed (z : Bool) (r : Decoded) : Decoded := if z then r else .error .reserved

/-- Answers when the instruction is one the manual gives the word to (R52, R55, R84, R104). -/
def formed (e : DecodeError) (i : Instr) : Decoded := if i.wellFormed then .ok i else .error e

/-- A code of a field, refused as R56 step 1 refuses a code marked illegal. -/
def coded {α : Type} (c : Option α) (k : α → Decoded) : Decoded :=
  match c with
  | some x => k x
  | none => .error .illegalCode

def readDAB (w : Word) (k : Reg → Reg → Reg → Instr) : Decoded :=
  zeroed (fieldC w == 0 && fieldE w == 0 && fieldFn w == 0) (.ok (k (fieldD w) (fieldA w) (fieldB w)))
def readDA (w : Word) (k : Reg → Reg → Instr) : Decoded :=
  zeroed (fieldB w == 0 && fieldC w == 0 && fieldE w == 0 && fieldFn w == 0) (.ok (k (fieldD w) (fieldA w)))
def readA (w : Word) (k : Reg → Instr) : Decoded :=
  zeroed (fieldD w == 0 && fieldB w == 0 && fieldC w == 0 && fieldE w == 0 && fieldFn w == 0) (.ok (k (fieldA w)))
def readAB (w : Word) (k : Reg → Reg → Instr) : Decoded :=
  zeroed (fieldD w == 0 && fieldC w == 0 && fieldE w == 0 && fieldFn w == 0) (.ok (k (fieldA w) (fieldB w)))
def readI (w : Word) (k : Reg → Reg → BitVec 36 → Instr) : Decoded := .ok (k (fieldD w) (fieldA w) (fieldImm36 w))
def readShift (w : Word) (k : Reg → Reg → BitVec 6 → Instr) : Decoded :=
  zeroed (w.extractLsb' 6 30 == 0) (.ok (k (fieldD w) (fieldA w) (w.extractLsb' 0 6)))
def readField (w : Word) (k : Reg → Reg → BitVec 6 → BitVec 6 → Instr) : Decoded :=
  zeroed (w.extractLsb' 12 24 == 0)
    (formed .illegalCode (k (fieldD w) (fieldA w) (w.extractLsb' 0 6) (w.extractLsb' 6 6)))
def readL (w : Word) (k : Reg → BitVec 43 → Instr) : Decoded := .ok (k (fieldD w) (fieldImm43 w))

/-- The fn field of a scalar FP instruction (R48): bits 14:4 reserved. -/
def fpFn (p : Prec) (rm : Rounding) : BitVec 15 := (0 : BitVec 11) ++ p.code ++ rm.code
def fpReserved (w : Word) : Bool := w.extractLsb' 4 11 == 0
def fpPrec (w : Word) : Prec := Prec.ofCode (w.extractLsb' 3 1)
def readFp (w : Word) (z : Bool) (k : Prec → Rounding → Instr) : Decoded :=
  zeroed (z && fpReserved w) (coded (Rounding.ofCode (w.extractLsb' 0 3)) fun rm => .ok (k (fpPrec w) rm))
/-- The FP instructions that do not round: RM must be 000 (R48). -/
def readFpExact (w : Word) (z : Bool) (k : Prec → Instr) : Decoded :=
  zeroed (z && fpReserved w && w.extractLsb' 0 3 == 0) (.ok (k (fpPrec w)))

/-- The memory operand of format M (R51). -/
def memRef (w : Word) (mode : Mode) : MemRef :=
  { mode := mode, a := fieldA w, b := fieldB w, off := fieldOff18 w }

/-- LD, LDS and ST (R52): scope 000. -/
def readLoadStore (w : Word) (k : Reg → MemRef → Size → FullEmpty → Bool → Instr) : Decoded :=
  coded (Mode.ofCode (fieldMode w)) fun mode => coded (FullEmpty.ofCode (fieldFe w)) fun fe =>
    coded (Scope.ofCode (fieldScope w)) fun scope =>
      if scope = .plain then
        formed .accessForm (k (fieldD w) (memRef w mode) (Size.ofCode (fieldSize w)) fe (fieldOv w == 1))
      else .error .accessForm
/-- LD.AQ, LDS.AQ and ST.RL (R52): fe 00, ov 0. -/
def readOrdered (w : Word) (k : Reg → MemRef → Size → Scope → Instr) : Decoded :=
  coded (Mode.ofCode (fieldMode w)) fun mode => coded (Scope.ofCode (fieldScope w)) fun scope =>
    if fieldFe w = 0 && fieldOv w = 0 then
      formed .accessForm (k (fieldD w) (memRef w mode) (Size.ofCode (fieldSize w)) scope)
    else .error .accessForm
/-- The scratchpad groups of R52: size as given, fe 00, scope 000, ov 0. -/
def readScratch (w : Word) (size : Size) (k : MemRef → Instr) : Decoded :=
  coded (Mode.ofCode (fieldMode w)) fun mode =>
    if fieldSize w = size.code && fieldFe w = 0 && fieldScope w = 0 && fieldOv w = 0 then
      formed .accessForm (k (memRef w mode))
    else .error .accessForm
def readScratchD (w : Word) (size : Size) (k : Reg → MemRef → Instr) : Decoded :=
  readScratch w size (k (fieldD w))
def readScratch0 (w : Word) (k : MemRef → Instr) : Decoded :=
  zeroed (fieldD w == 0) (readScratch w .w k)
/-- The global atomics (R52, R174). -/
def readAtomic (w : Word) (k : Reg → Reg → Reg → BitVec 18 → AtomSize → Scope → Instr) : Decoded :=
  coded (AtomSize.ofCode (fieldSize w)) fun size => coded (Scope.ofCode (fieldScope w)) fun scope =>
    if fieldMode w = Mode.glb.code && fieldFe w = 0 && fieldOv w = 0 then
      .ok (k (fieldD w) (fieldA w) (fieldB w) (fieldOff18 w) size scope)
    else .error .accessForm
/-- FENCE (R52): every field but the scope is zero. -/
def readFence (w : Word) : Decoded :=
  coded (Scope.ofCode (fieldScope w)) fun scope =>
    zeroed (fieldD w == 0 && fieldA w == 0 && fieldB w == 0 && fieldOff18 w == 0)
      (if fieldMode w = 0 && fieldSize w = 0 && fieldFe w = 0 && fieldOv w = 0 then formed .accessForm (.fence scope)
       else .error .accessForm)
/-- Format E with d = 0 (R53). -/
def readRecord (w : Word) (k : Reg → BitVec 18 → Instr) : Decoded :=
  zeroed (fieldD w == 0 && fieldResE w == 0) (.ok (k (fieldA w) (fieldOff18 w)))
/-- Link-register number in fn[1:0] (R186). -/
def readLink (w : Word) (z : Bool) (k : BitVec 2 → Instr) : Decoded :=
  zeroed (z && fieldC w == 0 && fieldE w == 0 && w.extractLsb' 2 13 == 0) (.ok (k (w.extractLsb' 0 2)))
/-- Semaphore number in fn[4:0] (R200). -/
def readSem (w : Word) (z : Bool) (k : BitVec 5 → Instr) : Decoded :=
  zeroed (z && fieldB w == 0 && fieldC w == 0 && fieldE w == 0 && w.extractLsb' 5 10 == 0) (.ok (k (w.extractLsb' 0 5)))
/-- The five register fields are zero. -/
def noRegs (w : Word) : Bool := fieldD w == 0 && fieldA w == 0 && fieldB w == 0 && fieldC w == 0 && fieldE w == 0
/-- Format S with sys = 0 (R54). -/
def readSys (w : Word) (z : Bool) (i : Instr) : Decoded := zeroed (z && fieldImm36 w == 0) (.ok i)
/-- The CTL instructions (R101): the number in sys[15:0]. -/
def readCtl (w : Word) (z : Bool) (k : BitVec 16 → Instr) : Decoded :=
  zeroed (z && w.extractLsb' 16 20 == 0) (formed .ctlUnassigned (k (w.extractLsb' 0 16)))
/-- A capability number in field d, 0 to 7 (R124). -/
def readCap (w : Word) (z : Bool) (k : BitVec 3 → Instr) : Decoded :=
  if (fieldD w).toNat < 8 then readSys w z (k (w.extractLsb' 43 3)) else .error .illegalCode

/-! ### The opcode map (R55) -/

/-- Majors 0x01 to 0x0C: integer instructions. -/
def decodeInteger (maj min : Nat) (w : Word) : Decoded :=
  match maj with
  | 0x01 => match min with
    | 0x00 => readDAB w .add | 0x01 => readDAB w .sub | 0x02 => readDAB w .addw | 0x03 => readDAB w .subw
    | 0x04 => readDAB w .min | 0x05 => readDAB w .max | 0x06 => readDAB w .minu | 0x07 => readDAB w .maxu
    | 0x08 => readDA w .abs | 0x09 => readDAB w .adds | 0x0A => readDAB w .subs | _ => .error .minorUnassigned
  | 0x02 => match min with
    | 0x00 => readI w .addi | 0x01 => readI w .addwi | 0x02 => readI w .andi | 0x03 => readI w .ori
    | 0x04 => readI w .xori | _ => .error .minorUnassigned
  | 0x03 => match min with
    | 0x00 => readDAB w .mul | 0x01 => readDAB w .mulh | 0x02 => readDAB w .mulhu | 0x03 => readDAB w .mulhsu
    | 0x04 => readDAB w .mulw | _ => .error .minorUnassigned
  | 0x04 => match min with
    | 0x00 => readDAB w .div | 0x01 => readDAB w .divu | 0x02 => readDAB w .rem | 0x03 => readDAB w .remu
    | 0x04 => readDAB w .divw | 0x05 => readDAB w .divuw | _ => .error .minorUnassigned
  | 0x05 => match min with
    | 0x00 => readDAB w .and | 0x01 => readDAB w .or | 0x02 => readDAB w .xor | 0x03 => readDAB w .andn
    | 0x04 => readDAB w .orn | 0x05 => readDAB w .xnor | _ => .error .minorUnassigned
  | 0x06 => match min with
    | 0x00 => readDAB w .sll | 0x01 => readDAB w .srl | 0x02 => readDAB w .sra | 0x03 => readDAB w .rol
    | 0x04 => readDAB w .ror | _ => .error .minorUnassigned
  | 0x07 => match min with
    | 0x00 => readShift w .slli | 0x01 => readShift w .srli | 0x02 => readShift w .srai | 0x03 => readShift w .rori
    | _ => .error .minorUnassigned
  | 0x08 => match min with
    | 0x00 => readDA w .clz | 0x01 => readDA w .ctz | 0x02 => readDA w .popc | 0x03 => readDA w .brev
    | 0x04 => readDA w .bswap | 0x05 => readDA w .sextb | 0x06 => readDA w .sextq | 0x07 => readDA w .sexth
    | 0x08 => readDA w .zextb | 0x09 => readDA w .zextq | 0x0A => readDA w .zexth | _ => .error .minorUnassigned
  | 0x09 => match min with
    | 0x00 => readField w .bfx | 0x01 => readField w .bfxu | 0x02 => readField w .bfi | _ => .error .minorUnassigned
  | 0x0A => match min with
    | 0x00 => readL w .movi
    | 0x01 => zeroed (w.extractLsb' 21 22 == 0) (.ok (.movhi (fieldD w) (w.extractLsb' 0 21)))
    | _ => .error .minorUnassigned
  | 0x0B => match min with
    | 0x00 => readL w .addpc | _ => .error .minorUnassigned
  | 0x0C => match min with
    | 0x00 => readDAB w .mkcore | _ => .error .minorUnassigned
  | _ => .error .majorUnassigned

/-- Majors 0x20 to 0x35: scalar FP, compares, select and transfer of control. -/
def decodeFloatControl (maj min : Nat) (w : Word) : Decoded :=
  let d := fieldD w; let a := fieldA w; let b := fieldB w; let c := fieldC w
  let ce := c == 0 && fieldE w == 0
  let bce := b == 0 && ce
  match maj with
  | 0x20 => match min with
    | 0x00 => readFp w ce (.fadd d a b) | 0x01 => readFp w ce (.fsub d a b) | 0x02 => readFp w ce (.fmul d a b)
    | 0x03 => readFp w ce (.fdiv d a b) | 0x04 => readFp w bce (.fsqrt d a) | 0x05 => readFpExact w ce (.fmin d a b)
    | 0x06 => readFpExact w ce (.fmax d a b) | 0x07 => readFpExact w bce (.fabs d a)
    | 0x08 => readFpExact w bce (.fneg d a) | _ => .error .minorUnassigned
  | 0x21 => match min with
    | 0x00 => readFp w (fieldE w == 0) (.fma d a b c) | 0x01 => readFp w (fieldE w == 0) (.fms d a b c)
    | 0x02 => readFp w (fieldE w == 0) (.fnma d a b c) | 0x03 => readFp w (fieldE w == 0) (.fnms d a b c)
    | _ => .error .minorUnassigned
  | 0x22 => match min with
    | 0x00 => readFp w bce (.fcvtff d a) | 0x01 => readFp w bce (.fcvtfi d a) | 0x02 => readFp w bce (.fcvtfu d a)
    | 0x03 => readFp w bce (.fcvtif d a) | 0x04 => readFp w bce (.fcvtuf d a) | 0x05 => readFpExact w bce (.fclass d a)
    | _ => .error .minorUnassigned
  | 0x23 => match min with
    | 0x00 => readFpExact w ce (.feq d a b) | 0x01 => readFpExact w ce (.flt d a b) | 0x02 => readFpExact w ce (.fle d a b)
    | _ => .error .minorUnassigned
  | 0x30 => match min with
    | 0x00 => coded (Cond.ofCode d) fun cond => .ok (.b cond a b (fieldOff29 w)) | _ => .error .minorUnassigned
  | 0x31 => match min with
    | 0x00 => readDAB w .slt | 0x01 => readDAB w .sltu | 0x02 => readDAB w .seq | 0x03 => readDAB w .sne
    | _ => .error .minorUnassigned
  | 0x32 => match min with
    | 0x00 => readI w .slti | 0x01 => readI w .sltui | 0x02 => readI w .seqi | _ => .error .minorUnassigned
  | 0x33 => match min with
    | 0x00 => readL w .jl | _ => .error .minorUnassigned
  | 0x34 => match min with
    | 0x00 => readI w .jlr | _ => .error .minorUnassigned
  | 0x35 => match min with
    | 0x00 => zeroed (fieldE w == 0 && fieldFn w == 0) (.ok (.sel d a b c)) | _ => .error .minorUnassigned
  | _ => .error .majorUnassigned

/-- Majors 0x40 to 0x47: memory. -/
def decodeMemory (maj min : Nat) (w : Word) : Decoded :=
  match maj with
  | 0x40 => match min with
    | 0x00 => readLoadStore w .ld | 0x01 => readLoadStore w .lds | 0x02 => readOrdered w .ldAq
    | 0x03 => readOrdered w .ldsAq | _ => .error .minorUnassigned
  | 0x41 => match min with
    | 0x00 => readLoadStore w .st | 0x01 => readOrdered w .stRl | _ => .error .minorUnassigned
  | 0x42 => match min with
    | 0x00 => readScratchD w .w .fbrd | 0x01 => readScratch0 w .fbset | 0x02 => readScratch0 w .fbclr
    | _ => .error .minorUnassigned
  | 0x43 => match min with
    | 0x00 => readScratchD w .w .aqr | 0x01 => readScratchD w .w .arl | 0x02 => readScratch0 w .arc
    | _ => .error .minorUnassigned
  | 0x44 => match min with
    | 0x00 => readAtomic w .aadd | 0x01 => readAtomic w .aand | 0x02 => readAtomic w .aor | 0x03 => readAtomic w .axor
    | 0x04 => readAtomic w .amin | 0x05 => readAtomic w .amax | 0x06 => readAtomic w .aminu
    | 0x07 => readAtomic w .amaxu | 0x08 => readAtomic w .aswp | 0x09 => readAtomic w .acas
    | _ => .error .minorUnassigned
  | 0x45 => match min with
    | 0x00 => readScratchD w .w .depAdd | 0x01 => readScratchD w .h .depFadds | 0x02 => readScratchD w .w .depFaddd
    | 0x03 => readScratchD w .w .depMin | 0x04 => readScratchD w .w .depMax | 0x05 => readScratchD w .w .depOr
    | _ => .error .minorUnassigned
  | 0x46 => match min with
    | 0x00 => readFence w | _ => .error .minorUnassigned
  | 0x47 => match min with
    | 0x00 => readScratchD w .w .sipw | 0x01 => readScratchD w .w .sipp | 0x02 => readScratchD w .w .sipr
    | 0x03 => readScratch0 w .sipf | 0x04 => readScratchD w .w .sipi | _ => .error .minorUnassigned
  | _ => .error .majorUnassigned

/-- Majors 0x60 to 0x7C: messages, barriers, semaphores, engines, chambers, futures. -/
def decodeSync (maj min : Nat) (w : Word) : Decoded :=
  let d := fieldD w; let a := fieldA w; let b := fieldB w; let c := fieldC w; let e := fieldE w
  match maj with
  | 0x60 => match min with
    | 0x00 => readLink w (d == 0) fun k => .send k a b
    | 0x01 => readLink w (a == 0 && b == 0) (.krd d)
    | 0x02 => readLink w (a == 0 && b == 0) (.ktst d) | _ => .error .minorUnassigned
  | 0x61 => match min with
    | 0x00 => zeroed (fieldFn w == 0) (.ok (.launch d a b c e)) | 0x01 => readDA w .claunch | 0x02 => readA w .lwait
    | _ => .error .minorUnassigned
  | 0x62 => match min with
    | 0x00 => zeroed (noRegs w && w.extractLsb' 3 12 == 0)
        (coded (BarLevel.ofCode (w.extractLsb' 0 2)) fun l => formed .illegalCode (.bar l (w.extractLsb' 2 1 == 1)))
    | _ => .error .minorUnassigned
  | 0x63 => match min with
    | 0x00 => readSem w (d == 0 && a == 0) .semp | 0x01 => readSem w (d == 0 && a == 0) .semv
    | 0x02 => readSem w (a == 0) (.semrd d) | 0x03 => readSem w (d == 0) fun n => .semset n a
    | _ => .error .minorUnassigned
  | 0x70 => match min with
    | 0x00 => zeroed (noRegs w && w.extractLsb' 2 13 == 0)
        (coded (EngineId.ofCode (w.extractLsb' 0 2)) fun g => .ok (.ebind g))
    | 0x01 => zeroed (noRegs w && w.extractLsb' 2 13 == 0)
        (coded (EngineId.ofCode (w.extractLsb' 0 2)) fun g => .ok (.efree g))
    | _ => .error .minorUnassigned
  | 0x71 => match min with
    | 0x00 => readRecord w .mpost | 0x01 => readRecord w .vpost
    | 0x02 => zeroed (fieldResE w == 0) (.ok (.cpost d a (fieldOff18 w))) | _ => .error .minorUnassigned
  | 0x72 => match min with
    | 0x00 => zeroed (noRegs w && w.extractLsb' 3 12 == 0) (formed .illegalCode (.esync (w.extractLsb' 0 3)))
    | _ => .error .minorUnassigned
  | 0x73 => match min with
    | 0x00 => readRecord w .esaveM | 0x01 => readRecord w .esaveV | 0x02 => readRecord w .esaveC
    | 0x03 => readRecord w .erestoreM | 0x04 => readRecord w .erestoreV | 0x05 => readRecord w .erestoreC
    | _ => .error .minorUnassigned
  | 0x78 => match min with
    | 0x00 => readDAB w .cmake | 0x01 => readDAB w .catt | 0x02 => readAB w .cdet | 0x03 => readA w .cdrop
    | 0x04 => readDA w .cqry | 0x05 => readA w .cevt | _ => .error .minorUnassigned
  | 0x7C => match min with
    | 0x00 => readDA w .falloc
    | 0x01 => zeroed (d == 0 && e == 0 && fieldFn w == 0) (.ok (.fcall a b c))
    | 0x02 => zeroed (b == 0 && c == 0 && e == 0 && w.extractLsb' 1 14 == 0) (.ok (.fwait d a (w.extractLsb' 0 1 == 1)))
    | 0x03 => readDA w .fpoll | 0x04 => readDAB w .fput | 0x05 => readDA w .fcan | _ => .error .minorUnassigned
  | _ => .error .majorUnassigned

/-- Majors 0x80 to 0x87: system. -/
def decodeSystem (maj min : Nat) (w : Word) : Decoded :=
  let d := fieldD w; let a := fieldA w
  match maj with
  | 0x80 => match min with
    | 0x00 => readCtl w (a == 0) (.ctlr d) | 0x01 => readCtl w (d == 0) (.ctlw a) | 0x02 => readCtl w true (.ctls d a)
    | 0x03 => readCtl w true (.ctlc d a) | _ => .error .minorUnassigned
  | 0x81 => match min with
    | 0x00 => zeroed (d == 0 && a == 0 && w.extractLsb' 16 20 == 0) (.ok (.trap (w.extractLsb' 0 16)))
    | 0x01 => readSys w (d == 0 && a == 0) .rte | _ => .error .minorUnassigned
  | 0x82 => match min with
    | 0x00 => readSys w (d == 0 && a == 0) .halt | 0x01 => readSys w (d == 0) (.haltKeep a) | _ => .error .minorUnassigned
  | 0x83 => match min with
    | 0x00 => readSys w (d == 0 && a == 0) .beat | _ => .error .minorUnassigned
  | 0x84 => match min with
    | 0x00 => readSys w (a == 0) (.rdgtc d) | 0x01 => readSys w true (.waitt d a) | _ => .error .minorUnassigned
  | 0x85 => match min with
    | 0x00 => readSys w (d == 0) (.tlbi a) | 0x01 => readSys w (d == 0) (.tlbiasid a) | _ => .error .minorUnassigned
  | 0x86 => match min with
    | 0x00 => readCap w true fun n => .capld n a
    | 0x01 => readCap w true fun n => .capst n a
    | 0x02 => readCap w (a == 0) .capclr | _ => .error .minorUnassigned
  | 0x87 => match min with
    | 0x00 => readSys w true (.mthaw d a) | 0x01 => readSys w true (.mkill d a) | _ => .error .minorUnassigned
  | _ => .error .majorUnassigned

/-- The instruction of a 64-bit word (R55, R56 step 1), or why the word is illegal. -/
def decode (w : Word) : Decoded :=
  let maj := (majorOf w).toNat
  let min := (minorOf w).toNat
  if maj = 0 then .error .majorZero
  else if maj < 0x20 then decodeInteger maj min w
  else if maj < 0x40 then decodeFloatControl maj min w
  else if maj < 0x60 then decodeMemory maj min w
  else if maj < 0x80 then decodeSync maj min w
  else decodeSystem maj min w

/-- The hart future instruction of a 32-bit word (R374): R-type, custom-1, funct3 000. -/
def decodeHart (w : BitVec 32) : Decoded :=
  let rd : BitVec 5 := w.extractLsb' 7 5
  let rs1 : BitVec 5 := w.extractLsb' 15 5
  let rs2 : BitVec 5 := w.extractLsb' 20 5
  if w.extractLsb' 0 7 = (0x2B : BitVec 7) then
    if w.extractLsb' 12 3 = (0 : BitVec 3) then
      match (w.extractLsb' 25 7 : BitVec 7).toNat with
      | 0 => zeroed (rs2 == 0) (.ok (.hfutTake rd rs1))
      | 1 => .ok (.hfutPut rd rs1 rs2)
      | 2 => zeroed (rs2 == 0) (.ok (.hfutPoll rd rs1))
      | 3 => .ok (.hfutFail rd rs1 rs2)
      | _ => .error .illegalCode
    else .error .illegalCode
  else .error .notCustom1

/-! ### The encoder -/

def MemRef.word (maj : BitVec 8) (min : BitVec 6) (d : Reg) (m : MemRef) (scope : BitVec 3) (size fe : BitVec 2)
    (ov : BitVec 1) : Word :=
  wordM maj min d m.a m.b m.mode.code scope size fe ov m.off

def bit (b : Bool) : BitVec 1 := if b then 1 else 0

/-- The word of a context instruction (R45 to R55); none for what has no 64-bit word. -/
def encode : Instr → Option Word
  | .add d a b => wordA 0x01 0x00 d a b 0 0 0 | .sub d a b => wordA 0x01 0x01 d a b 0 0 0
  | .addw d a b => wordA 0x01 0x02 d a b 0 0 0 | .subw d a b => wordA 0x01 0x03 d a b 0 0 0
  | .min d a b => wordA 0x01 0x04 d a b 0 0 0 | .max d a b => wordA 0x01 0x05 d a b 0 0 0
  | .minu d a b => wordA 0x01 0x06 d a b 0 0 0 | .maxu d a b => wordA 0x01 0x07 d a b 0 0 0
  | .abs d a => wordA 0x01 0x08 d a 0 0 0 0 | .adds d a b => wordA 0x01 0x09 d a b 0 0 0
  | .subs d a b => wordA 0x01 0x0A d a b 0 0 0
  | .addi d a i => wordI 0x02 0x00 d a i | .addwi d a i => wordI 0x02 0x01 d a i | .andi d a i => wordI 0x02 0x02 d a i
  | .ori d a i => wordI 0x02 0x03 d a i | .xori d a i => wordI 0x02 0x04 d a i
  | .mul d a b => wordA 0x03 0x00 d a b 0 0 0 | .mulh d a b => wordA 0x03 0x01 d a b 0 0 0
  | .mulhu d a b => wordA 0x03 0x02 d a b 0 0 0 | .mulhsu d a b => wordA 0x03 0x03 d a b 0 0 0
  | .mulw d a b => wordA 0x03 0x04 d a b 0 0 0
  | .div d a b => wordA 0x04 0x00 d a b 0 0 0 | .divu d a b => wordA 0x04 0x01 d a b 0 0 0
  | .rem d a b => wordA 0x04 0x02 d a b 0 0 0 | .remu d a b => wordA 0x04 0x03 d a b 0 0 0
  | .divw d a b => wordA 0x04 0x04 d a b 0 0 0 | .divuw d a b => wordA 0x04 0x05 d a b 0 0 0
  | .and d a b => wordA 0x05 0x00 d a b 0 0 0 | .or d a b => wordA 0x05 0x01 d a b 0 0 0
  | .xor d a b => wordA 0x05 0x02 d a b 0 0 0 | .andn d a b => wordA 0x05 0x03 d a b 0 0 0
  | .orn d a b => wordA 0x05 0x04 d a b 0 0 0 | .xnor d a b => wordA 0x05 0x05 d a b 0 0 0
  | .sll d a b => wordA 0x06 0x00 d a b 0 0 0 | .srl d a b => wordA 0x06 0x01 d a b 0 0 0
  | .sra d a b => wordA 0x06 0x02 d a b 0 0 0 | .rol d a b => wordA 0x06 0x03 d a b 0 0 0
  | .ror d a b => wordA 0x06 0x04 d a b 0 0 0
  | .slli d a n => wordI 0x07 0x00 d a (n.setWidth 36) | .srli d a n => wordI 0x07 0x01 d a (n.setWidth 36)
  | .srai d a n => wordI 0x07 0x02 d a (n.setWidth 36) | .rori d a n => wordI 0x07 0x03 d a (n.setWidth 36)
  | .clz d a => wordA 0x08 0x00 d a 0 0 0 0 | .ctz d a => wordA 0x08 0x01 d a 0 0 0 0
  | .popc d a => wordA 0x08 0x02 d a 0 0 0 0 | .brev d a => wordA 0x08 0x03 d a 0 0 0 0
  | .bswap d a => wordA 0x08 0x04 d a 0 0 0 0 | .sextb d a => wordA 0x08 0x05 d a 0 0 0 0
  | .sextq d a => wordA 0x08 0x06 d a 0 0 0 0 | .sexth d a => wordA 0x08 0x07 d a 0 0 0 0
  | .zextb d a => wordA 0x08 0x08 d a 0 0 0 0 | .zextq d a => wordA 0x08 0x09 d a 0 0 0 0
  | .zexth d a => wordA 0x08 0x0A d a 0 0 0 0
  | .bfx d a p m => wordI 0x09 0x00 d a ((0 : BitVec 24) ++ m ++ p)
  | .bfxu d a p m => wordI 0x09 0x01 d a ((0 : BitVec 24) ++ m ++ p)
  | .bfi d a p m => wordI 0x09 0x02 d a ((0 : BitVec 24) ++ m ++ p)
  | .movi d i => wordL 0x0A 0x00 d i | .movhi d i => wordL 0x0A 0x01 d (i.setWidth 43) | .addpc d i => wordL 0x0B 0x00 d i
  | .mkcore d a b => wordA 0x0C 0x00 d a b 0 0 0
  | .fadd d a b p rm => wordA 0x20 0x00 d a b 0 0 (fpFn p rm) | .fsub d a b p rm => wordA 0x20 0x01 d a b 0 0 (fpFn p rm)
  | .fmul d a b p rm => wordA 0x20 0x02 d a b 0 0 (fpFn p rm) | .fdiv d a b p rm => wordA 0x20 0x03 d a b 0 0 (fpFn p rm)
  | .fsqrt d a p rm => wordA 0x20 0x04 d a 0 0 0 (fpFn p rm) | .fmin d a b p => wordA 0x20 0x05 d a b 0 0 (fpFn p .rne)
  | .fmax d a b p => wordA 0x20 0x06 d a b 0 0 (fpFn p .rne) | .fabs d a p => wordA 0x20 0x07 d a 0 0 0 (fpFn p .rne)
  | .fneg d a p => wordA 0x20 0x08 d a 0 0 0 (fpFn p .rne)
  | .fma d a b c p rm => wordA 0x21 0x00 d a b c 0 (fpFn p rm) | .fms d a b c p rm => wordA 0x21 0x01 d a b c 0 (fpFn p rm)
  | .fnma d a b c p rm => wordA 0x21 0x02 d a b c 0 (fpFn p rm) | .fnms d a b c p rm => wordA 0x21 0x03 d a b c 0 (fpFn p rm)
  | .fcvtff d a p rm => wordA 0x22 0x00 d a 0 0 0 (fpFn p rm) | .fcvtfi d a p rm => wordA 0x22 0x01 d a 0 0 0 (fpFn p rm)
  | .fcvtfu d a p rm => wordA 0x22 0x02 d a 0 0 0 (fpFn p rm) | .fcvtif d a p rm => wordA 0x22 0x03 d a 0 0 0 (fpFn p rm)
  | .fcvtuf d a p rm => wordA 0x22 0x04 d a 0 0 0 (fpFn p rm) | .fclass d a p => wordA 0x22 0x05 d a 0 0 0 (fpFn p .rne)
  | .feq d a b p => wordA 0x23 0x00 d a b 0 0 (fpFn p .rne) | .flt d a b p => wordA 0x23 0x01 d a b 0 0 (fpFn p .rne)
  | .fle d a b p => wordA 0x23 0x02 d a b 0 0 (fpFn p .rne)
  | .b cond a b off => wordB 0x30 0x00 cond.code a b off
  | .slt d a b => wordA 0x31 0x00 d a b 0 0 0 | .sltu d a b => wordA 0x31 0x01 d a b 0 0 0
  | .seq d a b => wordA 0x31 0x02 d a b 0 0 0 | .sne d a b => wordA 0x31 0x03 d a b 0 0 0
  | .slti d a i => wordI 0x32 0x00 d a i | .sltui d a i => wordI 0x32 0x01 d a i | .seqi d a i => wordI 0x32 0x02 d a i
  | .jl d i => wordL 0x33 0x00 d i | .jlr d a i => wordI 0x34 0x00 d a i | .sel d a b c => wordA 0x35 0x00 d a b c 0 0
  | .ld d m z f v => m.word 0x40 0x00 d 0 z.code f.code (bit v) | .lds d m z f v => m.word 0x40 0x01 d 0 z.code f.code (bit v)
  | .ldAq d m z s => m.word 0x40 0x02 d s.code z.code 0 0 | .ldsAq d m z s => m.word 0x40 0x03 d s.code z.code 0 0
  | .st d m z f v => m.word 0x41 0x00 d 0 z.code f.code (bit v) | .stRl d m z s => m.word 0x41 0x01 d s.code z.code 0 0
  | .fbrd d m => m.word 0x42 0x00 d 0 3 0 0 | .fbset m => m.word 0x42 0x01 0 0 3 0 0 | .fbclr m => m.word 0x42 0x02 0 0 3 0 0
  | .aqr d m => m.word 0x43 0x00 d 0 3 0 0 | .arl d m => m.word 0x43 0x01 d 0 3 0 0 | .arc m => m.word 0x43 0x02 0 0 3 0 0
  | .aadd d a b o z s => wordM 0x44 0x00 d a b 4 s.code z.code 0 0 o
  | .aand d a b o z s => wordM 0x44 0x01 d a b 4 s.code z.code 0 0 o
  | .aor d a b o z s => wordM 0x44 0x02 d a b 4 s.code z.code 0 0 o
  | .axor d a b o z s => wordM 0x44 0x03 d a b 4 s.code z.code 0 0 o
  | .amin d a b o z s => wordM 0x44 0x04 d a b 4 s.code z.code 0 0 o
  | .amax d a b o z s => wordM 0x44 0x05 d a b 4 s.code z.code 0 0 o
  | .aminu d a b o z s => wordM 0x44 0x06 d a b 4 s.code z.code 0 0 o
  | .amaxu d a b o z s => wordM 0x44 0x07 d a b 4 s.code z.code 0 0 o
  | .aswp d a b o z s => wordM 0x44 0x08 d a b 4 s.code z.code 0 0 o
  | .acas d a b o z s => wordM 0x44 0x09 d a b 4 s.code z.code 0 0 o
  | .depAdd d m => m.word 0x45 0x00 d 0 3 0 0 | .depFadds d m => m.word 0x45 0x01 d 0 2 0 0
  | .depFaddd d m => m.word 0x45 0x02 d 0 3 0 0 | .depMin d m => m.word 0x45 0x03 d 0 3 0 0
  | .depMax d m => m.word 0x45 0x04 d 0 3 0 0 | .depOr d m => m.word 0x45 0x05 d 0 3 0 0
  | .fence s => wordM 0x46 0x00 0 0 0 0 s.code 0 0 0 0
  | .sipw d m => m.word 0x47 0x00 d 0 3 0 0 | .sipp d m => m.word 0x47 0x01 d 0 3 0 0 | .sipr d m => m.word 0x47 0x02 d 0 3 0 0
  | .sipf m => m.word 0x47 0x03 0 0 3 0 0 | .sipi d m => m.word 0x47 0x04 d 0 3 0 0
  | .send k a b => wordA 0x60 0x00 0 a b 0 0 (k.setWidth 15) | .krd d k => wordA 0x60 0x01 d 0 0 0 0 (k.setWidth 15)
  | .ktst d k => wordA 0x60 0x02 d 0 0 0 0 (k.setWidth 15)
  | .launch d a b c e => wordA 0x61 0x00 d a b c e 0 | .claunch d a => wordA 0x61 0x01 d a 0 0 0 0
  | .lwait a => wordA 0x61 0x02 0 a 0 0 0 0
  | .bar l s => wordA 0x62 0x00 0 0 0 0 0 ((0 : BitVec 12) ++ bit s ++ l.code)
  | .semp n => wordA 0x63 0x00 0 0 0 0 0 (n.setWidth 15) | .semv n => wordA 0x63 0x01 0 0 0 0 0 (n.setWidth 15)
  | .semrd d n => wordA 0x63 0x02 d 0 0 0 0 (n.setWidth 15) | .semset n a => wordA 0x63 0x03 0 a 0 0 0 (n.setWidth 15)
  | .ebind e => wordA 0x70 0x00 0 0 0 0 0 (e.code.setWidth 15) | .efree e => wordA 0x70 0x01 0 0 0 0 0 (e.code.setWidth 15)
  | .mpost a o => wordE 0x71 0x00 0 a o | .vpost a o => wordE 0x71 0x01 0 a o | .cpost d a o => wordE 0x71 0x02 d a o
  | .esync m => wordA 0x72 0x00 0 0 0 0 0 (m.setWidth 15)
  | .esaveM a o => wordE 0x73 0x00 0 a o | .esaveV a o => wordE 0x73 0x01 0 a o | .esaveC a o => wordE 0x73 0x02 0 a o
  | .erestoreM a o => wordE 0x73 0x03 0 a o | .erestoreV a o => wordE 0x73 0x04 0 a o | .erestoreC a o => wordE 0x73 0x05 0 a o
  | .cmake d a b => wordA 0x78 0x00 d a b 0 0 0 | .catt d a b => wordA 0x78 0x01 d a b 0 0 0
  | .cdet a b => wordA 0x78 0x02 0 a b 0 0 0 | .cdrop a => wordA 0x78 0x03 0 a 0 0 0 0
  | .cqry d a => wordA 0x78 0x04 d a 0 0 0 0 | .cevt a => wordA 0x78 0x05 0 a 0 0 0 0
  | .falloc d a => wordA 0x7C 0x00 d a 0 0 0 0 | .fcall a b c => wordA 0x7C 0x01 0 a b c 0 0
  | .fwait d a v => wordA 0x7C 0x02 d a 0 0 0 ((0 : BitVec 14) ++ bit v) | .fpoll d a => wordA 0x7C 0x03 d a 0 0 0 0
  | .fput d a b => wordA 0x7C 0x04 d a b 0 0 0 | .fcan d a => wordA 0x7C 0x05 d a 0 0 0 0
  | .ctlr d n => wordS 0x80 0x00 d 0 (n.setWidth 36) | .ctlw a n => wordS 0x80 0x01 0 a (n.setWidth 36)
  | .ctls d a n => wordS 0x80 0x02 d a (n.setWidth 36) | .ctlc d a n => wordS 0x80 0x03 d a (n.setWidth 36)
  | .trap c => wordS 0x81 0x00 0 0 (c.setWidth 36) | .rte => wordS 0x81 0x01 0 0 0
  | .halt => wordS 0x82 0x00 0 0 0 | .haltKeep a => wordS 0x82 0x01 0 a 0 | .beat => wordS 0x83 0x00 0 0 0
  | .rdgtc d => wordS 0x84 0x00 d 0 0 | .waitt d a => wordS 0x84 0x01 d a 0
  | .tlbi a => wordS 0x85 0x00 0 a 0 | .tlbiasid a => wordS 0x85 0x01 0 a 0
  | .capld n a => wordS 0x86 0x00 (n.setWidth 7) a 0 | .capst n a => wordS 0x86 0x01 (n.setWidth 7) a 0
  | .capclr n => wordS 0x86 0x02 (n.setWidth 7) 0 0
  | .mthaw d a => wordS 0x87 0x00 d a 0 | .mkill d a => wordS 0x87 0x01 d a 0
  | _ => none

/-- The 32-bit word of a hart future instruction (R374); none for anything else. -/
def encodeHart : Instr → Option (BitVec 32)
  | .hfutTake rd rs1 => some ((0 : BitVec 7) ++ (0 : BitVec 5) ++ rs1 ++ (0 : BitVec 3) ++ rd ++ (0x2B : BitVec 7))
  | .hfutPut rd rs1 rs2 => some ((1 : BitVec 7) ++ rs2 ++ rs1 ++ (0 : BitVec 3) ++ rd ++ (0x2B : BitVec 7))
  | .hfutPoll rd rs1 => some ((2 : BitVec 7) ++ (0 : BitVec 5) ++ rs1 ++ (0 : BitVec 3) ++ rd ++ (0x2B : BitVec 7))
  | .hfutFail rd rs1 rs2 => some ((3 : BitVec 7) ++ rs2 ++ rs1 ++ (0 : BitVec 3) ++ rd ++ (0x2B : BitVec 7))
  | _ => none

/-! ### Nest records (R57, R58, R59) -/

/-- A descriptor's 96 bits (R58). -/
def Descriptor.bits (d : Descriptor) : BitVec 96 := d.s3 ++ d.s2 ++ d.s1 ++ d.s0 ++ d.base
/-- The descriptor of 96 bits (R58). -/
def Descriptor.ofBits (x : BitVec 96) : Descriptor :=
  { s3 := x.extractLsb' 80 16, s2 := x.extractLsb' 64 16, s1 := x.extractLsb' 48 16, s0 := x.extractLsb' 32 16,
    base := x.extractLsb' 0 32 }

/-- MOD, the 48 low bits of a record (R59). -/
def Record.modBits (r : Record) : BitVec 48 :=
  r.res ++ r.opx ++ r.spc3 ++ r.spc2 ++ r.spc1 ++ r.spc0 ++ r.fe3 ++ r.fe2 ++ r.fe1 ++ r.fe0 ++ r.scm ++ r.fmtd ++ r.fmtb
    ++ r.fmta ++ r.sat ++ r.rnd ++ r.semen ++ r.semn

/-- The 512 bits of a record (R57). -/
def Record.bits (r : Record) : BitVec 512 :=
  r.op ++ r.t3 ++ r.t2 ++ r.t1 ++ r.t0 ++ r.d3.bits ++ r.d2.bits ++ r.d1.bits ++ r.d0.bits ++ r.modBits

/-- The record of 512 bits (R57, R59). Every pattern is a record: whether a post accepts it is R61's. -/
def Record.ofBits (x : BitVec 512) : Record :=
  { op := x.extractLsb' 496 16, t3 := x.extractLsb' 480 16, t2 := x.extractLsb' 464 16, t1 := x.extractLsb' 448 16,
    t0 := x.extractLsb' 432 16, d3 := .ofBits (x.extractLsb' 336 96), d2 := .ofBits (x.extractLsb' 240 96),
    d1 := .ofBits (x.extractLsb' 144 96), d0 := .ofBits (x.extractLsb' 48 96), res := x.extractLsb' 47 1,
    opx := x.extractLsb' 39 8, spc3 := x.extractLsb' 37 2, spc2 := x.extractLsb' 35 2, spc1 := x.extractLsb' 33 2,
    spc0 := x.extractLsb' 31 2, fe3 := x.extractLsb' 29 2, fe2 := x.extractLsb' 27 2, fe1 := x.extractLsb' 25 2,
    fe0 := x.extractLsb' 23 2, scm := x.extractLsb' 21 2, fmtd := x.extractLsb' 17 4, fmtb := x.extractLsb' 13 4,
    fmta := x.extractLsb' 9 4, sat := x.extractLsb' 8 1, rnd := x.extractLsb' 6 2, semen := x.extractLsb' 5 1,
    semn := x.extractLsb' 0 5 }

/-- The operation an opcode names (R240 to R251, R262). MDRN with OPX bit 4 is the bypass drain (R277). -/
def recordInstr (r : Record) : Option Instr :=
  match r.op.toNat with
  | 0x0001 => some .vadd | 0x0002 => some .vsub | 0x0003 => some .vmul | 0x0004 => some .vdiv
  | 0x0005 => some .vfma | 0x0006 => some .vmin | 0x0007 => some .vmax | 0x0008 => some .vabs
  | 0x0009 => some .vneg | 0x000A => some .vsqrt | 0x000B => some .vrcp | 0x000C => some .vscalb
  | 0x000D => some .vrint | 0x0010 => some .vand | 0x0011 => some .vor | 0x0012 => some .vxor
  | 0x0013 => some .vandn | 0x0014 => some .vshl | 0x0015 => some .vshr | 0x0016 => some .vsra
  | 0x0017 => some .vcnt | 0x0018 => some .vceq | 0x0019 => some .vclt | 0x001A => some .vcle
  | 0x001B => some .vsel | 0x0020 => some .vcvt | 0x0028 => some .vexp | 0x0029 => some .vexp2
  | 0x002A => some .vlog | 0x002B => some .vlog2 | 0x002C => some .vsin | 0x002D => some .vcos
  | 0x002E => some .vtanh | 0x002F => some .vrsqrt | 0x0030 => some .vsigm | 0x0038 => some .vrsum
  | 0x0039 => some .vrmin | 0x003A => some .vrmax | 0x003B => some .vrand | 0x003C => some .vror
  | 0x003D => some .vrxor | 0x0040 => some .vbfly | 0x0041 => some .vtwid | 0x0042 => some .vcmul
  | 0x0048 => some .vunp3 | 0x0049 => some .viota
  | 0x0100 => some .mmul | 0x0101 => some .mmuln | 0x0108 => some .mlda
  | 0x0109 => some (if r.opx.getLsbD 4 then .mdrnBypass else .mdrn)
  | 0x010A => some .madda | 0x010B => some .mclr
  | 0x0200 => some .ccopy | 0x0201 => some .cgath | 0x0202 => some .cscat | 0x0203 => some .cclr
  | 0x0204 => some .csetf | 0x0205 => some .csipw | 0x0206 => some .csipr | 0x0207 => some .cpref
  | _ => none

/-- The engine whose opcode range an opcode lies in (R240, R250, R262). -/
def opEngine (op : BitVec 16) : Option EngineId :=
  match op.toNat / 0x100 with
  | 0 => some .vector | 1 => some .matrix | 2 => some .copy | _ => none

/-- The instruction whose bits are w, numbered as the opcode table numbers them: a 64-bit context word (R45) or a 32-bit
word of a tool hart (R374). Both are stored little-endian, so bit 0 of the word is bit 0 of its lowest byte. -/
def decodeTableWord (nbits w : Nat) : Option Instr :=
  if nbits ≤ 32 then
    match decodeHart (BitVec.ofNat 32 w) with
    | .ok i => some i
    | .error _ => none
  else if nbits ≤ 64 then
    match decode (BitVec.ofNat 64 w) with
    | .ok i => some i
    | .error _ => none
  else none

end Sys2Proof
end

