-- ==== Sys2Proof/Config.lean ====
section
/-! DEFINITION. What the manual leaves to the part or does not state: free values, none with a body. No proof can see
what one of them is, so a statement holds whatever it is. The limits the manual does set are applied where they are used. -/

namespace Sys2Proof.Config

/-- A latency or other waiting time that the manual gives no figure or only a typical one (R5, R134, R199, R273,
R292): the n-th such time drawn, in cycles. DESIGN CHOICE, log entry 2. -/
opaque delay : Nat → Nat

/-- The part of a division's time above the 10 cycles of R82, a function of the operands alone; R82 bounds it by 30. -/
opaque divideTime : Word → Word → Nat

/-- A choice among n candidates where the manual names no rule (the victim of R37): the n-th draw. Log entry 2. -/
opaque choice : Nat → Nat

/-- Which FP32 neighbour of an inexact transcendental result is delivered (R244): true the upper one. It is a fixed function
of the operation's opcode and of the operand, as R244 and R217 say. -/
opaque upperNeighbour : BitVec 16 → BitVec 32 → Bool

/-- A value an instruction or event writes that the manual does not state: the n-th draw. Log entry 2. -/
opaque freeWord : Nat → Word

/-- What a unit of the vector engine leaves in a wide register (R241): the n-th draw. Log entry 76. -/
opaque freeWide : Nat → BitVec 2048

/-- ML-DSA-65 verification of a signature over a message under a key (R390). Log entry 13. -/
opaque mldsaVerify : List Byte → List Byte → List Byte → Bool

/-- The Gordabin root key in the hub ROM (R390). Log entry 13. -/
opaque rootKey : List Byte

/-- The owner key that a key block holds (R390). Log entry 13. -/
opaque ownerKey : List Byte → List Byte

/-- A field of a configuration table's bytes, by number (R391). Log entry 13. -/
opaque tableField : List Byte → Nat → Nat

/-- The version of the hub ROM (R393): one for the part. Log entry 13. -/
opaque romVersion : Word

/-- The private identity key that the hub's physically unclonable function yields at every boot (R393). Log entry 13. -/
opaque identityKey : List Byte

/-- The private alias key derived from the identity key and a digest (R393). Log entry 13. -/
opaque deriveKey : List Byte → List Byte → List Byte

/-- The public key of a private key (R393). Log entry 13. -/
opaque publicKey : List Byte → List Byte

/-- ML-DSA-65 signature of a message under a private key (R393). Log entry 13. -/
opaque mldsaSign : List Byte → List Byte → List Byte

/-- The digest of R390 and R393 over a firmware or table image. Log entry 13. -/
opaque digest : List Byte → List Byte

end Sys2Proof.Config
end

