-- ==== Sys2Proof/Machine/Tab.lean ====
section
/-! DEFINITION. Sparse plain data: tables keyed by a number with a value for the keys that are not listed, sets of numbers, and
memories as lists of (address, byte) cells in one canonical form. An unlisted byte of a memory reads as zero (R129, R390; log 8). -/

namespace Sys2Proof.Machine

/-- A table from numbers to values, keys rising. -/
abbrev Tab (β : Type) := List (Nat × β)

/-- The entry listed for key n. -/
def tabFind {β : Type} : Tab β → Nat → Option β
  | [], _ => none
  | (k, v) :: t, n => if k = n then some v else tabFind t n

/-- The value of key n, d where n is not listed. -/
def tabGet {β : Type} (d : β) (t : Tab β) (n : Nat) : β := (tabFind t n).getD d

/-- The table without key n. -/
def tabDrop {β : Type} : Tab β → Nat → Tab β
  | [], _ => []
  | (k, v) :: t, n => if k = n then tabDrop t n else (k, v) :: tabDrop t n

/-- Inserts an entry before the first larger key. -/
def tabIns {β : Type} : Tab β → Nat → β → Tab β
  | [], n, x => [(n, x)]
  | (k, v) :: t, n, x => if n < k then (n, x) :: (k, v) :: t else (k, v) :: tabIns t n x

/-- The table with key n set to x. -/
def tabSet {β : Type} (t : Tab β) (n : Nat) (x : β) : Tab β := tabIns (tabDrop t n) n x

/-- Applies f to every listed entry. -/
def tabMap {β : Type} (f : Nat → β → β) (t : Tab β) : Tab β := t.map fun e => (e.1, f e.1 e.2)

/-- A set of numbers, rising. -/
abbrev NatSet := List Nat

def setHas : NatSet → Nat → Bool
  | [], _ => false
  | k :: t, n => k == n || setHas t n

def setDel : NatSet → Nat → NatSet
  | [], _ => []
  | k :: t, n => if k = n then setDel t n else k :: setDel t n

def setIns : NatSet → Nat → NatSet
  | [], n => [n]
  | k :: t, n => if n < k then n :: k :: t else k :: setIns t n

def setAdd (t : NatSet) (n : Nat) : NatSet := setIns (setDel t n) n

/-- Membership set to b. -/
def setPut (t : NatSet) (n : Nat) (b : Bool) : NatSet := if b then setAdd t n else setDel t n

/-- A memory: cells with rising addresses, none of them zero. -/
abbrev Memory := List Host.Cell

/-- One byte; zero where nothing is listed (log 8). -/
def memRead (m : Memory) (a : Nat) : Byte := tabGet 0 m a

/-- Writes one byte and keeps the canonical form: a zero removes the cell. -/
def memWrite (m : Memory) (a : Nat) (b : Byte) : Memory := if b = 0 then tabDrop m a else tabSet m a b

/-- The canonical form: addresses strictly rising and no listed zero. -/
def Memory.wf : Memory → Bool
  | [] => true
  | [(_, b)] => b != 0
  | (a, b) :: (a', b') :: t => decide (a < a') && b != 0 && Memory.wf ((a', b') :: t)

/-- n bytes from address a as a number, little-endian (R7). -/
def memReadNat (m : Memory) (a : Nat) : Nat → Nat
  | 0 => 0
  | n + 1 => (memRead m a).toNat + 256 * memReadNat m (a + 1) n

/-- Writes the n low bytes of v at address a, little-endian (R7). -/
def memWriteNat (m : Memory) (a : Nat) : Nat → Nat → Memory
  | 0, _ => m
  | n + 1, v => memWriteNat (memWrite m a (BitVec.ofNat 8 v)) (a + 1) n (v / 256)

/-- n bytes in address order. -/
def memReadBytes (m : Memory) (a : Nat) : Nat → List Byte
  | 0 => []
  | n + 1 => memRead m a :: memReadBytes m (a + 1) n

/-- Writes bytes in address order. -/
def memWriteBytes (m : Memory) (a : Nat) : List Byte → Memory
  | [] => m
  | b :: t => memWriteBytes (memWrite m a b) (a + 1) t

/-- The little-endian number of a list of bytes (R7). -/
def bytesNat : List Byte → Nat
  | [] => 0
  | b :: t => b.toNat + 256 * bytesNat t

/-- The n low bytes of a number, little-endian (R7). -/
def natBytes : Nat → Nat → List Byte
  | 0, _ => []
  | n + 1, v => BitVec.ofNat 8 v :: natBytes n (v / 256)

/-- The 64-bit words of a list of bytes (R7). -/
def bytesWords : Nat → List Byte → List Word
  | 0, _ => []
  | n + 1, l => BitVec.ofNat 64 (bytesNat (l.take 8)) :: bytesWords n (l.drop 8)

/-- The bytes of a list of 64-bit words (R7). -/
def wordsBytes : List Word → List Byte
  | [] => []
  | w :: t => natBytes 8 w.toNat ++ wordsBytes t

end Sys2Proof.Machine
end

