-- ==== Sys2Proof/Machine/State.lean ====
section
/-! DEFINITION. The machine's state: everything spec/ gives the K9, as plain data, and the state right after reset (R390, R391). What is
kept sparse has the value its reading function names where nothing is listed. The model's own fields (the agenda, the counters of
drawn free values and of identifiers, the turn within a cycle and the actor of a step) are log entries 1 and 2. -/

namespace Sys2Proof.Machine

/-- What ends a run. -/
inductive Fault where
  /-- The fatal coherence error of R347: the runtime must reset the package. Raised by step once State.fatal is set. Safe: the machine
  does not go on. -/
  | fatalCoherence
  deriving DecidableEq, Repr

/-- What the model gives no meaning to. -/
inductive Refusal where
  /-- An instruction whose arm has no meaning yet; the mnemonic of the opcode table. Safe. -/
  | notModelled (mnemonic : String)
  /-- A running tool hart fetched a word of a RISC-V extension that has no meaning here (R371 names the profiles alone; log 11). Raised by step.
  Safe. -/
  | hartInstruction (word : BitVec 32)
  deriving DecidableEq, Repr

/-! ### Engines (R218 to R234, R260, R261, R280) -/

/-- An accepted command (R221, R223). -/
structure Command where
  id : Nat
  record : Record
  g : Word
  caps : Tab (BitVec 128)
  addr : Word
  deriving DecidableEq, Repr

/-- A unit in flight (R234): its first element's sequencer number, how many elements it has, and those of them that have completed. -/
structure SeqUnit where
  first : Nat
  count : Nat
  mask : NatSet
  deriving DecidableEq, Repr

/-- One access of an element: operand, address, bytes, whether it writes, and the address of the element it belongs to (R233). -/
structure Comp where
  k : Nat
  addr : Int
  size : Nat
  write : Bool
  base : Int := addr
  deriving DecidableEq, Repr

/-- LST, the latch state (R261). -/
structure LatchState where
  lv : Bool
  lm : BitVec 6
  lk : BitVec 6
  lfmt : BitVec 4
  deriving DecidableEq, Repr

/-- What an engine's running command has come to: the next element to issue, the units in flight, flags and the first illegal ternary byte by
element (R232), a reduction's elements (R212), the indices and staged values read, the accesses whose F action is still owed (R237), and
the siphon slot claimed (R251). -/
structure Progress where
  next : Nat
  inflight : List SeqUnit
  flags : BitVec 5
  badAt : Option (Nat × Word)
  lanes : Tab (BitVec 64)
  sources : Tab Nat
  owed : List Comp
  claim : Option Word
  deriving DecidableEq, Repr

/-- One engine of a scull. -/
structure Engine where
  bound : Option Slot
  queue : List Command
  started : Bool
  prog : Progress
  badcnt : BitVec 16
  bad : Bool
  flags : BitVec 5
  bte : Bool
  fen : BitVec 5
  tpnd : Bool
  frz : Bool
  fwcnt : BitVec 32
  bindQueue : List Slot
  acc : Memory
  accPoison : NatSet
  latch : Memory
  latchPoison : Bool
  wide : Tab (BitVec 2048)
  widePoison : NatSet
  lst : LatchState
  dropped : Option (BitVec 32 × Word)
  deriving DecidableEq, Repr

/-! ### Contexts (R13 to R22, R41 to R43, R104 to R114) -/

/-- Work class (R14). -/
inductive Cls where
  | owner | harvest
  deriving DecidableEq, Repr

/-- A trap: cause, sub-cause and value (R323). -/
structure Trap where
  code : BitVec 6
  aux : BitVec 8
  tval : Word
  deriving DecidableEq, Repr

/-- A valid entry header (R14, R15). -/
structure Header where
  frm : Nat
  rgn : Nat
  cls : Cls
  em : Bool
  ev : Bool
  ec : Bool
  deriving DecidableEq, Repr

/-- A link register with its presence bit (R41). -/
structure Link where
  value : Word
  present : Bool
  deriving DecidableEq, Repr

/-- The touched-bank mask of R158. -/
structure Touched where
  own : BitVec 96
  remote : List ScullId
  dies : BitVec 8
  glb : Bool
  deriving DecidableEq, Repr

/-- What makes a waiting context reissue its instruction, pc unchanged (R26, R134, R144, R153, R154, R223, R225). -/
inductive Reissue where
  | page (sc : ScullId) (crew : CrewId) (v : Nat)
  | walk (va : Word) (kind : AccessKind)
  | dropped (seq : BitVec 32) (ea : Word)
  | ifetch (pa : Nat)
  | overlap
  | drain
  | engine (mask : BitVec 3)
  | deposit (sc : ScullId)
  | retire
  deriving DecidableEq, Repr

/-- What a WAITING context waits for (R26), with what its completion writes. -/
inductive Wait where
  | reissue (r : Reissue)
  | master (d : Reg) (m : Option Master)
  | divide (d : Reg) (v : Word)
  | access (id : Nat)
  | reservation (d : Reg)
  | siphon
  | krd (d : Reg) (k : BitVec 2)
  | send (id : Nat)
  | semaphore (n : BitVec 5)
  | bind (e : EngineId)
  | posted (e : EngineId) (cmd : Command)
  | fence (scope : Scope) (probes : List ScullId)
  | status (d : Reg) (id : Nat)
  | notice (unit : Bool) (sc : ScullId) (count : BitVec 32)
  | barrier (level : BarLevel) (group : Nat)
  | time (d : Reg) (deadline : Word)
  | tlb (asid : BitVec 16) (page : Option Nat) (agents : List Nat)
  | directory
  | make (slot : ChamberSlot) (d : Reg)
  | attach (slot : ChamberSlot) (d : Reg) (scope : Scope)
  | evict (slot : ChamberSlot)
  | table
  | future (i : FutureIndex) (d : Reg)
  deriving DecidableEq, Repr

/-- The states a freeze interrupts (R13, R126). -/
inductive Prior where
  | starting
  | ready
  | waiting (w : Wait)
  deriving DecidableEq, Repr

/-- A slot's state (R13); a parked context is in no slot. -/
inductive CtxState where
  | free
  | starting
  | ready
  | waiting (w : Wait)
  | frozen (p : Prior)
  deriving DecidableEq, Repr

/-- The reservation a context holds or awaits (R169): its word, and the pc and address of its AQR (R171). -/
structure Reservation where
  sc : ScullId
  word : Nat
  held : Bool
  pc : Word
  ea : Word
  deriving DecidableEq, Repr

/-- A context: its slot's state, its window and everything R13, R41 and R104 give it; back is the AQR to go back to once the access in
flight has completed (R38, R171); barrier its kept arrivals by level, and whether their instance has completed meanwhile (R197). -/
structure Ctx where
  st : CtxState
  base : Nat
  size : Nat
  hdr : Header
  crew : CrewId
  csz : BitVec 11
  cidx : BitVec 11
  g : Tab Word
  gPoison : NatSet
  k : Tab Link
  pc : Word
  back : Option Word
  caps : Tab (BitVec 128)
  prv : Bool
  hnd : Bool
  ppnd : Bool
  tvec : Word
  tpc : Word
  cause : Word
  tval : Word
  tsave : Word
  fflags : BitVec 6
  fen : BitVec 5
  asid : BitVec 16
  ptroot : Word
  icnt : Word
  overlap : List Nat
  deferred : List Trap
  freshTraps : Nat
  touched : Touched
  engineTraps : List (EngineId × Trap)
  resv : Option Reservation
  barrier : List (BarLevel × Bool)
  fetched : Tab Word
  lastIssue : Option Nat
  armed : Bool
  deriving DecidableEq, Repr

/-! ### What is in flight: accesses, messages, packets, parked images -/

/-- Where a memory access lands (R137, R138, R140, R312). -/
inductive Place where
  | page (sc : ScullId) (crew : CrewId) (off : Nat)
  | chamber (slot : ChamberSlot) (gen : BitVec 15) (off : Nat)
  | global (pa : Nat)
  deriving DecidableEq, Repr

/-- The global atomics (R174). -/
inductive AtomOp where
  | add | and | or | xor | min | max | minu | maxu | swap | cas
  deriving DecidableEq, Repr

/-- The deposits (R177). -/
inductive DepOp where
  | add | fadds | faddd | min | max | or
  deriving DecidableEq, Repr

/-- A siphon operation (R184). -/
inductive SipOp where
  | claimWrite | publish (v : Word) | claimRead | free | init (v : Word)
  deriving DecidableEq, Repr

/-- What an instruction other than a load or store does at its scratchpad word (R167, R169, R178, R184). -/
inductive WordOp where
  | fbrd
  | fbput (v : Bool)
  | aqr
  | release (v : Option Word)
  | siphon (op : SipOp)
  | deposit (op : DepOp) (v : Word)
  deriving DecidableEq, Repr

/-- What an access in flight does. -/
inductive AccessOp where
  | load (signed : Bool)
  | store (v : Word)
  | atomic (op : AtomOp) (x : Word) (new : Word)
  | word (w : WordOp)
  deriving DecidableEq, Repr

/-- How far an access has come (R26, R134, R165). -/
inductive AccessPhase where
  | inFlight
  | atPage
  | atWord
  | value (v : Word)
  | accepted
  | trapped (t : Trap)
  deriving DecidableEq, Repr

/-- An outstanding access of a context (R152, R153); sent is the cycle it issued in. -/
structure Access where
  sc : ScullId
  slot : Slot
  op : AccessOp
  place : Place
  ea : Word
  size : Nat
  fe : FullEmpty
  ov : Bool
  d : Reg
  scope : Scope
  asid : BitVec 16
  crew : CrewId
  sent : Nat
  phase : AccessPhase
  deriving DecidableEq, Repr

/-- A SEND on its way, waiting at its target, or delivered (R187). -/
structure SendMsg where
  sc : ScullId
  slot : Slot
  target : ScullId
  targetSlot : Slot
  crew : CrewId
  k : BitVec 2
  value : Word
  ga : Word
  arrived : Option Nat
  held : Option Nat
  report : Option (Option Trap)
  deriving DecidableEq, Repr

/-- An active message (R19, R20, R191): a new context of a crew; the sender is the identifier of the status that answers it. -/
structure LaunchMsg where
  sender : Option Nat
  target : ScullId
  crew : CrewId
  entry : Word
  g1 : Word
  g2 : Word
  header : Option Header
  caps : Tab (BitVec 128)
  asid : BitVec 16
  ptroot : Word
  prv : Bool
  accepted : Bool
  deriving DecidableEq, Repr

/-- A launch status word for its sender (R192), or the trap the message ended in (R305). -/
structure StatusMsg where
  sc : ScullId
  slot : Slot
  d : Reg
  ga : Word
  value : Word
  trap : Option Trap
  deriving DecidableEq, Repr

/-- An outbound fabric-write packet (R386), with the crew of a context that wrote it, and the image of one that was parked since. -/
structure OutPacket where
  master : Master
  flow : BitVec 24
  win : BitVec 16
  aperture : Nat
  off : Nat
  data : List Word
  opened : Nat
  closed : Bool
  crew : CrewId
  held : Option Nat
  deriving DecidableEq, Repr

/-- A context that FWAIT with evict parked (R365), or that revocation parked (R39), and the place of its image among the sixteen of its index
(R288). -/
structure Parked where
  sc : ScullId
  slot : Slot
  ctx : Ctx
  engines : List (EngineId × Engine)
  future : Option (FutureIndex × Reg)
  image : Option Nat
  moved : Bool
  trap : Option Trap
  ready : Bool
  result : Word
  deriving DecidableEq, Repr

/-- A message the endpoint sent: one of R387, or the answer to a fabric-write packet or message (R385). -/
inductive RemoteMsg where
  | call (flow : BitVec 24) (handle deadline rtool : Word) (arg : List Byte)
  | reply (flow : BitVec 24) (handle : Word) (reply : List Byte)
  | fail (flow : BitVec 24) (handle : Word) (reason : BitVec 16)
  | cancel (flow : BitVec 24) (handle : Word)
  | nack (flow : BitVec 24)
  | ack (flow : BitVec 24)
  deriving DecidableEq, Repr

/-- What State.items holds under an identifier. -/
inductive Item where
  | access (a : Access)
  | send (m : SendMsg)
  | launch (m : LaunchMsg)
  | status (m : StatusMsg)
  | packet (p : OutPacket)
  | parked (p : Parked)
  deriving DecidableEq, Repr

/-! ### The scull (R12, R127 to R135, R165, R169, R178, R184, R201) -/

/-- What a frame of the scratchpad holds (R129, R137, R312). A frame that is not listed holds nothing. -/
inductive FrameUse where
  | page (crew : CrewId) (v : Nat)
  | chamber (slot : ChamberSlot) (j : Nat)
  deriving DecidableEq, Repr

/-- Who a reserved frame goes to (R398): a page of an accepted launch or of a refill, a chamber, or a start being reserved. -/
inductive Claimant where
  | page (crew : CrewId) (v : Nat)
  | chamber (slot : ChamberSlot)
  | start (id : Nat)
  deriving DecidableEq, Repr

/-- State of an allocated page (R131); fresh: allocated by an accepted launch and not yet granted its frame (R20, R130). -/
inductive PageState where
  | fresh
  | pinned (f : Nat)
  | unpinning (f : Nat)
  | parked
  | refilling (f : Option Nat)
  deriving DecidableEq, Repr

/-- A crew's core group on a scull: its allocation and page table (R130), its kept frames' successor (R33), the accesses waiting for a
page in order of arrival (R134), and of its parked images the poisoned words (R331) and the beats the cox wrote (R133). -/
structure Group where
  cls : Cls
  frm : Nat
  pages : Tab PageState
  kept : Option (Word × Nat)
  waiters : Tab (List Nat)
  imagePoison : Tab NatSet
  images : Tab (List Nat)
  deriving DecidableEq, Repr

/-- A TLB entry (R142). -/
structure TlbEntry where
  vpn : Nat
  level : Nat
  ppn : Nat
  r : Bool
  w : Bool
  x : Bool
  u : Bool
  glob : Bool
  dirty : Bool
  asid : BitVec 16
  slot : Slot
  used : Nat
  deriving DecidableEq, Repr

/-- A word's reservation: the holder and the waiters in arrival order (R169), contexts as
numbers 64 × scull + slot. -/
structure ResvWord where
  word : Nat
  holder : Option Nat
  queue : List Nat
  deriving DecidableEq, Repr

/-- One entry of a deposit log (R178), and for a spilled one the words the cox wrote for it (R179, R288). -/
structure Deposit where
  crew : CrewId
  chamber : Option (ChamberSlot × BitVec 15)
  off : Nat
  op : DepOp
  value : Word
  cidx : BitVec 11
  slot : Slot
  seq : Nat
  image : List Word
  deriving DecidableEq, Repr

/-- Who waits for a siphon condition (R184, R251, R370): a context by its key, a copy engine, or the injection of a future. -/
inductive SipParty where
  | context (k : Nat)
  | engine (sc : ScullId)
  | future (i : FutureIndex)
  deriving DecidableEq, Repr

/-- One waiter of a siphon condition, in arrival order (R184). -/
structure SipWaiter where
  who : SipParty
  op : SipOp
  d : Reg
  place : Place
  ea : Word
  deriving DecidableEq, Repr

/-- A fabric write at its scull (R253): crew, loc offset, data, the semaphore to signal, and the flow or sender to answer. -/
structure FabricWrite where
  crew : CrewId
  off : Nat
  data : List Word
  sem : Option (BitVec 5)
  flow : Option (BitVec 24)
  deriving DecidableEq, Repr

/-- What a revocation was asked for (R37). -/
inductive RevokeFor where
  | slot (id : Nat)
  | window (slot : Slot)
  | frame (n : Nat)
  | engine (e : EngineId) (slot : Slot)
  | preempt (slot : Slot)
  deriving DecidableEq, Repr

/-- What a decision reserved on a scull (R398): slots and register entries counted against later decisions. -/
structure Hold where
  id : Nat
  slots : Nat
  entries : Nat
  deriving DecidableEq, Repr

/-- A scull apart from its contexts and engines; hbgov is the interval that governs this cycle, occ the occupancy as this cycle began (R103,
R115, R120). -/
structure Scull where
  data : Memory
  full : NatSet
  poison : NatSet
  frames : Tab FrameUse
  dirtyFrames : NatSet
  promised : Tab Claimant
  groups : Tab Group
  dirtyWindows : List (Nat × Nat)
  wordQueues : Tab (List Nat)
  resvs : List ResvWord
  resvOverflow : List (Nat × Nat)
  sipWaiters : List SipWaiter
  sems : Tab (BitVec 32)
  semQueues : Tab (List Nat)
  deposits : List Deposit
  tlb : Tab TlbEntry
  icache : NatSet
  fabric : List FabricWrite
  revokes : List RevokeFor
  granting : Option (RevokeFor × Nat)
  holds : List Hold
  ownerLast : Slot
  harvestLast : Slot
  keepto : BitVec 32
  hbud : BitVec 10
  hbint : BitVec 40
  hbgov : BitVec 40
  hbcnt : BitVec 40
  hbMissed : Bool
  probe : Bool
  notice : BitVec 32
  fenced : Bool
  reserve : List Nat
  occ : Word
  deriving DecidableEq, Repr

/-! ### Shadow sets (R12, R37, R256) -/

/-- An engine's shadow set (R12, R37): the state of a revoked binder. -/
structure Shadow where
  parked : Nat
  e : EngineId
  state : Engine
  deriving DecidableEq, Repr

/-! ### Caching agents and homes (R339 to R347) -/

/-- MOESI states (R341); an invalid line is not listed. -/
inductive Moesi where
  | m | o | e | s
  deriving DecidableEq, Repr

/-- A line in an agent (R341). -/
structure Line where
  st : Moesi
  prev : Option Node
  next : Option Node
  data : BitVec 512
  poison : Bool
  deriving DecidableEq, Repr

/-- A store accepted by a shell L2 and not yet visible outside the shell (R152). -/
structure ShellStore where
  pa : Nat
  size : Nat
  value : Word
  deriving DecidableEq, Repr

/-- A caching agent (R339): its lines, leaving buffer and incarnation; a shell's accepted stores; the migration progress it last received
from the hub (R354); and the lines that it has asked for while dead, whose requests the homes discard (R346). -/
structure Agent where
  lines : Tab Line
  leaving : Tab Line
  inc : BitVec 8
  dead : Bool
  stores : List ShellStore
  stamp : Stamp
  lost : NatSet
  deriving DecidableEq, Repr

/-- A request or write-back that a home serves (R344, R345). -/
inductive HomeReq where
  | read (node : Node) (inc : BitVec 8)
  | write (node : Node) (inc : BitVec 8)
  | writeback (node : Node) (inc : BitVec 8)
  deriving DecidableEq, Repr

/-- A line at its home: HEAD, the open transaction, the requests behind it, the unlink messages of an eviction that have not arrived (R341, R343,
R344), the head of the old list while an open write's forward has not been served (R342), and the requests that stall while the line's chunk is
in motion (R353). -/
structure HomeLine where
  head : Option Node
  tx : Option HomeReq
  queue : List HomeReq
  unlinks : Nat
  prior : Option Node
  stalled : List HomeReq
  deriving DecidableEq, Repr

/-- The memory registers of R349 and the progress of a migration (R350 to R353): capgov is the capacity that governs this cycle's checks,
moving whether the chunk at CHUNK is in motion. -/
structure MemCtl where
  ret : BitVec 16
  lpsz : Nat
  s : Nat
  stkmap : List Nat
  memcap : Nat
  capgov : Nat
  moving : Bool
  chunk : BitVec 32
  fail : BitVec 4
  ref : BitVec 4
  vacd : Bool
  busy : Bool
  vacating : Bool
  mphase : BitVec 32
  rply : BitVec 32
  stale : BitVec 32
  deriving DecidableEq, Repr

/-! ### The launch unit (R283 to R307) -/

/-- STATE of a queue descriptor (R283). -/
inductive QState where
  | disabled | enabled | frozen
  deriving DecidableEq, Repr

/-- What a queue waits for under R291 and R307: the launch unit's notice count and those of the sculls its head names. -/
structure QueueWait where
  unit : BitVec 32
  sculls : List (ScullId × BitVec 32)
  chamber : Option ChamberSlot
  deriving DecidableEq, Repr

/-- A hardware queue (R283, R284, R290). -/
structure Queue where
  asid : BitVec 16
  age : BitVec 8
  lsz : Nat
  priv : Bool
  pri : BitVec 3
  state : QState
  ring : Nat
  head : BitVec 32
  tail : BitVec 32
  capt : Nat
  frec : Nat
  drop : BitVec 32
  out : BitVec 16
  level : Nat
  ageCount : Nat
  wait : Option QueueWait
  deriving DecidableEq, Repr

/-- States of a crew (R300). -/
inductive CrewState where
  | running | signalled | draining | preempted
  deriving DecidableEq, Repr

/-- An open barrier instance (R197, R198): the arrived contexts that hold a slot, those parked by revocation as identifiers of their
images, and those pre-empted by index and slot. -/
structure Barrier where
  level : BarLevel
  group : Nat
  arrived : List Nat
  away : List Nat
  parked : List (BitVec 11 × Slot)
  settle : Bool
  settled : Bool
  deriving DecidableEq, Repr

/-- An entry of a crew's attach table (R317). -/
structure Attach where
  slot : ChamberSlot
  gen : BitVec 15
  count : Nat
  deriving DecidableEq, Repr

/-- A crew (R17, R22, R285, R300): also the packet that pre-empts it, with its ring index; the contexts that ended in the cycle of a PREEMPT not
yet decided (R303); and the sculls it was on before a RESUME (R295, R304). -/
structure Crew where
  cls : Cls
  members : List ScullId
  caps : Tab (BitVec 128)
  asid : BitVec 16
  ptroot : Word
  packet : List Word
  queue : Option QueueId
  ringIndex : BitVec 32
  state : CrewState
  faulted : Bool
  acks : List (BitVec 11 × Slot × Word)
  barriers : List Barrier
  barDone : List (BitVec 11 × Slot × BarLevel)
  attach : List Attach
  depSeq : Tab Nat
  spills : Tab (List Deposit)
  preemptStatus : Option (List Word × Option QueueId × BitVec 32)
  settling : List ScullId
  views : List Bool
  ending : List (ScullId × BitVec 11 × Slot × Option Word)
  left : List ScullId
  deriving DecidableEq, Repr

/-- What a start is for: a new crew (R287, R294), or a pre-empted one (R304). -/
inductive StartKind where
  | crew | resume (crew : CrewId)
  deriving DecidableEq, Repr

/-- A start (R292): where its packet came from (a queue, or the status that answers a CLAUNCH), its members in order of index, how many have
agreed, whether an isolated one made it fail (R337), and for a RESUME the contexts to restart (R304): index, old slot, entry, header. -/
structure Start where
  kind : StartKind
  queue : Option QueueId
  sender : Option Nat
  packet : List Word
  header : Header
  members : List ScullId
  agreed : Nat
  isolated : Bool
  judged : Bool
  committed : Bool
  crew : CrewId
  caps : Tab (BitVec 128)
  asid : BitVec 16
  ptroot : Word
  views : List Bool
  args : List Word
  restarts : List (BitVec 11 × Slot × Word × Header)
  deriving DecidableEq, Repr

/-- The launch unit's own state; scan is the queue that R290's loop tried last without starting it. -/
structure LaunchUnit where
  notice : BitVec 32
  roundRobin : Tab (BitVec 12)
  scan : Option QueueId
  nextCrew : BitVec 32
  starts : Tab Start
  deriving DecidableEq, Repr

/-! ### Chambers (R308 to R322) and futures (R357 to R376) -/

/-- A chamber's state (R313); DEAD has no descriptor. -/
inductive ChamberState where
  | resident | evicting | evicted | refilling
  deriving DecidableEq, Repr

/-- A chamber's lifetime (R310). -/
inductive Life where
  | kernel | job | lease | pinned
  deriving DecidableEq, Repr

/-- A chamber descriptor (R309), with the accesses and contexts waiting on it, the chambers whose eviction its refill waits for (R320), and
whether a launch wants it back once its own eviction has ended (R193). -/
structure Chamber where
  owner : BitVec 16
  name : Word
  interleave : Bool
  fps : Nat
  nfr : Nat
  holders : List (ScullId × Nat)
  state : ChamberState
  life : Life
  writeback : Bool
  faultOnMiss : Bool
  prio : BitVec 3
  backr : Word
  deadl : Word
  ptroot : Word
  atc : Nat
  lastAttach : Nat
  creator : CrewId
  jobp : Word
  jobAsid : BitVec 16
  waiters : List Nat
  chosen : List (ScullId × Nat)
  victims : List ChamberSlot
  wanted : Bool
  blank : Bool
  imagePoison : Tab NatSet
  deriving DecidableEq, Repr

/-- A request that the directory or the table has not answered (R319, R320, R369): the cycle it arrived in, the context or hart, its
instruction, the words it has read, and the chambers whose eviction it waits for. -/
structure TableReq where
  arrived : Nat
  actor : Actor
  instr : Instr
  words : List Word
  victims : List ChamberSlot
  deriving DecidableEq, Repr

/-- The chamber directory (R308, R319). -/
structure Directory where
  live : Tab Chamber
  gens : Tab (BitVec 15)
  requests : List TableReq
  deriving DecidableEq, Repr

/-- A future's state (R358). -/
inductive FutState where
  | idle | armed | pending | fulfilled | timedOut | cancelled
  deriving DecidableEq, Repr

/-- What a committed settlement writes (R370). -/
inductive Payload where
  | bytes (l : List Byte)
  | buffer (sc : ScullId) (base : Word) (len : Nat) (asid : BitVec 16) (root : Word) (prv : Bool) (caps : Tab (BitVec 128))
  | timeout (token : Word)
  | failure (reason : Word)
  deriving DecidableEq, Repr

/-- A future table entry (R358): also the order of its FCALL (R374), the bytes a remote call brought (R387), and how far its settlement has
come (R370): whether the siphon is checked, the offset of the slot that is claimed and not yet published, and whether it is written. -/
structure Future where
  state : FutState
  owner : BitVec 16
  crew : Option CrewId
  chamber : Option (ChamberSlot × BitVec 15)
  flow : Option (BitVec 24 × Word)
  deadline : Option Nat
  siphon : Option (ChamberSlot × BitVec 15 × Nat)
  token : Word
  tool : Nat
  pool : Option (BitVec 4)
  remote : Option (BitVec 24 × Word)
  argBase : Word
  argLen : Word
  caller : CrewId
  arg : List Byte
  order : Nat
  waiters : List Nat
  evicted : List Nat
  committed : Bool
  payload : Option Payload
  settleAs : FutState
  checked : Bool
  claim : Option Word
  filled : Bool
  slots : Nat
  slost : Bool
  fail : Bool
  reason : BitVec 16
  deriving DecidableEq, Repr

/-- The waiters of a settlement, which no longer belong to the entry: they wake in the cycle after it with its state word (R358, R364). -/
structure FutureWake where
  index : FutureIndex
  due : Nat
  word : Word
  waiters : List Nat
  evicted : List Nat
  deriving DecidableEq, Repr

/-- The future table (R357, R360, R369, R376). -/
structure FutTable where
  wakes : List FutureWake
  live : Tab Future
  gens : Tab (BitVec 16)
  retired : NatSet
  pools : Tab (List FutureIndex)
  requests : List TableReq
  busyAt : Option Nat
  takers : List (HartId × BitVec 5 × Word)
  base : Nat
  lsz : Nat
  discarded : Nat
  deriving DecidableEq, Repr

/-! ### Tool harts (R371 to R374) -/

/-- A hart's privilege mode in the RISC-V privileged architecture (R371). -/
inductive HartMode where
  | user | supervisor | machine
  deriving DecidableEq, Repr

/-- What a hart is doing (R330, R374, R389, R390). -/
inductive HartState where
  | running | idle | waitTable | waitTake (rd : BitVec 5) (rec : Word) | frozen | halted
  deriving DecidableEq, Repr

/-- A tool hart: what the spec names of it (R371 to R374); and, by RISC-V, the CSRs of its traps by number, and the line that a load-reserved holds
(R371, R396; log 11). -/
structure Hart where
  x : Tab Word
  pc : Word
  bare : Bool
  asid : BitVec 16
  ptroot : Word
  mode : HartMode
  caps : Tab (BitVec 128)
  hfpool : BitVec 16
  call : Option Word
  st : HartState
  irq : Bool
  csrs : Tab Word
  resv : Option Nat
  access : Option (AccessKind × Word × Nat)
  deriving DecidableEq, Repr

/-! ### The fault unit, host, endpoint, time, power and boot (21, 27) -/

/-- A fault record (R325). -/
structure FaultRec where
  type : BitVec 8
  kind : BitVec 8
  asid : BitVec 16
  seq : BitVec 32
  master : Word
  addr : Word
  pc : Word
  detail : Word
  who : Word
  gtc : Word
  deriving DecidableEq, Repr

/-- The fault unit (R325 to R327). -/
structure FaultUnit where
  sign : BitVec 16
  fsc : BitVec 11
  semn : BitVec 5
  svcHost : Bool
  logBase : Nat
  lsz : Nat
  head : BitVec 32
  tail : BitVec 32
  badv : BitVec 32
  nextSeq : BitVec 32
  held : List FaultRec
  awaiting : List (BitVec 32 × Master)
  deriving DecidableEq, Repr

/-- A signal for the host (R297, R383). -/
structure Signal where
  sign : BitVec 16
  user : BitVec 32
  deriving DecidableEq, Repr

/-- How a signal reached the host (R383): its ring record only, by the posting record, or as an MSI-X vector. -/
inductive Delivered where
  | ringOnly (g : Signal)
  | posted (g : Signal) (record : Word)
  | msix (g : Signal) (vector : BitVec 11)
  deriving DecidableEq, Repr

/-- The host side (R383): the signal registers, host memory, signals held for a full ring, and what was delivered. -/
structure HostPort where
  ring : Word
  lsz : BitVec 4
  head : BitVec 32
  tail : BitVec 32
  stab : Nat
  held : List Signal
  delivered : List Delivered
  mem : Memory
  frozen : NatSet
  requests : List Instr
  discarded : Nat
  deriving DecidableEq, Repr

/-- The Ultra Ethernet endpoint (R384 to R387). -/
structure Endpoint where
  flow : Nat
  win : Nat
  sap : Nat
  sapLsz : Nat
  messages : List RemoteMsg
  stamps : List (BitVec 3 × Nat)
  outFrozen : NatSet
  outClosed : NatSet
  deriving DecidableEq, Repr

/-- Time, power and boot registers (R388 to R390): rateGov is the rate that governs the advance to the next cycle; lateStep a step written after
the first issue of this cycle, which counts for the next (R121, R388); bootAt the cycle in which ST became 1 (R394); the alias key, which no
register reads (R393); and the shells of the column whose coxes the boot has started. -/
structure Power where
  rateOfs : BitVec 32
  rateGov : BitVec 32
  pendingStep : Nat
  lateStep : Nat
  lock : Bool
  lim : BitVec 12
  temp : BitVec 8
  thr : BitVec 3
  matrixThrottled : Bool
  vectorThrottled : Bool
  alarm : Bool
  bootCode : BitVec 8
  bootSt : BitVec 2
  bootAt : Option Nat
  aliasKey : List Byte
  firmwareOn : NatSet
  spdm : List (List Byte)
  corrected : Tab Nat
  deriving DecidableEq, Repr

/-- A firewall window (R392). -/
structure Window where
  base : Nat
  len : Nat
  rd : Bool
  w : Bool
  x : Bool
  deriving DecidableEq, Repr

/-- The configuration table (R391). -/
structure ConfigTable where
  fcs : ShellId
  colw : Nat
  serviceHost : Bool
  s : Nat
  ret : BitVec 16
  stkmap : List Nat
  lpsz : Nat
  ports : BitVec 8
  lim : BitVec 12
  windows : List Window
  deriving DecidableEq, Repr

/-- The serial flash (R390): the key block, the table and the firmware, each with its signature; and whether the memories train. -/
structure Flash where
  keyBlock : List Byte
  keySig : List Byte
  tableBytes : List Byte
  tableSig : List Byte
  firmware : List Byte
  firmwareSig : List Byte
  trains : Bool
  deriving DecidableEq, Repr

/-- A non-leaf entry of a shell walker's cache (R142): the domain and page whose walk read it, its table's level counted from the last,
and its address and value. -/
structure WalkEntry where
  asid : BitVec 16
  vpn : Nat
  level : Nat
  addr : Nat
  word : Word
  deriving DecidableEq, Repr

/-! ### The machine -/

/-- A step that has been set going and not yet taken: the cycle from which it is due, who takes it, and what it is (log 1). -/
structure Pending where
  due : Nat
  actor : Actor
  instr : Instr
  deriving DecidableEq, Repr

/-- The machine. -/
structure State where
  cycle : Nat
  gtcNum : Nat
  agenda : List Pending
  turn : Nat
  actor : Actor
  draws : Nat
  nextId : Nat
  fatal : Bool
  ctxs : Tab Ctx
  sculls : Tab Scull
  engines : Tab Engine
  shadows : Tab Shadow
  items : Tab Item
  walkers : Tab (List WalkEntry)
  isolated : NatSet
  coxFailed : NatSet
  agents : Tab Agent
  homes : Tab HomeLine
  memory : Memory
  linePoison : NatSet
  mc : MemCtl
  queues : Tab Queue
  unit : LaunchUnit
  crews : Tab Crew
  roots : Tab Word
  directory : Directory
  table : FutTable
  harts : Tab Hart
  fs : FaultUnit
  host : HostPort
  ep : Endpoint
  power : Power
  config : ConfigTable
  flash : Flash
  deriving DecidableEq, Repr

/-! ### Values at reset -/

def Header.none : Header := { frm := 0, rgn := 1, cls := .owner, em := false, ev := false, ec := false }

def Touched.none : Touched := { own := 0, remote := [], dies := 0, glb := false }

/-- A FREE slot (R13): at reset no context exists. -/
def Ctx.absent : Ctx :=
  { st := .free, base := 0, size := 0, hdr := .none, crew := 0, csz := 0, cidx := 0, g := [], gPoison := [], k := [], pc := 0,
    back := none, caps := [], prv := false, hnd := false, ppnd := false, tvec := 0, tpc := 0, cause := 0, tval := 0, tsave := 0, fflags := 0,
    fen := 0, asid := 0, ptroot := 0, icnt := 0, overlap := [], deferred := [], freshTraps := 0, touched := .none, engineTraps := [], resv := none,
    barrier := [], fetched := [], lastIssue := none, armed := false }

/-- A scull after reset: scrubbed (R129, R390), its registers as R34, R36 and R115 give them. -/
def Scull.reset : Scull :=
  { data := [], full := [], poison := [], frames := [], dirtyFrames := [], promised := [], groups := [], dirtyWindows := [], wordQueues := [], resvs := [],
    resvOverflow := [], sipWaiters := [], sems := [], semQueues := [], deposits := [], tlb := [], icache := [], fabric := [],
    revokes := [], granting := none, holds := [], ownerLast := 63, harvestLast := 63, keepto := 0x10000, hbud := 0,
    hbint := 0x100000, hbgov := 0x100000, hbcnt := 0, hbMissed := false, probe := false, notice := 0, fenced := false, reserve := [],
    occ := 0x800000000040 }

def Progress.none : Progress :=
  { next := 0, inflight := [], flags := 0, badAt := .none, lanes := [], sources := [], owed := [], claim := .none }

def LatchState.reset : LatchState := { lv := false, lm := 0, lk := 0, lfmt := 0 }

/-- An unbound engine (R229 to R231, R260, R280). -/
def Engine.reset : Engine :=
  { bound := none, queue := [], started := false, prog := .none, badcnt := 0, bad := false, flags := 0, bte := false, fen := 0,
    tpnd := false, frz := false, fwcnt := 0, bindQueue := [], acc := [], accPoison := [], latch := [], latchPoison := false, wide := [], widePoison := [],
    lst := .reset, dropped := none }

def Agent.reset : Agent := { lines := [], leaving := [], inc := 0, dead := false, stores := [], stamp := { phase := 0, chunk := 0 }, lost := [] }

def HomeLine.reset : HomeLine := { head := none, tx := none, queue := [], unlinks := 0, prior := none, stalled := [] }

/-- HBMBASE (R340). -/
def hbmBase : Nat := 0x20000000000

/-- 48 GiB, the bytes of a stack (R348). -/
def stackBytes : Nat := 51539607552

/-- R349 with the defaults of R391; LPSZ 1,024, as fitted (log 9). -/
def MemCtl.reset : MemCtl :=
  { ret := 0, lpsz := 1024, s := 16, stkmap := List.range 16, memcap := hbmBase + 16 * stackBytes, capgov := hbmBase + 16 * stackBytes,
    moving := false, chunk := 0, fail := 0, ref := 0,
    vacd := false, busy := false, vacating := false, mphase := 0, rply := 0, stale := 0 }

/-- R283: AGE 0x10, LSZ 4, every other field 0. -/
def Queue.reset : Queue :=
  { asid := 0, age := 0x10, lsz := 4, priv := false, pri := 0, state := .disabled, ring := 0, head := 0, tail := 0, capt := 0,
    frec := 0, drop := 0, out := 0, level := 0, ageCount := 0, wait := none }

/-- What a CREWID that names no crew reads as: no members. -/
def Crew.none : Crew :=
  { cls := .owner, members := [], caps := [], asid := 0, ptroot := 0, packet := [], queue := .none, ringIndex := 0,
    state := .running, faulted := false, acks := [], barriers := [], barDone := [], attach := [], depSeq := [], spills := [],
    preemptStatus := .none, settling := [], views := [], ending := [], left := [] }

/-- Log 5: the launch unit's notice count and round-robin positions 0, the first CREWID 1. -/
def LaunchUnit.reset : LaunchUnit := { notice := 0, roundRobin := [], scan := none, nextCrew := 1, starts := [] }

def Directory.reset : Directory := { live := [], gens := [], requests := [] }

def FutTable.reset : FutTable :=
  { wakes := [], live := [], gens := [], retired := [], pools := [], requests := [], busyAt := none, takers := [], base := 0, lsz := 0,
    discarded := 0 }

/-- A hart after reset (R371 to R374, R390; log 11). -/
def Hart.reset : Hart :=
  { x := [], pc := 0, bare := true, asid := 0, ptroot := 0, mode := .machine, caps := [], hfpool := 0, call := none, st := .idle,
    irq := false, csrs := [], resv := none, access := none }

def FaultUnit.reset : FaultUnit :=
  { sign := 0, fsc := 0, semn := 0, svcHost := false, logBase := 0, lsz := 0, head := 0, tail := 0, badv := 0, nextSeq := 0,
    held := [], awaiting := [] }

def HostPort.reset : HostPort :=
  { ring := 0, lsz := 0, head := 0, tail := 0, stab := 0, held := [], delivered := [], mem := [], frozen := [], requests := [],
    discarded := 0 }

def Endpoint.reset : Endpoint :=
  { flow := 0, win := 0, sap := 0, sapLsz := 0, messages := [], stamps := [], outFrozen := [], outClosed := [] }

def Power.reset : Power :=
  { rateOfs := 0, rateGov := 0, pendingStep := 0, lateStep := 0, lock := false, lim := 2400, temp := 0, thr := 0, matrixThrottled := false, vectorThrottled := false,
    alarm := false, bootCode := 0, bootSt := 0, bootAt := none, aliasKey := [], firmwareOn := [], spdm := [], corrected := [] }

/-- The defaults of R391. The default firewall windows are the register range and the column's backing (log 9). -/
def ConfigTable.default : ConfigTable :=
  { fcs := 0, colw := 2, serviceHost := false, s := 16, ret := 0, stkmap := List.range 16, lpsz := 1024, ports := 0xFF, lim := 2400,
    windows := [{ base := 0x10000000000, len := 0x10000000000, rd := true, w := true, x := false },
      { base := 0, len := 0x40000000, rd := true, w := true, x := true }] }

/-- The flash as shipped for the model: empty images (log 13). -/
def Flash.default : Flash :=
  { keyBlock := [], keySig := [], tableBytes := [], tableSig := [], firmware := [],
    firmwareSig := [], trains := true }

/-- The machine right after reset: ST = 0, booting; the boot itself is the step RESET, due at once (R390; log 1). -/
def State.reset : State :=
  { cycle := 0, gtcNum := 0, agenda := [{ due := 0, actor := .none, instr := .reset }], turn := 0, actor := .none, draws := 0,
    nextId := 0, fatal := false, ctxs := [], sculls := [], engines := [], shadows := [], items := [], walkers := [], isolated := [],
    coxFailed := [], agents := [], homes := [], memory := [], linePoison := [], mc := .reset, queues := [],
    unit := .reset, crews := [], roots := [], directory := .reset, table := .reset, harts := [], fs := .reset, host := .reset,
    ep := .reset, power := .reset, config := .default, flash := .default }

end Sys2Proof.Machine
end

