-- ==== Sys2Proof/Machine/Physical.lean ====
section
/-! DEFINITION. The pieces of the state by name, the agenda, waits and wakes (R26), and where a physical address lies in the stacks (R340, R348,
R353). -/

namespace Sys2Proof.Machine

/-! ### Pieces of the state -/

/-- The number of a context slot in State.ctxs. -/
def ctxKey (sc : ScullId) (slot : Slot) : Nat := sc.toNat * 64 + slot.toNat
def keyScull (k : Nat) : ScullId := BitVec.ofNat 11 (k / 64)
def keySlot (k : Nat) : Slot := BitVec.ofNat 6 k

def ctxAt (s : State) (k : Nat) : Ctx := tabGet .absent s.ctxs k
def setCtxAt (s : State) (k : Nat) (c : Ctx) : State := { s with ctxs := tabSet s.ctxs k c }
def ctxOf (s : State) (sc : ScullId) (slot : Slot) : Ctx := ctxAt s (ctxKey sc slot)
def setCtx (s : State) (sc : ScullId) (slot : Slot) (c : Ctx) : State := setCtxAt s (ctxKey sc slot) c

def scullOf (s : State) (sc : ScullId) : Scull := tabGet .reset s.sculls sc.toNat
def setScull (s : State) (sc : ScullId) (x : Scull) : State := { s with sculls := tabSet s.sculls sc.toNat x }

def engineIndex : EngineId → Nat
  | .matrix => 0 | .vector => 1 | .copy => 2
def engineKey (sc : ScullId) (e : EngineId) : Nat := sc.toNat * 4 + engineIndex e
def engineOf (s : State) (sc : ScullId) (e : EngineId) : Engine := tabGet .reset s.engines (engineKey sc e)
def setEngine (s : State) (sc : ScullId) (e : EngineId) (x : Engine) : State :=
  { s with engines := tabSet s.engines (engineKey sc e) x }

def crewOf (s : State) (c : CrewId) : Option Crew := tabFind s.crews c.toNat
def setCrew (s : State) (c : CrewId) (x : Crew) : State := { s with crews := tabSet s.crews c.toNat x }
def queueOf (s : State) (q : QueueId) : Queue := tabGet .reset s.queues q.toNat
def setQueue (s : State) (q : QueueId) (x : Queue) : State := { s with queues := tabSet s.queues q.toNat x }
def agentOf (s : State) (n : Node) : Agent := tabGet .reset s.agents n.toNat
def setAgent (s : State) (n : Node) (x : Agent) : State := { s with agents := tabSet s.agents n.toNat x }
def homeOf (s : State) (line : Nat) : HomeLine := tabGet .reset s.homes line
def setHome (s : State) (line : Nat) (x : HomeLine) : State := { s with homes := tabSet s.homes line x }
def hartOf (s : State) (h : HartId) : Hart := tabGet .reset s.harts h.toNat
def setHart (s : State) (h : HartId) (x : Hart) : State := { s with harts := tabSet s.harts h.toNat x }
def itemOf (s : State) (id : Nat) : Option Item := tabFind s.items id
def setItem (s : State) (id : Nat) (x : Item) : State := { s with items := tabSet s.items id x }
def dropItem (s : State) (id : Nat) : State := { s with items := tabDrop s.items id }
/-- A new identifier. -/
def freshId (s : State) : State := { s with nextId := s.nextId + 1 }
def addItem (s : State) (x : Item) : State := freshId (setItem s s.nextId x)

/-- The shell of a scull (R1): eight sculls to a shell. -/
def shellOf (sc : ScullId) : ShellId := BitVec.ofNat 8 (sc.toNat / 8)
/-- The die of a scull (R1): 32 shells to a die. -/
def dieOf (sc : ScullId) : Nat := sc.toNat / 256
/-- The caching agent of a scull's shell (R339). -/
def shellNode (sc : ScullId) : Node := BitVec.ofNat 9 (sc.toNat / 8)
def hartNode : Node := 256
def hubNode : Node := 257

/-! ### Time and the agenda (log 1, log 2) -/

/-- GTC in whole nanoseconds (R388). A cycle is 10/7 ns (R2). -/
def gtcOf (s : State) : Nat := s.gtcNum / (7 * 4294967296)

/-- Puts a step on the agenda, due n cycles from now. -/
def post (s : State) (n : Nat) (a : Actor) (i : Instr) : State :=
  { s with agenda := s.agenda ++ [{ due := s.cycle + n, actor := a, instr := i }] }

/-- Puts a step on the agenda after a time the manual leaves open (log 2). -/
def postLater (s : State) (a : Actor) (i : Instr) : State :=
  post { s with draws := s.draws + 1 } (1 + Config.delay s.draws) a i

/-- Puts a step on the agenda within n cycles, where the manual gives a bound (R5, R37; log 2). -/
def postWithin (s : State) (n : Nat) (a : Actor) (i : Instr) : State :=
  post { s with draws := s.draws + 1 } (1 + Config.delay s.draws % n) a i

/-- Whether such a step is already on the agenda. -/
def isPosted (s : State) (a : Actor) (i : Instr) : Bool := s.agenda.any fun p => p.actor == a && p.instr == i

/-- Posts a step that is not on the agenda yet. -/
def postOnce (s : State) (a : Actor) (i : Instr) : State := if isPosted s a i then s else postLater s a i

/-- Takes a step that is on its way, or a new one, in this cycle. -/
def hasten (s : State) (a : Actor) (i : Instr) : State :=
  post { s with agenda := s.agenda.filter fun p => !(p.actor == a && p.instr == i) } 0 a i

/-- Posts such a step within n cycles where it is not on the agenda yet. -/
def postOnceWithin (s : State) (n : Nat) (a : Actor) (i : Instr) : State := if isPosted s a i then s else postWithin s n a i

/-- A value the manual does not state, and the state that has drawn it (log 2). -/
def drawWord (s : State) : Word × State := (Config.freeWord s.draws, { s with draws := s.draws + 1 })
/-- A choice below n where the manual names no rule (log 2). -/
def drawChoice (s : State) (n : Nat) : Nat × State := (Config.choice s.draws % n, { s with draws := s.draws + 1 })

/-! ### Where a physical address lies (R340, R348, R353) -/

/-- Rows of 1 KiB in a stack (R348). -/
def stackRows : Nat := 50331648

/-- Granules of a migration chunk (R351, R352). -/
def chunkGranules : Nat := 16384

/-- The place of logical stack l, row r: the physical stack's own bytes. -/
def stackPlace (mc : MemCtl) (l r : Nat) : Nat := hbmBase + (mc.stkmap.getD l 0) * stackBytes + r * 1024

/-- Logical stack l with FAIL and S − 1 exchanged (R351). -/
def swapLogical (mc : MemCtl) (l : Nat) : Nat :=
  if l = mc.fail.toNat then mc.s - 1 else if l = mc.s - 1 then mc.fail.toNat else l

/-- The place of granule g under the current progress (R348, R353). -/
def granulePlace (mc : MemCtl) (g : Nat) : Nat :=
  let l := g % mc.s
  let r := g / mc.s
  match mc.mphase.toNat % 4 with
  | 1 => if r / chunkGranules < mc.chunk.toNat then stackPlace mc (swapLogical mc l) r else stackPlace mc l r
  | 3 => if mc.chunk.toNat < g / chunkGranules then stackPlace mc (g % (mc.s - 1)) (g / (mc.s - 1)) else stackPlace mc l r
  | _ => stackPlace mc l r

/-- Where the byte of a physical address is kept. -/
def byteLoc (s : State) (pa : Nat) : Nat :=
  if pa < hbmBase then pa else granulePlace s.mc ((pa - hbmBase) / 1024) + (pa - hbmBase) % 1024

/-- The device register range (R340, R379). -/
def regBase : Nat := 0x10000000000
def inRegisters (pa : Nat) : Bool := regBase ≤ pa && pa < hbmBase

/-- Whether a physical byte is within the capacity that governs this cycle (R140, R340, R350). The register range is judged where it is
reached (R379). -/
def inCapacity (s : State) (pa : Nat) : Bool :=
  if pa < regBase then pa < s.mc.lpsz * 1073741824 else if pa < hbmBase then false else pa < s.mc.capgov

/-! ### Waits and wakes (R26) -/

/-- A wait's end: READY, or frozen with READY to return to (R397). -/
def awake (c : Ctx) : Ctx :=
  match c.st with
  | .frozen _ => { c with st := .frozen .ready }
  | _ => { c with st := .ready }

/-- What a context waits for, frozen or not (R397). -/
def waitOf (c : Ctx) : Option Wait :=
  match c.st with
  | .waiting w => some w
  | .frozen (.waiting w) => some w
  | _ => none

/-- Lets the contexts that wait to reissue for such a cause reissue (R26). -/
def wakeReissue (s : State) (p : Reissue → Bool) : State :=
  { s with ctxs := tabMap (fun _ c => match waitOf c with
      | some (.reissue r) => if p r then awake c else c
      | _ => c) s.ctxs }

end Sys2Proof.Machine
end

