-- ==== Sys2Proof/Machine/Migration.lean ====
section
/-! DEFINITION. The migration of a memory stack as its homes see it (R351 to R354): chunks in motion, the stamps of requests, and how a chunk's
move carries the bytes. The memory is kept by place, so a move of a granule moves its bytes, and every address reads as before. -/

namespace Sys2Proof.Machine

/-! ### Chunks (R351 to R353) -/

/-- The chunk of a migration that a line belongs to (R351, R352), where it moves one. -/
def chunkOf (mc : MemCtl) (line : Nat) : Option Nat :=
  let g := (line * 64 - hbmBase) / 1024
  if line * 64 < hbmBase then none
  else match mc.mphase.toNat % 4 with
    | 1 => if g % mc.s = mc.fail.toNat ∨ g % mc.s = mc.s - 1 then some (g / mc.s / chunkGranules) else none
    | 3 => some (g / chunkGranules)
    | _ => none

/-- Whether a line's chunk is in motion: its requests stall at the home (R353). -/
def inMotion (s : State) (line : Nat) : Bool := s.mc.moving && chunkOf s.mc line == some s.mc.chunk.toNat

/-- Whether the requests already accepted for the chunk at CHUNK have performed (R351, R352): no transaction is open on a
line of it and none waits behind one. -/
def chunkQuiet (s : State) : Bool :=
  s.homes.all fun e => chunkOf s.mc e.1 != some s.mc.chunk.toNat || (e.2.tx.isNone && e.2.queue == [])

/-- Moves the cells of a memory: f gives each cell's new address, or none where its content is lost. -/
def moveCells (m : Memory) (f : Nat → Option Nat) : Memory :=
  m.foldl (fun acc e => match f e.1 with
    | some a => memWrite acc a e.2
    | none => acc) []

/-- Physical stack and row of a place in the stacks. -/
def placeStack (a : Nat) : Nat := (a - hbmBase) / stackBytes
def placeRow (a : Nat) : Nat := (a - hbmBase) % stackBytes / 1024

/-- Where the exchange of a chunk puts a cell (R351). -/
def swapMove (mc : MemCtl) (a : Nat) : Option Nat :=
  let p := mc.stkmap.getD mc.fail.toNat 0
  let q := mc.stkmap.getD (mc.s - 1) 0
  if a < hbmBase ∨ placeRow a / chunkGranules ≠ mc.chunk.toNat then some a
  else if placeStack a = p then some (a - p * stackBytes + q * stackBytes)
  else if placeStack a = q then some (a - q * stackBytes + p * stackBytes)
  else some a

/-- The logical stack of a physical stack. -/
def logicalOf (mc : MemCtl) (p : Nat) : Option Nat := (List.range mc.s).find? fun l => mc.stkmap.getD l 16 = p

/-- The granule under S stacks that a place holds. -/
def placeGranule (mc : MemCtl) (a : Nat) : Option Nat :=
  if a < hbmBase then none else (logicalOf mc (placeStack a)).map fun l => placeRow a * mc.s + l

/-- The granule whose place under S − 1 stacks this is. -/
def targetGranule (mc : MemCtl) (a : Nat) : Option Nat :=
  if a < hbmBase then none
  else (logicalOf mc (placeStack a)).bind fun l => if l = mc.s - 1 then none else some (placeRow a * (mc.s - 1) + l)

/-- A cell's place after a chunk of COMPACT: granules of the chunk move, what stood at their places is overwritten (R352). -/
def compactMove (mc : MemCtl) (a : Nat) : Option Nat :=
  let moved := fun g => g / chunkGranules = mc.chunk.toNat
  match placeGranule mc a with
  | some g =>
    if moved g then some (stackPlace mc (g % (mc.s - 1)) (g / (mc.s - 1)) + (a - hbmBase) % 1024)
    else match targetGranule mc a with
      | some h => if moved h then none else some a
      | none => some a
  | none => some a

/-- The end of COMPACT (R352): S decrements, the stack is retired, MPHASE stable, BUSY clear. -/
def endCompact (s : State) : State :=
  let mc := s.mc
  let p := mc.stkmap.getD (mc.s - 1) 0
  { s with
    memory := moveCells s.memory fun a => if hbmBase ≤ a ∧ placeStack a = p then none else some a
    mc := { mc with s := mc.s - 1, ret := mc.ret ||| (1 <<< p), mphase := mc.mphase + 1, busy := false, moving := false } }

/-- SWAP ends: the map is exchanged and MPHASE is swapped (R351); COMPACT follows. -/
def endSwap (s : State) : State :=
  let mc := s.mc
  let map := (List.range 16).map fun i => mc.stkmap.getD (swapLogical mc i) 0
  postLater { s with mc := { mc with stkmap := map, mphase := mc.mphase + 1, moving := false } } .none .compactChunk

/-- A chunk moves, whose homes' accepted requests have performed (R351, R352); the last one ends its phase. -/
def moveChunk (s : State) : State :=
  match s.mc.mphase.toNat % 4 with
  | 1 =>
    let t := { s with memory := moveCells s.memory (swapMove s.mc), mc := { s.mc with chunk := s.mc.chunk + 1, moving := false } }
    if t.mc.chunk.toNat = 3072 then endSwap t else t
  | 3 =>
    let t := { s with memory := moveCells s.memory (compactMove s.mc), mc := { s.mc with moving := false } }
    if s.mc.chunk = 0 then endCompact t else { t with mc := { t.mc with chunk := s.mc.chunk - 1 } }
  | _ => s

/-! ### Stamps (R354) -/

/-- The migration progress, with the map it is read under. -/
def progressNow (s : State) : Stamp :=
  { phase := s.mc.mphase, chunk := s.mc.chunk, s := s.mc.s, fail := s.mc.fail, stkmap := s.mc.stkmap }

/-- The memory registers as a stamp's agent knows them. -/
def stampMc (mc : MemCtl) (p : Stamp) : MemCtl :=
  { mc with mphase := p.phase, chunk := p.chunk, s := p.s, fail := p.fail, stkmap := p.stkmap }

/-- Whether a request for a line that is routed by a stamp comes to a home that does not hold its granule under the current progress. -/
def misplaced (mc : MemCtl) (p : Stamp) (line : Nat) : Bool :=
  let g := (line * 64 - hbmBase) / 1024
  decide (hbmBase ≤ line * 64) && granulePlace (stampMc mc p) g != granulePlace mc g

/-- An agent about to send a request may have received the hub's progress by now, or not yet (R354; log 73): its stamp. -/
def stampRequest (s : State) (n : Node) : State × Stamp :=
  let a := agentOf s n
  if a.stamp = progressNow s then (s, a.stamp)
  else
    let d := drawChoice s 2
    if d.1 = 0 then (d.2, a.stamp) else (setAgent d.2 n { a with stamp := progressNow s }, progressNow s)

/-- The stamp of the request that arrives in this step. -/
def stampHere (s : State) : Stamp :=
  match s.actor with
  | .request p => p
  | _ => progressNow s

/-- A home that receives a request for a granule it does not hold under the current progress replays it to the right home (R354): it is
counted, and served as if it had arrived there first. -/
def routeRequest (s : State) (p : Stamp) (line : Nat) : State :=
  if misplaced s.mc p line then post s 0 (.request p) (.hbmRequestReplay (line * 64) p.phase p.chunk) else s

/-- The same for a request that an agent sends and its home serves in one step. -/
def routeNow (s : State) (n : Node) (line : Nat) : State :=
  let r := stampRequest s n
  routeRequest r.1 r.2 line

end Sys2Proof.Machine
end

