-- ==== Sys2Proof/Machine/Lines.lean ====
section
/-! DEFINITION. Lines of global memory (R339 to R345): the copy that is current, an agent's lines and a shell's accepted stores (R152), what a
transaction leaves, an agent's access as a transaction completed in its step, and accesses that perform at the home. -/

namespace Sys2Proof.Machine

/-! ### Lines and the current copy (R339, R341) -/

def lineOf (pa : Nat) : Nat := pa / 64
/-- Byte k of a line's data. -/
def lineByte (d : BitVec 512) (k : Nat) : Byte := d.extractLsb' (8 * k) 8
/-- A line's data with byte k replaced. -/
def putLineByte (d : BitVec 512) (k : Nat) (b : Byte) : BitVec 512 :=
  (d &&& ~~~((0xFF : BitVec 512) <<< (8 * k))) ||| (b.setWidth 512 <<< (8 * k))

/-- The 64 bytes memory holds for a line. -/
def memoryLine (s : State) (line : Nat) : BitVec 512 := BitVec.ofNat 512 (memReadNat s.memory (byteLoc s (line * 64)) 64)
def setMemoryLine (s : State) (line : Nat) (d : BitVec 512) : State :=
  { s with memory := memWriteNat s.memory (byteLoc s (line * 64)) 64 d.toNat }
def memoryPoison (s : State) (line : Nat) : Bool := setHas s.linePoison line
def setMemoryPoison (s : State) (line : Nat) (b : Bool) : State := { s with linePoison := setPut s.linePoison line b }

/-- An agent's copy of a line, in its array or in its leaving buffer (R345). -/
def copyOf (s : State) (n : Node) (line : Nat) : Option Line :=
  match tabFind (agentOf s n).lines line with
  | some l => some l
  | none => tabFind (agentOf s n).leaving line

/-- The agent that holds a line's current data: HEAD, or the head of the old list while a write's forward is on its way (R341, R342). -/
def holderOf (s : State) (line : Nat) : Option Node :=
  match (homeOf s line).head with
  | none => none
  | some n => if (copyOf s n line).isSome then some n else (homeOf s line).prior

/-- The current data of a line and its poison (R341): the holder's copy, or memory where no agent holds it. -/
def currentLine (s : State) (line : Nat) : BitVec 512 × Bool :=
  match (holderOf s line).bind fun n => copyOf s n line with
  | some l => (l.data, l.poison)
  | none => (memoryLine s line, memoryPoison s line)

/-- One byte of global memory as it is current. -/
def globalByte (s : State) (pa : Nat) : Byte := lineByte (currentLine s (lineOf pa)).1 (pa % 64)

def globalPoison (s : State) (pa : Nat) : Bool := (currentLine s (lineOf pa)).2

/-- n bytes of global memory, little-endian. -/
def globalRead (s : State) (pa : Nat) : Nat → Nat
  | 0 => 0
  | n + 1 => (globalByte s pa).toNat + 256 * globalRead s (pa + 1) n

/-- A 64-bit word of global memory. -/
def globalWord (s : State) (pa : Nat) : Word := BitVec.ofNat 64 (globalRead s pa 8)

def globalWords (s : State) (pa : Nat) : Nat → List Word
  | 0 => []
  | n + 1 => globalWord s pa :: globalWords s (pa + 8) n

def globalBytes (s : State) (pa : Nat) : Nat → List Byte
  | 0 => []
  | n + 1 => globalByte s pa :: globalBytes s (pa + 1) n

/-! ### Lines of an agent -/

def putLine (s : State) (n : Node) (line : Nat) (l : Line) : State :=
  let a := agentOf s n
  if (tabFind a.lines line).isNone && (tabFind a.leaving line).isSome then setAgent s n { a with leaving := tabSet a.leaving line l }
  else setAgent s n { a with lines := tabSet a.lines line l }

/-- The instruction caches of a shell hold no line that its L2 does not (R145). -/
def dropFetched (s : State) (n : Node) (line : Nat) : State :=
  { s with sculls := tabMap (fun k x => if k / 8 = n.toNat then { x with icache := setDel x.icache line } else x) s.sculls }

/-- The harts' reservations of a line end (R396; log 11). -/
def dropReserved (s : State) (line : Nat) : State :=
  { s with harts := tabMap (fun _ h => if h.resv = some line then { h with resv := none } else h) s.harts }

/-- A line leaves an agent, and with the hart L2's the harts' reservations of it. -/
def dropLine (s : State) (n : Node) (line : Nat) : State :=
  let a := agentOf s n
  let s := if n = hartNode then dropReserved s line else s
  dropFetched (setAgent s n { a with lines := tabDrop a.lines line, leaving := tabDrop a.leaving line }) n line

/-- Changes an agent's copy of a line, if it has one. -/
def modLine (s : State) (n : Node) (line : Nat) (f : Line → Line) : State :=
  match copyOf s n line with
  | some l => putLine s n line (f l)
  | none => s

/-- Lines a shell L2 holds: 2 MiB (R1). -/
def shellL2Lines : Nat := 32768

/-- A line enters an agent's array; a full shell L2 evicts a line of its choice (log 2). -/
def installLine (s : State) (n : Node) (line : Nat) (l : Line) : State :=
  let s := putLine s n line l
  let a := agentOf s n
  if n.toNat < 256 ∧ a.lines.length > shellL2Lines then
    match a.lines[Config.choice s.draws % a.lines.length]? with
    | some v => post { s with draws := s.draws + 1 } 1 .none (.cohEvict n v.1)
    | none => s
  else s

def freshLine (st : Moesi) (d : BitVec 512) (poison : Bool) : Line :=
  { st := st, prev := none, next := none, data := d, poison := poison }

/-- Memory supplies the line: the requester becomes HEAD (R342). -/
def supplyFromMemory (s : State) (n : Node) (line : Nat) (st : Moesi) : State :=
  let s := installLine s n line (freshLine st (memoryLine s line) (memoryPoison s line))
  setHome s line { homeOf s line with head := some n, prior := none }

/-- The head supplies a reader, which is its successor in S; M becomes O and E becomes S (R342). -/
def linkReader (s : State) (n req : Node) (line : Nat) (l : Line) : State :=
  let st : Moesi := match l.st with | .m => .o | .e => .s | x => x
  let s := modLine s n line fun x => { x with st := st, next := some req }
  let s := match l.next with
    | some q => modLine s q line fun x => { x with prev := some req }
    | none => s
  installLine s req line { st := .s, prev := some n, next := l.next, data := l.data, poison := l.poison }

/-- The first of a list departs: HEAD, or the head of the old list of an open write, is its successor (R342, R343). -/
def departFirst (s : State) (n : Node) (line : Nat) (next : Option Node) : State :=
  let h := homeOf s line
  setHome s line { h with
    head := if h.head = some n then next else h.head
    prior := if h.prior = some n then next else h.prior }

/-- Takes an agent out of a line's list, its neighbours joined (R343); the successor of a departed owner heads the list in S. -/
def spliceOut (s : State) (n : Node) (line : Nat) : State :=
  match copyOf s n line with
  | none => s
  | some l =>
    let s := match l.prev with
      | some p => modLine s p line fun x => { x with next := l.next }
      | none => departFirst s n line l.next
    let s := match l.next with
      | some q => modLine s q line fun x => { x with prev := l.prev }
      | none => s
    dropLine s n line

/-! ### A shell's accepted stores (R152) -/

/-- Whether an agent may write a line: it is the owner alone and its write has completed (R342). -/
def ownsLine (s : State) (n : Node) (line : Nat) : Bool :=
  (match tabFind (agentOf s n).lines line with
   | some l => l.st == .m || l.st == .e
   | none => false) &&
  (match (homeOf s line).tx with
   | some (.write w _) => w != n
   | _ => true)

/-- Writes n bytes into a line's data from byte k. -/
def putBytes (d : BitVec 512) (k : Nat) : Nat → Nat → BitVec 512
  | 0, _ => d
  | n + 1, v => putBytes (putLineByte d k (BitVec.ofNat 8 v)) (k + 1) n (v / 256)

/-- Performs the accepted stores of a line that the agent owns, in order (R152, R155); the line becomes M. A copy in S or O has to be upgraded
first (R342). A store is at most 8 bytes, so it clears no poison (R331). -/
def performStores (s : State) (n : Node) (line : Nat) : State :=
  let a := agentOf s n
  match tabFind a.lines line with
  | none => s
  | some l =>
    let mine := a.stores.filter fun t => lineOf t.pa == line
    if mine = [] ∨ l.st = .s ∨ l.st = .o then s
    else
      let d := mine.foldl (fun d t => putBytes d (t.pa % 64) t.size t.value.toNat) l.data
      let s := setAgent s n { a with
        lines := tabSet a.lines line { l with st := .m, data := d },
        stores := a.stores.filter fun t => lineOf t.pa != line }
      wakeReissue s (· == .drain)

/-! ### Transactions completed at once -/

/-- A reader has the line: from memory in E, or from the head in S (R342). -/
def joinLine (s : State) (n : Node) (line : Nat) : State :=
  if (copyOf s n line).isSome then s
  else match (homeOf s line).head with
    | none => supplyFromMemory s n line .e
    | some o => match copyOf s o line with
      | some l => linkReader s o n line l
      | none => supplyFromMemory s n line .e

/-- Every copy of a line is gone, from the instruction caches too. -/
def dropCopies (s : State) (line : Nat) : State :=
  { dropReserved s line with
    agents := tabMap (fun _ a => { a with lines := tabDrop a.lines line, leaving := tabDrop a.leaving line }) s.agents
    sculls := tabMap (fun _ x => { x with icache := setDel x.icache line }) s.sculls }

/-- A writer has the line alone in M, with the current data (R342). -/
def takeLine (s : State) (n : Node) (line : Nat) : State :=
  let cur := currentLine s line
  let s := installLine (dropCopies s line) n line (freshLine .m cur.1 cur.2)
  setHome s line { homeOf s line with head := some n, prior := none }

/-- HEAD as it was before an open write whose forward has not been served (R342). -/
def restoreHead (s : State) (line : Nat) : State :=
  let h := homeOf s line
  if h.prior.isSome then setHome s line { h with head := h.prior, prior := none } else s

/-- What a transaction has done once it is complete (R342, R345). -/
def settleReq (s : State) (line : Nat) (r : HomeReq) : State :=
  match r with
  | .read n _ => if (agentOf s n).dead then s else joinLine s n line
  | .write n _ => if (agentOf s n).dead then restoreHead s line else performStores (takeLine s n line) n line
  | .writeback n _ => match tabFind (agentOf s n).leaving line with
    | some l => spliceOut (if l.st = .m ∨ l.st = .o then setMemoryPoison (setMemoryLine s line l.data) line l.poison else s) n line
    | none => s

/-- Whether a step on the agenda is a message of a line's open transaction. -/
def lineMessage (line : Nat) : Instr → Bool
  | .cohForward _ _ l _ => l == line
  | .cohInvalidateHop _ _ l => l == line
  | .cohInvalidateAck _ l _ _ => l == line
  | .cohCompletionReport _ l _ => l == line
  | .cohUnlink _ l _ _ _ _ => l == line
  | .cohWritebackAck _ l => l == line
  | _ => false

/-- An unlink message's effect (R343). -/
def repoint (s : State) (dst : Option Node) (line : Nat) (side : Bool) (link : Option Node) : State :=
  match dst with
  | none => setHome s line { homeOf s line with head := link }
  | some d => modLine s d line fun x => if side then { x with prev := link } else { x with next := link }

def repointBy (s : State) (i : Instr) : State :=
  match i with
  | .cohUnlink dst line _ _ side link => repoint s dst line side link
  | _ => s

/-- The open transaction of a line and those queued behind it complete now: their messages have taken no longer than that (log 72). -/
def quiesceHome (s : State) (line : Nat) : State :=
  let h := homeOf s line
  if h.tx.isNone && h.queue == [] then s
  else
    let left := s.agenda.filter fun p => lineMessage line p.instr
    let s := { s with agenda := s.agenda.filter fun p => !lineMessage line p.instr }
    let s := left.foldl (fun s p => repointBy s p.instr) s
    let s := setHome s line { homeOf s line with tx := none, queue := [], unlinks := 0 }
    (h.tx.toList ++ h.queue).foldl (fun s r => settleReq s line r) s

/-- The chunk in motion moves now, once what its homes had accepted has performed, and what stalled for it performs after that (R351 to R353): a
request that is served in its own step has stalled until then (log 72). -/
def finishChunk (s : State) : State :=
  let lines := (s.homes.filter fun e => inMotion s e.1).map Prod.fst
  let s := moveChunk (lines.foldl quiesceHome s)
  lines.foldl (fun s l =>
    let h := homeOf s l
    if h.stalled = [] then s else quiesceHome (setHome s l { h with queue := h.stalled, stalled := [] }) l) s

/-- What the home of a line has accepted performs before a request that is served in its own step. -/
def quiesce (s : State) (line : Nat) : State :=
  if inMotion s line then quiesceHome (finishChunk s) line else quiesceHome s line

/-- A request of agent n for a line arrives at the home and is to be served in this step (R344, R353, R354). -/
def atHome (s : State) (n : Node) (line : Nat) : State := quiesce (routeNow s n line) line

/-- The stores that an agent has accepted for a line perform now (R152). -/
def flushLine (s : State) (n : Node) (line : Nat) : State :=
  let a := agentOf s n
  if !a.dead && a.stores.any (fun t => lineOf t.pa == line) then performStores (takeLine (atHome s n line) n line) n line else s

/-- All of them. -/
def flushStores (s : State) (n : Node) : State := (((agentOf s n).stores.map fun t => lineOf t.pa).eraseDups).foldl (fun s l => flushLine s n l) s

/-- An agent reads a line through its cache, as a transaction of its own (R339, R342). A dead agent caches nothing (R346). -/
def fetchLine (s : State) (n : Node) (line : Nat) : State :=
  if (copyOf s n line).isSome ∨ (agentOf s n).dead then s else joinLine (atHome s n line) n line

/-- The lines of k bytes at pa. -/
def fetchRange (s : State) (n : Node) (pa k : Nat) : State :=
  (List.range (lineOf (pa + (k - 1)) + 1 - lineOf pa)).foldl (fun s i => fetchLine s n (lineOf pa + i)) s

/-- A byte as an agent reads it: the latest store its shell has accepted over the current copy (R152, R155). -/
def agentByte (s : State) (n : Node) (pa : Nat) : Byte :=
  match ((agentOf s n).stores.reverse).find? fun t => t.pa ≤ pa && pa < t.pa + t.size with
  | some t => t.value.extractLsb' (8 * (pa - t.pa)) 8
  | none => globalByte s pa

/-- k bytes as an agent reads them, little-endian. -/
def agentRead (s : State) (n : Node) (pa : Nat) : Nat → Nat
  | 0 => 0
  | k + 1 => (agentByte s n pa).toNat + 256 * agentRead s n (pa + 1) k

def agentWord (s : State) (n : Node) (pa : Nat) : Word := BitVec.ofNat 64 (agentRead s n pa 8)

/-! ### Accesses that perform at the home -/

/-- The home takes a line back: memory current, no sharer. -/
def collapseLine (s : State) (line : Nat) : State :=
  let s := quiesce s line
  let cur := currentLine s line
  let s := setMemoryPoison (setMemoryLine s line cur.1) line cur.2
  setHome (dropCopies s line) line { homeOf s line with head := none }

/-- Writes the n low bytes of v at pa as a home transaction; a write of a whole line clears its poison (R331). -/
def globalWrite (s : State) (pa n v : Nat) : State :=
  let s := collapseLine s (lineOf pa)
  let s := collapseLine s (lineOf (pa + (n - 1)))
  let s := { s with memory := memWriteNat s.memory (byteLoc s pa) n v }
  if n = 64 ∧ pa % 64 = 0 then setMemoryPoison s (lineOf pa) false else s

/-- Writes 64-bit words at an 8-byte aligned address, one home transaction each. -/
def globalWriteWords (s : State) (pa : Nat) : List Word → State
  | [] => s
  | w :: t => globalWriteWords (globalWrite s pa 8 w.toNat) (pa + 8) t

/-! ### An agent's writes -/

/-- Writes bytes into a line an agent has alone; one that covers it clears its poison (R331). -/
def writeOwned (s : State) (n : Node) (pa k v : Nat) : State :=
  modLine s n (lineOf pa) fun l =>
    { l with st := .m, data := putBytes l.data (pa % 64) k v, poison := l.poison && !(k == 64 && pa % 64 == 0) }

/-- An agent's write of k bytes inside one line, through its cache (R339, R342): after the stores its shell has accepted for the line. -/
def agentStore (s : State) (n : Node) (pa k v : Nat) : State :=
  let line := lineOf pa
  if (agentOf s n).dead then globalWrite s pa k v
  else
    let s := if ownsLine s n line then s else takeLine (atHome s n line) n line
    writeOwned (performStores s n line) n pa k v

/-- The same for bytes that may run into the next line. -/
def agentWrite (s : State) (n : Node) (pa k v : Nat) : State :=
  let room := 64 - pa % 64
  if k ≤ room then agentStore s n pa k v
  else agentStore (agentStore s n pa room (v % 256 ^ room)) n (pa + room) (k - room) (v / 256 ^ room)

/-- 64-bit words at an 8-byte aligned address, in order. -/
def agentWriteWords (s : State) (n : Node) (pa : Nat) : List Word → State
  | [] => s
  | w :: t => agentWriteWords (agentWrite s n pa 8 w.toNat) n (pa + 8) t

/-- An agent's read of a word and its write of a function of it, indivisibly at the home, after what the home has accepted (R141, R175): the
word as it was. -/
def updateWord (s : State) (n : Node) (pa : Nat) (f : Word → Word) : State × Word :=
  let s := collapseLine (atHome s n (lineOf pa)) (lineOf pa)
  let v := globalWord s pa
  (globalWrite s pa 8 (f v).toNat, v)

/-! ### The hub L2: the launch unit, the future table, the endpoint, the fault unit and the host (R339) -/

/-- Whether k bytes of the hub's own structures lie within capacity; R356 has no row for its units. DESIGN CHOICE (log 84): what they write
outside it is lost, and what they read there is a free value. -/
def hubInside (s : State) (pa k : Nat) : Bool := !inRegisters pa && inCapacity s pa && inCapacity s (pa + (k - 1))

def hubWrite (s : State) (pa k v : Nat) : State := if hubInside s pa k then agentWrite s hubNode pa k v else s
def hubWriteWords (s : State) (pa : Nat) : List Word → State
  | [] => s
  | w :: t => hubWriteWords (hubWrite s pa 8 w.toNat) (pa + 8) t
/-- A word as a unit of the hub reads it. -/
def hubWord (s : State) (pa : Nat) : Word := if hubInside s pa 8 then globalWord s pa else Config.freeWord (s.draws + pa)
def hubWords (s : State) (pa n : Nat) : List Word := (List.range n).map fun i => hubWord s (pa + 8 * i)
/-- A unit of the hub reads k bytes of memory at pa: their lines are in the hub L2 from then on. -/
def hubFetch (s : State) (pa k : Nat) : State :=
  if hubInside s pa k then fetchRange s hubNode pa k else s

end Sys2Proof.Machine
end

