-- ==== Sys2Proof/Machine/Ops.lean ====
section
/-! DEFINITION. The named operations every meaning shares: registers, the end of an instruction, waits and wakes, notices, fault records
and task faults, freezing, taking a trap (R116) and returning from one (R118), and the checks of R56 before an instruction's own. -/

namespace Sys2Proof.Machine

/-- What a meaning answers. -/
abbrev Result := Host.Outcome State Fault Refusal

/-! ### Registers (R41, R42) -/

/-- g0 reads as zero (R42). -/
def readReg (c : Ctx) (r : Reg) : Word := if r = 0 then 0 else tabGet 0 c.g r.toNat

/-- A write to g0 is discarded (R42); a whole entry's write clears its poison (R331). -/
def writeReg (c : Ctx) (r : Reg) (v : Word) : Ctx :=
  if r = 0 then c else { c with g := tabSet c.g r.toNat v, gPoison := setDel c.gPoison r.toNat }

def linkOf (c : Ctx) (k : BitVec 2) : Link := tabGet { value := 0, present := false } c.k k.toNat
def setLink (c : Ctx) (k : BitVec 2) (l : Link) : Ctx := { c with k := tabSet c.k k.toNat l }
def capOf (caps : Tab (BitVec 128)) (n : Nat) : BitVec 128 := tabGet 0 caps n

/-- CTX.STAT (R107). -/
def ctxStat (c : Ctx) : Word :=
  (0 : BitVec 61) ++ (if c.ppnd then 1#1 else 0#1) ++ (if c.hnd then 1#1 else 0#1) ++ (if c.prv then 1#1 else 0#1)

/-! ### The end of an instruction, waits and wakes (R24, R26) -/

/-- A completed instruction: pc at the next word, CTX.ICNT counted (R114). -/
def retire (c : Ctx) : Ctx := { c with pc := c.pc + 8, icnt := c.icnt + 1 }

/-- Completes the issued instruction with the context's registers as in c. -/
def finish (s : State) (sc : ScullId) (slot : Slot) (c : Ctx) : State := setCtx s sc slot (retire c)

/-- Completes the issued instruction with v in gd. -/
def finishReg (s : State) (sc : ScullId) (slot : Slot) (c : Ctx) (d : Reg) (v : Word) : State :=
  finish s sc slot (writeReg c d v)

/-- Takes the context out of rotation (R26). -/
def park (s : State) (sc : ScullId) (slot : Slot) (c : Ctx) (w : Wait) : State :=
  setCtx s sc slot { c with st := .waiting w }

def isFrozen (c : Ctx) : Bool := match c.st with | .frozen _ => true | _ => false
def isFree (c : Ctx) : Bool := match c.st with | .free => true | _ => false

/-- A context whose reservation was cancelled while its instruction was outstanding goes on at its AQR (R38, R171). -/
def goBack (c : Ctx) : Ctx :=
  match c.back with
  | some a => { c with pc := a, back := none }
  | none => c

/-- Ends a wait with the instruction completed. -/
def complete (s : State) (k : Nat) (c : Ctx) : State := setCtxAt s k (awake (goBack (retire c)))

/-- A waiting context waits for something else from now on, frozen or not. -/
def setWait (c : Ctx) (w : Wait) : Ctx :=
  match c.st with
  | .frozen _ => { c with st := .frozen (.waiting w) }
  | _ => { c with st := .waiting w }

/-- The contexts of a crew that exist, as keys in rising order. -/
def crewKeys (s : State) (crew : CrewId) : List Nat :=
  (s.ctxs.filter fun e => e.2.crew == crew && !isFree e.2).map Prod.fst

/-- The contexts of a scull that exist. -/
def scullKeys (s : State) (sc : ScullId) : List Nat :=
  (s.ctxs.filter fun e => e.1 / 64 == sc.toNat && !isFree e.2).map Prod.fst

/-! ### Notices (R192, R195, R307) -/

/-- Ends the LWAITs whose party's count now differs from the one they name (R195). -/
def wakeNotice (s : State) (unit : Bool) (sc : ScullId) (count : BitVec 32) : State :=
  { s with ctxs := tabMap (fun _ c => match waitOf c with
      | some (.notice u p n) => if u = unit ∧ (unit ∨ p = sc) ∧ n ≠ count then awake (goBack (retire c)) else c
      | _ => c) s.ctxs }

/-- The evicted contexts whose future has settled, of some images, try to resume (R365). -/
def wakeEvicted (s : State) (p : Parked → Bool) : State :=
  s.items.foldl (fun s e => match e.2 with
    | .parked q => if q.ready && p q then postOnce s (.item e.1) .fwaitEvictResume else s
    | _ => s) s

/-- The scull's context-free notice: its count increments, LWAITs end, queues and refused evicted contexts retry (R31, R192, R307, R365). -/
def scullNotice (s : State) (sc : ScullId) : State :=
  let n := (scullOf s sc).notice + 1
  let s := wakeNotice (setScull s sc { scullOf s sc with notice := n }) false sc n
  postOnce (wakeEvicted s fun p => p.sc == sc) .none .launchUnitStart

/-- The launch unit's notice (R192). -/
def unitNotice (s : State) : State :=
  let n := s.unit.notice + 1
  let s := wakeNotice { s with unit := { s.unit with notice := n } } true 0 n
  postOnce s .none .launchUnitStart

/-! ### Masters, fault records, signals and task faults (R125, R297, R298, R325, R326) -/

/-- A master coded as the operand of R125. -/
def masterWord : Master → Word
  | .context sc slot => (0 : BitVec 37) ++ sc ++ (0 : BitVec 10) ++ slot
  | .engine sc e => (1 : BitVec 4) ++ (0 : BitVec 33) ++ sc ++ (0 : BitVec 14) ++ e.code
  | .hart h => (2 : BitVec 4) ++ (0 : BitVec 53) ++ h
  | .pcie f => (3 : BitVec 4) ++ (0 : BitVec 52) ++ f
  | .flow f => (4 : BitVec 4) ++ (0 : BitVec 36) ++ f

/-- W5 of a fault record: crew, crew-relative index, slot (R325). -/
def whoWord (crew : CrewId) (cidx : BitVec 11) (slot : Slot) : Word := crew ++ (0 : BitVec 5) ++ cidx ++ (0 : BitVec 10) ++ slot

/-- Sends a record to the fault unit (R325, R326); it takes number FS next, and a TYPE 0x01 record awaits a verdict (R327). -/
def sendRecord (s : State) (type kind : BitVec 8) (asid : BitVec 16) (m : Master) (addr pc detail who : Word) : State :=
  let r : FaultRec := {
    type := type, kind := kind, asid := asid, seq := s.fs.nextSeq, master := masterWord m, addr := addr, pc := pc, detail := detail, who := who, gtc := BitVec.ofNat 64 (gtcOf s) }
  let fs := { s.fs with
    nextSeq := s.fs.nextSeq + 1, held := s.fs.held ++ [r],
    awaiting := if type = 1 then s.fs.awaiting ++ [(s.fs.nextSeq, m)] else s.fs.awaiting }
  postLater { s with fs := fs } .none .faultRecordWrite

/-- A record that names no master, only W1 and W2 (R331, R333, R346, R376). -/
def sendEventRecord (s : State) (type : BitVec 8) (w1 w2 : Word) : State :=
  let r : FaultRec := {
    type := type, kind := 0, asid := 0, seq := s.fs.nextSeq, master := w1, addr := w2, pc := 0, detail := 0,
    who := 0, gtc := BitVec.ofNat 64 (gtcOf s) }
  postLater { s with fs := { s.fs with nextSeq := s.fs.nextSeq + 1, held := s.fs.held ++ [r] } } .none .faultRecordWrite

/-- Word n of a packet (R285). -/
def packetWord (p : List Word) (n : Nat) : Word := p.getD n 0

/-- Hands a signal to the host port (R297, R383). -/
def postSignal (s : State) (sign : BitVec 16) (user : BitVec 32) : State :=
  postLater { s with host := { s.host with held := s.host.held ++ [{ sign := sign, user := user }] } } .none .hostSignal

/-- The signal of a packet (R285 W6). -/
def postPacketSignal (s : State) (p : List Word) : State :=
  postSignal s ((packetWord p 6).extractLsb' 0 16) ((packetWord p 6).extractLsb' 32 32)

/-- The fault record of a queue (R298). -/
def queueFaultWords (s : State) (crew : CrewId) (q : QueueId) (kind aux : BitVec 8) (index : BitVec 32) (w0 master pc tval : Word) :
    List Word :=
  [crew ++ (0 : BitVec 4) ++ q ++ kind ++ aux, index.setWidth 64, w0, master, pc, tval, BitVec.ofNat 64 (gtcOf s), 0]

/-- The queue of a faulting task becomes FROZEN in the same cycle, its uncommitted start is withdrawn (R292), its record is written and the
packet's signal posted (R298). -/
def faultQueue (s : State) (q : QueueId) (crew : CrewId) (kind aux : BitVec 8) (index : BitVec 32) (packet : List Word) (w0 : Word)
    (master pc tval : Word) : State :=
  let x := queueOf s q
  let s := setQueue s q { x with state := .frozen }
  let s := s.unit.starts.foldl (fun s e => if e.2.queue = some q ∧ !e.2.committed then post s 0 (.item e.1) .crewReservationWithdraw else s) s
  let s := hubWriteWords s x.frec (queueFaultWords s crew q kind aux index w0 master pc tval)
  postPacketSignal s packet

/-- The task of a crew faults (R298). A task of CLAUNCH has no queue: its signal alone is posted. -/
def taskFault (s : State) (crew : CrewId) (kind aux : BitVec 8) (master pc tval : Word) : State :=
  match crewOf s crew with
  | none => s
  | some x =>
    let s := setCrew s crew { x with faulted := true }
    match x.queue with
    | some q => faultQueue s q crew kind aux x.ringIndex x.packet (packetWord x.packet 0) master pc tval
    | none => postPacketSignal s x.packet

/-! ### Freezing (R116, R149, R329, R330) -/

/-- Freezes a context: FROZEN over its prior state, one record, the supervisor's message, and the task's fault (R329). -/
def freezeCtx (s : State) (sc : ScullId) (slot : Slot) (prior : Prior) (type kind : BitVec 8) (addr detail : Word)
    (taskKind aux : BitVec 8) (tval : Word) : State :=
  let c := ctxOf s sc slot
  let m := Master.context sc slot
  let s := setCtx s sc slot { c with st := .frozen prior }
  let s := sendRecord s type kind c.asid m addr c.pc detail (whoWord c.crew c.cidx slot)
  let s := postLater s .none (.supervisorFreezeMessage c.crew false slot sc)
  taskFault s c.crew taskKind aux (masterWord m) c.pc tval

/-! ### Taking a trap and returning (R116, R118) -/

/-- CTX.CAUSE of a trap (R110). -/
def causeWord (t : Trap) : Word := (0 : BitVec 48) ++ t.aux ++ (0 : BitVec 2) ++ t.code

/-- DETAIL of a trap freeze (R325). -/
def trapDetail (c : Ctx) (t : Trap) : Word :=
  let detail : Word := causeWord t &&& 0xFFFF
  if c.tvec = 0 then detail ||| 0x10000 else detail

/-- R116: the context enters its handler, or freezes when it is in one or has none. ret is what CTX.TPC takes. -/
def takeTrap (s : State) (sc : ScullId) (slot : Slot) (t : Trap) (ret : Word) : State :=
  let c := ctxOf s sc slot
  let cw := { c with cause := causeWord t, tval := t.tval }
  if c.hnd ∨ c.tvec = 0 then
    freezeCtx (setCtx s sc slot cw) sc slot .ready 0x03 0 t.tval (trapDetail c t) (t.code.setWidth 8) t.aux t.tval
  else
    setCtx s sc slot { cw with st := .ready, tpc := ret, hnd := true, pc := c.tvec }

/-- A trap at the instruction the context's pc addresses. -/
def trap (s : State) (sc : ScullId) (slot : Slot) (code : BitVec 6) (aux : BitVec 8) (tval : Word) : State :=
  takeTrap s sc slot { code := code, aux := aux, tval := tval } (ctxOf s sc slot).pc

/-- A trap that ends a wait of a context. A FROZEN one takes it at its first issue after MTHAW, with pc at the instruction (R336); one whose
reservation was cancelled meanwhile returns to its AQR. -/
def trapWaiting (s : State) (k : Nat) (t : Trap) : State :=
  let c := ctxAt s k
  if isFrozen c then setCtxAt s k { awake c with deferred := c.deferred ++ [t] }
  else takeTrap (setCtxAt s k { c with back := none }) (keyScull k) (keySlot k) t (c.back.getD c.pc)

/-- Illegal instruction with the word as its value (R56, R323). -/
def trapIllegal (s : State) (sc : ScullId) (slot : Slot) (i : Instr) : State :=
  trap s sc slot 0x01 0 ((encode i).getD 0)

/-- R118: back to CTX.TPC, out of the handler. -/
def returnFromTrap (c : Ctx) : Ctx := { c with pc := c.tpc, hnd := false, icnt := c.icnt + 1 }

/-! ### The checks before an instruction's own (R56 steps 2 and 3, R154, R332) -/

/-- A register field within the context's limit (R16). -/
def regInLimit (c : Ctx) (r : Reg) : Bool := r.toNat < 8 * c.hdr.rgn

/-- The destination of an outstanding overlap load (R154). -/
def overlapDest (s : State) (id : Nat) : Option Reg :=
  match itemOf s id with
  | some (.access a) => match a.op with
    | .load _ => if a.d = 0 then none else some a.d
    | _ => none
  | _ => none

/-- Whether an instruction that uses these registers must wait for an overlap load (R154). -/
def mustWaitOverlap (s : State) (c : Ctx) (rs : List Reg) : Bool :=
  c.overlap.any fun id => match overlapDest s id with
    | some d => rs.contains d
    | none => false

/-- The first poisoned register among those read (R332). -/
def poisonedReg (c : Ctx) (rs : List Reg) : Option Reg := rs.find? fun r => r != 0 && setHas c.gPoison r.toNat

/-- An issued instruction: the register limit, privilege, the overlap dependency and poisoned sources, in this order, then the body. An
instruction that no context issues has no effect. -/
def issueBy (i : Instr) (reads writes : List Reg) (privileged : Bool)
    (body : State → ScullId → Slot → Ctx → State) (s : State) : State :=
  match s.actor with
  | .context sc slot =>
    let c := ctxOf s sc slot
    if (reads ++ writes).all (regInLimit c) = false then trapIllegal s sc slot i
    else if privileged ∧ !c.prv then trap s sc slot 0x02 0 ((encode i).getD 0)
    else if mustWaitOverlap s c (reads ++ writes) then park s sc slot c (.reissue .overlap)
    else match poisonedReg c reads with
      | some r => trap s sc slot 0x09 0x05 (r.setWidth 64)
      | none => body s sc slot c
  | _ => s

end Sys2Proof.Machine
end

