-- ==== Sys2Proof/Machine/Operands.lean ====
section
/-! DEFINITION. Operand forms: immediates (R46, R83, R85), shift counts (R80), bit fields (R84), the effective address of format M (R51,
R162) and the record address of format E (R53, R221). -/

namespace Sys2Proof.Machine

/-- sext(imm, 36) (R83). -/
def imm36 (i : BitVec 36) : Word := i.signExtend 64
/-- sext(imm, 43) (R85, R86, R92). -/
def imm43 (i : BitVec 43) : Word := i.signExtend 64
/-- sext(off, 18) (R51). -/
def off18 (i : BitVec 18) : Word := i.signExtend 64
/-- A branch offset counts words of eight bytes (R49, R91). -/
def branchOffset (i : BitVec 29) : Word := i.signExtend 64 * 8

/-- sext(x[31:0], 32). -/
def sext32 (x : Word) : Word := (x.setWidth 32).signExtend 64

/-- A shift count: the six low bits (R80). -/
def countOf (b : Word) : Nat := (b.setWidth 6).toNat

/-- Bytes of a size code (R51). -/
def sizeBytes : Size → Nat
  | .b => 1 | .q => 2 | .h => 4 | .w => 8
/-- Bytes of an atomic's size (R174). -/
def atomBytes : AtomSize → Nat
  | .h => 4 | .w => 8

/-- ea := ga + gb * n + sext(off, 18) (R162, R163). -/
def effAddr (c : Ctx) (m : MemRef) (n : Nat) : Word := readReg c m.a + readReg c m.b * BitVec.ofNat 64 n + off18 m.off

/-- The address of format E: ga + sext(off, 18) (R221, R226). -/
def recordAddr (c : Ctx) (a : Reg) (off : BitVec 18) : Word := readReg c a + off18 off

/-- bytes·8 low bits of v, zero- or sign-extended (R162). -/
def extendValue (signed : Bool) (n : Nat) (v : Word) : Word :=
  match n with
  | 1 => if signed then (v.setWidth 8).signExtend 64 else (v.setWidth 8).setWidth 64
  | 2 => if signed then (v.setWidth 16).signExtend 64 else (v.setWidth 16).setWidth 64
  | 4 => if signed then (v.setWidth 32).signExtend 64 else (v.setWidth 32).setWidth 64
  | _ => v

/-- The registers an address of format M reads. -/
def memRegs (m : MemRef) : List Reg := [m.a, m.b]

/-- ga[pos+width−1 : pos], zero-extended (R84). -/
def fieldZext (v : Word) (pos width : Nat) : Word := (v >>> pos) &&& BitVec.ofNat 64 (2 ^ width - 1)
/-- The same field, sign-extended (R84). -/
def fieldSext (v : Word) (pos width : Nat) : Word := ((v <<< (64 - (pos + width))) : Word).sshiftRight (64 - width)
/-- v with bits pos+width−1 : pos replaced by the low bits of x (R84). -/
def fieldInsert (v x : Word) (pos width : Nat) : Word :=
  let mask : Word := BitVec.ofNat 64 (2 ^ width - 1) <<< pos
  (v &&& ~~~mask) ||| ((x <<< pos) &&& mask)

end Sys2Proof.Machine
end

