-- ==== Sys2Proof/Machine/Flags.lean ====
section
/-! DEFINITION. The flags of scalar floating point (R100, R112): sticky in CTX.FFLAGS, trapping under CTX.FEN. -/

namespace Sys2Proof.Machine

/-- The format of precision bit P (R48). -/
def precFmt : Prec → FpFmt
  | .d => fp64 | .s => fp32

/-- An FP operand: FP32 from bits 31:0 (R48). -/
def fpBits (p : Prec) (v : Word) : Nat :=
  match p with
  | .d => v.toNat
  | .s => (v.setWidth 32).toNat
def fpOperand (p : Prec) (v : Word) : FVal := (precFmt p).read (fpBits p v)

/-- CTX.FFLAGS with the flags of E (R100). -/
def orFlags (c : Ctx) (e : BitVec 5) : Ctx := { c with fflags := c.fflags ||| e.setWidth 6 }

/-- The end of an FP instruction (R100): flags stick; an enabled one traps with gd not written. -/
def finishFp (s : State) (sc : ScullId) (slot : Slot) (c : Ctx) (d : Reg) (r : Word × BitVec 5) : State :=
  let c := orFlags c r.2
  if r.2 &&& c.fen ≠ 0 then trap (setCtx s sc slot c) sc slot 0x05 0 (r.2.setWidth 64)
  else finishReg s sc slot c d r.1

end Sys2Proof.Machine
end

