-- ==== Sys2Proof/Machine/Float.lean ====
section
/-! DEFINITION. Scalar floating point (R94 to R100): each arm reads its operands, computes exactly and delivers once. -/

namespace Sys2Proof.Machine

/-- A result delivered in the format of P, zero-extended (R48). -/
def delivered (p : Prec) (rm : Rounding) (o : FOut) : Word × BitVec 5 :=
  let r := (precFmt p).deliver rm false o
  (BitVec.ofNat 64 r.1, r.2)

/-- gd := round(f ga gb) (R95). -/
def fp2 (i : Instr) (d a b : Reg) (p : Prec) (f : FVal → FVal → Word × BitVec 5) (s : State) : State :=
  issueBy i [a, b] [d] false (fun s sc slot c =>
    finishFp s sc slot c d (f (fpOperand p (readReg c a)) (fpOperand p (readReg c b)))) s

/-- gd := f ga (R95, R97). -/
def fp1 (i : Instr) (d a : Reg) (f : Word → Word × BitVec 5) (s : State) : State :=
  issueBy i [a] [d] false (fun s sc slot c => finishFp s sc slot c d (f (readReg c a))) s

/-- The fused forms (R95): signs of the product and of the addend. -/
def fp3 (i : Instr) (d a b c : Reg) (p : Prec) (rm : Rounding) (negProduct negAddend : Bool) (s : State) : State :=
  issueBy i [a, b, c] [d] false (fun s sc slot x =>
    let u := fpOperand p (readReg x a)
    let v := fpOperand p (readReg x b)
    let w := fpOperand p (readReg x c)
    finishFp s sc slot x d
      (delivered p rm (fpFma rm (if negProduct then u.flip else u) v (if negAddend then w.flip else w)))) s

/-- FMIN and FMAX: the operand delivered keeps its bits; a signalling NaN raises NV (R96). -/
def fpPick (i : Instr) (d a b : Reg) (p : Prec) (pick : FVal → FVal → Option Bool) (s : State) : State :=
  issueBy i [a, b] [d] false (fun s sc slot c =>
    let x := readReg c a
    let y := readReg c b
    let u := fpOperand p x
    let v := fpOperand p y
    let bits := match pick u v with
      | none => (precFmt p).nanBits
      | some true => fpBits p x
      | some false => fpBits p y
    finishFp s sc slot c d (BitVec.ofNat 64 bits, if u.isSnan || v.isSnan then flagNV else 0)) s

/-- The sign moves: no flag, payload kept (R94, R96). -/
def fpSignMove (i : Instr) (d a : Reg) (p : Prec) (f : Bool → Bool) (s : State) : State :=
  issueBy i [a] [d] false (fun s sc slot c =>
    let b := fpBits p (readReg c a)
    let top := (precFmt p).expBits + (precFmt p).fracBits
    finishReg s sc slot c d (BitVec.ofNat 64 (b % 2 ^ top + if f (b.testBit top) then 2 ^ top else 0))) s

/-- FEQ, FLT and FLE (R99). -/
def fpRelation (i : Instr) (d a b : Reg) (p : Prec) (quietRaises : Bool) (rel : FVal → FVal → Bool) (s : State) : State :=
  fp2 i d a b p (fun x y =>
    (if rel x y then 1 else 0,
     if x.isSnan || y.isSnan || (quietRaises && (x.isNan || y.isNan)) then flagNV else 0)) s

def execFadd (d a b : Reg) (p : Prec) (rm : Rounding) (s : State) : Result :=
  .next (fp2 (.fadd d a b p rm) d a b p (fun x y => delivered p rm (fpAdd rm x y)) s)
def execFsub (d a b : Reg) (p : Prec) (rm : Rounding) (s : State) : Result :=
  .next (fp2 (.fsub d a b p rm) d a b p (fun x y => delivered p rm (fpSub rm x y)) s)
def execFmul (d a b : Reg) (p : Prec) (rm : Rounding) (s : State) : Result :=
  .next (fp2 (.fmul d a b p rm) d a b p (fun x y => delivered p rm (fpMul x y)) s)
def execFdiv (d a b : Reg) (p : Prec) (rm : Rounding) (s : State) : Result :=
  .next (fp2 (.fdiv d a b p rm) d a b p (fun x y => delivered p rm (fpDiv x y)) s)
def execFsqrt (d a : Reg) (p : Prec) (rm : Rounding) (s : State) : Result :=
  .next (fp1 (.fsqrt d a p rm) d a (fun x => delivered p rm (fpSqrt (fpOperand p x))) s)
def execFmin (d a b : Reg) (p : Prec) (s : State) : Result := .next (fpPick (.fmin d a b p) d a b p fpPickMin s)
def execFmax (d a b : Reg) (p : Prec) (s : State) : Result := .next (fpPick (.fmax d a b p) d a b p fpPickMax s)
def execFabs (d a : Reg) (p : Prec) (s : State) : Result := .next (fpSignMove (.fabs d a p) d a p (fun _ => false) s)
def execFneg (d a : Reg) (p : Prec) (s : State) : Result := .next (fpSignMove (.fneg d a p) d a p (!·) s)
def execFma (d a b c : Reg) (p : Prec) (rm : Rounding) (s : State) : Result :=
  .next (fp3 (.fma d a b c p rm) d a b c p rm false false s)
def execFms (d a b c : Reg) (p : Prec) (rm : Rounding) (s : State) : Result :=
  .next (fp3 (.fms d a b c p rm) d a b c p rm false true s)
def execFnma (d a b c : Reg) (p : Prec) (rm : Rounding) (s : State) : Result :=
  .next (fp3 (.fnma d a b c p rm) d a b c p rm true true s)
def execFnms (d a b c : Reg) (p : Prec) (rm : Rounding) (s : State) : Result :=
  .next (fp3 (.fnms d a b c p rm) d a b c p rm true false s)

/-- A conversion between the two formats; p is the destination (R48, R97). -/
def convertFp (p : Prec) (rm : Rounding) (x : Word) : Word × BitVec 5 :=
  let src : Prec := match p with | .d => .s | .s => .d
  let v := fpOperand src x
  delivered p rm { v := v, sticky := false, flags := if v.isSnan then flagNV else 0 }
def execFcvtff (d a : Reg) (p : Prec) (rm : Rounding) (s : State) : Result :=
  .next (fp1 (.fcvtff d a p rm) d a (convertFp p rm) s)

/-- FP to a 64-bit integer with its bounds (R97). -/
def convertToInt (p : Prec) (rm : Rounding) (lo hi : Int) (x : Word) : Word × BitVec 5 :=
  let r := fpToInt rm lo hi (fpOperand p x)
  (BitVec.ofInt 64 r.1, r.2)
def execFcvtfi (d a : Reg) (p : Prec) (rm : Rounding) (s : State) : Result :=
  .next (fp1 (.fcvtfi d a p rm) d a (convertToInt p rm (-9223372036854775808) 9223372036854775807) s)
def execFcvtfu (d a : Reg) (p : Prec) (rm : Rounding) (s : State) : Result :=
  .next (fp1 (.fcvtfu d a p rm) d a (convertToInt p rm 0 18446744073709551615) s)
def execFcvtif (d a : Reg) (p : Prec) (rm : Rounding) (s : State) : Result :=
  .next (fp1 (.fcvtif d a p rm) d a (fun x => delivered p rm (exactly (intVal x.toInt))) s)
def execFcvtuf (d a : Reg) (p : Prec) (rm : Rounding) (s : State) : Result :=
  .next (fp1 (.fcvtuf d a p rm) d a (fun x => delivered p rm (exactly (intVal x.toNat))) s)
def execFclass (d a : Reg) (p : Prec) (s : State) : Result :=
  .next (fp1 (.fclass d a p) d a (fun x => (BitVec.ofNat 64 (2 ^ (precFmt p).classOf (fpBits p x)), 0)) s)
def execFeq (d a b : Reg) (p : Prec) (s : State) : Result := .next (fpRelation (.feq d a b p) d a b p false fpEq s)
def execFlt (d a b : Reg) (p : Prec) (s : State) : Result := .next (fpRelation (.flt d a b p) d a b p true fpLt s)
def execFle (d a b : Reg) (p : Prec) (s : State) : Result := .next (fpRelation (.fle d a b p) d a b p true fpLe s)

end Sys2Proof.Machine
end

