-- ==== Sys2Proof/Machine/Record.lean ====
section
/-! DEFINITION. What a post accepts (R59 to R61, R206, R235, R240 to R250, R262 to R268, R274 to R278): formats, the fields of a record by
operand number, and the conditions of every operation. -/

namespace Sys2Proof.Machine

/-! ### Formats (R60) -/

/-- What a format code stands for. -/
inductive FmtKind where
  | fp (f : FpFmt)
  | int (w : Nat) (signed : Bool)
  | mx
  | ternary
  | reserved
  deriving DecidableEq, Repr

def fmtKind (c : BitVec 4) : FmtKind :=
  match c.toNat with
  | 0 => .fp fp64 | 1 => .fp fp32 | 2 => .fp fp16 | 3 => .fp bf16 | 4 => .fp e4m3 | 5 => .fp e5m2 | 6 => .mx
  | 7 => .int 64 true | 8 => .int 32 true | 9 => .int 16 true | 10 => .int 8 true | 11 => .int 8 false
  | 12 => .ternary | _ => .reserved

/-- Element size in bytes; MXFP4 packs two to a byte and is addressed by bytes (R60, R206). -/
def fmtBytes (c : BitVec 4) : Nat :=
  match c.toNat with
  | 0 | 7 => 8 | 1 | 8 => 4 | 2 | 3 | 9 => 2 | _ => 1

/-- The sets F and I of R240. -/
def inF (c : BitVec 4) : Bool := c.toNat ≤ 3
def inI (c : BitVec 4) : Bool := 7 ≤ c.toNat && c.toNat ≤ 11
def inFI (c : BitVec 4) : Bool := inF c || inI c

/-- Whether FMTD holds every FMTA value exactly (R212). -/
def holdsExactly (a d : BitVec 4) : Bool :=
  match fmtKind a, fmtKind d with
  | .fp f, .fp g => decide (f.fracBits ≤ g.fracBits) && decide (f.expBits ≤ g.expBits)
  | .int w sg, .int v tg => if sg == tg then decide (w ≤ v) else !sg && decide (w < v)
  | .int w sg, .fp g => decide ((if sg then w - 1 else w) ≤ g.fracBits + 1)
  | _, _ => false

/-! ### The fields of a record by operand (R57, R59) -/

def recDesc (r : Record) : Nat → Descriptor
  | 0 => r.d0 | 1 => r.d1 | 2 => r.d2 | _ => r.d3
def recFe (r : Record) : Nat → BitVec 2
  | 0 => r.fe0 | 1 => r.fe1 | 2 => r.fe2 | _ => r.fe3
def recSpc (r : Record) : Nat → BitVec 2
  | 0 => r.spc0 | 1 => r.spc1 | 2 => r.spc2 | _ => r.spc3
def recTrip (r : Record) : Nat → Nat
  | 0 => r.t0.toNat | 1 => r.t1.toNat | 2 => r.t2.toNat | _ => r.t3.toNat

/-- RND (R59). -/
def recRnd (r : Record) : Rounding :=
  match r.rnd.toNat with
  | 0 => .rne | 1 => .rtz | 2 => .rup | _ => .rdn
def recSat (r : Record) : Bool := r.sat == 1

def descZero (d : Descriptor) : Bool := d.bits == 0
def stridesZero (d : Descriptor) : Bool := d.s0 == 0 && d.s1 == 0 && d.s2 == 0 && d.s3 == 0
def noRounding (r : Record) : Bool := r.rnd == 0 && r.sat == 0

/-- R61 and R237 apart from the operation's own conditions: the operands it reads, those it writes, the rest zero. -/
def recordForm (r : Record) (src dst : List Nat) : Bool :=
  r.res == 0 && r.t0 != 0 && r.t1 != 0 && r.t2 != 0 && r.t3 != 0 && decide (r.scm.toNat < 2) && (r.semen == 1 || r.semn == 0)
    && (List.range 4).all fun k =>
      if src.contains k then recFe r k != 3 && (recSpc r k == 0 || recSpc r k == 2 || recFe r k == 0)
      else if dst.contains k then decide ((recFe r k).toNat ≤ 1) && (recSpc r k == 0 || recSpc r k == 2 || recFe r k == 0)
      else descZero (recDesc r k) && recFe r k == 0 && recSpc r k == 0

/-- place(D) (R233). -/
def placeOf (r : Record) (g : Word) (k : Nat) : Nat :=
  let base := (recDesc r k).base.toNat
  if recSpc r k = 0 ∨ recSpc r k = 3 then base else (g.toNat + base) % 2 ^ 64

/-- place(D) is a multiple of the element's component size (R235). -/
def placed (r : Record) (g : Word) (k n : Nat) : Bool := placeOf r g k % n == 0

/-! ### The operations' own conditions -/

/-- VPOST (R240 to R249). -/
def vectorLegal (r : Record) (g : Word) : Bool :=
  let a := r.fmta
  let b := r.fmtb
  let d := r.fmtd
  let z := fmtBytes
  let plain := r.opx == 0 && r.scm == 0 && r.spc0 == 0 && r.spc1 == 0 && r.spc2 == 0 && r.spc3 == 0
  let two := recordForm r [1, 2] [0] && placed r g 1 (z a) && placed r g 2 (z b) && placed r g 0 (z d)
  let one := recordForm r [1] [0] && b == 0 && placed r g 1 (z a) && placed r g 0 (z d)
  let same2 := two && a == b && a == d
  let same1 := one && a == d
  let three := recordForm r [1, 2, 3] [0] && a == b && a == d && placed r g 1 (z a) && placed r g 2 (z a) && placed r g 0 (z a)
  let reduces := one && r.d0.s0 == 0
  plain && match r.op.toNat with
    | 0x0001 | 0x0002 | 0x0003 | 0x0006 | 0x0007 => same2 && inFI a
    | 0x0004 => same2 && inF a
    | 0x0005 => three && inFI a && placed r g 3 (z a)
    | 0x0008 | 0x0009 => same1 && inFI a && a != 0xB
    | 0x000A | 0x000B | 0x000D => same1 && inF a
    | 0x000C => two && a == d && inF a && b == 8
    | 0x0010 | 0x0011 | 0x0012 | 0x0013 | 0x0014 | 0x0015 => same2 && inI a && noRounding r
    | 0x0016 => same2 && inI a && a != 0xB && noRounding r
    | 0x0017 => same1 && inI a && noRounding r
    | 0x0018 | 0x0019 | 0x001A => two && a == b && inFI a && inI d && noRounding r
    | 0x001B => three && inI a && noRounding r
    | 0x0020 => one && (inFI a || a == 4 || a == 5) && (inFI d || d == 4 || d == 5)
    | 0x0028 | 0x0029 | 0x002A | 0x002B | 0x002C | 0x002D | 0x002E | 0x002F | 0x0030 =>
      same1 && (a == 1 || a == 2 || a == 3)
    | 0x0038 | 0x0039 | 0x003A => reduces && inFI a && holdsExactly a d
    | 0x003B | 0x003C | 0x003D => reduces && a == d && inI a && noRounding r
    | 0x0040 => recordForm r [1, 2] [0, 3] && a == b && a == d && inF a && placed r g 1 (z a) && placed r g 2 (z a)
        && placed r g 0 (z a) && placed r g 3 (z a)
    | 0x0042 => same2 && inF a
    | 0x0048 => one && a == 0xC && (d == 1 || d == 2 || d == 3 || d == 8 || d == 9 || d == 10) && noRounding r
    | 0x0049 => recordForm r [] [0] && a == 0 && b == 0 && inFI d && placed r g 0 (z d)
    | _ => false

/-- VTWID (R247): OPX gives log2 N and D3 is no address. -/
def twiddleLegal (r : Record) (g : Word) : Bool :=
  recordForm { r with d3 := .ofBits 0 } [1] [0] && r.fe3 == 0 && r.spc0 == 0 && r.spc1 == 0 && r.spc3 == 0 && r.scm == 0
    && r.fmta == r.fmtd && inF r.fmta && r.fmtb == 0 && decide (1 ≤ r.opx.toNat) && decide (r.opx.toNat ≤ 16)
    && placed r g 1 (fmtBytes r.fmta) && placed r g 0 (fmtBytes r.fmtd)

/-- CPOST (R250, R251). -/
def copyLegal (r : Record) (g : Word) : Bool :=
  let a := r.fmta
  let b := r.fmtb
  let d := r.fmtd
  let code := fun (c : BitVec 4) => c != 6 && decide (c.toNat ≤ 12)
  let free := fun (k : Nat) => recSpc r k != 3
  let at_ := fun (k : Nat) (c : BitVec 4) => placed r g k (fmtBytes c)
  r.opx == 0 && r.scm == 0 && noRounding r && match r.op.toNat with
    | 0x0200 => recordForm r [1] [0] && free 0 && free 1 && a == d && code a && b == 0 && at_ 1 a && at_ 0 d
    | 0x0201 => recordForm r [1, 3] [0] && free 0 && free 1 && free 3 && stridesZero r.d1 && a == d && code a && (b == 7 || b == 8)
        && at_ 1 a && at_ 0 d && at_ 3 b
    | 0x0202 => recordForm r [1, 3] [0] && free 0 && free 1 && free 3 && stridesZero r.d0 && a == d && code a && (b == 7 || b == 8)
        && at_ 1 a && at_ 0 d && at_ 3 b
    | 0x0203 | 0x0204 => recordForm r [] [0] && (r.spc0 == 0 || r.spc0 == 2) && r.fe0 == 0 && (d == 0 || d == 7) && a == 0 && b == 0
        && at_ 0 d
    | 0x0205 => recordForm r [1] [0] && r.spc0 == 3 && stridesZero r.d0 && free 1 && a == d && code a && b == 0 && at_ 1 a
        && r.d0.base.toNat % 64 == 0
    | 0x0206 => recordForm r [1] [0] && r.spc1 == 3 && stridesZero r.d1 && free 0 && a == d && code a && b == 0 && at_ 0 d
        && r.d1.base.toNat % 64 == 0
    | 0x0207 => recordForm r [1] [] && r.spc1 == 1 && code a && d == 0 && b == 0 && at_ 1 a
    | _ => false

/-! ### Products (R264 to R268) -/

def mmSpn (r : Record) : Nat := (r.opx.extractLsb' 5 2 : BitVec 2).toNat
def mmLat (r : Record) : Bool := r.opx.getLsbD 4
def mmGth (r : Record) : Bool := r.opx.getLsbD 3
def recClr (r : Record) : Bool := r.opx.getLsbD 2
def recAcc (r : Record) : Nat := (r.opx.extractLsb' 0 2 : BitVec 2).toNat

/-- A case of R265: interpretation, group depth, largest M and N, and what K is a multiple of. -/
structure MmCase where
  interp : BitVec 4
  g : Nat
  most : Nat
  step : Nat
  deriving DecidableEq, Repr

def isFp8 (c : BitVec 4) : Bool := c == 4 || c == 5
def isByteInt (c : BitVec 4) : Bool := c == 0xA || c == 0xB

/-- R265's table. -/
def mmCase (r : Record) : Option MmCase :=
  let a := r.fmta
  let b := r.fmtb
  if r.scm = 1 then
    if (isFp8 a || a == 6) && (isFp8 b || b == 6) then some { interp := 1, g := 32, most := 32, step := 32 } else none
  else if a = 0 ∧ b = 0 then some { interp := 0, g := 1, most := 16, step := 1 }
  else if a = 1 ∧ b = 1 then some { interp := 1, g := 1, most := 32, step := 1 }
  else if (a = 2 ∨ a = 3) ∧ b = a then some { interp := 1, g := 2, most := 32, step := 2 }
  else if isFp8 a && isFp8 b then some { interp := 1, g := 4, most := 32, step := 4 }
  else if isByteInt a && isByteInt b then some { interp := 8, g := 4, most := 32, step := 4 }
  else if (a = 0xC ∧ b = 0xA) ∨ (a = 0xA ∧ b = 0xC) then some { interp := 8, g := 8, most := 32, step := 40 }
  else none

def oddStride (s : BitVec 16) : Bool := s.getLsbD 0

/-- The packed operands step by one along K, MXFP4 by whole bytes at the other level (R266). -/
def packedOk (c : BitVec 4) (s0 other : BitVec 16) : Bool :=
  ((c != 6 && c != 0xC) || s0 == 1) && (c != 6 || !oddStride other)

/-- R268 at the post. -/
def sideOk (r : Record) : Bool :=
  let used := fun (f : Bool) (s : BitVec 16) => f || s == 0
  let sub := fun (s : BitVec 16) => r.d3.base.toNat + 8 * s.toNat
  used (r.scm == 1) r.d3.s0 && used (r.scm == 1) r.d3.s1
    && used (decide (mmSpn r ≠ 0)) r.d3.s2 && (decide (mmSpn r = 0) || sub r.d3.s2 % 16 == 0)
    && used (mmGth r) r.d3.s3 && (!mmGth r || sub r.d3.s3 % 4 == 0)

def productLegal (r : Record) (g : Word) : Bool :=
  match mmCase r with
  | none => false
  | some c =>
    let side := r.scm == 1 || mmGth r || decide (mmSpn r ≠ 0)
    let src := (if mmLat r then [] else [1]) ++ [2] ++ (if side then [3] else [])
    recordForm r src [] && r.fmtd == c.interp && !r.opx.getLsbD 7 && r.rnd == 0
      && decide (r.t1.toNat ≤ c.most) && decide (r.t2.toNat ≤ c.most) && r.t0.toNat % c.step == 0
      && (decide (mmSpn r = 0) || (r.t0.toNat % 24 == 0 && r.fmtb != 0 && r.fmtb != 1 && r.fmtb != 0xC))
      && r.d1.s2 == 0 && r.d1.s3 == 0 && r.d2.s1 == 0 && r.d2.s3 == 0
      && (mmLat r || packedOk r.fmta r.d1.s0 r.d1.s1) && packedOk r.fmtb r.d2.s0 r.d2.s2
      && (!mmLat r || (!mmGth r && r.scm == 0 && (r.fmta == 3 || isFp8 r.fmta)))
      && (!side || sideOk r)
      && (mmLat r || placed r g 1 (fmtBytes r.fmta)) && placed r g 2 (fmtBytes r.fmtb)

/-! ### The other matrix records (R274 to R278) -/

def isInterp (c : BitVec 4) : Bool := c == 0 || c == 1 || c == 8
/-- The formats MLDA loads and MDRN drains (R275, R276). -/
def tileFmt (c : BitVec 4) : Bool := inFI c || isFp8 c
def tileOk (r : Record) (interp : BitVec 4) : Bool :=
  let most := if interp = 0 then 16 else 32
  decide (r.t0.toNat ≤ most) && decide (r.t1.toNat ≤ most) && r.t2 == 1

def matrixOther (r : Record) (g : Word) : Bool :=
  let high := r.opx.extractLsb' 5 3 == (0 : BitVec 3)
  r.scm == 0 && r.fmtb == 0 && high && match r.op.toNat with
    | 0x0108 => recordForm r [1] [] && tileFmt r.fmta && isInterp r.fmtd && tileOk r r.fmtd && !r.opx.getLsbD 4 && !r.opx.getLsbD 3
        && r.d1.s2 == 0 && r.d1.s3 == 0 && placed r g 1 (fmtBytes r.fmta)
    | 0x0109 =>
      if r.opx.getLsbD 4 then
        recordForm r [] [] && r.fmta == 1 && (r.fmtd == 3 || isFp8 r.fmtd) && tileOk r r.fmta && !r.opx.getLsbD 3
      else recordForm r [] [0] && isInterp r.fmta && tileFmt r.fmtd && tileOk r r.fmta && !r.opx.getLsbD 3
        && r.d0.s2 == 0 && r.d0.s3 == 0 && placed r g 0 (fmtBytes r.fmtd)
    | 0x010A => recordForm r [] [] && r.fmta == 0 && isInterp r.fmtd && r.rnd == 0 && !r.opx.getLsbD 4
        && r.t0 == 1 && r.t1 == 1 && r.t2 == 1
    | 0x010B => recordForm r [] [] && r.fmta == 0 && r.fmtd == 0 && r.rnd == 0 && !r.opx.getLsbD 4
        && r.opx.extractLsb' 0 4 != (0 : BitVec 4) && r.t0 == 1 && r.t1 == 1 && r.t2 == 1
    | _ => false

/-- MPOST (R262 to R268, R274 to R278). -/
def matrixLegal (r : Record) (g : Word) : Bool :=
  r.spc0 == 0 && r.spc1 == 0 && r.spc2 == 0 && r.spc3 == 0 && r.t3 == 1
    && (if r.op.toNat = 0x0100 ∨ r.op.toNat = 0x0101 then productLegal r g else matrixOther r g)

/-- Whether a post to an engine accepts a record (R61). -/
def recordLegal (e : EngineId) (r : Record) (g : Word) : Bool :=
  match e with
  | .vector => if r.op.toNat = 0x0041 then twiddleLegal r g else vectorLegal r g
  | .copy => copyLegal r g
  | .matrix => matrixLegal r g

end Sys2Proof.Machine
end

