-- ==== Sys2Proof/Machine/Integer.lean ====
section
/-! DEFINITION. Integer arithmetic, logic, shifts, bit instructions, constants, comparison and select (R78 to R90), and division
(R81, R82). Each arm has its own meaning over the shared three-register, two-register and immediate forms. -/

namespace Sys2Proof.Machine

/-! ### The shared forms -/

/-- gd := f ga gb (R78). -/
def alu3 (i : Instr) (d a b : Reg) (f : Word → Word → Word) (s : State) : State :=
  issueBy i [a, b] [d] false (fun s sc slot c => finishReg s sc slot c d (f (readReg c a) (readReg c b))) s

/-- gd := f ga (R87). -/
def alu2 (i : Instr) (d a : Reg) (f : Word → Word) (s : State) : State :=
  issueBy i [a] [d] false (fun s sc slot c => finishReg s sc slot c d (f (readReg c a))) s

/-- gd := v, from pc and the old gd where they matter (R85, R86). -/
def alu1 (i : Instr) (reads : List Reg) (d : Reg) (f : Ctx → Word) (s : State) : State :=
  issueBy i reads [d] false (fun s sc slot c => finishReg s sc slot c d (f c)) s

/-- 1 when the relation holds, 0 otherwise (R89). -/
def boolWord (b : Bool) : Word := if b then 1 else 0

/-- A signed saturating result: the nearer bound, and whether it was clamped (R79). -/
def saturate64 (x : Int) : Word × Bool :=
  if x < -9223372036854775808 then (BitVec.ofInt 64 (-9223372036854775808), true)
  else if x > 9223372036854775807 then (BitVec.ofInt 64 9223372036854775807, true)
  else (BitVec.ofInt 64 x, false)

/-- ADDS and SUBS: SAT is sticky and never traps (R79). -/
def aluSat (i : Instr) (d a b : Reg) (f : Int → Int → Int) (s : State) : State :=
  issueBy i [a, b] [d] false (fun s sc slot c =>
    let r := saturate64 (f (readReg c a).toInt (readReg c b).toInt)
    let c := if r.2 then { c with fflags := c.fflags ||| 0x20 } else c
    finishReg s sc slot c d r.1) s

/-! ### The functions of R78, R80, R84, R87, R88 -/

def minSigned (x y : Word) : Word := if x.slt y then x else y
def maxSigned (x y : Word) : Word := if x.slt y then y else x
def minUnsigned (x y : Word) : Word := if x.ult y then x else y
def maxUnsigned (x y : Word) : Word := if x.ult y then y else x
/-- −2^63 gives itself. -/
def absWord (x : Word) : Word := if x.msb then -x else x
def mulHighSigned (x y : Word) : Word := BitVec.ofInt 64 (x.toInt * y.toInt / 18446744073709551616)
def mulHighUnsigned (x y : Word) : Word := BitVec.ofNat 64 (x.toNat * y.toNat / 18446744073709551616)
def mulHighMixed (x y : Word) : Word := BitVec.ofInt 64 (x.toInt * (y.toNat : Int) / 18446744073709551616)
def mulWord32 (x y : Word) : Word := sext32 ((x.setWidth 32).setWidth 64 * (y.setWidth 32).setWidth 64)
def shiftLeft (x : Word) (n : Nat) : Word := x <<< n
def shiftRight (x : Word) (n : Nat) : Word := x >>> n
def shiftArith (x : Word) (n : Nat) : Word := x.sshiftRight n
def rotLeft (x : Word) (n : Nat) : Word := x.rotateLeft n
def rotRight (x : Word) (n : Nat) : Word := x.rotateRight n

/-- Bits of x from bit n down that are zero before the first one. -/
def leadingZeros (x : Word) : Nat → Nat
  | 0 => 0
  | n + 1 => if x.getLsbD n then 0 else 1 + leadingZeros x n
/-- Zero bits from bit k up before the first one, among n bits. -/
def trailingZeros (x : Word) (k : Nat) : Nat → Nat
  | 0 => 0
  | n + 1 => if x.getLsbD k then 0 else 1 + trailingZeros x (k + 1) n
/-- One bits among the n low bits. -/
def onesIn (x : Word) : Nat → Nat
  | 0 => 0
  | n + 1 => (if x.getLsbD n then 1 else 0) + onesIn x n
def clzWord (x : Word) : Word := BitVec.ofNat 64 (leadingZeros x 64)
def ctzWord (x : Word) : Word := BitVec.ofNat 64 (trailingZeros x 0 64)
def popWord (x : Word) : Word := BitVec.ofNat 64 (onesIn x 64)
/-- gd[i] := ga[63 − i]. -/
def reverseBits (x : Word) : Word := x.reverse
def swapBytes (x : Word) : Word :=
  x.extractLsb' 0 8 ++ x.extractLsb' 8 8 ++ x.extractLsb' 16 8 ++ x.extractLsb' 24 8 ++ x.extractLsb' 32 8
    ++ x.extractLsb' 40 8 ++ x.extractLsb' 48 8 ++ x.extractLsb' 56 8
/-- MKCORE (R88). -/
def coreAddress (x y : Word) : Word := (0 : BitVec 13) ++ (x.setWidth 11) ++ (y.setWidth 40)

/-! ### Division (R81, R82) -/

/-- Quotient and remainder of two w-bit operands as Int, signed or not, by the cases of R81. -/
def divide (w : Nat) (signed : Bool) (x y : Word) : Int × Int :=
  let xs : Int := if signed then (x.setWidth w).toInt else (x.setWidth w).toNat
  let ys : Int := if signed then (y.setWidth w).toInt else (y.setWidth w).toNat
  if ys = 0 then (-1, xs) else (xs.tdiv ys, xs - xs.tdiv ys * ys)

/-- What a division writes: quotient or remainder, sign-extended from bit 31 when the operands have 32 bits (R81). The quotient of the
most negative number by −1 wraps to itself. -/
def divideResult (w : Nat) (signed rem : Bool) (x y : Word) : Word :=
  let qm := divide w signed x y
  let r : Int := if rem then qm.2 else qm.1
  if w = 32 then sext32 (BitVec.ofInt 64 r) else BitVec.ofInt 64 r

/-- R82: 10 to 40 cycles, a function of the operands alone. -/
def divideCycles (x y : Word) : Nat := 10 + Config.divideTime x y % 31

/-- A division issues: the context waits, and the result is written at DIVIDE_COMPLETE (R26, R82). -/
def divIssue (i : Instr) (w : Nat) (signed rem : Bool) (d a b : Reg) (s : State) : State :=
  issueBy i [a, b] [d] false (fun s sc slot c =>
    let x := readReg c a
    let y := readReg c b
    post (park s sc slot c (.divide d (divideResult w signed rem x y))) (divideCycles x y) (.context sc slot) .divideComplete) s

/-! ### One meaning for each arm -/

def execAdd (d a b : Reg) (s : State) : Result := .next (alu3 (.add d a b) d a b (· + ·) s)
def execSub (d a b : Reg) (s : State) : Result := .next (alu3 (.sub d a b) d a b (· - ·) s)
def execAddw (d a b : Reg) (s : State) : Result := .next (alu3 (.addw d a b) d a b (fun x y => sext32 (x + y)) s)
def execSubw (d a b : Reg) (s : State) : Result := .next (alu3 (.subw d a b) d a b (fun x y => sext32 (x - y)) s)
def execMin (d a b : Reg) (s : State) : Result := .next (alu3 (.min d a b) d a b minSigned s)
def execMax (d a b : Reg) (s : State) : Result := .next (alu3 (.max d a b) d a b maxSigned s)
def execMinu (d a b : Reg) (s : State) : Result := .next (alu3 (.minu d a b) d a b minUnsigned s)
def execMaxu (d a b : Reg) (s : State) : Result := .next (alu3 (.maxu d a b) d a b maxUnsigned s)
def execAbs (d a : Reg) (s : State) : Result := .next (alu2 (.abs d a) d a absWord s)
def execAdds (d a b : Reg) (s : State) : Result := .next (aluSat (.adds d a b) d a b (· + ·) s)
def execSubs (d a b : Reg) (s : State) : Result := .next (aluSat (.subs d a b) d a b (· - ·) s)
def execAddi (d a : Reg) (i : BitVec 36) (s : State) : Result := .next (alu2 (.addi d a i) d a (· + imm36 i) s)
def execAddwi (d a : Reg) (i : BitVec 36) (s : State) : Result :=
  .next (alu2 (.addwi d a i) d a (fun x => sext32 (x + imm36 i)) s)
def execAndi (d a : Reg) (i : BitVec 36) (s : State) : Result := .next (alu2 (.andi d a i) d a (· &&& imm36 i) s)
def execOri (d a : Reg) (i : BitVec 36) (s : State) : Result := .next (alu2 (.ori d a i) d a (· ||| imm36 i) s)
def execXori (d a : Reg) (i : BitVec 36) (s : State) : Result := .next (alu2 (.xori d a i) d a (· ^^^ imm36 i) s)
def execMul (d a b : Reg) (s : State) : Result := .next (alu3 (.mul d a b) d a b (· * ·) s)
def execMulh (d a b : Reg) (s : State) : Result := .next (alu3 (.mulh d a b) d a b mulHighSigned s)
def execMulhu (d a b : Reg) (s : State) : Result := .next (alu3 (.mulhu d a b) d a b mulHighUnsigned s)
def execMulhsu (d a b : Reg) (s : State) : Result := .next (alu3 (.mulhsu d a b) d a b mulHighMixed s)
def execMulw (d a b : Reg) (s : State) : Result := .next (alu3 (.mulw d a b) d a b mulWord32 s)
def execDiv (d a b : Reg) (s : State) : Result := .next (divIssue (.div d a b) 64 true false d a b s)
def execDivu (d a b : Reg) (s : State) : Result := .next (divIssue (.divu d a b) 64 false false d a b s)
def execRem (d a b : Reg) (s : State) : Result := .next (divIssue (.rem d a b) 64 true true d a b s)
def execRemu (d a b : Reg) (s : State) : Result := .next (divIssue (.remu d a b) 64 false true d a b s)
def execDivw (d a b : Reg) (s : State) : Result := .next (divIssue (.divw d a b) 32 true false d a b s)
def execDivuw (d a b : Reg) (s : State) : Result := .next (divIssue (.divuw d a b) 32 false false d a b s)
def execAnd (d a b : Reg) (s : State) : Result := .next (alu3 (.and d a b) d a b (· &&& ·) s)
def execOr (d a b : Reg) (s : State) : Result := .next (alu3 (.or d a b) d a b (· ||| ·) s)
def execXor (d a b : Reg) (s : State) : Result := .next (alu3 (.xor d a b) d a b (· ^^^ ·) s)
def execAndn (d a b : Reg) (s : State) : Result := .next (alu3 (.andn d a b) d a b (fun x y => x &&& ~~~y) s)
def execOrn (d a b : Reg) (s : State) : Result := .next (alu3 (.orn d a b) d a b (fun x y => x ||| ~~~y) s)
def execXnor (d a b : Reg) (s : State) : Result := .next (alu3 (.xnor d a b) d a b (fun x y => ~~~(x ^^^ y)) s)
def execSll (d a b : Reg) (s : State) : Result := .next (alu3 (.sll d a b) d a b (fun x y => shiftLeft x (countOf y)) s)
def execSrl (d a b : Reg) (s : State) : Result := .next (alu3 (.srl d a b) d a b (fun x y => shiftRight x (countOf y)) s)
def execSra (d a b : Reg) (s : State) : Result := .next (alu3 (.sra d a b) d a b (fun x y => shiftArith x (countOf y)) s)
def execRol (d a b : Reg) (s : State) : Result := .next (alu3 (.rol d a b) d a b (fun x y => rotLeft x (countOf y)) s)
def execRor (d a b : Reg) (s : State) : Result := .next (alu3 (.ror d a b) d a b (fun x y => rotRight x (countOf y)) s)
def execSlli (d a : Reg) (n : BitVec 6) (s : State) : Result := .next (alu2 (.slli d a n) d a (shiftLeft · n.toNat) s)
def execSrli (d a : Reg) (n : BitVec 6) (s : State) : Result := .next (alu2 (.srli d a n) d a (shiftRight · n.toNat) s)
def execSrai (d a : Reg) (n : BitVec 6) (s : State) : Result := .next (alu2 (.srai d a n) d a (shiftArith · n.toNat) s)
def execRori (d a : Reg) (n : BitVec 6) (s : State) : Result := .next (alu2 (.rori d a n) d a (rotRight · n.toNat) s)
def execClz (d a : Reg) (s : State) : Result := .next (alu2 (.clz d a) d a clzWord s)
def execCtz (d a : Reg) (s : State) : Result := .next (alu2 (.ctz d a) d a ctzWord s)
def execPopc (d a : Reg) (s : State) : Result := .next (alu2 (.popc d a) d a popWord s)
def execBrev (d a : Reg) (s : State) : Result := .next (alu2 (.brev d a) d a reverseBits s)
def execBswap (d a : Reg) (s : State) : Result := .next (alu2 (.bswap d a) d a swapBytes s)
def execSextb (d a : Reg) (s : State) : Result := .next (alu2 (.sextb d a) d a (extendValue true 1) s)
def execSextq (d a : Reg) (s : State) : Result := .next (alu2 (.sextq d a) d a (extendValue true 2) s)
def execSexth (d a : Reg) (s : State) : Result := .next (alu2 (.sexth d a) d a (extendValue true 4) s)
def execZextb (d a : Reg) (s : State) : Result := .next (alu2 (.zextb d a) d a (extendValue false 1) s)
def execZextq (d a : Reg) (s : State) : Result := .next (alu2 (.zextq d a) d a (extendValue false 2) s)
def execZexth (d a : Reg) (s : State) : Result := .next (alu2 (.zexth d a) d a (extendValue false 4) s)
def execBfx (d a : Reg) (p m : BitVec 6) (s : State) : Result :=
  .next (alu2 (.bfx d a p m) d a (fieldSext · p.toNat (m.toNat + 1)) s)
def execBfxu (d a : Reg) (p m : BitVec 6) (s : State) : Result :=
  .next (alu2 (.bfxu d a p m) d a (fieldZext · p.toNat (m.toNat + 1)) s)
def execBfi (d a : Reg) (p m : BitVec 6) (s : State) : Result :=
  .next (alu1 (.bfi d a p m) [d, a] d (fun c => fieldInsert (readReg c d) (readReg c a) p.toNat (m.toNat + 1)) s)
def execMovi (d : Reg) (i : BitVec 43) (s : State) : Result := .next (alu1 (.movi d i) [] d (fun _ => imm43 i) s)
def execMovhi (d : Reg) (i : BitVec 21) (s : State) : Result :=
  .next (alu1 (.movhi d i) [d] d (fun c => i ++ (readReg c d).setWidth 43) s)
def execAddpc (d : Reg) (i : BitVec 43) (s : State) : Result := .next (alu1 (.addpc d i) [] d (fun c => c.pc + imm43 i) s)
def execMkcore (d a b : Reg) (s : State) : Result := .next (alu3 (.mkcore d a b) d a b coreAddress s)
def execSlt (d a b : Reg) (s : State) : Result := .next (alu3 (.slt d a b) d a b (fun x y => boolWord (x.slt y)) s)
def execSltu (d a b : Reg) (s : State) : Result := .next (alu3 (.sltu d a b) d a b (fun x y => boolWord (x.ult y)) s)
def execSeq (d a b : Reg) (s : State) : Result := .next (alu3 (.seq d a b) d a b (fun x y => boolWord (x == y)) s)
def execSne (d a b : Reg) (s : State) : Result := .next (alu3 (.sne d a b) d a b (fun x y => boolWord (x != y)) s)
def execSlti (d a : Reg) (i : BitVec 36) (s : State) : Result :=
  .next (alu2 (.slti d a i) d a (fun x => boolWord (x.slt (imm36 i))) s)
def execSltui (d a : Reg) (i : BitVec 36) (s : State) : Result :=
  .next (alu2 (.sltui d a i) d a (fun x => boolWord (x.ult (imm36 i))) s)
def execSeqi (d a : Reg) (i : BitVec 36) (s : State) : Result :=
  .next (alu2 (.seqi d a i) d a (fun x => boolWord (x == imm36 i)) s)
def execSel (d a b c : Reg) (s : State) : Result :=
  .next (issueBy (.sel d a b c) [a, b, c] [d] false
    (fun s sc slot x => finishReg s sc slot x d (if readReg x c ≠ 0 then readReg x a else readReg x b)) s)

/-- DIVIDE_COMPLETE (R82): gd is written and the context becomes READY. -/
def execDivideComplete (s : State) : Result :=
  match s.actor with
  | .context sc slot =>
    let c := ctxOf s sc slot
    match waitOf c with
    | some (.divide d v) => .next (complete s (ctxKey sc slot) (writeReg c d v))
    | _ => .next s
  | _ => .next s

/-! ### Transfer of control (R49, R91, R92) -/

/-- R49. -/
def condHolds (cond : Cond) (x y : Word) : Bool :=
  match cond with
  | .eq => x == y | .ne => x != y | .lt => x.slt y | .ge => !x.slt y | .ltu => x.ult y | .geu => !x.ult y

/-- Completes an instruction that sets pc. -/
def finishAt (s : State) (sc : ScullId) (slot : Slot) (c : Ctx) (pc : Word) : State :=
  setCtx s sc slot { c with pc := pc, icnt := c.icnt + 1 }

def execB (cond : Cond) (a b : Reg) (off : BitVec 29) (s : State) : Result :=
  .next (issueBy (.b cond a b off) [a, b] [] false (fun s sc slot c =>
    finishAt s sc slot c (if condHolds cond (readReg c a) (readReg c b) then c.pc + branchOffset off else c.pc + 8)) s)

def execJl (d : Reg) (i : BitVec 43) (s : State) : Result :=
  .next (issueBy (.jl d i) [] [d] false (fun s sc slot c =>
    finishAt s sc slot (writeReg c d (c.pc + 8)) (c.pc + imm43 i * 8)) s)

/-- JLR: a misaligned target traps with gd unchanged (R92). -/
def execJlr (d a : Reg) (i : BitVec 36) (s : State) : Result :=
  .next (issueBy (.jlr d a i) [a] [d] false (fun s sc slot c =>
    let target := readReg c a + imm36 i
    if target.setWidth 3 ≠ 0#3 then trap s sc slot 0x03 0 target
    else finishAt s sc slot (writeReg c d (c.pc + 8)) target) s)

end Sys2Proof.Machine
end

