-- ==== Sys2Proof/Machine/Coherence.lean ====
section
/-! DEFINITION. The messages of the coherence domain (R342 to R347): the home's transactions, evictions and the leaving buffer, incarnations and
dead agents; and a shell's accepted stores (R152). -/

namespace Sys2Proof.Machine

/-- Whether a message's sender runs under an older incarnation (R346). -/
def staleInc (s : State) (n : Node) (inc : BitVec 8) : Bool := (agentOf s n).inc != inc

/-- A stale message is discarded, counted and recorded (R346). -/
def discardStale (s : State) (n : Node) (line : Nat) : State :=
  sendEventRecord { s with mc := { s.mc with stale := s.mc.stale + 1 } } 0x07 (n.setWidth 64) (BitVec.ofNat 64 (line * 64))

/-! ### Requests (R346, R354) -/

/-- The incarnation under which an agent sends: one declared dead that has not returned to service has not taken up the raised one, and its
messages are discarded (R346). -/
def sentInc (s : State) (n : Node) : BitVec 8 :=
  let a := agentOf s n
  if a.dead then a.inc - 1 else a.inc

def sendRead (s : State) (n : Node) (line : Nat) : State :=
  let r := stampRequest s n
  postOnce r.1 (.request r.2) (.cohRead n line (sentInc s n))

def sendWrite (s : State) (n : Node) (line : Nat) : State :=
  let r := stampRequest s n
  postLater r.1 (.request r.2) (.cohWrite n line (sentInc s n))

/-- The agent for which the message of this step travels, and its incarnation as it was sent (R346): one that names none is the requester's. -/
def travelsFor (s : State) (req : Node) : Node × BitVec 8 :=
  match s.actor with
  | .agent n inc => (n, inc)
  | _ => (req, sentInc s req)

/-! ### A shell's accepted stores (R152) -/

/-- The shell L2 accepts a store (R152). It performs at once in a line the shell owns; otherwise ownership is asked for. -/
def acceptStore (s : State) (n : Node) (t : ShellStore) : State :=
  let a := agentOf s n
  let s := setAgent s n { a with stores := a.stores ++ [t] }
  let line := lineOf t.pa
  if ownsLine s n line then performStores s n line
  else sendWrite s n line

/-- A byte as the shell's own agents read it: the latest accepted store over the shell's copy. None without a copy. -/
def shellByte (s : State) (n : Node) (pa : Nat) : Option Byte :=
  let a := agentOf s n
  match (a.stores.reverse).find? fun t => t.pa ≤ pa && pa < t.pa + t.size with
  | some t => some (t.value.extractLsb' (8 * (pa - t.pa)) 8)
  | none => (tabFind a.lines (lineOf pa)).map fun l => lineByte l.data (pa % 64)

/-- n bytes as the shell reads them; none where a byte is not there yet. -/
def shellRead (s : State) (n : Node) (pa : Nat) : Nat → Option Nat
  | 0 => some 0
  | k + 1 => match shellByte s n pa, shellRead s n (pa + 1) k with
    | some b, some r => some (b.toNat + 256 * r)
    | _, _ => none

def shellPoison (s : State) (n : Node) (pa : Nat) : Bool :=
  match tabFind (agentOf s n).lines (lineOf pa) with
  | some l => l.poison
  | none => false

/-- Whether an agent's read of a line is on its way to the home. -/
def readSent (s : State) (n : Node) (line : Nat) : Bool :=
  s.agenda.any fun p => match p.instr with
    | .cohRead m l _ => m == n && l == line
    | _ => false

/-- A read request for a line that the shell does not hold. -/
def requestLine (s : State) (n : Node) (line : Nat) : State :=
  let a := agentOf s n
  if readSent s n line || setHas a.lost line then s
  else if a.dead then sendRead (setAgent s n { a with lost := setAdd a.lost line }) n line
  else sendRead s n line

/-! ### The home (R342, R344, R345) -/

def closeTx (s : State) (line : Nat) : State := setHome s line { homeOf s line with tx := none }

def reportDone (s : State) (n : Node) (line : Nat) : State :=
  postLater s .none (.cohCompletionReport n line (sentInc s n))

/-- Opens a request's transaction at the home (R342, R344); HEAD names a writer from then on. -/
def openRequest (s : State) (line : Nat) (r : HomeReq) : State :=
  let h := homeOf s line
  match r with
  | .read n inc =>
    if (copyOf s n line).isSome then s
    else
      let s := setHome s line { h with tx := some (.read n inc) }
      match h.head with
      | none => reportDone (supplyFromMemory s n line .e) n line
      | some o => postLater s (.agent n inc) (.cohForward o n line false)
  | .write n inc =>
    if ownsLine s n line then performStores s n line
    else
      match h.head with
      | none =>
        let s := setHome s line { h with tx := some (.write n inc) }
        postLater (supplyFromMemory s n line .m) .none (.cohInvalidateAck n line n inc)
      | some o =>
        let s := setHome s line { h with tx := some (.write n inc), head := some n, prior := some o }
        postLater s (.agent n inc) (.cohForward o n line true)
  | .writeback n inc =>
    let s := setHome s line { h with tx := some (.writeback n inc) }
    let s := match tabFind (agentOf s n).leaving line with
      | some l => if l.st = .m ∨ l.st = .o then setMemoryPoison (setMemoryLine s line l.data) line l.poison else s
      | none => s
    postLater s .none (.cohWritebackAck n line)

/-- A request arrives at the home: it stalls while its chunk is in motion (R353), queues behind the open transaction (R344), or is served. -/
def arriveHome (s : State) (line : Nat) (r : HomeReq) : State :=
  let h := homeOf s line
  if inMotion s line then setHome s line { h with stalled := h.stalled ++ [r] }
  else if h.tx.isSome then setHome s line { h with queue := h.queue ++ [r] }
  else openRequest s line r

/-- The transaction closes and the next requests are served until one stays open (R344). -/
def serveHome (s : State) (line : Nat) : Nat → State
  | 0 => s
  | n + 1 =>
    let h := homeOf s line
    match h.tx, h.queue with
    | none, r :: t => serveHome (openRequest (setHome s line { h with queue := t }) line r) line n
    | _, _ => s

def finishTx (s : State) (line : Nat) : State :=
  let s := closeTx s line
  serveHome s line ((homeOf s line).queue.length + 1)

/-- COH_READ (R341, R342, R344). -/
def execCohRead (n : Node) (line : Nat) (inc : BitVec 8) (s : State) : Result :=
  .next (if staleInc s n inc then discardStale s n line else arriveHome (routeRequest s (stampHere s) line) line (.read n inc))

/-- COH_WRITE (R341, R342, R344). -/
def execCohWrite (n : Node) (line : Nat) (inc : BitVec 8) (s : State) : Result :=
  .next (if staleInc s n inc then discardStale s n line else arriveHome (routeRequest s (stampHere s) line) line (.write n inc))

/-- The head serves a forwarded read (R342, R345). -/
def forwardRead (s : State) (n req : Node) (line : Nat) (l : Line) : State := reportDone (linkReader s n req line l) req line

/-- The head of the old list serves a forwarded write: the requester, which heads the list, holds the line in M, the old head owns it no more, and
the walk of the old list starts at it (R342). An upgrading member leaves the old list first. -/
def forwardWrite (s : State) (req : Node) (line : Nat) (l : Line) : State :=
  let s := spliceOut s req line
  let first := (homeOf s line).prior
  let s := match first with
    | some f => modLine s f line fun x => { x with st := .s }
    | none => s
  let s := installLine s req line (freshLine .m l.data l.poison)
  let s := setHome s line { homeOf s line with head := some req, prior := none }
  match first with
  | some f => postLater s (.agent req (agentOf s req).inc) (.cohInvalidateHop f req line)
  | none => postLater s .none (.cohInvalidateAck req line req (agentOf s req).inc)

/-- COH_FORWARD (R342, R345), under the requester's incarnation (R346): the head serves it, the old list's for a write. One that has departed
leaves it to its successor, and an empty list to memory. -/
def execCohForward (n req : Node) (line : Nat) (write : Bool) (s : State) : Result :=
  let who := travelsFor s req
  let h := homeOf s line
  let supply :=
    if write then postLater (supplyFromMemory s req line .m) .none (.cohInvalidateAck req line req (agentOf s req).inc)
    else reportDone (supplyFromMemory s req line .e) req line
  if staleInc s who.1 who.2 then .next (discardStale s req line)
  else match if write then h.prior else h.head with
  | none => .next supply
  | some o =>
    if o ≠ n then .next (postLater s (.agent who.1 who.2) (.cohForward o req line write))
    else match copyOf s n line with
      | some l => .next (if write then forwardWrite s req line l else forwardRead s n req line l)
      | none => .next supply

/-- COH_INVALIDATE_HOP, under its sender's incarnation (R346): the member's copy and pointers go, and the walk passes on; the tail
acknowledges (R342). -/
def execCohInvalidateHop (n req : Node) (line : Nat) (s : State) : Result :=
  let who := travelsFor s req
  if staleInc s who.1 who.2 then .next (discardStale s who.1 line)
  else
    let next := (copyOf s n line).bind (·.next)
    let mine := sentInc s n
    let s := if n = req then s else dropLine s n line
    match next with
    | some q => .next (postLater s (.agent n mine) (.cohInvalidateHop q req line))
    | none => .next (postLater s .none (.cohInvalidateAck req line n mine))

/-- COH_INVALIDATE_ACK: the write completes at the requester, and its accepted stores perform (R342). -/
def execCohInvalidateAck (req : Node) (line : Nat) (sender : Node) (inc : BitVec 8) (s : State) : Result :=
  if staleInc s sender inc then .next (discardStale s sender line)
  else .next (reportDone (performStores s req line) req line)

/-- Accepted stores that still wait for ownership ask again. -/
def retryStores (s : State) (n : Node) (line : Nat) : State :=
  if (agentOf s n).stores.any (fun t => lineOf t.pa == line) then sendWrite s n line else s

/-- COH_COMPLETION_REPORT (R344). -/
def execCohCompletionReport (n : Node) (line : Nat) (inc : BitVec 8) (s : State) : Result :=
  if staleInc s n inc then .next (discardStale s n line)
  else
    let own : Bool := match (homeOf s line).tx with
      | some (.read m _) => m == n
      | some (.write m _) => m == n
      | _ => false
    if own then .next (retryStores (performStores (finishTx s line) n line) n line) else .next s

/-- COH_WRITEBACK (R343, R345, R346). -/
def execCohWriteback (n : Node) (line : Nat) (inc : BitVec 8) (s : State) : Result :=
  .next (if staleInc s n inc then discardStale s n line else arriveHome (routeRequest s (stampHere s) line) line (.writeback n inc))

/-- The messages of an unlink under R343: to the neighbours, or to the home in place of a PREV. The home's hold on the line ends once all of
them have arrived. -/
def sendUnlinks (s : State) (n : Node) (line : Nat) (l : Line) : State :=
  let inc := sentInc s n
  let s := setHome s line { homeOf s line with unlinks := if l.next.isSome then 2 else 1 }
  let s := postLater s .none (.cohUnlink l.prev line n inc false l.next)
  match l.next with
  | some q => postLater s .none (.cohUnlink (some q) line n inc true l.prev)
  | none => s

/-- COH_EVICT (R343, R345): a head in M or O moves to the leaving buffer and writes back; any other copy unlinks. A full buffer, or a line
whose home is busy, makes the eviction wait. -/
def execCohEvict (n : Node) (line : Nat) (s : State) : Result :=
  let a := agentOf s n
  match tabFind a.lines line with
  | none => .next s
  | some l =>
    if l.st = .m ∨ l.st = .o then
      if a.leaving.length ≥ 8 ∨ (a.stores.any fun t => lineOf t.pa == line) then .next (postLater s .none (.cohEvict n line))
      else
        let s := setAgent s n { a with lines := tabDrop a.lines line, leaving := tabSet a.leaving line l }
        let r := stampRequest s n
        .next (postLater r.1 (.request r.2) (.cohWriteback n line (sentInc s n)))
    else if (homeOf s line).tx.isSome then .next (postLater s .none (.cohEvict n line))
    else
      let s := setHome s line { homeOf s line with tx := some (.writeback n a.inc) }
      .next (sendUnlinks (dropLine s n line) n line l)

/-- COH_UNLINK (R343): the receiver's pointer, or HEAD, takes the sender's link; the last of an eviction's unlinks closes its transaction. -/
def execCohUnlink (dst : Option Node) (line : Nat) (sender : Node) (inc : BitVec 8) (side : Bool) (link : Option Node) (s : State) :
    Result :=
  if staleInc s sender inc then .next (discardStale s sender line)
  else
    let s := repoint s dst line side link
    let h := homeOf s line
    let s := setHome s line { h with unlinks := h.unlinks - 1 }
    .next (if h.unlinks ≤ 1 then finishTx s line else s)

/-- Whether the home is at work on an agent's write-back of a line, which it applied as it opened it (R347 step 3). -/
def writebackApplied (s : State) (n : Node) (line : Nat) : Bool :=
  match (homeOf s line).tx with
  | some (.writeback m _) => m == n
  | _ => false

/-- COH_WRITEBACK_ACK (R345 step 4): the agent unlinks with its current NEXT. A copy a forwarded write took needs no unlink. -/
def execCohWritebackAck (n : Node) (line : Nat) (s : State) : Result :=
  if !writebackApplied s n line then .next s
  else match tabFind (agentOf s n).leaving line with
  | some l => .next (sendUnlinks (dropLine s n line) n line l)
  | none => .next (finishTx s line)

/-! ### Dead agents (R346, R347) -/

/-- Retargets the walks that wait on a dead agent (R347 step 4). -/
def rerouteWalks (s : State) (n : Node) (line : Nat) (next : Option Node) : State :=
  { s with agenda := s.agenda.map fun p =>
      match p.instr, p.actor with
      | .cohInvalidateHop m req l, .agent sender inc =>
        if m = n ∧ l = line then { p with instr := match next with
          | some q => .cohInvalidateHop q req l
          | none => .cohInvalidateAck req l sender inc } else p
      | _, _ => p }

/-- The unlink messages of a line under way take effect: a list is mended only once its pointers are settled (R343, R347). -/
def settleUnlinks (s : State) (line : Nat) : State :=
  let isUnlink := fun (p : Pending) => lineMessage line p.instr && match p.instr with
    | .cohUnlink .. => true
    | _ => false
  let left := s.agenda.filter isUnlink
  left.foldl (fun s p => repointBy s p.instr) { s with agenda := s.agenda.filter fun p => !isUnlink p }

/-- One tag of a dead agent: its walks rerouted, the line spliced out with no data. A line in M or O is poisoned at its home, one in the leaving
buffer unless its write-back has been applied. -/
def sweepLine (s : State) (n : Node) (line : Nat) (l : Line) : State :=
  let s := settleUnlinks s line
  let l := (copyOf s n line).getD l
  let s := rerouteWalks s n line l.next
  let s := if (l.st = .m ∨ l.st = .o) ∧ !writebackApplied s n line then setMemoryPoison s line true else s
  spliceOut s n line

/-- Whether a transaction is the dead agent's own. -/
def txOf (n : Node) : HomeReq → Bool
  | .read m _ => m == n
  | .write m _ => m == n
  | .writeback m _ => m == n

/-- The agent that sent a message of a line; a forward comes from the home. -/
def messageSender (p : Pending) : Option Node :=
  match p.instr, p.actor with
  | .cohInvalidateHop .., .agent n _ => some n
  | .cohInvalidateAck _ _ n _, _ => some n
  | .cohCompletionReport n _ _, _ => some n
  | .cohUnlink _ _ n _ _ _, _ => some n
  | _, _ => none

/-- The messages of a line's open transaction on their way. -/
def lineMessages (s : State) (line : Nat) : List Pending := s.agenda.filter fun p => lineMessage line p.instr

/-- Whether a step is the home's forward of a line's request; one for a dead requester arrives and is discarded (R346). -/
def isForward (p : Pending) : Bool :=
  match p.instr with
  | .cohForward .. => true
  | _ => false

/-- A dead requester's transaction: what it has begun ends. Its unlinks take effect, an acknowledgement for it is void, and a walk it started leaves
no copy; a write that has not been served leaves HEAD as it was. -/
def abandonTx (s : State) (line : Nat) (r : HomeReq) : State :=
  let s := (lineMessages s line).foldl (fun s p => repointBy s p.instr)
    { s with agenda := s.agenda.filter fun p => !lineMessage line p.instr || isForward p }
  match r with
  | .write _ _ =>
    if (homeOf s line).prior.isSome then restoreHead s line
    else setHome (dropCopies s line) line { homeOf s line with head := none }
  | _ => s

/-- The engine completes a transaction that waits on the dead agent: its own, or one whose message the dead agent sent or still owed (R347
step 4). -/
def finishFor (s : State) (n : Node) (line : Nat) : State :=
  let h := homeOf s line
  let s := setHome s line { h with queue := h.queue.filter fun r => !txOf n r, stalled := h.stalled.filter fun r => !txOf n r }
  match h.tx with
  | none => s
  | some r =>
    if txOf n r then finishTx (abandonTx s line r) line
    else if (lineMessages s line).any fun p => messageSender p != some n then s
    else finishTx (settleReq s line r) line

/-- AGENT_DEATH_SWEEP (R347 steps 2 to 4). -/
def deathSweep (s : State) (n : Node) : State :=
  let a := agentOf s n
  let s := (a.lines ++ a.leaving).foldl (fun s e => sweepLine s n e.1 e.2) s
  let s := setAgent s n { agentOf s n with lines := [], leaving := [], stores := [] }
  s.homes.foldl (fun s e => finishFor s n e.1) s

def execAgentDeathSweep (n : Node) (s : State) : Result :=
  .next (if (agentOf s n).dead then deathSweep s n else s)

/-- The homes raise the agent's incarnation, and the sweep follows (R347 step 1). -/
def declareDead (s : State) (n : Node) : State :=
  let a := agentOf s n
  post (setAgent s n { a with inc := a.inc + 1, dead := true }) 1 .none (.agentDeathSweep n)

/-- AGENT_RETIRE: the runtime retires an agent through the management port (R347). -/
def execAgentRetire (n : Node) (s : State) : Result :=
  .next (if (agentOf s n).dead then s else declareDead s n)

end Sys2Proof.Machine
end

