-- ==== Sys2Proof/Machine/Translate.lean ====
section
/-! DEFINITION. Translation and protection of global addresses: the Sv48 walk (R140, R141), the TLB (R142, R143), capabilities (R43, R146 to
R148), the register range's masters (R380, R392), and the fault that drops an access (R144, R325). -/

namespace Sys2Proof.Machine

/-- R140: bits 63:47 all zeros or all ones. -/
def canonical (va : Word) : Bool := va.extractLsb' 47 17 == (0 : BitVec 17) || va.extractLsb' 47 17 == (0x1FFFF : BitVec 17)

/-! ### The walk (R141) -/

/-- Why a walk ended in a fault, as DETAIL 7:4 codes it (R325). -/
inductive WalkWhy where
  | notValid | malformed | rights | user
  deriving DecidableEq, Repr

def WalkWhy.code : WalkWhy → Word
  | .notValid => 0 | .malformed => 1 | .rights => 2 | .user => 3

/-- A walk's end: a fault at a level counted from the root, a table outside capacity (R340, R356), or a leaf with its place, its entry and its
Sv48 level. -/
inductive WalkEnd where
  | fault (level : Nat) (why : WalkWhy)
  | outside
  | leaf (at_ : Nat) (pte : Word) (level : Nat)
  deriving DecidableEq, Repr

def pteR (p : Word) : Bool := p.getLsbD 1
def pteW (p : Word) : Bool := p.getLsbD 2
def pteX (p : Word) : Bool := p.getLsbD 3
def pteU (p : Word) : Bool := p.getLsbD 4
def pteG (p : Word) : Bool := p.getLsbD 5
def pteA (p : Word) : Bool := p.getLsbD 6
def pteD (p : Word) : Bool := p.getLsbD 7
def ptePpn (p : Word) : Nat := (p.extractLsb' 10 44 : BitVec 44).toNat

/-- Index of a level in a virtual address. -/
def vpnIndex (va : Word) (level : Nat) : Nat := va.toNat / 2 ^ (12 + 9 * level) % 512

/-- Whether the kinds of access need R, W and X (R141). -/
def kindReads : AccessKind → Bool
  | .load | .atomic | .fullEmpty | .siphon => true | .store | .fetch => false
def kindWrites : AccessKind → Bool
  | .store | .atomic => true | _ => false
def kindFetches : AccessKind → Bool
  | .fetch => true | _ => false

/-- A leaf's checks, in the order of R141's table. -/
def leafFault (p : Word) (level : Nat) (kind : AccessKind) (crewView : Bool) : Option WalkWhy :=
  if ptePpn p % 2 ^ (9 * level) ≠ 0 ∨ level > 2 then some .malformed
  else if (kindReads kind && !pteR p) || (kindWrites kind && !pteW p) || (kindFetches kind && !pteX p) then some .rights
  else if crewView && !pteU p then some .user
  else none

/-- A shell's walker and the domain it walks for (R142, R143); none for an agent that keeps no walker cache. -/
abbrev Walker := Option (ShellId × BitVec 16)

def walkEntries (s : State) (h : ShellId) : List WalkEntry := tabGet [] s.walkers h.toNat

/-- The node of a shell's L2 (R339). -/
def nodeOfShell (h : ShellId) : Node := h.setWidth 9

/-- The walker's cached copy of an entry (R142). -/
def cachedEntry (s : State) (h : ShellId) (asid : BitVec 16) (addr : Nat) : Option WalkEntry :=
  (walkEntries s h).find? fun e => e.addr == addr && e.asid == asid

/-- An entry's word as the walker sees it: from its cache of non-leaf entries, or through its shell L2 (R142, R143). -/
def walkerWord (s : State) (w : Walker) (addr : Nat) : Word :=
  match w with
  | none => globalWord s addr
  | some (h, asid) => match cachedEntry s h asid addr with
    | some e => e.word
    | none => agentWord s (nodeOfShell h) addr

/-- The walk from the table at physical address base, n levels left. -/
def walkFrom (s : State) (w : Walker) (va : Word) (kind : AccessKind) (crewView : Bool) : Nat → Nat → WalkEnd
  | 0, _ => .fault 4 .malformed
  | n + 1, base =>
    let at_ := base + 8 * vpnIndex va n
    let p := walkerWord s w at_
    if !inCapacity s at_ then .outside
    else if !p.getLsbD 0 then .fault (4 - n) .notValid
    else if p.extractLsb' 54 10 ≠ (0 : BitVec 10) || (pteW p && !pteR p) then .fault (4 - n) .malformed
    else if pteR p || pteX p then
      match leafFault p n kind crewView with
      | some why => .fault (4 - n) why
      | none => .leaf at_ p n
    else if n = 0 then .fault 4 .malformed
    else walkFrom s w va kind crewView n (ptePpn p * 4096)

/-- The address of the root table (R113). -/
def rootTable (root : Word) : Nat := (root.extractLsb' 12 40 : BitVec 40).toNat * 4096

/-- The walk from a root register's value (R113, R140). -/
def walk (s : State) (w : Walker) (root va : Word) (kind : AccessKind) (crewView : Bool) : WalkEnd :=
  walkFrom s w va kind crewView 4 (rootTable root)

/-- The non-leaf entries a walk passes. -/
def walkPath (s : State) (h : ShellId) (asid : BitVec 16) (va : Word) : Nat → Nat → List WalkEntry
  | 0, _ => []
  | n + 1, base =>
    let at_ := base + 8 * vpnIndex va n
    let p := walkerWord s (some (h, asid)) at_
    if !p.getLsbD 0 || pteR p || pteW p || pteX p || n == 0 then []
    else { asid := asid, vpn := va.toNat / 4096, level := n, addr := at_, word := p } :: walkPath s h asid va n (ptePpn p * 4096)

/-- Keeps an entry in the walker's cache of 64; a full cache gives up one of its choice (R142; log 2). -/
def keepWalked (s : State) (h : ShellId) (e : WalkEntry) : State :=
  let l := walkEntries s h
  if l.any fun q => q.addr == e.addr && q.asid == e.asid then s
  else if l.length < 64 then { s with walkers := tabSet s.walkers h.toNat (l ++ [e]) }
  else
    let d := drawChoice s 64
    { d.2 with walkers := tabSet s.walkers h.toNat (l.eraseIdx d.1 ++ [e]) }

/-- The entries a walk reads through its agent's L2: all but those in a walker cache. -/
def walkReads (s : State) (w : Walker) (va : Word) : Nat → Nat → List Nat
  | 0, _ => []
  | n + 1, base =>
    let at_ := base + 8 * vpnIndex va n
    let p := walkerWord s w at_
    let cached := match w with
      | some (h, asid) => (cachedEntry s h asid at_).isSome
      | none => false
    if !inCapacity s at_ then []
    else (if cached then [] else [at_])
      ++ (if !p.getLsbD 0 || pteR p || pteW p || pteX p then [] else walkReads s w va n (ptePpn p * 4096))

/-- The lines of those entries, in the L2 of node n. -/
def fetchWalk (s : State) (n : Node) (w : Walker) (root va : Word) : State :=
  (walkReads s w va 4 (rootTable root)).foldl (fun t a => fetchLine t n (lineOf a)) s

/-- A walk by a shell's walker for a domain, its lines brought into the shell L2 (R143) and its cache filled (R142). -/
def shellWalk (s : State) (h : ShellId) (asid : BitVec 16) (root va : Word) (kind : AccessKind) (crewView : Bool) : State × WalkEnd :=
  let t := fetchWalk s (nodeOfShell h) (some (h, asid)) root va
  ((walkPath s h asid va 4 (rootTable root)).foldl (fun t e => keepWalked t h e) t, walk s (some (h, asid)) root va kind crewView)

/-- An address outside capacity: what a walk comes to whose table lies there, so that its master's own capacity check answers (R356). -/
def nowhere : Nat := 2 ^ 56

/-- The physical address of a leaf (R140). -/
def leafAddr (p : Word) (level : Nat) (va : Word) : Nat :=
  let span := 2 ^ (12 + 9 * level)
  ptePpn p * 4096 / span * span + va.toNat % span

/-- The walker of node n sets A, and D where needed, by an atomic update at the home: after the stores its L2 has accepted for the line, and on the
word as it is there then (R141, R155). -/
def markLeaf (s : State) (n : Node) (at_ : Nat) (p : Word) (kind : AccessKind) : State :=
  let bits : Word := if kindWrites kind then 0xC0 else 0x40
  if p ||| bits = p then s
  else
    (updateWord (flushLine s n (lineOf at_)) n at_ (· ||| bits)).1

/-- A walk by an agent that keeps no walker cache, through the L2 of its node (R339: the launch unit and the hub through the hub L2, a hart through
the hart L2): the physical address and the state with A and D set, or the fault. -/
def walkTo (s : State) (n : Node) (root va : Word) (kind : AccessKind) (crewView : Bool) : Except (Nat × WalkWhy) (State × Nat) :=
  match walk s none root va kind crewView with
  | .fault l why => .error (l, why)
  | .outside => .ok (s, nowhere)
  | .leaf at_ p l => .ok (markLeaf (fetchWalk s n none root va) n at_ p kind, leafAddr p l va)

/-- The same by a shell's walker (R143). -/
def shellWalkTo (s : State) (h : ShellId) (asid : BitVec 16) (root va : Word) (kind : AccessKind) (crewView : Bool) :
    Except (Nat × WalkWhy) (State × Nat) :=
  let r := shellWalk s h asid root va kind crewView
  match r.2 with
  | .fault l why => .error (l, why)
  | .outside => .ok (r.1, nowhere)
  | .leaf at_ p l => .ok (markLeaf r.1 (nodeOfShell h) at_ p kind, leafAddr p l va)

/-! ### The TLB of a scull (R142) -/

/-- Whether an entry covers the page of va for an ASID (R142: whatever the slot). -/
def tlbCovers (e : TlbEntry) (va : Word) (asid : BitVec 16) : Bool :=
  va.toNat / 4096 / 512 ^ e.level == e.vpn / 512 ^ e.level && (e.glob || e.asid == asid)

/-- Whether it also permits the access (R141); a store through an entry whose page is not marked D walks to set it. -/
def tlbPermits (e : TlbEntry) (kind : AccessKind) (crewView : Bool) : Bool :=
  (!kindReads kind || e.r) && (!kindWrites kind || (e.w && e.dirty)) && (!kindFetches kind || e.x) && (!crewView || e.u)

def tlbAddr (e : TlbEntry) (va : Word) : Nat :=
  let span := 2 ^ (12 + 9 * e.level)
  e.ppn * 4096 / span * span + va.toNat % span

def tlbFind (t : Tab TlbEntry) (va : Word) (asid : BitVec 16) (kind : AccessKind) (crewView : Bool) : Option (Nat × TlbEntry) :=
  t.find? fun e => tlbCovers e.2 va asid && tlbPermits e.2 kind crewView

/-- The least recently used among some entries. R142 does not order two that were last used in one cycle; the model takes the one of the lower
index (log 74). -/
def leastUsed (l : List (Nat × TlbEntry)) : Option Nat :=
  (l.foldl (fun best e => match best with
    | none => some e
    | some b => if b.2.used ≤ e.2.used then some b else some e) (none : Option (Nat × TlbEntry))).map Prod.fst

/-- How many entries a slot tags. -/
def tagCount (t : Tab TlbEntry) (slot : Nat) : Nat := (t.filter fun e => e.2.slot.toNat == slot).length

/-- The slot that tags the most entries, the lowest on a tie, among slots below n. -/
def mostTagged (t : Tab TlbEntry) : Nat → Nat
  | 0 => 0
  | n + 1 => let m := mostTagged t n; if tagCount t n > tagCount t m then n else m

/-- The entry a miss by a slot fills (R142). -/
def tlbVictim (t : Tab TlbEntry) (slot : Slot) : Nat :=
  match (List.range 32).find? fun i => (tabFind t i).isNone with
  | some i => i
  | none =>
    let from_ := if tagCount t slot.toNat ≥ 4 then slot.toNat else mostTagged t 64
    (leastUsed (t.filter fun e => e.2.slot.toNat == from_)).getD 0

def tlbFill (t : Tab TlbEntry) (slot : Slot) (e : TlbEntry) : Tab TlbEntry := tabSet t (tlbVictim t slot) e

/-- The entry of a leaf. -/
def leafEntry (s : State) (p : Word) (level : Nat) (va : Word) (asid : BitVec 16) (slot : Slot) (kind : AccessKind) : TlbEntry :=
  { vpn := va.toNat / 4096, level := level, ppn := ptePpn p, r := pteR p, w := pteW p, x := pteX p, u := pteU p, glob := pteG p,
    dirty := pteD p || kindWrites kind, asid := asid, slot := slot, used := s.cycle }

/-- The entry a probe of the shell's other sculls finds (R143). -/
def probeShell (s : State) (sc : ScullId) (va : Word) (asid : BitVec 16) (kind : AccessKind) (crewView : Bool) : Option TlbEntry :=
  ((List.range 8).map fun i => sc.toNat / 8 * 8 + i).findSome? fun n =>
    if n = sc.toNat then none
    else (tlbFind (scullOf s (BitVec.ofNat 11 n)).tlb va asid kind crewView).map Prod.snd

/-- What a context's translation comes to. -/
inductive Translated where
  | hit (s : State) (pa : Nat)
  | miss (s : State)
  deriving DecidableEq

/-- A context's translation of a canonical address through its scull's TLB (R140, R142); a probe of the shell's TLBs comes before a
walk (R143). A miss leaves the context to wait for the walker. -/
def translate (s : State) (sc : ScullId) (slot : Slot) (c : Ctx) (va : Word) (kind : AccessKind) : Translated :=
  let x := scullOf s sc
  match tlbFind x.tlb va c.asid kind (!c.prv) with
  | some (i, e) => .hit (setScull s sc { x with tlb := tabSet x.tlb i { e with used := s.cycle } }) (tlbAddr e va)
  | none =>
    match if x.probe then probeShell s sc va c.asid kind (!c.prv) else none with
    | some e =>
      let e := { e with slot := slot, used := s.cycle }
      .hit (setScull s sc { x with tlb := tlbFill x.tlb slot e }) (tlbAddr e va)
    | none =>
      .miss (postLater (park s sc slot c (.reissue (.walk va kind))) (.context sc slot) .tlbWalkComplete)

/-! ### Capabilities (R43, R147, R148) -/

/-- Rights a check needs, in the order of capability bits 52 to 48: F A X W RD (R325). -/
structure Rights where
  f : Bool
  a : Bool
  x : Bool
  w : Bool
  rd : Bool
  deriving DecidableEq, Repr

def Rights.bits (r : Rights) : BitVec 5 :=
  (if r.f then 16 else 0) ||| (if r.a then 8 else 0) ||| (if r.x then 4 else 0) ||| (if r.w then 2 else 0) ||| (if r.rd then 1 else 0)

def rightsRead : Rights := { f := false, a := false, x := false, w := false, rd := true }
def rightsWrite : Rights := { f := false, a := false, x := false, w := true, rd := false }
def rightsFetch : Rights := { f := false, a := false, x := true, w := false, rd := false }
def rightsAtomic : Rights := { f := false, a := true, x := false, w := true, rd := true }

/-- One capability over n bytes at addr (R43): valid, not empty, below 2^48, its domain, its rights, every byte inside. -/
def capGrants (cap : BitVec 128) (dom : BitVec 16) (need : Rights) (addr n : Nat) : Bool :=
  let base := (cap.extractLsb' 0 48 : BitVec 48).toNat
  let len := (cap.extractLsb' 64 48 : BitVec 48).toNat
  let have_ : BitVec 5 := cap.extractLsb' 48 5
  cap.getLsbD 63 && len ≠ 0 && base + len ≤ 281474976710656 && (cap.extractLsb' 112 16 : BitVec 16) == dom
    && have_ &&& need.bits == need.bits && base ≤ addr && addr + n ≤ base + len

/-- R147: inside one capability of the eight. -/
def capsGrant (caps : Tab (BitVec 128)) (dom : BitVec 16) (need : Rights) (addr n : Nat) : Bool :=
  (List.range 8).any fun i => capGrants (capOf caps i) dom need addr n

/-- Reserved bits 62:53 are stored as zero (R124). -/
def capStored (v : BitVec 128) : BitVec 128 := v &&& ~~~((0x3FF : BitVec 128) <<< 53)

/-- A capability's image with its half n mod 2 written (R43, R372, R382). -/
def capWithHalf (old : BitVec 128) (n : Nat) (v : Word) : BitVec 128 :=
  capStored (if n % 2 = 0 then old.extractLsb' 64 64 ++ v else v ++ (old.setWidth 64 : Word))

def kindCode : AccessKind → BitVec 8
  | .load => 1 | .store => 2 | .atomic => 3 | .fetch => 4 | .fullEmpty => 5 | .siphon => 6

/-- A capability failure: nothing performed, the context frozen with its instruction unissued (R149, R325). -/
def freezeCap (s : State) (sc : ScullId) (slot : Slot) (kind : AccessKind) (addr : Word) (need : Rights) : State :=
  freezeCtx s sc slot .ready 0x02 (kindCode kind) addr (need.bits.setWidth 64) 0x40 0 addr

/-! ### The register range's masters (R379, R380, R392) -/

/-- Shells of the firmware column (R391, R395). -/
def inColumnShell (s : State) (n : Nat) : Bool := s.config.fcs.toNat ≤ n && n < s.config.fcs.toNat + s.config.colw
def inColumn (s : State) (sc : ScullId) : Bool := inColumnShell s (sc.toNat / 8)

/-- A send aperture's address (R386). -/
def isAperture (pa : Nat) : Bool := 0x18000000000 ≤ pa && pa < hbmBase

/-- A firewall window that grants the access (R392). -/
def windowGrants (s : State) (pa n : Nat) (need : Rights) : Bool :=
  s.config.windows.any fun w => w.base ≤ pa && pa + n ≤ w.base + w.len && (!need.rd || w.rd) && (!need.w || w.w) && (!need.x || w.x)

/-- Whether a context of a scull may access n bytes at pa (R140, R340, R356, R379, R380, R392). Send apertures are judged by R386. -/
def contextMay (s : State) (sc : ScullId) (pa n : Nat) (need : Rights) : Bool :=
  if isAperture pa then true
  else if inColumn s sc then (inRegisters pa || inCapacity s pa) && windowGrants s pa n need
  else inCapacity s pa

/-! ### Drops (R144, R325) -/

/-- DETAIL of a translation fault (R325). -/
def walkDetail (level : Nat) (why : WalkWhy) : Word := BitVec.ofNat 64 level ||| (why.code <<< 4)

/-- The access is dropped: a record, no trap, the context waiting for its verdict (R144). -/
def dropCtx (s : State) (sc : ScullId) (slot : Slot) (va : Word) (kind : AccessKind) (level : Nat) (why : WalkWhy) : State :=
  let c := ctxOf s sc slot
  let seq := s.fs.nextSeq
  let s := sendRecord s 0x01 (kindCode kind) c.asid (.context sc slot) va c.pc (walkDetail level why) (whoWord c.crew c.cidx slot)
  let st : CtxState := match c.st with
    | .frozen _ => .frozen (.waiting (.reissue (.dropped seq va)))
    | _ => .waiting (.reissue (.dropped seq va))
  setCtx s sc slot { ctxOf s sc slot with st := st }

/-- TLB_WALK_COMPLETE (R142 to R144): the TLB is filled and the instruction reissues, or the entry of the page leaves the TLB and the
access is dropped. -/
def tlbWalkComplete (s : State) (sc : ScullId) (slot : Slot) : State :=
  let c := ctxOf s sc slot
  match waitOf c with
  | some (.reissue (.walk va kind)) =>
    let r := shellWalk s (shellOf sc) c.asid c.ptroot va kind (!c.prv)
    let s := r.1
    match r.2 with
    | .leaf at_ p l =>
      let s := markLeaf s (shellNode sc) at_ p kind
      let x := scullOf s sc
      let s := setScull s sc { x with tlb := tlbFill x.tlb slot (leafEntry s p l va c.asid slot kind) }
      setCtx s sc slot (awake c)
    | .outside => trapWaiting s (ctxKey sc slot) { code := 0x08, aux := 0x03, tval := va }
    | .fault l why =>
      let x := scullOf s sc
      let s := setScull s sc { x with tlb := x.tlb.filter fun e => !tlbCovers e.2 va c.asid }
      dropCtx s sc slot va kind l why
  | _ => s

def execTlbWalkComplete (s : State) : Result :=
  match s.actor with
  | .context sc slot => .next (tlbWalkComplete s sc slot)
  | _ => .next s

end Sys2Proof.Machine
end

