-- ==== Sys2Proof/Machine/Scratch.lean ====
section
/-! DEFINITION. The scratchpad: words, F bits and poison (R127, R139, R331), the crews' pages (R130, R131, R134), chamber places (R312, R317),
address forms (R136 to R138), the word wait queues (R165, R397), and an access's arrival at its bank (R152). -/

namespace Sys2Proof.Machine

/-! ### Words of a scratchpad -/

def spadBytes : Nat := 393216
def frameBytes : Nat := 4096
def spadPages : Nat := 96

def spadRead (x : Scull) (b n : Nat) : Word := BitVec.ofNat 64 (memReadNat x.data b n)
/-- Writes n bytes; a whole word's write clears its poison, a smaller one leaves it (R331). F is unchanged. -/
def spadWrite (x : Scull) (b n : Nat) (v : Word) : Scull :=
  { x with data := memWriteNat x.data b n v.toNat, poison := if n = 8 then setDel x.poison (b / 8) else x.poison }
def fullBit (x : Scull) (w : Nat) : Bool := setHas x.full w
def setFullBit (x : Scull) (w : Nat) (b : Bool) : Scull := { x with full := setPut x.full w b }
def wordPoison (x : Scull) (w : Nat) : Bool := setHas x.poison w

/-! ### Pages of a crew (R130, R131) -/

def groupOf (s : State) (sc : ScullId) (crew : CrewId) : Option Group := tabFind (scullOf s sc).groups crew.toNat
def setGroup (s : State) (sc : ScullId) (crew : CrewId) (g : Group) : State :=
  setScull s sc { scullOf s sc with groups := tabSet (scullOf s sc).groups crew.toNat g }

/-- The state of page v, none where it is not allocated (R130). -/
def pageState (s : State) (sc : ScullId) (crew : CrewId) (v : Nat) : Option PageState :=
  match groupOf s sc crew with
  | some g => if v < g.frm then tabFind g.pages v else none
  | none => none

/-- Whether a loc offset lies in an allocated page (R137). -/
def allocated (s : State) (sc : ScullId) (crew : CrewId) (o : Nat) : Bool :=
  o < spadBytes && (pageState s sc crew (o / frameBytes)).isSome

/-- The scull with a crew-relative index (R138); a crew not in the launch unit's list is on its context's own scull alone. -/
def memberOf (s : State) (crew : CrewId) (own : ScullId) (i : Nat) : ScullId :=
  match crewOf s crew with
  | some x => x.members.getD i own
  | none => own

/-- The first touch of a parked page starts its refill (R131, R134). -/
def touchPage (s : State) (sc : ScullId) (crew : CrewId) (v : Nat) : State :=
  match groupOf s sc crew with
  | some g => match tabFind g.pages v with
    | some .parked =>
      postLater (setGroup s sc crew { g with pages := tabSet g.pages v (.refilling none) }) .none (.pageRefillComplete sc crew v)
    | _ => s
  | none => s

/-! ### Chambers as places (R308, R312, R317) -/

def chamberOf (s : State) (n : ChamberSlot) : Option Chamber := tabFind s.directory.live n.toNat
def setChamber (s : State) (n : ChamberSlot) (x : Chamber) : State :=
  { s with directory := { s.directory with live := tabSet s.directory.live n.toNat x } }
def generation (s : State) (n : ChamberSlot) : BitVec 15 := tabGet 0 s.directory.gens n.toNat

/-- A chamber handle (R308). -/
def chamberHandle (gen : BitVec 15) (n : ChamberSlot) : Word := (1 : BitVec 1) ++ gen ++ (0 : BitVec 33) ++ n
def handleSlot (h : Word) : ChamberSlot := h.extractLsb' 0 15
def handleGen (h : Word) : BitVec 15 := h.extractLsb' 48 15

/-- The chamber a handle names, when it is not stale and its owner is the domain (R317). -/
def openChamber (s : State) (asid : BitVec 16) (h : Word) : Option Chamber :=
  if h.getLsbD 63 && h.extractLsb' 15 33 == (0 : BitVec 33) && handleGen h == generation s (handleSlot h) then
    match chamberOf s (handleSlot h) with
    | some x => if x.owner = asid then some x else none
    | none => none
  else none

/-- Whether the crew holds an attachment (R317). -/
def crewAttached (s : State) (crew : CrewId) (h : Word) : Bool :=
  match crewOf s crew with
  | some x => x.attach.any fun a => a.slot == handleSlot h && a.gen == handleGen h && a.count != 0
  | none => false

/-- WBASE (R309). -/
def windowBase (n : ChamberSlot) : Nat := 0x800000000000 + n.toNat * 0x10000000

/-- The holder of a chamber offset: scull and scratchpad byte (R312). -/
def chamberHolder (x : Chamber) (o : Nat) : Option (ScullId × Nat) :=
  if x.interleave then
    let count := x.nfr / x.fps
    let g := o / 64
    let l := g / count * 64 + o % 64
    (x.holders[g % count * x.fps + l / 4096]?).map fun h => (h.1, h.2 * 4096 + l % 4096)
  else (x.holders[o / 4096]?).map fun h => (h.1, h.2 * 4096 + o % 4096)

/-- Whether a reservation, held or awaited, names a word of a frame (R172). -/
def frameReserved (x : Scull) (f : Nat) : Bool :=
  (x.resvs.any fun r => r.word / 512 == f) || x.resvOverflow.any fun e => e.2 / 512 == f

/-- Where a chamber's byte can be reached now: only while RESIDENT (R313). -/
def chamberAt (x : Chamber) (o : Nat) : Option (ScullId × Nat) := if x.state = .resident then chamberHolder x o else none

/-! ### Where a place is now -/

/-- What an access finds at its place: its scull and byte, a page or chamber to wait for, or a trap. -/
inductive Found where
  | at_ (sc : ScullId) (b : Nat)
  | page (sc : ScullId) (crew : CrewId) (v : Nat)
  | chamber (n : ChamberSlot)
  | trap (t : Trap)
  deriving DecidableEq, Repr

def attachMiss (aux : BitVec 8) (ea : Word) : Trap := { code := 0x07, aux := aux, tval := ea }
def poisonTrap (aux : BitVec 8) (ea : Word) : Trap := { code := 0x09, aux := aux, tval := ea }
def capacityTrap (aux : BitVec 8) (ea : Word) : Trap := { code := 0x08, aux := aux, tval := ea }

/-- Resolves a place (R137, R312, R313). An access to a fenced scull consumes poison, unless it comes from the scull own itself (R305). -/
def locateFor (own : Option ScullId) (s : State) (p : Place) (ea : Word) : Found :=
  let at_ := fun (sc : ScullId) (b : Nat) =>
    if (scullOf s sc).fenced ∧ own ≠ some sc then Found.trap (poisonTrap 0x03 ea) else .at_ sc b
  match p with
  | .page sc crew o =>
    match pageState s sc crew (o / frameBytes) with
    | some (.pinned f) => at_ sc (f * frameBytes + o % frameBytes)
    | some _ =>
      if (scullOf s sc).fenced ∧ own ≠ some sc then .trap (poisonTrap 0x03 ea) else .page sc crew (o / frameBytes)
    | none => .trap (capacityTrap 0x01 ea)
  | .chamber n gen o =>
    match chamberOf s n with
    | none => .trap (attachMiss 0x03 ea)
    | some x =>
      if generation s n ≠ gen then .trap (attachMiss 0x03 ea)
      else match x.state, chamberAt x o with
        | _, some h => at_ h.1 h.2
        | .resident, none => .trap (capacityTrap 0x07 ea)
        | .evicted, none => if x.faultOnMiss then .trap (attachMiss 0x02 ea) else .chamber n
        | _, none => .chamber n
  | _ => .trap (capacityTrap 0x03 ea)

/-- Resolves a place for an access of no scull's own. -/
def locate (s : State) (p : Place) (ea : Word) : Found := locateFor none s p ea

/-- An access that waits for a chamber starts the refill of an EVICTED one (R313). -/
def touchChamber (s : State) (n : ChamberSlot) : State :=
  match chamberOf s n with
  | some x => if x.state = .evicted then
      postLater (setChamber s n { x with state := .refilling }) (.chamber n) .chamberRefillComplete else s
  | none => s

/-- A launch wants a chamber that is not RESIDENT: its refill starts, after its eviction where that is under way (R193). -/
def wantChamber (s : State) (n : ChamberSlot) : State :=
  match chamberOf s n with
  | some x => if x.state = .evicting then setChamber s n { x with wanted := true } else touchChamber s n
  | none => s

/-! ### Address forms (R136 to R138, R312, R317) -/

/-- A loc or core offset on a scull (R137). -/
def pageForm (s : State) (sc : ScullId) (crew : CrewId) (o : Nat) (ea : Word) : Except Trap Place :=
  if allocated s sc crew o then .ok (.page sc crew o) else .error (capacityTrap 0x01 ea)

/-- The place of a scratchpad mode's effective address, n bytes wide. -/
def scratchForm (s : State) (sc : ScullId) (c : Ctx) (m : MemRef) (ea : Word) : Except Trap Place :=
  match m.mode with
  | .loc => pageForm s sc c.crew ea.toNat ea
  | .core =>
    let i := (ea.extractLsb' 40 11 : BitVec 11)
    if ea.extractLsb' 51 13 ≠ (0 : BitVec 13) ∨ c.csz.toNat < i.toNat then .error (capacityTrap 0x02 ea)
    else pageForm s (memberOf s c.crew sc i.toNat) c.crew (ea.toNat % 2 ^ 40) ea
  | .shl =>
    let i := ea.toNat / 8
    let target : ScullId := BitVec.ofNat 11 (sc.toNat / 8 * 8 + i % 8)
    if (groupOf s target c.crew).isNone then .error (capacityTrap 0x02 ea)
    else pageForm s target c.crew (i / 8 * 8 + ea.toNat % 8) ea
  | .crw =>
    let g := ea.toNat / 64
    let k := c.csz.toNat + 1
    pageForm s (memberOf s c.crew sc (g % k)) c.crew (g / k * 64 + ea.toNat % 64) ea
  | .chm =>
    let h := readReg c m.a
    match openChamber s c.asid h with
    | none => .error (attachMiss 0x03 h)
    | some x =>
      let o := (ea - h).toNat
      if !crewAttached s c.crew h then .error (attachMiss 0x03 h)
      else if o < x.nfr * 4096 then .ok (.chamber (handleSlot h) (handleGen h) o)
      else .error (capacityTrap 0x07 ea)
  | .glb => .error { code := 0x06, aux := 0x01, tval := ea }

/-- The address whose alignment R136 tests: for chm the offset. -/
def alignAddr (c : Ctx) (m : MemRef) (ea : Word) : Nat :=
  match m.mode with
  | .chm => (ea - readReg c m.a).toNat
  | _ => ea.toNat

/-- The capability check of a scratchpad mode: chm alone (R146, R147). -/
def scratchGranted (c : Ctx) (p : Place) (need : Rights) (n : Nat) : Bool :=
  match p with
  | .chamber slot _ o => capsGrant c.caps c.asid need (windowBase slot + o) n
  | _ => true

/-! ### The touched-bank mask (R158) -/

def touchScull (t : Touched) (own target : ScullId) (bank : Nat) : Touched :=
  if target = own then { t with own := t.own ||| ((1 : BitVec 96) <<< bank) }
  else if t.remote.contains target then t
  else if t.remote.length < 8 then { t with remote := t.remote ++ [target] }
  else { t with dies := t.dies ||| ((1 : BitVec 8) <<< dieOf target) }

/-- The mask after an access to byte b of a scull: the bank of its word (R127). -/
def touchAt (c : Ctx) (own x : ScullId) (b : Nat) : Ctx := { c with touched := touchScull c.touched own x (b / 8 % 96) }

/-- The mask after an access to a place. A place that has no bank now, its page or chamber not there, is added when the access reaches
its bank. -/
def touch (s : State) (own : ScullId) (c : Ctx) (p : Place) : Ctx :=
  match p with
  | .page sc crew o => match pageState s sc crew (o / frameBytes) with
    | some (.pinned f) => touchAt c own sc (f * frameBytes + o % frameBytes)
    | _ => if sc = own then c else touchAt c own sc o
  | .chamber n _ o => match (chamberOf s n).bind fun x => chamberHolder x o with
    | some h => touchAt c own h.1 h.2
    | none => c
  | _ => { c with touched := { c.touched with glb := true } }

/-- The mask after an access of several words of the own scratchpad, at their bytes. -/
def touchBytes (c : Ctx) (own : ScullId) (l : List Nat) : Ctx := l.foldl (fun c b => touchAt c own own b) c

/-! ### Accesses at a bank (R139, R152, R162 to R165) -/

def accessOf (s : State) (id : Nat) : Option Access :=
  match itemOf s id with
  | some (.access a) => some a
  | _ => none
def setAccess (s : State) (id : Nat) (a : Access) : State := setItem s id (.access a)

/-- Whether the F bit lets the access proceed (R51). -/
def mayProceed (full : Bool) (a : Access) : Bool :=
  match a.fe, a.op with
  | .plain, _ => true
  | .sync, .store _ => !full
  | .take, .store _ => true
  | _, _ => full

/-- The F bit after the access (R51, R139). -/
def fullAfter (full : Bool) (a : Access) : Bool :=
  match a.fe, a.op with
  | .plain, _ => full
  | _, .store _ => true
  | .take, _ => false
  | .sync, _ => full

/-- Whether the access is an instruction's action at its word. -/
def wordOp (a : Access) : Bool :=
  match a.op with
  | .word _ => true
  | _ => false

/-! ### Latencies (R5) -/

/-- What R5 says of a load's time from its issue to its result: so many cycles, at most so many, or nothing that is guaranteed. -/
inductive LoadTime where
  | exact (n : Nat)
  | within (n : Nat)
  | open_
  deriving DecidableEq, Repr

/-- The scull a scratchpad place lies on. -/
def placeScull (s : State) (p : Place) : Option ScullId :=
  match p with
  | .page sc _ _ => some sc
  | .chamber n _ o => ((chamberOf s n).bind fun x => chamberHolder x o).map Prod.fst
  | .global _ => none

/-- The row of R5 for a load: own scratchpad, a scull of the shell, of the die, of another die, a hit in the shell L2. -/
def loadTime (s : State) (a : Access) : LoadTime :=
  match a.op, a.place with
  | .load _, .global pa => if (shellRead s (shellNode a.sc) pa a.size).isSome then .exact 40 else .open_
  | .load _, p => match placeScull s p with
    | some x => if x = a.sc then .exact 6 else if shellOf x = shellOf a.sc then .exact 20
        else if dieOf x = dieOf a.sc then .within 70 else .within 180
    | none => .open_
  | _, _ => .open_

/-- An otherwise idle device (R5): no other access outstanding, no engine running. -/
def unloaded (s : State) (id : Nat) : Bool :=
  (s.items.all fun e => e.1 == id || match e.2 with
    | .access _ => false
    | _ => true) && s.engines.all fun e => !e.2.started

/-- Posts a leg of an access's way: an exact time for an idle device, a time within a bound, or one of its own (log 2). -/
def postLeg (s : State) (id : Nat) (a : Access) (i : Instr) (leg : Nat → Nat) : State :=
  if unloaded s id then match loadTime s a with
    | .exact n => post s (leg n) (.item id) i
    | .within n => postWithin s (leg n) (.item id) i
    | .open_ => postLater s (.item id) i
  else postLater s (.item id) i

/-- The way out: half of the time to a bank, all of it to the shell L2. -/
def postOut (s : State) (id : Nat) (a : Access) : State :=
  match a.place with
  | .global _ => postLeg s id a .accessResponse id
  | _ => postLeg s id a .scratchpadAccessArrival (· / 2)

/-- The way back: what is left of the time, and half of it at least after a wait at the bank. -/
def postBack (s : State) (id : Nat) (a : Access) : State :=
  postLeg s id a .accessResponse fun n => max (n / 2) (a.sent + n - s.cycle)

/-- Applies an access at its bank: data and F change as one event (R139); a poisoned word is reported (R332). -/
def performAt (s : State) (id : Nat) (a : Access) (sc : ScullId) (b : Nat) : State :=
  let x := scullOf s sc
  let w := b / 8
  let full := fullBit x w
  let respond := fun (s : State) (p : AccessPhase) => postBack (setAccess s id { a with phase := p }) id a
  match a.op with
  | .store v =>
    respond (setScull s sc (setFullBit (spadWrite x b a.size v) w (fullAfter full a))) .accepted
  | _ =>
    if wordPoison x w then respond s (.trapped (poisonTrap 0x01 a.ea))
    else respond (setScull s sc (setFullBit x w (fullAfter full a))) (.value (spadRead x b a.size))

/-- Whether an access is a context's own. -/
def ownsAccess (c : Ctx) (id : Nat) : Bool := c.overlap.contains id || waitOf c == some (.access id)

/-- Whether an access's context is FROZEN, and so passed over (R397). -/
def accessFrozen (s : State) (id : Nat) (a : Access) : Bool :=
  let c := ctxOf s a.sc a.slot
  isFrozen c && ownsAccess c id

/-- Serves a word's wait queue: the first waiter that is not FROZEN proceeds while F lets it (R165, R397). -/
def serveWord (s : State) (sc : ScullId) (w : Nat) : Nat → State
  | 0 => s
  | n + 1 =>
    let x := scullOf s sc
    let q := tabGet [] x.wordQueues w
    match q.find? fun id => match accessOf s id with
      | some a => !accessFrozen s id a
      | none => true with
    | none => s
    | some id =>
      let rest := q.filter (· != id)
      let out := setScull s sc { x with wordQueues := if rest = [] then tabDrop x.wordQueues w else tabSet x.wordQueues w rest }
      match accessOf s id with
      | none => serveWord out sc w n
      | some a =>
        if mayProceed (fullBit x w) a then
          match locateFor (some a.sc) out a.place a.ea with
          | .at_ _ b => serveWord (performAt out id a sc b) sc w n
          | _ => out
        else s

/-- After a change of a word's F bit (R165). -/
def serveFull (s : State) (sc : ScullId) (w : Nat) : State :=
  serveWord s sc w ((tabGet [] (scullOf s sc).wordQueues w).length)

/-- Puts an access among a page's waiters (R134). -/
def joinPage (s : State) (id : Nat) (a : Access) (sc : ScullId) (crew : CrewId) (v : Nat) : State :=
  let s := touchPage s sc crew v
  match groupOf s sc crew with
  | some g =>
    setAccess (setGroup s sc crew { g with waiters := tabSet g.waiters v (tabGet [] g.waiters v ++ [id]) }) id { a with phase := .atPage }
  | none => s

/-- Puts an access among a chamber's waiters (R313). -/
def joinChamber (s : State) (id : Nat) (a : Access) (n : ChamberSlot) : State :=
  let s := touchChamber s n
  match chamberOf s n with
  | some x => setAccess (setChamber s n { x with waiters := x.waiters ++ [id] }) id { a with phase := .atPage }
  | none => s

end Sys2Proof.Machine
end

