-- ==== Sys2Proof/Machine/Memory.lean ====
section
/-! DEFINITION. Loads, stores and acquire and release forms (R161 to R164, R156), the F bit instructions (R167), and what every memory
instruction shares: the order of checks of R149, the outstanding accesses of R152 and R153, and the drain of a release (R156, R158). -/

namespace Sys2Proof.Machine

/-- Takes a trap at the issued instruction. -/
def raise (s : State) (sc : ScullId) (slot : Slot) (t : Trap) : State := takeTrap s sc slot t (ctxOf s sc slot).pc

/-- Whether two accesses touch a common byte of one place (R153). -/
def sameBytes (p q : Place) (n k : Nat) : Bool :=
  let near := fun (a b : Nat) => a < b + k && b < a + n
  match p, q with
  | .page x c o, .page y d u => x == y && c == d && near o u
  | .chamber x _ o, .chamber y _ u => x == y && near o u
  | .global a, .global b => near a b
  | _, _ => false

/-- Whether an outstanding overlap access of the context touches these bytes (R153, R155). -/
def overlapsEarlier (s : State) (c : Ctx) (p : Place) (n : Nat) : Bool :=
  c.overlap.any fun id => match accessOf s id with
    | some a => sameBytes p a.place n a.size
    | none => false

/-- An access's checks in the order of R149 (alignment, address form, capability, translation), then k on its place. -/
def checkAccess (s : State) (sc : ScullId) (slot : Slot) (c : Ctx) (m : MemRef) (ea : Word) (n align : Nat) (kind : AccessKind)
    (need : Rights) (k : State → Place → State) : State :=
  if alignAddr c m ea % align ≠ 0 then raise s sc slot { code := 0x03, aux := 0, tval := ea }
  else if m.mode = .glb then
    if !canonical ea then raise s sc slot { code := 0x06, aux := 0x01, tval := ea }
    else if !capsGrant c.caps c.asid need ea.toNat n then freezeCap s sc slot kind ea need
    else match translate s sc slot c ea kind with
      | .miss s => s
      | .hit s pa =>
        if contextMay s sc pa n need then k s (.global pa) else raise s sc slot (capacityTrap 0x03 ea)
  else match scratchForm s sc c m ea with
    | .error t => raise s sc slot t
    | .ok p =>
      if scratchGranted c p need n then k s p
      else freezeCap s sc slot kind (match p with
        | .chamber h _ o => BitVec.ofNat 64 (windowBase h + o)
        | _ => ea) need

/-! ### Draining (R156, R158) -/

def scopeRank : Scope → Nat
  | .plain => 0 | .core => 1 | .shell => 2 | .die => 3 | .package => 4 | .system => 5

/-- Aperture writes of a context whose packet the far endpoint has not acknowledged (R386). -/
def aperturePending (s : State) (sc : ScullId) (slot : Slot) : Bool :=
  s.items.any fun e => match e.2 with
    | .packet p => p.master == .context sc slot && p.held.isNone
    | _ => false

/-- Every earlier access of the context has performed at the scope: no overlap access outstanding; beyond the shell, no store accepted by
the shell L2 still to perform, its own or one it may have observed (R156 is cumulative); at system scope, every aperture write
acknowledged (R386). -/
def drained (s : State) (sc : ScullId) (slot : Slot) (c : Ctx) (scope : Scope) : Bool :=
  c.overlap.isEmpty
    && (scopeRank scope < 3 || (agentOf s (shellNode sc)).stores.isEmpty)
    && (scopeRank scope < 5 || !aperturePending s sc slot)

/-- Waits until drained at a scope, then goes on. -/
def whenDrained (s : State) (sc : ScullId) (slot : Slot) (c : Ctx) (scope : Scope) (k : State) : State :=
  if drained s sc slot c scope then k else park s sc slot c (.reissue .drain)

/-- Whether an outstanding overlap access of the context is a scratchpad access (R159, R185, R189). -/
def scratchOutstanding (s : State) (c : Ctx) : Bool :=
  c.overlap.any fun id => match accessOf s id with
    | some a => (match a.place with
      | .global _ => false
      | _ => true)
    | none => false

/-! ### Outstanding accesses (R152, R153) -/

/-- Whether an earlier access of the context to a byte of a global access has not performed: it goes first (R155). -/
def behindEarlier (s : State) (id : Nat) (a : Access) : Bool :=
  s.items.any fun e => match e.2 with
    | .access q => decide (e.1 < id) && q.sc == a.sc && q.slot == a.slot && q.phase == .inFlight && sameBytes a.place q.place a.size q.size
    | _ => false

/-- Makes an access outstanding: a ninth overlap access, and one to bytes that an earlier one still touches, wait (R153); any other takes its
context out of rotation (R26). -/
def startAccess (s : State) (sc : ScullId) (slot : Slot) (a : Access) : State :=
  let c := touch s sc (ctxOf s sc slot) a.place
  let id := s.nextId
  if a.ov then
    if c.overlap.length ≥ 8 ∨ overlapsEarlier s c a.place a.size then park s sc slot (ctxOf s sc slot) (.reissue .overlap)
    else
      let s := addItem s (.access a)
      postOut (finish s sc slot { c with overlap := c.overlap ++ [id] }) id a
  else
    let s := addItem s (.access a)
    postOut (park s sc slot c (.access id)) id a

/-! ### Loads and stores (R162 to R164) -/

/-- Rights of a load or store with a full/empty code (R148). -/
def loadRights (fe : FullEmpty) : Rights := { rightsRead with f := fe != .plain }
def storeRights (fe : FullEmpty) : Rights := { rightsWrite with f := fe != .plain }

/-- The scratchpad byte at which an access of this kind stays in rotation: a loc access with plain full/empty operation to a page that is
pinned as it issues (R26, R164). -/
def localByte (s : State) (p : Place) (ea : Word) (local_ : Bool) : Option (ScullId × Nat) :=
  if local_ then match locate s p ea with
    | .at_ x b => some (x, b)
    | _ => none
  else none

/-- Whether the access is of the kind that stays in rotation on a pinned page (R164). -/
def staysLocal (m : MemRef) (fe : FullEmpty) (ov : Bool) : Bool := m.mode == .loc && fe == .plain && !ov

/-- An access as it leaves its context. -/
def newAccess (s : State) (sc : ScullId) (slot : Slot) (c : Ctx) (op : AccessOp) (p : Place) (ea : Word) (n : Nat) (fe : FullEmpty) (ov : Bool)
    (d : Reg) (scope : Scope) : Access :=
  { sc := sc, slot := slot, op := op, place := p, ea := ea, size := n, fe := fe, ov := ov, d := d, scope := scope, asid := c.asid, crew := c.crew,
    sent := s.cycle, phase := .inFlight }

/-- A load's body: with its result in the same step where the access stays in rotation, else outstanding. -/
def loadBody (d : Reg) (m : MemRef) (n : Nat) (signed : Bool) (fe : FullEmpty) (ov : Bool) (scope : Scope)
    (s : State) (sc : ScullId) (slot : Slot) (c : Ctx) : State :=
  let ea := effAddr c m n
  checkAccess s sc slot c m ea n n .load (loadRights fe) fun s p =>
    match localByte s p ea (staysLocal m fe ov) with
    | some (x, b) =>
      if wordPoison (scullOf s x) (b / 8) then raise s sc slot (poisonTrap 0x01 ea)
      else finishReg s sc slot (touch s sc (ctxOf s sc slot) p) d (extendValue signed n (spadRead (scullOf s x) b n))
    | none => startAccess s sc slot (newAccess s sc slot c (.load signed) p ea n fe ov d scope)

/-- A store's body, in the same way. -/
def storeBody (d : Reg) (m : MemRef) (n : Nat) (fe : FullEmpty) (ov : Bool) (scope : Scope)
    (s : State) (sc : ScullId) (slot : Slot) (c : Ctx) : State :=
  let ea := effAddr c m n
  let v := readReg c d
  checkAccess s sc slot c m ea n n .store (storeRights fe) fun s p =>
    match localByte s p ea (staysLocal m fe ov) with
    | some (x, b) => finish (setScull s x (spadWrite (scullOf s x) b n v)) sc slot (touch s sc (ctxOf s sc slot) p)
    | none => startAccess s sc slot (newAccess s sc slot c (.store v) p ea n fe ov d scope)

def execLd (d : Reg) (m : MemRef) (z : Size) (fe : FullEmpty) (ov : Bool) (s : State) : Result :=
  .next (issueBy (.ld d m z fe ov) (memRegs m) [d] false (loadBody d m (sizeBytes z) false fe ov .plain) s)
def execLds (d : Reg) (m : MemRef) (z : Size) (fe : FullEmpty) (ov : Bool) (s : State) : Result :=
  .next (issueBy (.lds d m z fe ov) (memRegs m) [d] false (loadBody d m (sizeBytes z) true fe ov .plain) s)
/-- LD.AQ: it performs before any later access, because its context waits for it (R152, R156). -/
def execLdAq (d : Reg) (m : MemRef) (z : Size) (scope : Scope) (s : State) : Result :=
  .next (issueBy (.ldAq d m z scope) (memRegs m) [d] false (loadBody d m (sizeBytes z) false .plain false scope) s)
def execLdsAq (d : Reg) (m : MemRef) (z : Size) (scope : Scope) (s : State) : Result :=
  .next (issueBy (.ldsAq d m z scope) (memRegs m) [d] false (loadBody d m (sizeBytes z) true .plain false scope) s)
def execSt (d : Reg) (m : MemRef) (z : Size) (fe : FullEmpty) (ov : Bool) (s : State) : Result :=
  .next (issueBy (.st d m z fe ov) (d :: memRegs m) [] false (storeBody d m (sizeBytes z) fe ov .plain) s)
/-- ST.RL: the store follows every earlier access at its scope (R156). -/
def execStRl (d : Reg) (m : MemRef) (z : Size) (scope : Scope) (s : State) : Result :=
  .next (issueBy (.stRl d m z scope) (d :: memRegs m) [] false (fun s sc slot c =>
    whenDrained s sc slot c scope (storeBody d m (sizeBytes z) .plain false scope s sc slot c)) s)

/-! ### Instructions that act on a word of a scratchpad -/

/-- What an instruction's action at its word comes to: a value for gd, nothing to write, a wait, or a trap. -/
inductive WordDone where
  | value (v : Word)
  | plain
  | waits (w : Wait)
  | trap (t : Trap)
  deriving DecidableEq, Repr

/-- FBRD: the F bit alone; a poisoned word is consumed (R167, R332). -/
def readFull (s : State) (ea : Word) (x : ScullId) (b : Nat) : State × WordDone :=
  if wordPoison (scullOf s x) (b / 8) then (s, .trap (poisonTrap 0x01 ea)) else (s, .value (boolWord (fullBit (scullOf s x) (b / 8))))

/-- FBSET and FBCLR: a change wakes the word's queue (R167). -/
def putFull (s : State) (v : Bool) (x : ScullId) (b : Nat) : State × WordDone :=
  let y := scullOf s x
  (if fullBit y (b / 8) = v then s else serveFull (setScull s x (setFullBit y (b / 8) v)) x (b / 8), .plain)

/-! ### Queued reservations (R168 to R173) -/

def resvOf (x : Scull) (w : Nat) : Option ResvWord := x.resvs.find? fun r => r.word == w
def setResv (x : Scull) (r : ResvWord) : Scull := { x with resvs := x.resvs.map fun q => if q.word = r.word then r else q }
def dropResv (x : Scull) (w : Nat) : Scull := { x with resvs := x.resvs.filter fun r => r.word != w }
/-- Reserved words of a bank (R169). -/
def bankResvs (x : Scull) (w : Nat) : Nat := (x.resvs.filter fun r => r.word % 96 == w % 96).length
/-- Entries of a bank (R169). -/
def bankLimit : Nat := 8

/-- Makes a waiter the holder: its AQR reads the word and completes (R169). -/
def grantResv (s : State) (sc : ScullId) (w : Nat) (k : Nat) : State :=
  let c := ctxAt s k
  let c := { c with resv := c.resv.map fun r => { r with held := true } }
  match waitOf c with
  | some (.reservation d) => complete s k (writeReg c d (spadRead (scullOf s sc) (w * 8) 8))
  | _ => setCtxAt s k c

/-- A waiter that a poisoned word reaches has no reservation and traps (R332). -/
def poisonResv (s : State) (k : Nat) : State :=
  let c := ctxAt s k
  match c.resv with
  | some r => trapWaiting (setCtxAt s k { c with resv := none }) k (poisonTrap 0x01 r.ea)
  | none => s

/-- Gives a word without a holder to the first waiter that is not FROZEN, one of a poisoned word after the other trapping; an entry without
holder and waiters frees (R169, R332, R397). -/
def serveResv (s : State) (sc : ScullId) (w : Nat) : Nat → State
  | 0 => s
  | n + 1 =>
    let x := scullOf s sc
    match resvOf x w with
    | none => s
    | some r =>
      if r.holder.isSome then s
      else match r.queue.find? fun k => !isFrozen (ctxAt s k) with
        | some k =>
          let rest := r.queue.filter (· != k)
          if wordPoison x w then serveResv (poisonResv (setScull s sc (setResv x { r with queue := rest })) k) sc w n
          else grantResv (setScull s sc (setResv x { r with holder := some k, queue := rest })) sc w k
        | none => if r.queue = [] then setScull s sc (dropResv x w) else s

/-- Serves the waiters of a word that has lost its holder. -/
def serveWordResv (s : State) (sc : ScullId) (w : Nat) : State :=
  let n := match resvOf (scullOf s sc) w with
    | some r => r.queue.length
    | none => 0
  serveResv s sc w (n + 1)

/-- The first waiter of a bank's overflow queue that is not FROZEN (R169, R397). -/
def firstOverflow (s : State) (x : Scull) (w : Nat) : Option (Nat × Nat) :=
  x.resvOverflow.find? fun e => e.2 % 96 == w % 96 && !isFrozen (ctxAt s e.1)

/-- Entries that freed go to the overflow queue's waiters in arrival order; one whose word is reserved meanwhile joins that word's queue
and takes no entry (R169). -/
def serveOverflow (s : State) (sc : ScullId) (w : Nat) : Nat → State
  | 0 => s
  | n + 1 =>
    let x := scullOf s sc
    if bankLimit ≤ bankResvs x w then s
    else match firstOverflow s x w with
      | none => s
      | some (k, v) =>
        let x := { x with resvOverflow := x.resvOverflow.filter fun e => e.1 != k }
        let s := match resvOf x v with
          | some q => setScull s sc (setResv x { q with queue := q.queue ++ [k] })
          | none => setScull s sc { x with resvs := x.resvs ++ [{ word := v, holder := none, queue := [k] }] }
        serveOverflow (serveWordResv s sc v) sc w n

/-- Hands a word on, and what entry that frees (R169). -/
def passResv (s : State) (sc : ScullId) (w : Nat) : State :=
  let s := serveWordResv s sc w
  serveOverflow s sc w ((scullOf s sc).resvOverflow.length + 1)

/-- Cancels a context's reservation as R171 does: a holder releases as ARC, a waiter leaves the queue. -/
def cancelResv (s : State) (k : Nat) : State :=
  let c := ctxAt s k
  match c.resv with
  | none => s
  | some r =>
    let s := setCtxAt s k { c with resv := none }
    let x := scullOf s r.sc
    let x := { x with
      resvs := x.resvs.map fun q => if q.word = r.word then
        { q with holder := if r.held then none else q.holder, queue := q.queue.filter (· != k) } else q
      resvOverflow := x.resvOverflow.filter fun e => e.1 != k }
    passResv (setScull s r.sc x) r.sc r.word

/-- AQR at its word (R169): what can be handed on goes first (R397); then it joins the word's queue, or the bank's overflow queue behind those
already there. Only a holder reads the word, and traps where it is poisoned (R332). -/
def joinResv (s : State) (sc : ScullId) (slot : Slot) (d : Reg) (ea : Word) (x : ScullId) (b : Nat) : State × WordDone :=
  let w := b / 8
  let k := ctxKey sc slot
  let s := passResv s x w
  let c := ctxOf s sc slot
  let y := scullOf s x
  let mine := fun (held : Bool) => setCtx s sc slot { c with resv := some { sc := x, word := w, held := held, pc := c.pc, ea := ea } }
  match resvOf y w with
  | some r =>
    if r.holder.isSome then (setScull (mine false) x (setResv y { r with queue := r.queue ++ [k] }), .waits (.reservation d))
    else if wordPoison y w then (s, .trap (poisonTrap 0x01 ea))
    else (setScull (mine true) x (setResv y { r with holder := some k }), .value (spadRead y b 8))
  | none =>
    if bankResvs y w < bankLimit then
      if wordPoison y w then (s, .trap (poisonTrap 0x01 ea))
      else (setScull (mine true) x { y with resvs := y.resvs ++ [{ word := w, holder := some k, queue := [] }] }, .value (spadRead y b 8))
    else (setScull (mine false) x { y with resvOverflow := y.resvOverflow ++ [(k, w)] }, .waits (.reservation d))

/-- Whether the context holds the reservation of a word. -/
def holdsWord (c : Ctx) (x : ScullId) (w : Nat) : Bool :=
  match c.resv with
  | some r => r.held && r.sc == x && r.word == w
  | none => false

/-- ARL and ARC at their word (R169): a release by a non-holder traps; the word is written or not, F unchanged, and handed on. -/
def releaseAt (s : State) (sc : ScullId) (slot : Slot) (v : Option Word) (ea : Word) (x : ScullId) (b : Nat) : State × WordDone :=
  if !holdsWord (ctxOf s sc slot) x (b / 8) then (s, .trap { code := 0x01, aux := 0x02, tval := ea })
  else
    let s := match v with
      | some w => setScull s x (spadWrite (scullOf s x) b 8 w)
      | none => s
    (cancelResv s (ctxKey sc slot), .plain)

/-- Whether an overlap access of the context is outstanding at a word's bank, or at a place of its scull that has no bank now: the next
holder's AQR returns after it (R173). -/
def bankOutstanding (s : State) (c : Ctx) (x : ScullId) (b : Nat) : Bool :=
  c.overlap.any fun id => match accessOf s id with
    | some a => (match locate s a.place a.ea with
      | .at_ y o => y == x && o / 8 % 96 == b / 8 % 96
      | .page y _ _ => y == x
      | .chamber _ => true
      | .trap _ => false)
    | none => false

/-! ### Global atomics (R174 to R176) -/

/-- The value an atomic writes, on the n low bytes of the old value and operand (R174, R175). -/
def atomNew (op : AtomOp) (n : Nat) (old x new : Word) : Word :=
  let o := extendValue false n old
  let y := extendValue false n x
  match op with
  | .add => extendValue false n (o + y)
  | .and => o &&& y
  | .or => o ||| y
  | .xor => o ^^^ y
  | .min => if (extendValue true n o).slt (extendValue true n y) then o else y
  | .max => if (extendValue true n o).slt (extendValue true n y) then y else o
  | .minu => if o.ult y then o else y
  | .maxu => if o.ult y then y else o
  | .swap => y
  | .cas => if o = y then extendValue false n new else o

/-- An atomic issues: its scope's release first, then it goes to the home (R175, R176). -/
def atomicIssue (i : Instr) (op : AtomOp) (d a b : Reg) (off : BitVec 18) (z : AtomSize) (scope : Scope) (s : State) : State :=
  issueBy i [d, a, b] [d] false (fun s sc slot c =>
    let n := atomBytes z
    let m : MemRef := { mode := .glb, a := a, b := if op = .cas then 0 else b, off := off }
    let ea := effAddr c m n
    let new := if op = .cas then readReg c b else 0
    let go := checkAccess s sc slot c m ea n n .atomic rightsAtomic fun s p =>
      match p with
      | .global pa =>
        if inRegisters pa then raise s sc slot (capacityTrap 0x03 ea)
        else
          let id := s.nextId
          let s := addItem s (.access (newAccess s sc slot c (.atomic op (readReg c d) new) p ea n .plain false d scope))
          postLater (park s sc slot (touch s sc (ctxOf s sc slot) p) (.access id)) (.item id) .atomicAtHome
      | _ => s
    if scope = .plain then go else whenDrained s sc slot c scope go) s

def execAadd (d a b : Reg) (o : BitVec 18) (z : AtomSize) (sc : Scope) (s : State) : Result :=
  .next (atomicIssue (.aadd d a b o z sc) .add d a b o z sc s)
def execAand (d a b : Reg) (o : BitVec 18) (z : AtomSize) (sc : Scope) (s : State) : Result :=
  .next (atomicIssue (.aand d a b o z sc) .and d a b o z sc s)
def execAor (d a b : Reg) (o : BitVec 18) (z : AtomSize) (sc : Scope) (s : State) : Result :=
  .next (atomicIssue (.aor d a b o z sc) .or d a b o z sc s)
def execAxor (d a b : Reg) (o : BitVec 18) (z : AtomSize) (sc : Scope) (s : State) : Result :=
  .next (atomicIssue (.axor d a b o z sc) .xor d a b o z sc s)
def execAmin (d a b : Reg) (o : BitVec 18) (z : AtomSize) (sc : Scope) (s : State) : Result :=
  .next (atomicIssue (.amin d a b o z sc) .min d a b o z sc s)
def execAmax (d a b : Reg) (o : BitVec 18) (z : AtomSize) (sc : Scope) (s : State) : Result :=
  .next (atomicIssue (.amax d a b o z sc) .max d a b o z sc s)
def execAminu (d a b : Reg) (o : BitVec 18) (z : AtomSize) (sc : Scope) (s : State) : Result :=
  .next (atomicIssue (.aminu d a b o z sc) .minu d a b o z sc s)
def execAmaxu (d a b : Reg) (o : BitVec 18) (z : AtomSize) (sc : Scope) (s : State) : Result :=
  .next (atomicIssue (.amaxu d a b o z sc) .maxu d a b o z sc s)
def execAswp (d a b : Reg) (o : BitVec 18) (z : AtomSize) (sc : Scope) (s : State) : Result :=
  .next (atomicIssue (.aswp d a b o z sc) .swap d a b o z sc s)
def execAcas (d a b : Reg) (o : BitVec 18) (z : AtomSize) (sc : Scope) (s : State) : Result :=
  .next (atomicIssue (.acas d a b o z sc) .cas d a b o z sc s)

/-- ATOMIC_AT_HOME (R175): old read and new written indivisibly; stores the shell accepted for the line come first (R155). A poisoned line
is consumed (R332). -/
def atomicAtHome (s : State) (id : Nat) (a : Access) (pa : Nat) (op : AtomOp) (x new : Word) : State :=
  let respond := fun (s : State) (p : AccessPhase) =>
    postLater (setAccess s id { a with phase := p }) (.item id) .accessResponse
  if behindEarlier s id a ∨ (agentOf s (shellNode a.sc)).stores.any (fun t => lineOf t.pa == lineOf pa) then postLater s (.item id) .atomicAtHome
  else
    let s := collapseLine (atHome s (shellNode a.sc) (lineOf pa)) (lineOf pa)
    if globalPoison s pa then respond s (.trapped (poisonTrap 0x02 a.ea))
    else
      let old : Word := BitVec.ofNat 64 (globalRead s pa a.size)
      respond (globalWrite s pa a.size (atomNew op a.size old x new).toNat) (.value old)

def execAtomicAtHome (s : State) : Result :=
  match s.actor with
  | .item id => match accessOf s id with
    | some a => match a.op, a.place, a.phase with
      | .atomic op x new, .global pa, .inFlight => .next (atomicAtHome s id a pa op x new)
      | _, _, _ => .next s
    | none => .next s
  | _ => .next s

end Sys2Proof.Machine
end

