-- ==== Sys2Proof/Machine/Sync.lean ====
section
/-! DEFINITION. Fences (R158, R182), deposits (R177 to R181), siphons (R183 to R185), link registers (R186 to R189), barriers (R196 to R198)
and semaphores (R200 to R202). -/

namespace Sys2Proof.Machine

/-! ### FENCE (R145, R158, R182) -/

/-- The scull an access lands on (R158). -/
def accessScull (s : State) (a : Access) : Option ScullId :=
  match a.place with
  | .page x _ _ => some x
  | .chamber n _ o => ((chamberOf s n).bind fun x => chamberHolder x o).map Prod.fst
  | _ => none

/-- The sculls a fence probes: its own, the remote ones and every scull of an overflow die (R158). -/
def probeTargets (sc : ScullId) (t : Touched) : List ScullId :=
  (if t.own ≠ 0 then [sc] else []) ++ t.remote
    ++ (List.range 8).flatMap fun d =>
      if t.dies.getLsbD d then
        ((List.range 256).map fun i => (BitVec.ofNat 11 (d * 256 + i) : ScullId)).filter fun x => x ≠ sc ∧ !t.remote.contains x
      else []

/-- A completed fence: the mask is clear and words already fetched are discarded (R145, R158). -/
def fenced (c : Ctx) : Ctx := { c with touched := .none, fetched := [] }

/-- FENCE (R158): with an empty mask it completes at once, but at system scope an aperture write is waited for (R386); an overlap access that has come to no bank yet, one that waits for a chamber or page, is
waited for (R153). -/
def execFence (scope : Scope) (s : State) : Result :=
  .next (issueBy (.fence scope) [] [] false (fun s sc slot c =>
    if c.touched = .none ∧ c.overlap = [] ∧ (scopeRank scope < 5 ∨ !aperturePending s sc slot) then finish s sc slot (fenced c)
    else
      let targets := probeTargets sc c.touched
      let s := park s sc slot c (.fence scope targets)
      if targets = [] then postLater s (.context sc slot) (.fenceEcho sc slot sc)
      else targets.foldl (fun s t => postLater s (.context sc slot) (.fenceProbe sc slot t)) s) s)

/-- FENCE_PROBE (R158): it stays behind the context's accesses to the scull, then echoes. -/
def execFenceProbe (sc : ScullId) (slot : Slot) (target : ScullId) (s : State) : Result :=
  let c := ctxOf s sc slot
  let behind := c.overlap.any fun id => match accessOf s id with
    | some a => accessScull s a == some target && (a.phase == .inFlight || a.phase == .atPage || a.phase == .atWord)
    | none => false
  if behind then .next (postLater s (.context sc slot) (.fenceProbe sc slot target))
  else .next (postLater s (.context sc slot) (.fenceEcho sc slot target))

/-- FENCE_ECHO (R158): the last echo and the drain complete the fence. -/
def execFenceEcho (sc : ScullId) (slot : Slot) (target : ScullId) (s : State) : Result :=
  let c := ctxOf s sc slot
  match waitOf c with
  | some (.fence scope probes) =>
    let rest := probes.erase target
    if rest ≠ [] then
      let st : CtxState := if isFrozen c then .frozen (.waiting (.fence scope rest)) else .waiting (.fence scope rest)
      .next (setCtx s sc slot { c with st := st })
    else if drained s sc slot c scope then .next (complete s (ctxKey sc slot) (fenced c))
    else .next (postLater s (.context sc slot) (.fenceEcho sc slot target))
  | _ => .next s

/-! ### Deposits (R177 to R179) -/

def depositUnit : Nat := 2048
def depositMark : Nat := 1536

/-- The crew-relative index of a scull (R285), none where it is no member. -/
def memberIndex (s : State) (crew : CrewId) (sc : ScullId) : Option Nat :=
  ((crewOf s crew).bind fun x => x.members.findIdx? (· == sc))

/-- Room for n entries in a crew's spill region of a scull (R179, R288); a scull that is no member has no region. -/
def spillRoom (s : State) (crew : CrewId) (sc : ScullId) (n : Nat) : Bool :=
  match crewOf s crew, memberIndex s crew sc with
  | some x, some i => (tabGet [] x.spills i).length + n ≤ depositUnit
  | _, _ => false

/-- The scull whose log takes a deposit: for a page no access to the page itself is made (R177). -/
def depositPlace (s : State) (p : Place) (ea : Word) : Found :=
  match p with
  | .page x _ _ => if (scullOf s x).fenced then .trap (poisonTrap 0x03 ea) else .at_ x 0
  | _ => locate s p ea

/-- The next sequence number of a depositor (R178). -/
def depositSeq (s : State) (c : Ctx) (slot : Slot) : Nat :=
  match crewOf s c.crew with
  | some x => tabGet 0 x.depSeq (c.cidx.toNat * 64 + slot.toNat)
  | none => 0
def countDeposit (s : State) (c : Ctx) (slot : Slot) : State :=
  match crewOf s c.crew with
  | some x =>
    let k := c.cidx.toNat * 64 + slot.toNat
    setCrew s c.crew { x with depSeq := tabSet x.depSeq k (tabGet 0 x.depSeq k + 1) }
  | none => s

/-- An entry of a context's deposit (R178). -/
def depositEntry (s : State) (slot : Slot) (c : Ctx) (p : Place) (op : DepOp) (v : Word) : Deposit :=
  { crew := c.crew, chamber := (match p with | .chamber n g _ => some (n, g) | _ => none),
    off := (match p with | .page _ _ o => o | .chamber _ _ o => o | _ => 0), op := op, value := v, cidx := c.cidx, slot := slot,
    seq := depositSeq s c slot, image := [] }

/-- A deposit at a scull's log (R178, R179): with the unit full it waits, or raises capacity when its spill region is full too. -/
def depositAt (s : State) (sc : ScullId) (slot : Slot) (op : DepOp) (v : Word) (p : Place) (ea : Word) (x : ScullId) : State × WordDone :=
  let c := ctxOf s sc slot
  let y := scullOf s x
  if y.deposits.length < depositUnit then
    let s := countDeposit (setScull s x { y with deposits := y.deposits ++ [depositEntry s slot c p op v] }) c slot
    (if y.deposits.length + 1 > depositMark then postOnce s (.scull x) .depositSpill else s, .plain)
  else if spillRoom s c.crew x 1 then (postOnce s (.scull x) .depositSpill, .waits (.reissue (.deposit x)))
  else (s, .trap (capacityTrap 0x08 ea))

/-! ### Settling (R180, R181, R216) -/

/-- The updated bytes of a deposit (R177): RNE, subnormals kept, no flag recorded. -/
def depositValue (op : DepOp) (old v : Word) : Word :=
  match op with
  | .add => old + v
  | .fadds => BitVec.ofNat 64 (fp32.deliver .rne false
      (fpAdd .rne (fp32.read (old.setWidth 32 : BitVec 32).toNat) (fp32.read (v.setWidth 32 : BitVec 32).toNat))).1
  | .faddd => BitVec.ofNat 64 (fp64.deliver .rne false (fpAdd .rne (fp64.read old.toNat) (fp64.read v.toNat))).1
  | .min => minSigned old v
  | .max => maxSigned old v
  | .or => old ||| v

def depositBytes : DepOp → Nat
  | .fadds => 4 | _ => 8

/-- The order of R180 within one destination: offset, source index, source slot, sequence. -/
def depositKey (e : Deposit) : Nat :=
  ((e.off * 2048 + e.cidx.toNat) * 64 + e.slot.toNat) * 2 ^ 64 + e.seq
def insertDeposit (e : ScullId × Deposit) : List (ScullId × Deposit) → List (ScullId × Deposit)
  | [] => [e]
  | h :: t => if depositKey e.2 < depositKey h.2 then e :: h :: t else h :: insertDeposit e t
def sortDeposits (l : List (ScullId × Deposit)) : List (ScullId × Deposit) := l.foldl (fun t e => insertDeposit e t) []

/-- A crew's entries in the scull units, with the scull that holds each. -/
def unitDeposits (s : State) (crew : CrewId) : List (ScullId × Deposit) :=
  s.sculls.flatMap fun e =>
    (e.2.deposits.filter fun d => d.crew == crew).map fun d => ((BitVec.ofNat 11 e.1 : ScullId), d)

/-- A crew's spilled entries, with the scull of the index whose region holds each (R288). -/
def spilledDeposits (s : State) (crew : CrewId) : List (ScullId × Deposit) :=
  match crewOf s crew with
  | some x => x.spills.flatMap fun e => e.2.map fun d => (x.members.getD e.1 0, d)
  | none => []

/-- Where an entry is applied: a page of the scull, or the chamber's word wherever it lies now (R181). -/
def settlePlace (e : ScullId × Deposit) : Place :=
  match e.2.chamber with
  | some (n, g) => .chamber n g e.2.off
  | none => .page e.1 e.2.crew e.2.off

/-- A chamber reached by a settle is refilled whatever its miss policy (R181). -/
def settleLocate (s : State) (p : Place) : Found :=
  match p with
  | .chamber n g o => match chamberOf s n with
    | some x => if generation s n = g then
        match x.state, chamberAt x o with
        | _, some h => .at_ h.1 h.2
        | .resident, none => .trap (capacityTrap 0x07 0)
        | _, none => .chamber n
      else .trap (attachMiss 0x03 0)
    | none => .trap (attachMiss 0x03 0)
  | p => locate s p 0

/-- Whether a place is there to be written, or is no more (its entry is discarded). -/
def settleReady (s : State) (e : ScullId × Deposit) : Bool :=
  match settleLocate s (settlePlace e) with
  | .at_ _ _ | .trap _ => true
  | _ => false

/-- Starts the refills a settle needs. -/
def settleTouch (s : State) (e : ScullId × Deposit) : State :=
  match settleLocate s (settlePlace e) with
  | .page sc crew v => touchPage s sc crew v
  | .chamber n => touchChamber s n
  | _ => s

/-- Applies one entry: its bytes, then F of the word full; a poisoned word stays poisoned (R180, R331). -/
def settleOne (s : State) (e : ScullId × Deposit) : State :=
  match settleLocate s (settlePlace e) with
  | .at_ x b =>
    let y := scullOf s x
    let n := depositBytes e.2.op
    let v := depositValue e.2.op (spadRead y b n) e.2.value
    let y' := { setFullBit { y with data := memWriteNat y.data b n v.toNat } (b / 8) true with poison := y.poison }
    serveFull (setScull s x y') x (b / 8)
  | _ => s

/-- Removes a crew's entries and restarts its sequence numbers (R178, R181). -/
def discardDeposits (s : State) (crew : CrewId) : State :=
  let s := { s with sculls := tabMap (fun _ x => { x with deposits := x.deposits.filter fun d => d.crew != crew }) s.sculls }
  let s := match crewOf s crew with
    | some x => setCrew s crew { x with spills := [], depSeq := [] }
    | none => s
  wakeReissue s fun r => match r with | .deposit _ => true | _ => false

/-! ### Barriers (R196 to R198) -/

/-- The group of a context at a level (R17, R196): its scull, its shell, or the whole crew. -/
def barGroup (level : BarLevel) (sc : ScullId) : Nat :=
  match level with
  | .cgrp => sc.toNat
  | .sgrp => sc.toNat / 8
  | .crew => 0

/-- The scope at which arriving performs the context's accesses (R198). -/
def barScope : BarLevel → Scope
  | .cgrp => .core | .sgrp => .shell | .crew => .package

def sameInstance (level : BarLevel) (group : Nat) (b : Barrier) : Bool := b.level == level && b.group == group

def barrierOf (x : Crew) (level : BarLevel) (group : Nat) : Option Barrier := x.barriers.find? (sameInstance level group)
def setBarrier (x : Crew) (b : Barrier) : Crew :=
  { x with barriers := if x.barriers.any (sameInstance b.level b.group)
      then x.barriers.map fun q => if sameInstance b.level b.group q then b else q
      else x.barriers ++ [b] }
def dropBarrier (x : Crew) (level : BarLevel) (group : Nat) : Crew :=
  { x with barriers := x.barriers.filter fun q => !sameInstance level group q }

/-- The parked members of a crew, as identifiers with their images (R17, R197). -/
def parkedOf (s : State) (crew : CrewId) : List (Nat × Parked) :=
  s.items.filterMap fun e => match e.2 with
    | .parked p => if p.ctx.crew == crew then some (e.1, p) else none
    | _ => none

/-- Whether every member of the instance's group has arrived (R197): resident, parked and pre-empted members alike. -/
def allArrived (s : State) (crew : CrewId) (x : Crew) (b : Barrier) : Bool :=
  ((crewKeys s crew).all fun k => barGroup b.level (keyScull k) != b.group || b.arrived.contains k)
    && ((parkedOf s crew).all fun e => barGroup b.level e.2.sc != b.group || b.away.contains e.1)
    && (x.acks.all fun a => barGroup b.level (x.members.getD a.1.toNat 0) != b.group || b.parked.contains (a.1, a.2.1))

/-- Sets the settle or the completion of an instance going once every member has arrived (R198). -/
def checkBarrier (s : State) (crew : CrewId) (level : BarLevel) (group : Nat) : State :=
  match crewOf s crew with
  | none => s
  | some x => match barrierOf x level group with
    | none => s
    | some b =>
      if allArrived s crew x b then
        if b.settle && !b.settled then postOnce s .none (.barrierSettle crew level group)
        else postOnce s .none (.barrierComplete crew level group)
      else s

/-- Rechecks every open instance of a crew. -/
def checkBarriers (s : State) (crew : CrewId) : State :=
  match crewOf s crew with
  | none => s
  | some x => x.barriers.foldl (fun s b => checkBarrier s crew b.level b.group) s

/-- A context that retires or is killed leaves its groups (R197). -/
def leaveBarriers (s : State) (crew : CrewId) (k : Nat) : State :=
  match crewOf s crew with
  | none => s
  | some x =>
    checkBarriers (setCrew s crew { x with barriers := x.barriers.map fun b => { b with arrived := b.arrived.filter (· != k) } }) crew

/-- What a context's arrival at a level has come to, if it has one: whether its instance has completed meanwhile (R197). -/
def arrivalAt (c : Ctx) (level : BarLevel) : Option Bool := (c.barrier.find? fun e => e.1 == level).map Prod.snd
def setArrival (c : Ctx) (level : BarLevel) (done : Bool) : Ctx := { c with barrier := c.barrier.filter (fun e => e.1 != level) ++ [(level, done)] }
def dropArrival (c : Ctx) (level : BarLevel) : Ctx := { c with barrier := c.barrier.filter fun e => e.1 != level }

/-- BAR (R198): the drain at the level's scope, then the arrival. A member whose arrival at the level already counts waits on, or goes on when its
instance has completed meanwhile (R197). The settle comes after every arrival, so a later one asks for it again. -/
def execBar (level : BarLevel) (settle : Bool) (s : State) : Result :=
  .next (issueBy (.bar level settle) [] [] false (fun s sc slot c =>
    let group := barGroup level sc
    match arrivalAt c level with
    | some true => finish s sc slot (dropArrival c level)
    | some false => checkBarrier (park s sc slot c (.barrier level group)) c.crew level group
    | none =>
      whenDrained s sc slot c (barScope level) (
        let x := (crewOf s c.crew).getD .none
        let b := (barrierOf x level group).getD
          { level := level, group := group, arrived := [], away := [], parked := [], settle := false, settled := false }
        let b := { b with arrived := b.arrived ++ [ctxKey sc slot], settle := b.settle || settle, settled := false }
        let s := setCrew s c.crew (setBarrier x b)
        checkBarrier (park s sc slot (setArrival c level false) (.barrier level group)) c.crew level group)) s)

/-- One arrived context at completion: its BAR completes, or completes when it reissues (R197, R198). -/
def passBarrier (level : BarLevel) (group : Nat) (s : State) (k : Nat) : State :=
  let c := ctxAt s k
  if waitOf c = some (.barrier level group) then complete s k (dropArrival c level)
  else setCtxAt s k (setArrival c level true)

/-- A parked member's arrival at completion. -/
def passParked (level : BarLevel) (s : State) (id : Nat) : State :=
  match itemOf s id with
  | some (.parked p) => setItem s id (.parked { p with ctx := setArrival p.ctx level true })
  | _ => s

/-- BARRIER_COMPLETE (R198): every member becomes READY in one step. -/
def execBarrierComplete (crew : CrewId) (level : BarLevel) (group : Nat) (s : State) : Result :=
  match crewOf s crew with
  | none => .next s
  | some x => match barrierOf x level group with
    | none => .next s
    | some b =>
      if (b.settle && !b.settled) || !allArrived s crew x b then .next s
      else
        let s := setCrew s crew { dropBarrier x level group with barDone := x.barDone ++ b.parked.map fun a => (a.1, a.2, level) }
        .next (b.away.foldl (passParked level) (b.arrived.foldl (passBarrier level group) s))

/-! ### Siphons (R183 to R185) -/

/-- Whether a word is a valid CFG (R184). -/
def siphonCfgOk (v : Word) : Bool :=
  let n := (v.extractLsb' 0 16 : BitVec 16).toNat
  let b := (v.extractLsb' 16 10 : BitVec 10).toNat
  (List.range 15).any (fun k => n == 2 ^ (k + 1)) && 1 ≤ b && b ≤ 512 && v.extractLsb' 26 38 == (0 : BitVec 38)

/-- What a siphon operation comes to at its header: it waits, it traps, or it writes header words and perhaps answers. -/
inductive SipOut where
  | wait
  | fail (aux : BitVec 8) (v : Word)
  | done (writes : List (Nat × Word)) (result : Option Word)
  deriving DecidableEq, Repr

/-- R184 on the header words CFG, FREE, FILLED, WPOS, RPOS; h is the header's address as the issuer names it. -/
def siphonStep (cfg free filled wpos rpos h : Word) (op : SipOp) : SipOut :=
  let n := (cfg.extractLsb' 0 16 : BitVec 16).toNat
  let b := 8 * (cfg.extractLsb' 16 10 : BitVec 10).toNat
  let wrap := fun (x : Word) => BitVec.ofNat 64 (x.toNat % n)
  match op with
  | .init v =>
    if siphonCfgOk v then .done [(0, v), (1, (v.extractLsb' 0 16 : BitVec 16).setWidth 64), (2, 0), (3, 0), (4, 0)] none
    else .fail 0x05 v
  | op =>
    if !siphonCfgOk cfg then .fail 0x05 cfg
    else match op with
      | .claimWrite =>
        if free = 0 then .wait else .done [(1, free - 1), (3, wrap (wpos + 1))] (some (h + 64 + wpos * BitVec.ofNat 64 b))
      | .publish v =>
        if v.toNat < h.toNat + 64 ∨ (v.toNat - h.toNat - 64) % b ≠ 0 ∨ n ≤ (v.toNat - h.toNat - 64) / b then .fail 0x06 v
        else if (v.toNat - h.toNat - 64) / b = (rpos + filled).toNat % n then .done [(2, filled + 1)] none
        else .wait
      | .claimRead =>
        if filled = 0 then .wait else .done [(2, filled - 1), (4, wrap (rpos + 1))] (some (h + 64 + rpos * BitVec.ofNat 64 b))
      | _ => .done [(1, free + 1)] none

/-- The operation at the header whose first byte is b. -/
def siphonAt (x : Scull) (b : Nat) (h : Word) (op : SipOp) : SipOut :=
  siphonStep (spadRead x b 8) (spadRead x (b + 8) 8) (spadRead x (b + 16) 8) (spadRead x (b + 24) 8) (spadRead x (b + 32) 8) h op

/-- Writes header words and sets their F bits (R184). -/
def siphonWrite (x : Scull) (b : Nat) (l : List (Nat × Word)) : Scull :=
  l.foldl (fun x e => setFullBit (spadWrite x (b + 8 * e.1) 8 e.2) (b / 8 + e.1) true) x

/-- A header word that is poisoned is consumed (R332); SIPI only writes. -/
def siphonPoisoned (x : Scull) (b : Nat) (op : SipOp) : Bool :=
  match op with
  | .init _ => false
  | _ => (List.range 5).any fun i => wordPoison x (b / 8 + i)

/-- Whether a waiter at a header may go on or must trap. -/
def siphonMoves (x : Scull) (b : Nat) (w : SipWaiter) : Bool := siphonPoisoned x b w.op || siphonAt x b w.ea w.op != .wait

/-- Whether a waiter is FROZEN, and so passed over (R397). -/
def sipFrozen (s : State) (w : SipWaiter) : Bool :=
  match w.who with
  | .context k => isFrozen (ctxAt s k)
  | _ => false

/-- The step with which a copy engine goes on after its claim (R251). -/
def claimInstr (op : SipOp) : Instr :=
  match op with
  | .claimRead => .csipr
  | _ => .csipw

/-- A waiter that is no context looks at the header again. -/
def retrySiphon (s : State) (w : SipWaiter) : State :=
  match w.who with
  | .context _ => s
  | .engine sc => postOnce s (.engine sc .copy) (claimInstr w.op)
  | .future i => post s 0 (.future i) .futureSlotInject

/-- Ends a waiter's wait with a trap; an engine and a future find what is wrong themselves. -/
def failSipWaiter (s : State) (w : SipWaiter) (t : Trap) : State :=
  match w.who with
  | .context k => trapWaiting s k t
  | _ => retrySiphon s w

/-- A waiter's operation has taken place: its result is written, or the slot is the engine's or the future's to fill. -/
def sipServed (s : State) (w : SipWaiter) (r : Option Word) : State :=
  match w.who with
  | .context k =>
    let c := ctxAt s k
    complete s k (match r with
      | some v => writeReg c w.d v
      | none => c)
  | .engine sc =>
    let x := engineOf s sc .copy
    retrySiphon (setEngine s sc .copy { x with prog := { x.prog with claim := r } }) w
  | .future i =>
    retrySiphon { s with table := { s.table with
      live := tabMap (fun n f => if n = i.toNat then { f with claim := r } else f) s.table.live } } w

/-- Serves the waiters of a header in arrival order, FROZEN ones passed over (R184, R397). -/
def serveSiphon (s : State) (sc : ScullId) (b : Nat) (p : Place) : Nat → State
  | 0 => s
  | n + 1 =>
    let x := scullOf s sc
    match x.sipWaiters.find? fun w => w.place == p && !sipFrozen s w && siphonMoves x b w with
    | none => s
    | some w =>
      let out := setScull s sc { x with sipWaiters := x.sipWaiters.filter fun q => q.who != w.who }
      if siphonPoisoned x b w.op then serveSiphon (failSipWaiter out w (poisonTrap 0x01 w.ea)) sc b p n
      else match siphonAt x b w.ea w.op with
        | .wait => s
        | .fail aux v => serveSiphon (failSipWaiter out w (capacityTrap aux v)) sc b p n
        | .done l r => serveSiphon (sipServed (setScull out sc (siphonWrite (scullOf out sc) b l)) w r) sc b p n

/-- The F bits a header's change sets may let full/empty waiters proceed. -/
def serveHeader (s : State) (sc : ScullId) (b : Nat) : State :=
  (List.range 5).foldl (fun s i => serveFull s sc (b / 8 + i)) s

/-- After a change of a header. -/
def siphonChanged (s : State) (sc : ScullId) (b : Nat) (p : Place) : State :=
  serveHeader (serveSiphon s sc b p ((scullOf s sc).sipWaiters.length)) sc b

/-- A context's siphon operation at its header, after the waiters before it (R184). -/
def siphonAtWord (s : State) (sc : ScullId) (slot : Slot) (op : SipOp) (d : Reg) (p : Place) (ea : Word) (x : ScullId) (b : Nat) :
    State × WordDone :=
  let s := siphonChanged s x b p
  let y := scullOf s x
  if siphonPoisoned y b op then (s, .trap (poisonTrap 0x01 ea))
  else match siphonAt y b ea op with
    | .fail aux v => (s, .trap (capacityTrap aux v))
    | .wait =>
      let w : SipWaiter := { who := .context (ctxKey sc slot), op := op, d := d, place := p, ea := ea }
      (setScull s x { y with sipWaiters := y.sipWaiters ++ [w] }, .waits .siphon)
    | .done l r =>
      (siphonChanged (setScull s x (siphonWrite y b l)) x b p, match r with
        | some v => .value v
        | none => .plain)

/-! ### Link registers (R186 to R189) -/

def sendOf (s : State) (id : Nat) : Option SendMsg :=
  match itemOf s id with
  | some (.send m) => some m
  | _ => none

/-- Ends a SEND: its report goes back (R187). -/
def reportSend (s : State) (id : Nat) (m : SendMsg) (t : Option Trap) : State :=
  postLater (setItem s id (.send { m with report := some t })) (.item id) .sendReport

/-- Writes a link register with its presence; a KRD that waits for it takes the value at once (R187, R188). -/
def linkArrive (s : State) (k : Nat) (l : BitVec 2) (v : Word) : State :=
  let c := ctxAt s k
  match waitOf c with
  | some (.krd d l') => if l' = l then complete s k (writeReg (setLink c l { value := v, present := false }) d v)
      else setCtxAt s k (setLink c l { value := v, present := true })
  | _ => setCtxAt s k (setLink c l { value := v, present := true })

/-- Whether a SEND waits on a link register and may be served: its sender is not FROZEN (R187, R397). -/
def sendWaits (s : State) (k : Nat) (l : BitVec 2) (m : SendMsg) : Bool :=
  ctxKey m.target m.targetSlot == k && m.k == l && m.arrived.isSome && m.held.isNone && m.report.isNone
    && !isFrozen (ctxOf s m.sc m.slot)

/-- The waiting SENDs of a link register with their order of arrival. -/
def waitingSends (s : State) (k : Nat) (l : BitVec 2) : List (Nat × SendMsg) :=
  s.items.filterMap fun e => match e.2 with
    | .send m => if sendWaits s k l m then some (e.1, m) else none
    | _ => none

def firstSend (l : List (Nat × SendMsg)) : Option (Nat × SendMsg) :=
  l.foldl (fun best e => match best with
    | none => some e
    | some b => if b.2.arrived.getD 0 ≤ e.2.arrived.getD 0 then some b else some e) none

/-- Delivers waiting SENDs while the presence bit is clear, in order of arrival (R187). -/
def serveLink (s : State) (k : Nat) (l : BitVec 2) : Nat → State
  | 0 => s
  | n + 1 =>
    if (linkOf (ctxAt s k) l).present then s
    else match firstSend (waitingSends s k l) with
      | none => s
      | some (id, m) => serveLink (reportSend (linkArrive s k l m.value) id m none) k l n

/-- Serves all four link registers of a context. -/
def serveLinks (s : State) (k : Nat) : State :=
  (List.range 4).foldl (fun s l => serveLink s k (BitVec.ofNat 2 l) s.items.length) s

/-- SEND (R187, R189): it leaves behind every earlier scratchpad access. -/
def execSend (k : BitVec 2) (a b : Reg) (s : State) : Result :=
  .next (issueBy (.send k a b) [a, b] [] false (fun s sc slot c =>
    let ga := readReg c a
    let i : BitVec 11 := ga.extractLsb' 16 11
    if c.csz.toNat < i.toNat then raise s sc slot (capacityTrap 0x02 ga)
    else if scratchOutstanding s c then park s sc slot c (.reissue .drain)
    else
      let id := s.nextId
      let s := addItem s (.send {
        sc := sc, slot := slot, target := memberOf s c.crew sc i.toNat, targetSlot := ga.extractLsb' 0 6, crew := c.crew, k := k,
        value := readReg c b, ga := ga, arrived := none, held := none, report := none })
      postLater (park s sc slot c (.send id)) (.item id) .sendDelivery) s)

def linkTrap (aux : BitVec 8) (ga : Word) : Trap := { code := 0x0B, aux := aux, tval := ga }

/-- SEND_DELIVERY (R187): refused, delivered, or queued at the target's link register. -/
def execSendDelivery (s : State) : Result :=
  match s.actor with
  | .item id => match sendOf s id with
    | none => .next s
    | some m =>
      if m.arrived.isSome ∨ m.report.isSome then .next s
      else
        let k := ctxKey m.target m.targetSlot
        let t := ctxAt s k
        if (scullOf s m.target).fenced then .next (reportSend s id m (some (poisonTrap 0x03 m.ga)))
        else if isFree t ∨ t.crew ≠ m.crew then .next (reportSend s id m (some (linkTrap 0x01 m.ga)))
        else if k = ctxKey m.sc m.slot ∧ (linkOf t m.k).present then .next (reportSend s id m (some (linkTrap 0x03 m.ga)))
        else
          let s := freshId (setItem s id (.send { m with arrived := some s.nextId }))
          .next (serveLink s k m.k s.items.length)
  | _ => .next s

/-- SEND_REPORT (R187): the sender's wait ends; a sender withdrawn meanwhile is not there. -/
def execSendReport (s : State) : Result :=
  match s.actor with
  | .item id => match sendOf s id with
    | none => .next s
    | some m =>
      let k := ctxKey m.sc m.slot
      let c := ctxAt s k
      match m.report with
      | none => .next s
      | some r =>
        let s := dropItem s id
        if waitOf c = some (.send id) then
          match r with
          | none => .next (complete s k c)
          | some t => .next (trapWaiting s k t)
        else .next s
  | _ => .next s

/-- The SENDs that wait at a context that retires or is killed (R187). -/
def failSends (s : State) (k : Nat) : State :=
  s.items.foldl (fun s e => match e.2 with
    | .send m =>
      if ctxKey m.target m.targetSlot = k ∧ m.arrived.isSome ∧ m.held.isNone ∧ m.report.isNone
      then reportSend s e.1 m (some (linkTrap 0x02 m.ga)) else s
    | _ => s) s

/-- KRD (R188): a present register is read and emptied, and the next waiting SEND delivers. -/
def execKrd (d : Reg) (k : BitVec 2) (s : State) : Result :=
  .next (issueBy (.krd d k) [] [d] false (fun s sc slot c =>
    let l := linkOf c k
    if l.present then
      serveLink (finishReg s sc slot (setLink c k { l with present := false }) d l.value) (ctxKey sc slot) k s.items.length
    else park s sc slot c (.krd d k)) s)

def execKtst (d : Reg) (k : BitVec 2) (s : State) : Result :=
  .next (alu1 (.ktst d k) [] d (fun c => boolWord (linkOf c k).present) s)

/-! ### Semaphores (R200 to R202) -/

def semCount (x : Scull) (n : Nat) : BitVec 32 := tabGet 0 x.sems n

/-- Grants units to the waiters of a semaphore while its count is above zero (R201, R397). -/
def serveSem (s : State) (sc : ScullId) (n : Nat) : Nat → State
  | 0 => s
  | m + 1 =>
    let x := scullOf s sc
    let q := tabGet [] x.semQueues n
    if semCount x n = 0 then s
    else match q.find? fun k => !isFrozen (ctxAt s k) with
      | none => s
      | some k =>
        let x := { x with
          sems := tabSet x.sems n (semCount x n - 1)
          semQueues := tabSet x.semQueues n (q.filter (· != k)) }
        serveSem (complete (setScull s sc x) k (ctxAt s k)) sc n m

/-- Sets a count and serves its waiters. -/
def setSem (s : State) (sc : ScullId) (n : Nat) (v : BitVec 32) : State :=
  let x := scullOf s sc
  serveSem (setScull s sc { x with sems := tabSet x.sems n v }) sc n ((tabGet [] x.semQueues n).length)

/-- SEMV's effect (R200, R201): one unit more, saturating. An engine's completion signal and the fault unit act alike. -/
def signalSem (s : State) (sc : ScullId) (n : Nat) : State :=
  let v := semCount (scullOf s sc) n
  if v = 0xFFFFFFFF then s else setSem s sc n (v + 1)

/-- SEMP (R201): a unit, after the waiters that are before it, or a place in the queue. -/
def execSemp (n : BitVec 5) (s : State) : Result :=
  .next (issueBy (.semp n) [] [] false (fun s sc slot c =>
    let s := serveSem s sc n.toNat ((tabGet [] (scullOf s sc).semQueues n.toNat).length)
    let x := scullOf s sc
    let v := semCount x n.toNat
    if v ≠ 0 then finish (setScull s sc { x with sems := tabSet x.sems n.toNat (v - 1) }) sc slot c
    else
      let q := tabGet [] x.semQueues n.toNat ++ [ctxKey sc slot]
      park (setScull s sc { x with semQueues := tabSet x.semQueues n.toNat q }) sc slot c (.semaphore n)) s)

/-- SEMV follows the issuer's earlier scratchpad accesses (R202). -/
def execSemv (n : BitVec 5) (s : State) : Result :=
  .next (issueBy (.semv n) [] [] false (fun s sc slot c =>
    if scratchOutstanding s c then park s sc slot c (.reissue .drain)
    else signalSem (finish s sc slot c) sc n.toNat) s)

def execSemrd (d : Reg) (n : BitVec 5) (s : State) : Result :=
  .next (issueBy (.semrd d n) [] [d] false (fun s sc slot c =>
    finishReg s sc slot c d ((semCount (scullOf s sc) n.toNat).setWidth 64)) s)

def execSemset (n : BitVec 5) (a : Reg) (s : State) : Result :=
  .next (issueBy (.semset n a) [a] [] false (fun s sc slot c =>
    setSem (finish s sc slot c) sc n.toNat ((readReg c a).setWidth 32)) s)

end Sys2Proof.Machine
end

