-- ==== Sys2Proof/Machine/Words.lean ====
section
/-! DEFINITION. The instructions that act on a word of a scratchpad (R167, R169, R177, R183 to R185): their action where the word is there, their
wait for its page or chamber as an access, and SCRATCHPAD_ACCESS_ARRIVAL (R152). -/

namespace Sys2Proof.Machine

/-- The action of an instruction at its word: byte b of scull x. -/
def performWord (s : State) (sc : ScullId) (slot : Slot) (w : WordOp) (d : Reg) (p : Place) (ea : Word) (x : ScullId) (b : Nat) :
    State × WordDone :=
  match w with
  | .fbrd => readFull s ea x b
  | .fbput v => putFull s v x b
  | .aqr => joinResv s sc slot d ea x b
  | .release v => releaseAt s sc slot v ea x b
  | .siphon op => siphonAtWord s sc slot op d p ea x b
  | .deposit op v => depositAt s sc slot op v p ea x

/-- The holder of a chamber offset whose frame a reservation keeps from being unpinned, while the chamber is EVICTING (R172). -/
def keptHolder (s : State) (p : Place) : Option (ScullId × Nat) :=
  match p with
  | .chamber n gen o => match chamberOf s n with
    | some x =>
      if x.state = .evicting ∧ generation s n = gen then (chamberHolder x o).filter fun h => frameReserved (scullOf s h.1) (h.2 / 4096)
      else none
    | none => none
  | _ => none

/-- Where a release finds its word: in a chamber that is EVICTING too, whose frame stays until it is released (R172). -/
def releasePlace (s : State) (p : Place) (ea : Word) : Found :=
  match keptHolder s p with
  | some h => .at_ h.1 h.2
  | none => locate s p ea

/-- Where an instruction finds its word; a deposit goes to its scull's log. -/
def foundWord (s : State) (w : WordOp) (p : Place) (ea : Word) : Found :=
  match w with
  | .deposit _ _ => depositPlace s p ea
  | .release _ => releasePlace s p ea
  | _ => locate s p ea

/-- The access has performed: its context leaves rotation until the answer is back (R164). -/
def answerLater (s : State) (sc : ScullId) (slot : Slot) (a : Access) (phase : AccessPhase) : State :=
  let a := { a with phase := phase }
  let id := s.nextId
  postBack (park (addItem s (.access a)) sc slot (ctxOf s sc slot) (.access id)) id a

/-- What has come of the action at the word as the instruction issues. -/
def wordOutcome (s : State) (sc : ScullId) (slot : Slot) (a : Access) : WordDone → State
  | .value v => answerLater s sc slot a (.value v)
  | .plain => answerLater s sc slot a .accepted
  | .waits w => park s sc slot (ctxOf s sc slot) w
  | .trap t => raise s sc slot t

/-- An instruction at its checked place: the action at once where the word is there, else an access that waits for its page or chamber. -/
def wordIssue (s : State) (sc : ScullId) (slot : Slot) (w : WordOp) (d : Reg) (p : Place) (ea : Word) : State :=
  let c := ctxOf s sc slot
  let a := newAccess s sc slot c (.word w) p ea 8 .plain false d .plain
  match foundWord s w p ea with
  | .at_ x b =>
    let r := performWord (setCtx s sc slot (touch s sc c p)) sc slot w d p ea x b
    wordOutcome r.1 sc slot a r.2
  | .trap t => raise s sc slot t
  | .page y crew v => joinPage (park (addItem s (.access a)) sc slot (touch s sc c p) (.access s.nextId)) s.nextId a y crew v
  | .chamber n => joinChamber (park (addItem s (.access a)) sc slot (touch s sc c p) (.access s.nextId)) s.nextId a n

/-- A memory instruction of that kind: its checks, then its word. -/
def wordBody (m : MemRef) (n : Nat) (kind : AccessKind) (need : Rights) (w : Ctx → WordOp) (d : Reg) (s : State) (sc : ScullId) (slot : Slot)
    (c : Ctx) : State :=
  let ea := effAddr c m n
  checkAccess s sc slot c m ea n n kind need fun s p => wordIssue s sc slot (w c) d p ea

/-! ### F bits (R167) -/

def execFbrd (d : Reg) (m : MemRef) (s : State) : Result :=
  .next (issueBy (.fbrd d m) (memRegs m) [d] false (wordBody m 8 .fullEmpty rightsRead (fun _ => .fbrd) d) s)
def execFbset (m : MemRef) (s : State) : Result :=
  .next (issueBy (.fbset m) (memRegs m) [] false (wordBody m 8 .fullEmpty rightsWrite (fun _ => .fbput true) 0) s)
def execFbclr (m : MemRef) (s : State) : Result :=
  .next (issueBy (.fbclr m) (memRegs m) [] false (wordBody m 8 .fullEmpty rightsWrite (fun _ => .fbput false) 0) s)

/-! ### Reservations (R169, R173) -/

/-- AQR: a context has one reservation at most. -/
def execAqr (d : Reg) (m : MemRef) (s : State) : Result :=
  .next (issueBy (.aqr d m) (memRegs m) [d] false (fun s sc slot c =>
    let ea := effAddr c m 8
    checkAccess s sc slot c m ea 8 8 .atomic rightsAtomic fun s p =>
      if c.resv.isSome then raise s sc slot { code := 0x01, aux := 0x01, tval := ea }
      else wordIssue s sc slot .aqr d p ea) s)

/-- ARL and ARC: the holder's overlap accesses at the word's bank come first (R173). -/
def releaseBody (m : MemRef) (v : Ctx → Option Word) (s : State) (sc : ScullId) (slot : Slot) (c : Ctx) : State :=
  let ea := effAddr c m 8
  checkAccess s sc slot c m ea 8 8 .atomic rightsAtomic fun s p =>
    match releasePlace s p ea with
    | .at_ x b =>
      if bankOutstanding s c x b then park s sc slot (ctxOf s sc slot) (.reissue .drain) else wordIssue s sc slot (.release (v c)) 0 p ea
    | _ => wordIssue s sc slot (.release (v c)) 0 p ea

def execArl (d : Reg) (m : MemRef) (s : State) : Result :=
  .next (issueBy (.arl d m) (d :: memRegs m) [] false (releaseBody m fun c => some (readReg c d)) s)
def execArc (m : MemRef) (s : State) : Result :=
  .next (issueBy (.arc m) (memRegs m) [] false (releaseBody m fun _ => none) s)

/-! ### Deposits (R177) -/

def depositIssue (i : Instr) (op : DepOp) (d : Reg) (m : MemRef) (n : Nat) (s : State) : State :=
  issueBy i (d :: memRegs m) [] false (wordBody m n .atomic rightsAtomic (fun c => .deposit op (readReg c d)) 0) s

def execDepAdd (d : Reg) (m : MemRef) (s : State) : Result := .next (depositIssue (.depAdd d m) .add d m 8 s)
def execDepFadds (d : Reg) (m : MemRef) (s : State) : Result := .next (depositIssue (.depFadds d m) .fadds d m 4 s)
def execDepFaddd (d : Reg) (m : MemRef) (s : State) : Result := .next (depositIssue (.depFaddd d m) .faddd d m 8 s)
def execDepMin (d : Reg) (m : MemRef) (s : State) : Result := .next (depositIssue (.depMin d m) .min d m 8 s)
def execDepMax (d : Reg) (m : MemRef) (s : State) : Result := .next (depositIssue (.depMax d m) .max d m 8 s)
def execDepOr (d : Reg) (m : MemRef) (s : State) : Result := .next (depositIssue (.depOr d m) .or d m 8 s)

/-! ### Siphons (R183 to R185) -/

/-- A siphon instruction's checks (R183), then its header. For chm the capability check is that of the 8 bytes at the header's address, as
for every access of this form; the rule does not say how many bytes it covers (log 67). -/
def siphonBody (m : MemRef) (need : Rights) (op : Ctx → SipOp) (d : Reg) (s : State) (sc : ScullId) (slot : Slot) (c : Ctx) : State :=
  let ea := effAddr c m 8
  if alignAddr c m ea % 64 ≠ 0 then raise s sc slot { code := 0x03, aux := 0, tval := ea }
  else if m.mode = .shl ∨ m.mode = .crw then raise s sc slot (capacityTrap 0x04 ea)
  else checkAccess s sc slot c m ea 8 64 .siphon need fun s p => wordIssue s sc slot (.siphon (op c)) d p ea

def execSipw (d : Reg) (m : MemRef) (s : State) : Result :=
  .next (issueBy (.sipw d m) (memRegs m) [d] false (siphonBody m rightsWrite (fun _ => .claimWrite) d) s)
/-- SIPP follows every earlier scratchpad access of the context (R185). -/
def execSipp (d : Reg) (m : MemRef) (s : State) : Result :=
  .next (issueBy (.sipp d m) (d :: memRegs m) [] false (fun s sc slot c =>
    if scratchOutstanding s c then park s sc slot c (.reissue .drain)
    else siphonBody m rightsWrite (fun c => .publish (readReg c d)) 0 s sc slot c) s)
def execSipr (d : Reg) (m : MemRef) (s : State) : Result :=
  .next (issueBy (.sipr d m) (memRegs m) [d] false (siphonBody m rightsRead (fun _ => .claimRead) d) s)
def execSipf (m : MemRef) (s : State) : Result :=
  .next (issueBy (.sipf m) (memRegs m) [] false (siphonBody m rightsRead (fun _ => .free) 0) s)
def execSipi (d : Reg) (m : MemRef) (s : State) : Result :=
  .next (issueBy (.sipi d m) (d :: memRegs m) [] false (siphonBody m rightsWrite (fun c => .init (readReg c d)) 0) s)

/-! ### SCRATCHPAD_ACCESS_ARRIVAL (R152) -/

/-- An access that waited for its page or chamber acts at its word. -/
def wordArrives (s : State) (id : Nat) (a : Access) (w : WordOp) (x : ScullId) (b : Nat) : State :=
  let r := performWord s a.sc a.slot w a.d a.place a.ea x b
  match r.2 with
  | .value v => postBack (setAccess r.1 id { a with phase := .value v }) id a
  | .plain => postBack (setAccess r.1 id { a with phase := .accepted }) id a
  | .waits q => setCtx (dropItem r.1 id) a.sc a.slot (setWait (ctxOf r.1 a.sc a.slot) q)
  | .trap t => postBack (setAccess r.1 id { a with phase := .trapped t }) id a

/-- An arriving access adds its bank to its context's mask (R158). -/
def touchArrived (s : State) (id : Nat) (a : Access) (x : ScullId) (b : Nat) : State :=
  let c := ctxOf s a.sc a.slot
  if ownsAccess c id then setCtx s a.sc a.slot (touchAt c a.sc x b) else s

/-- A load or store at its bank: waiters of its word that can go on come before it (R165, R397), then it is applied or joins them. -/
def bankArrives (s : State) (id : Nat) (a : Access) (sc : ScullId) (b : Nat) : State :=
  let s := if a.fe = .plain then s else serveFull s sc (b / 8)
  let x := scullOf s sc
  if mayProceed (fullBit x (b / 8)) a then serveFull (performAt s id a sc b) sc (b / 8)
  else
    let q := tabGet [] x.wordQueues (b / 8) ++ [id]
    setAccess (setScull s sc { x with wordQueues := tabSet x.wordQueues (b / 8) q }) id { a with phase := .atWord }

/-- SCRATCHPAD_ACCESS_ARRIVAL (R152): applied, queued on its word, or waiting for its page or chamber. -/
def accessArrives (s : State) (id : Nat) (a : Access) : State :=
  let found := match a.op with
    | .word w => foundWord s w a.place a.ea
    | _ => locateFor (some a.sc) s a.place a.ea
  match found with
  | .trap t => postBack (setAccess s id { a with phase := .trapped t }) id a
  | .page sc crew v => joinPage s id a sc crew v
  | .chamber n => joinChamber s id a n
  | .at_ sc b =>
    let s := touchArrived s id a sc b
    match a.op with
    | .word w => wordArrives s id a w sc b
    | _ => bankArrives s id a sc b

def execScratchpadAccessArrival (s : State) : Result :=
  match s.actor with
  | .item id => match accessOf s id with
    | some a => if a.phase = .inFlight ∨ a.phase = .atPage then .next (accessArrives s id a) else .next s
    | none => .next s
  | _ => .next s

end Sys2Proof.Machine
end

