-- ==== Sys2Proof/Machine/Engine.lean ====
section
/-! DEFINITION. Binding, posting and synchronising with an engine (R218 to R232, R280): bind queues, the command queue, pending engine
traps, ESYNC, and the saved images. -/

namespace Sys2Proof.Machine

/-! ### What an engine is doing -/

/-- Whether the header lets the context bind the engine (R14, R16). -/
def mayBind (h : Header) (e : EngineId) : Bool :=
  match e with
  | .matrix => h.em | .vector => h.ev | .copy => h.ec

def boundBy (s : State) (sc : ScullId) (e : EngineId) (slot : Slot) : Bool := (engineOf s sc e).bound == some slot

/-- The engines a context binds. -/
def boundEngines (s : State) (sc : ScullId) (slot : Slot) : List EngineId :=
  [EngineId.matrix, .vector, .copy].filter fun e => boundBy s sc e slot

/-- Whether the shadow set of the engine is taken (R37, R219). -/
def shadowTaken (s : State) (sc : ScullId) (e : EngineId) : Bool := (tabFind s.shadows (engineKey sc e)).isSome

/-- The class of a slot's context (R14). -/
def slotClass (s : State) (sc : ScullId) (slot : Slot) : Cls := (ctxOf s sc slot).hdr.cls

/-- An engine's registers after a binding (R219, R261): FWCNT is the scull's and stays (R231). -/
def freshEngine (x : Engine) : Engine := { Engine.reset with bindQueue := x.bindQueue, fwcnt := x.fwcnt }

/-- Binds an engine to a slot and completes its EBIND (R219). -/
def grantEngine (s : State) (sc : ScullId) (e : EngineId) (slot : Slot) : State :=
  let x := engineOf s sc e
  let s := setEngine s sc e { freshEngine x with bound := some slot, bindQueue := x.bindQueue.filter (· != slot) }
  complete s (ctxKey sc slot) (ctxOf s sc slot)

/-- Serves the bind queue of an engine that is free with its shadow set empty: the first owner, else the first harvest context, FROZEN
waiters passed over (R219, R220, R397). -/
def serveBind (s : State) (sc : ScullId) (e : EngineId) : State :=
  let x := engineOf s sc e
  if x.bound.isSome || shadowTaken s sc e then s
  else
    let ready := x.bindQueue.filter fun t => !isFrozen (ctxOf s sc t)
    match ready.find? fun t => slotClass s sc t == .owner with
    | some t => grantEngine s sc e t
    | none => match ready with
      | t :: _ => grantEngine s sc e t
      | [] => s

/-- Frees an engine: its accumulators and status are lost, and the next in its bind queue has it (R220). -/
def unbindEngine (s : State) (sc : ScullId) (e : EngineId) : State :=
  serveBind (setEngine s sc e (freshEngine (engineOf s sc e))) sc e

/-- Wakes the binder where it waits on this engine or on its retirement: its instruction is issued again. -/
def wakeBinder (s : State) (sc : ScullId) (e : EngineId) (slot : Slot) : State :=
  let c := ctxOf s sc slot
  match waitOf c with
  | some (.reissue (.engine m)) => if m.getLsbD (engineIndex e) then setCtx s sc slot (awake c) else s
  | some (.reissue .retire) => setCtx s sc slot (awake c)
  | _ => s

/-! ### Engine traps (R232) -/

/-- Whether a context waits on the engine: on ESYNC, EFREE, ESAVE or ERESTORE, on room for a post, or on its retirement. -/
def waitsEngine (c : Ctx) (e : EngineId) : Bool :=
  match waitOf c with
  | some (.reissue (.engine m)) => m.getLsbD (engineIndex e)
  | some (.reissue .retire) => true
  | some (.posted e' _) => e' == e
  | _ => false

/-- A trap of an engine against its binder: an instruction that waits on the engine takes it in this cycle; else it becomes pending, the first
of an engine kept, for the next issue (R232). A FROZEN context takes it at its first issue. -/
def pendEngineTrap (s : State) (sc : ScullId) (e : EngineId) (slot : Slot) (t : Trap) : State :=
  let c := ctxOf s sc slot
  if c.engineTraps.any fun p => p.1 == e then s
  else if waitsEngine c e && !isFrozen c then trapWaiting s (ctxKey sc slot) t
  else
    let s := setEngine s sc e { engineOf s sc e with tpnd := true }
    let c := { c with engineTraps := c.engineTraps ++ [(e, t)] }
    setCtx s sc slot (if waitsEngine c e then awake c else c)

/-- The copy engine's claim no longer waits at a siphon header (R234, R251). -/
def dropSipEngine (s : State) (sc : ScullId) (e : EngineId) : State :=
  if e = .copy then
    { s with sculls := tabMap (fun _ x => { x with sipWaiters := x.sipWaiters.filter fun w => w.who != .engine sc }) s.sculls }
  else s

/-- An engine's commands are gone: queued ones discarded, the running one stopped where it is. -/
def clearEngine (s : State) (sc : ScullId) (e : EngineId) : State :=
  dropSipEngine (setEngine s sc e { engineOf s sc e with queue := [], started := false, prog := .none, dropped := none }) sc e

/-- Stops the engine's commands at once with an engine fault (R232): later elements never issue, queued commands are discarded, no
semaphore is signalled. -/
def stopEngine (s : State) (sc : ScullId) (e : EngineId) (aux : BitVec 8) (v : Word) : State :=
  let s := clearEngine s sc e
  match (engineOf s sc e).bound with
  | some slot => pendEngineTrap s sc e slot { code := 0x0D, aux := aux, tval := v }
  | none => s

def engineFault (aux : BitVec 8) (v : Word) : Trap := { code := 0x0D, aux := aux, tval := v }

/-! ### EBIND and EFREE (R218 to R220) -/

/-- Asks the scull for a revocation (R37): requests are served in arrival order, the victim selected within 4 cycles. -/
def requestRevoke (s : State) (sc : ScullId) (r : RevokeFor) : State :=
  let x := scullOf s sc
  if x.revokes.contains r then s
  else postOnceWithin (setScull s sc { x with revokes := x.revokes ++ [r] }) 4 (.scull sc) .revocation

/-- Joins the bind queue of an engine (R219). -/
def joinBind (s : State) (sc : ScullId) (e : EngineId) (slot : Slot) (c : Ctx) : State :=
  let x := engineOf s sc e
  park (setEngine s sc e { x with bindQueue := x.bindQueue ++ [slot] }) sc slot c (.bind e)

/-- Whether another context that is not FROZEN waits for the engine, so that it comes first (R219, R397). -/
def bindWanted (s : State) (sc : ScullId) (e : EngineId) : Bool :=
  (engineOf s sc e).bindQueue.any fun t => !isFrozen (ctxOf s sc t)

/-- EBIND (R219). An owner that asks for a revocation is in the bind queue from then on, so the engine passes to it however it comes free
(R37, R40). -/
def execEbind (e : EngineId) (s : State) : Result :=
  .next (issueBy (.ebind e) [] [] false (fun s sc slot c =>
    let x := engineOf s sc e
    if !mayBind c.hdr e then trapIllegal s sc slot (.ebind e)
    else if x.bound = some slot then finish s sc slot c
    else match x.bound with
      | some t =>
        let s := joinBind s sc e slot c
        if slotClass s sc t = .harvest ∧ c.hdr.cls = .owner then requestRevoke s sc (.engine e slot) else s
      | none =>
        if shadowTaken s sc e then joinBind s sc e slot c
        else if bindWanted s sc e then serveBind (joinBind s sc e slot c) sc e
        else finish (setEngine s sc e { freshEngine x with bound := some slot }) sc slot c) s)

def execEfree (e : EngineId) (s : State) : Result :=
  .next (issueBy (.efree e) [] [] false (fun s sc slot c =>
    let x := engineOf s sc e
    if x.bound ≠ some slot then raise s sc slot (engineFault 0x01 0)
    else if x.queue ≠ [] then park s sc slot c (.reissue (.engine ((1 : BitVec 3) <<< engineIndex e)))
    else unbindEngine (finish s sc slot c) sc e) s)

/-! ### Posting (R221 to R223) -/

/-- The bytes of a range of the context's own scratchpad: where each page lies, a page to wait for, or not allocated (R137). -/
inductive OwnRange where
  | at_
  | page (v : Nat)
  | bad
  deriving DecidableEq, Repr

def ownRange (s : State) (sc : ScullId) (c : Ctx) (a : Word) (n : Nat) : OwnRange :=
  let first := a.toNat / frameBytes
  let last := (a.toNat + n - 1) / frameBytes
  let vs := (List.range (last + 1 - first)).map (· + first)
  if spadBytes < a.toNat + n ∨ vs.any (fun v => (pageState s sc c.crew v).isNone) then .bad
  else match vs.find? fun v => match pageState s sc c.crew v with | some (.pinned _) => false | _ => true with
    | some v => .page v
    | none => .at_

/-- The scratchpad byte of an own address whose page is pinned. -/
def ownByte (s : State) (sc : ScullId) (c : Ctx) (a : Nat) : Nat :=
  match pageState s sc c.crew (a / frameBytes) with
  | some (.pinned f) => f * frameBytes + a % frameBytes
  | _ => 0

/-- The 64 bytes of a record as plain loads (R61). -/
def ownRecord (s : State) (sc : ScullId) (c : Ctx) (a : Word) : Record :=
  .ofBits (BitVec.ofNat 512 (memReadNat (scullOf s sc).data (ownByte s sc c a.toNat) 64))

/-- The mask after the context's accesses to the words of n own bytes at a (R158). -/
def touchOwn (s : State) (sc : ScullId) (c : Ctx) (a : Word) (n : Nat) : Ctx :=
  touchBytes c sc ((List.range (n / 8)).map fun i => ownByte s sc c (a.toNat + 8 * i))

/-- Accepts a command: for the copy engine with the capabilities the context holds at that moment (R223). -/
def acceptCommand (s : State) (sc : ScullId) (e : EngineId) (c : Ctx) (cmd : Command) : State :=
  let x := engineOf s sc e
  let s := freshId (setEngine s sc e { x with queue := x.queue ++ [{ cmd with id := s.nextId, caps := c.caps }] })
  if x.queue = [] then postOnce s (.engine sc e) .commandStart else s

/-- A queue entry freed: the post that waits for it is accepted in that step (R223). -/
def acceptWaiting (s : State) (sc : ScullId) (e : EngineId) : State :=
  let x := engineOf s sc e
  match x.bound with
  | none => s
  | some slot =>
    let c := ctxOf s sc slot
    match waitOf c with
    | some (.posted e' cmd) =>
      if e' = e ∧ x.queue.length < 2 then complete (acceptCommand s sc e c cmd) (ctxKey sc slot) c else s
    | _ => s

/-- Whether an earlier access that a post follows is outstanding: to a scratchpad, or a global store, which the shell L2 has not accepted yet
(R153, R159). -/
def postOutstanding (s : State) (c : Ctx) : Bool :=
  scratchOutstanding s c || c.overlap.any fun id => match accessOf s id with
    | some a => (match a.op with
      | .store _ => a.phase == .inFlight
      | _ => false)
    | none => false

/-- The checks of R222 in order, then acceptance (R223); a post follows every earlier scratchpad access (R159). One that waits for them is issued
again from its first check once they have performed, and so reads its record then: the rule names no step to go on from (log 75). -/
def postBody (e : EngineId) (a : Reg) (off : BitVec 18) (g : Ctx → Word) (s : State) (sc : ScullId) (slot : Slot) (c : Ctx) : State :=
  let ra := recordAddr c a off
  if ra.toNat % 64 ≠ 0 then raise s sc slot { code := 0x03, aux := 0, tval := ra }
  else match ownRange s sc c ra 64 with
    | .bad => raise s sc slot (capacityTrap 0x01 ra)
    | .page v => touchPage (park s sc slot c (.reissue (.page sc c.crew v))) sc c.crew v
    | .at_ =>
      if !boundBy s sc e slot then raise s sc slot (engineFault 0x01 ra)
      else if (List.range 8).any fun i => wordPoison (scullOf s sc) (ownByte s sc c ra.toNat / 8 + i) then
        raise s sc slot (poisonTrap 0x01 ra)
      else
        let r := ownRecord s sc c ra
        let c := touchOwn s sc c ra 64
        let s := setCtx s sc slot c
        if !recordLegal e r (g c) then raise s sc slot { code := 0x04, aux := 0, tval := ra }
        else if postOutstanding s c then park s sc slot c (.reissue .drain)
        else
          let cmd : Command := { id := 0, record := r, g := g c, caps := [], addr := ra }
          if (engineOf s sc e).queue.length < 2 then acceptCommand (finish s sc slot c) sc e c cmd
          else park s sc slot c (.posted e cmd)

def execMpost (a : Reg) (off : BitVec 18) (s : State) : Result :=
  .next (issueBy (.mpost a off) [a] [] false (postBody .matrix a off fun _ => 0) s)
def execVpost (a : Reg) (off : BitVec 18) (s : State) : Result :=
  .next (issueBy (.vpost a off) [a] [] false (postBody .vector a off fun _ => 0) s)
def execCpost (d a : Reg) (off : BitVec 18) (s : State) : Result :=
  .next (issueBy (.cpost d a off) [d, a] [] false (postBody .copy a off fun c => readReg c d) s)

/-! ### ESYNC (R225) -/

def maskHas (m : BitVec 3) (e : EngineId) : Bool := m.getLsbD (engineIndex e)

def execEsync (mask : BitVec 3) (s : State) : Result :=
  .next (issueBy (.esync mask) [] [] false (fun s sc slot c =>
    let named := [EngineId.matrix, .vector, .copy].filter (maskHas mask)
    if named.any fun e => !boundBy s sc e slot then raise s sc slot (engineFault 0x01 0)
    else if named.all fun e => (engineOf s sc e).queue == [] then finish s sc slot c
    else park s sc slot c (.reissue (.engine mask))) s)

/-! ### Engine registers and images (R226 to R231, R280) -/

def b1 (b : Bool) : BitVec 1 := if b then 1 else 0

/-- MX.STAT and VX.STAT (R229), CP.STAT (R231). -/
def engineStat (e : EngineId) (x : Engine) : Word :=
  let qn : BitVec 2 := BitVec.ofNat 2 x.queue.length
  match e with
  | .copy => x.fwcnt ++ (0 : BitVec 22) ++ b1 x.frz ++ b1 x.tpnd ++ qn ++ (0 : BitVec 6)
  | _ => (0 : BitVec 32) ++ x.badcnt ++ (0 : BitVec 6) ++ b1 x.bad ++ b1 x.tpnd ++ qn ++ (0 : BitVec 1) ++ x.flags

/-- MX.CTL and VX.CTL (R230); the copy engine has none. -/
def engineCtl (e : EngineId) (x : Engine) : Word :=
  match e with
  | .copy => 0
  | _ => (0 : BitVec 58) ++ b1 x.bte ++ x.fen

/-- LST (R280). -/
def latchWord (l : LatchState) : Word :=
  (0 : BitVec 49) ++ (l.lk.setWidth 5 : BitVec 5) ++ (l.lm.setWidth 5 : BitVec 5) ++ l.lfmt ++ b1 l.lv

/-- Signature of an image (R226). -/
def imageSignature (e : EngineId) : Word := 0x4B39E000 + BitVec.ofNat 64 (engineIndex e)

def imageBytes (e : EngineId) : Nat :=
  match e with
  | .matrix => 16448 | _ => 64

/-- Bytes of all four accumulators (R260). -/
def accBytes : Nat := 16384

/-- The words of an image's head. -/
def imageHead (e : EngineId) (x : Engine) : List Word :=
  [imageSignature e, engineStat e x, engineCtl e x, if e = .matrix then latchWord x.lst else 0, 0, 0, 0, 0]

/-- The accumulators' words, those of a poisoned accumulator marked so (R331). -/
def accWords (x : Engine) : List (Word × Bool) :=
  (List.range 2048).map fun i => (BitVec.ofNat 64 (memReadNat x.acc (8 * i) 8), setHas x.accPoison (i / 512))

/-- An engine's write of a whole word: F full (R227, R59); poison travels with it (R331). -/
def engineWord (s : State) (sc : ScullId) (b : Nat) (v : Word × Bool) : State :=
  let x := spadWrite (scullOf s sc) b 8 v.1
  let x := if v.2 then { x with poison := setAdd x.poison (b / 8) } else x
  serveFull (setScull s sc (setFullBit x (b / 8) true)) sc (b / 8)

/-- Writes words at an own address upward. -/
def engineWords (s : State) (sc : ScullId) (c : Ctx) (a : Nat) : List (Word × Bool) → State
  | [] => s
  | w :: t => engineWords (engineWord s sc (ownByte s sc c a) w) sc c (a + 8) t

/-- The checks of R227, then k once the engine's queue is empty. -/
def imageBody (e : EngineId) (a : Reg) (off : BitVec 18) (k : State → ScullId → Slot → Ctx → Word → State)
    (s : State) (sc : ScullId) (slot : Slot) (c : Ctx) : State :=
  let ia := recordAddr c a off
  if ia.toNat % 64 ≠ 0 then raise s sc slot { code := 0x03, aux := 0, tval := ia }
  else match ownRange s sc c ia (imageBytes e) with
    | .bad => raise s sc slot (capacityTrap 0x01 ia)
    | r =>
      if !boundBy s sc e slot then raise s sc slot (engineFault 0x01 ia)
      else if (engineOf s sc e).queue ≠ [] then park s sc slot c (.reissue (.engine ((1 : BitVec 3) <<< engineIndex e)))
      else match r with
        | .page v => touchPage (park s sc slot c (.reissue (.page sc c.crew v))) sc c.crew v
        | _ =>
          let c := touchOwn s sc c ia (imageBytes e)
          k (setCtx s sc slot c) sc slot c ia

def esaveBody (e : EngineId) (s : State) (sc : ScullId) (slot : Slot) (c : Ctx) (ia : Word) : State :=
  let x := engineOf s sc e
  let words := (imageHead e x).map (fun w => (w, false)) ++ (if e = .matrix then accWords x else [])
  finish (engineWords s sc c ia.toNat words) sc slot c

def ownWord (s : State) (sc : ScullId) (c : Ctx) (a : Nat) : Word := spadRead (scullOf s sc) (ownByte s sc c a) 8

/-- The accumulators read back from an image, byte by byte, with the poison of its words. -/
def loadAcc (s : State) (sc : ScullId) (c : Ctx) (a : Nat) : Memory × NatSet :=
  (List.range 2048).foldl (fun r i =>
    let b := ownByte s sc c (a + 8 * i)
    (memWriteNat r.1 (8 * i) 8 (memReadNat (scullOf s sc).data b 8),
     if wordPoison (scullOf s sc) (b / 8) then setAdd r.2 (i / 512) else r.2)) ([], [])

/-- ERESTORE (R227, R280): TPND, QN, FWCNT and FRZ are not taken; LV is cleared. The value of a signature fault's CTX.TVAL is not stated. -/
def erestoreBody (e : EngineId) (s : State) (sc : ScullId) (slot : Slot) (c : Ctx) (ia : Word) : State :=
  let x := engineOf s sc e
  let head := (List.range 3).any fun i => wordPoison (scullOf s sc) (ownByte s sc c (ia.toNat + 8 * i) / 8)
  if head then raise s sc slot (poisonTrap 0x01 ia)
  else if ownWord s sc c ia.toNat ≠ imageSignature e then
    let v := drawWord s
    raise v.2 sc slot (engineFault 0x03 v.1)
  else
    let stat := ownWord s sc c (ia.toNat + 8)
    let ctl := ownWord s sc c (ia.toNat + 16)
    let loaded := { x with badcnt := stat.extractLsb' 16 16, bad := stat.getLsbD 9, flags := stat.extractLsb' 0 5, bte := ctl.getLsbD 5, fen := ctl.extractLsb' 0 5 }
    match e with
    | .copy => finish s sc slot c
    | .vector => finish (setEngine s sc e loaded) sc slot c
    | .matrix =>
      let acc := loadAcc s sc c (ia.toNat + 64)
      finish (setEngine s sc e { loaded with acc := acc.1, accPoison := acc.2, lst := { x.lst with lv := false } }) sc slot c

def execEsaveM (a : Reg) (off : BitVec 18) (s : State) : Result :=
  .next (issueBy (.esaveM a off) [a] [] false (imageBody .matrix a off (esaveBody .matrix)) s)
def execEsaveV (a : Reg) (off : BitVec 18) (s : State) : Result :=
  .next (issueBy (.esaveV a off) [a] [] false (imageBody .vector a off (esaveBody .vector)) s)
def execEsaveC (a : Reg) (off : BitVec 18) (s : State) : Result :=
  .next (issueBy (.esaveC a off) [a] [] false (imageBody .copy a off (esaveBody .copy)) s)
def execErestoreM (a : Reg) (off : BitVec 18) (s : State) : Result :=
  .next (issueBy (.erestoreM a off) [a] [] false (imageBody .matrix a off (erestoreBody .matrix)) s)
def execErestoreV (a : Reg) (off : BitVec 18) (s : State) : Result :=
  .next (issueBy (.erestoreV a off) [a] [] false (imageBody .vector a off (erestoreBody .vector)) s)
def execErestoreC (a : Reg) (off : BitVec 18) (s : State) : Result :=
  .next (issueBy (.erestoreC a off) [a] [] false (imageBody .copy a off (erestoreBody .copy)) s)

end Sys2Proof.Machine
end

