-- ==== Sys2Proof/Machine/Queues.lean ====
section
/-! DEFINITION. The hardware queues as their writers see them (R283, R284, R298): write windows, the ring, and a queue's STATE; and the
requests of PCIe function 0 that are held (R284, R330, R386, R394). -/

namespace Sys2Proof.Machine

/-! ### Requests of PCIe function 0 -/

/-- Held requests go on in order (R330). -/
def releasePcie (s : State) : State :=
  s.host.requests.foldl (fun s i => post s 0 .none i) { s with host := { s.host with requests := [] } }

/-- Holds a request: 64 at most, later posted writes discarded and counted (R330). -/
def holdPcie (s : State) (i : Instr) : State :=
  if s.host.requests.length < 64 then { s with host := { s.host with requests := s.host.requests ++ [i] } }
  else { s with host := { s.host with discarded := s.host.discarded + 1 } }

/-- Whether BAR0 is served: ST is 1, and was before this cycle (R394). -/
def barOpen (s : State) : Bool := s.power.bootSt == 1 && s.power.bootAt != some s.cycle

/-- A write of PCIe function 0 through BAR0: discarded before the package is ready (R390, R394), held behind a held one (R330), else k. -/
def pcieWrite (s : State) (i : Instr) (k : State → State) : State :=
  if !barOpen s then s
  else if s.host.requests ≠ [] ∨ setHas s.host.frozen 0 then holdPcie s i
  else k s

/-! ### The ring (R283, R284) -/

def ringSlots (x : Queue) : Nat := 2 ^ x.lsz
def ringFull (x : Queue) : Bool := decide (ringSlots x ≤ (x.tail - x.head).toNat)
/-- The physical address of ring entry n. -/
def ringEntry (x : Queue) (n : BitVec 32) : Nat := x.ring + 64 * (n.toNat % ringSlots x)

/-- Enqueues a packet at TAIL. -/
def enqueue (s : State) (q : QueueId) (data : List Word) : State :=
  let x := queueOf s q
  let s := hubWrite s (ringEntry x x.tail) 64 (bytesNat (wordsBytes data))
  postOnce (setQueue s q { queueOf s q with tail := x.tail + 1 }) .none .launchUnitStart

/-- A write discarded and counted (R284). -/
def discardPacket (s : State) (q : QueueId) : State :=
  let x := queueOf s q
  setQueue s q { x with drop := x.drop + 1 }

/-- What a write to a window comes to: it must wait for a full ring, or it is enqueued or discarded (R284). -/
def windowWrite (s : State) (q : QueueId) (whole : Bool) (data : List Word) : Option State :=
  let x := queueOf s q
  if !whole || x.state == .disabled then some (discardPacket s q)
  else if ringFull x then none
  else some (enqueue s q data)

/-- QUEUE_WINDOW_WRITE: a PCIe write to a queue's window (R284). -/
def execQueueWindowWrite (q : QueueId) (data : List Word) (s : State) : Result :=
  .next (pcieWrite s (.queueWindowWrite q data) fun s =>
    match windowWrite s q (data.length == 8) data with
    | some s => s
    | none => holdPcie s (.queueWindowWrite q data))

/-- The copy engines whose CCOPY runs look at their beats again in this cycle: one that is held goes on. -/
def pokeBeats (s : State) : State :=
  s.engines.foldl (fun s e =>
    if e.1 % 4 = 2 ∧ e.2.started ∧ (e.2.queue.head?.bind fun c => recordInstr c.record) = some .ccopy then
      post s 0 (.engine (BitVec.ofNat 11 (e.1 / 4)) .copy) .ccopy
    else s) s

/-- A pop frees a ring entry, and writers held for one go on (R284). -/
def popQueue (s : State) (q : QueueId) : State :=
  let x := queueOf s q
  let s := releasePcie (setQueue s q { x with head := x.head + 1 })
  if ringFull x then pokeBeats s else s

/-! ### STATE (R283, R292, R298) -/

/-- The uncommitted starts of a queue that leaves ENABLED are withdrawn (R292). -/
def withdrawStarts (s : State) (q : QueueId) : State :=
  s.unit.starts.foldl (fun s e =>
    if e.2.queue = some q ∧ !e.2.committed then post s 0 (.item e.1) .crewReservationWithdraw else s) s

/-- STATE := DISABLED: HEAD := TAIL, and a held write is released, discarded and counted in this cycle (R283, R284). -/
def disableQueue (s : State) (q : QueueId) : State :=
  let x := queueOf s q
  let s := releasePcie (withdrawStarts (setQueue s q { x with state := .disabled, head := x.tail, wait := none }) q)
  if ringFull x then pokeBeats s else s

/-- STATE := ENABLED (R298). -/
def enableQueue (s : State) (q : QueueId) : State :=
  postOnce (setQueue s q { queueOf s q with state := .enabled }) .none .launchUnitStart

def execQueueDisable (q : QueueId) (s : State) : Result :=
  .next (pcieWrite s (.queueDisable q) fun s => disableQueue s q)
def execQueueEnable (q : QueueId) (s : State) : Result :=
  .next (pcieWrite s (.queueEnable q) fun s => enableQueue s q)

/-- A write of the STATE field (R283): 11 is read back as 00. -/
def setQueueState (s : State) (q : QueueId) (v : BitVec 2) : State :=
  if v = 1 then enableQueue s q
  else if v = 2 then withdrawStarts (setQueue s q { queueOf s q with state := .frozen }) q
  else disableQueue s q

end Sys2Proof.Machine
end

