-- ==== Sys2Proof/Machine/Fabric.lean ====
section
/-! DEFINITION. The Ultra Ethernet endpoint (R384 to R386) and fabric writes at their scull (R253 to R255): flow, window and aperture
tables, inbound packets, and the packets that aperture writes are joined into. -/

namespace Sys2Proof.Machine

/-! ### Tables (R384, R386) -/

inductive FlowState where
  | open_ | frozen | closed
  deriving DecidableEq, Repr

/-- The physical address of flow entry f; none while EP.FLOW is 0, and where the entry lies outside capacity (log 78). -/
def flowEntry (s : State) (f : BitVec 24) : Option Nat :=
  if s.ep.flow = 0 ∨ !inCapacity s (s.ep.flow + 32 * f.toNat) then none else some (s.ep.flow + 32 * f.toNat)
def flowWord (s : State) (f : BitVec 24) (n : Nat) : Word :=
  match flowEntry s f with
  | some a => globalWord s (a + 8 * n)
  | none => 0

/-- Whether a flow's own entry lies outside capacity (R356). -/
def flowOutside (s : State) (f : BitVec 24) : Bool := s.ep.flow != 0 && (flowEntry s f).isNone

/-- STATE of a flow; the code 11 is taken as closed. That of a flow whose entry lies outside capacity is kept by the endpoint (log 78). -/
def flowState (s : State) (f : BitVec 24) : FlowState :=
  match flowEntry s f with
  | none =>
    if s.ep.flow = 0 ∨ setHas s.ep.outClosed f.toNat then .closed
    else if setHas s.ep.outFrozen f.toNat then .frozen
    else .open_
  | some a => match ((globalWord s a).extractLsb' 61 2 : BitVec 2).toNat with
    | 0 => .open_
    | 1 => .frozen
    | _ => .closed
/-- The endpoint reads a flow's entry through the hub L2 (R339). -/
def fetchFlow (s : State) (f : BitVec 24) : State :=
  match flowEntry s f with
  | some a => hubFetch s a 32
  | none => s
def flowKind (s : State) (f : BitVec 24) : BitVec 2 := (flowWord s f 0).extractLsb' 56 2
def flowAsid (s : State) (f : BitVec 24) : BitVec 16 := (flowWord s f 0).extractLsb' 32 16
/-- WB and WN. -/
def flowWindows (s : State) (f : BitVec 24) : Nat × Nat :=
  let w := flowWord s f 2
  ((w.extractLsb' 0 16 : BitVec 16).toNat, (w.extractLsb' 16 16 : BitVec 16).toNat)

def flowCode : FlowState → Word
  | .open_ => 0 | .frozen => 1 | .closed => 2
/-- Writes STATE of a flow's entry. -/
def setFlowState (s : State) (f : BitVec 24) (st : FlowState) : State :=
  match flowEntry s f with
  | none => { s with ep := { s.ep with
      outFrozen := setPut s.ep.outFrozen f.toNat (st == .frozen), outClosed := setPut s.ep.outClosed f.toNat (st == .closed) } }
  | some a => (updateWord s hubNode a fun w => (w &&& ~~~((3 : Word) <<< 61)) ||| (flowCode st <<< 61)).1

/-- Freezes a flow: one record; its packets not yet applied will be sent again (R329, R330). -/
def freezeFlow (s : State) (f : BitVec 24) (addr detail : Word) : State :=
  let s := setFlowState s f .frozen
  let s := { s with sculls := tabMap (fun _ x => { x with fabric := x.fabric.filter fun w => w.flow != some f }) s.sculls }
  sendRecord s 0x04 0x02 (flowAsid s f) (.flow f) addr 0 detail 0

/-- Sends a message on a flow (R385, R387). -/
def sendRemote (s : State) (m : RemoteMsg) : State := { s with ep := { s.ep with messages := s.ep.messages ++ [m] } }

/-- A packet of an open flow whose own entry lies outside capacity freezes it (R356, R330). -/
def freezeOutside (s : State) (f : BitVec 24) : State := freezeFlow s f (BitVec.ofNat 64 (s.ep.flow + 32 * f.toNat)) 0

/-! ### Inbound packets (R385) and fabric writes (R253 to R255) -/

/-- A window entry's words; none where there is no table or the entry lies outside capacity (R356). -/
def windowEntry (s : State) (w : Nat) : Option (Word × Word) :=
  if s.ep.win = 0 ∨ !inCapacity s (s.ep.win + 16 * w) then none
  else some (globalWord s (s.ep.win + 16 * w), globalWord s (s.ep.win + 16 * w + 8))

/-- The endpoint reads a flow's entry and a window's through the hub L2 (R339). -/
def fetchWindow (s : State) (f : BitVec 24) (w : Nat) : State :=
  let s := fetchFlow s f
  if s.ep.win = 0 ∨ !inCapacity s (s.ep.win + 16 * w) then s else hubFetch s (s.ep.win + 16 * w) 16

/-- Whether the endpoint answers: not where the boot has failed (R390). -/
def endpointUp (s : State) : Bool := s.power.bootSt != 2

/-- Whether o bytes from a loc offset satisfy R253. -/
def fabricRange (o n : Nat) : Bool := n % 8 == 0 && 8 ≤ n && n ≤ 4096 && o % 8 == 0 && o / 4096 == (o + n - 1) / 4096

def fabricWritePacket (s : State) (f : BitVec 24) (i : BitVec 16) (o : Nat) (data : List Word) (poisoned : Bool) : State :=
  if flowState s f = .open_ ∧ flowOutside s f then freezeOutside s f
  else if flowState s f ≠ .open_ ∨ flowKind s f ≠ 0 then sendRemote s (.nack f)
  else if poisoned then freezeFlow s f (BitVec.ofNat 64 o) 0
  else
    let ws := flowWindows s f
    let n := 8 * data.length
    match windowEntry s (ws.1 + i.toNat) with
    | none => freezeFlow s f (BitVec.ofNat 64 o) 2
    | some (w0, w1) =>
      let at_ := (w1.extractLsb' 32 32 : BitVec 32).toNat + o
      if ws.2 ≤ i.toNat ∨ !w0.getLsbD 0 ∨ (w1.setWidth 32 : BitVec 32).toNat < o + n ∨ !fabricRange at_ n then
        freezeFlow s f (BitVec.ofNat 64 o) 2
      else
        let sc : ScullId := w0.extractLsb' 16 11
        let w : FabricWrite := {
          crew := w0.extractLsb' 32 32, off := at_, data := data,
          sem := if w0.getLsbD 15 then some (w0.extractLsb' 8 5) else none, flow := some f }
        let x := scullOf s sc
        postOnce (setScull s sc { x with fabric := x.fabric ++ [w] }) (.scull sc) .fabricWrite

def execFabricWritePacket (f : BitVec 24) (i : BitVec 16) (o : Nat) (data : List Word) (poisoned : Bool) (s : State) : Result :=
  .next (if !endpointUp s then s else fabricWritePacket (fetchWindow s f ((flowWindows s f).1 + i.toNat)) f i o data poisoned)

/-- Applies the words in increasing order, each with its F bit (R255). -/
def fabricWords (s : State) (sc : ScullId) : Nat → List Word → State
  | _, [] => s
  | b, v :: t => fabricWords (engineWord s sc b (v, false)) sc (b + 8) t

def failFabric (s : State) (w : FabricWrite) (detail : Word) : State :=
  match w.flow with
  | some f => freezeFlow s f (BitVec.ofNat 64 w.off) detail
  | none => s

/-- FABRIC_WRITE: the oldest fabric write of the scull (R254, R255). -/
def fabricWrite (s : State) (sc : ScullId) : State :=
  let x := scullOf s sc
  match x.fabric with
  | [] => s
  | w :: rest =>
    let out := setScull s sc { x with fabric := rest }
    let again := fun (s : State) => if (scullOf s sc).fabric = [] then s else postOnce s (.scull sc) .fabricWrite
    let v := w.off / frameBytes
    if x.fenced then again (failFabric out w 0)
    else if (groupOf s sc w.crew).isNone then again (failFabric out w 1)
    else match pageState s sc w.crew v with
      | none => again (failFabric out w 2)
      | some (.pinned f) =>
        let s := fabricWords out sc (f * frameBytes + w.off % frameBytes) w.data
        let e := engineOf s sc .copy
        let s := setEngine s sc .copy { e with fwcnt := e.fwcnt + 1 }
        let s := match w.flow with
          | some f => sendRemote s (.ack f)
          | none => s
        again (match w.sem with
          | some n => signalSem s sc n.toNat
          | none => s)
      | some _ => again (touchPage s sc w.crew v)

def execFabricWrite (s : State) : Result :=
  match s.actor with
  | .scull sc => .next (fabricWrite s sc)
  | _ => .next s

/-! ### Send apertures (R386) -/

def apertureBase : Nat := 0x18000000000

/-- What the endpoint says to a write at an aperture. -/
inductive ApertureSay where
  | outside
  | wait (flow : BitVec 24)
  | take (flow : BitVec 24) (win : BitVec 16)
  deriving DecidableEq, Repr

/-- The endpoint reads an aperture's entry, and that of its flow, through the hub L2 (R339). -/
def fetchAperture (s : State) (n : Nat) : State :=
  if s.ep.sap = 0 ∨ 2 ^ s.ep.sapLsz ≤ n then s
  else fetchFlow (hubFetch s (s.ep.sap + 16 * n) 16) ((globalWord s (s.ep.sap + 16 * n)).extractLsb' 0 24)

/-- The entry checks for aperture n; dom none for PCIe function 0. -/
def apertureSay (s : State) (dom : Option (BitVec 16)) (n : Nat) : ApertureSay :=
  if s.ep.sap = 0 ∨ 2 ^ s.ep.sapLsz ≤ n ∨ !inCapacity s (s.ep.sap + 16 * n) then .outside
  else
    let w0 := globalWord s (s.ep.sap + 16 * n)
    let w1 := globalWord s (s.ep.sap + 16 * n + 8)
    let f : BitVec 24 := w0.extractLsb' 0 24
    let domain := match dom with
      | some a => w0.extractLsb' 32 16 == a
      | none => true
    if !w0.getLsbD 63 ∨ w0.extractLsb' 48 15 ≠ (0 : BitVec 15) ∨ w0.extractLsb' 24 8 ≠ (0 : BitVec 8)
        ∨ w1.extractLsb' 16 48 ≠ (0 : BitVec 48) ∨ !domain then .outside
    else match flowState s f with
      | .closed => .outside
      | st => if flowOutside s f then .outside else if flowKind s f ≠ 0 then .outside else if st = .frozen then .wait f else .take f (w1.extractLsb' 0 16)

/-- Closes a packet: it leaves, and the far endpoint will acknowledge it. -/
def closePacket (s : State) (id : Nat) (p : OutPacket) : State :=
  postLater (setItem s id (.packet { p with closed := true })) (.item id) .fabricWriteAck

/-- The open packet of a master. -/
def openPacket (s : State) (m : Master) : Option (Nat × OutPacket) :=
  s.items.findSome? fun e => match e.2 with
    | .packet p => if p.master = m ∧ p.held = none ∧ !p.closed then some (e.1, p) else none
    | _ => none

/-- Whether a write continues a packet. -/
def continues (p : OutPacket) (f : BitVec 24) (win : BitVec 16) (n o : Nat) : Bool :=
  p.flow == f && p.win == win && p.aperture == n && p.off + 8 * p.data.length == o && p.off / 4096 == o / 4096

/-- Keeps a packet; one that reached the end of its page is full. -/
def keepPacket (s : State) (id : Nat) (p : OutPacket) : State :=
  if (p.off + 8 * p.data.length) % 4096 = 0 then closePacket s id p else setItem s id (.packet p)

/-- The crew of a master that is a context. -/
def masterCrew (s : State) (m : Master) : CrewId :=
  match m with
  | .context sc slot => (ctxOf s sc slot).crew
  | _ => 0

/-- Accepts a write into the master's packet, or into a new one. -/
def joinPacket (s : State) (m : Master) (f : BitVec 24) (win : BitVec 16) (n o : Nat) (data : List Word) : State :=
  let fresh := fun (s : State) =>
    let id := s.nextId
    let p : OutPacket := {
      master := m, flow := f, win := win, aperture := n, off := o, data := data, opened := s.cycle, closed := false
      crew := masterCrew s m, held := none }
    keepPacket (post (addItem s (.packet p)) 64 (.item id) .aperturePacketTimeout) id p
  match openPacket s m with
  | some (id, p) =>
    if continues p f win n o then keepPacket s id { p with data := p.data ++ data, opened := s.cycle }
    else fresh (closePacket s id p)
  | none => fresh s

/-- A write at offset o of the apertures (R386): none where it is outside capacity; else whether it was accepted, and the state. -/
def apertureStore (s : State) (m : Master) (dom : Option (BitVec 16)) (o : Nat) (data : List Word) : Option (Bool × State) :=
  let form := match m with
    | .context _ _ | .hart _ => data.length == 1 && o % 8 == 0
    | .engine _ _ => data.length == 8 && o % 64 == 0
    | .pcie f => f == 0 && o % 8 == 0 && data != [] && o / 4096 == (o + 8 * data.length - 1) / 4096
    | .flow _ => false
  if !form then none
  else
    let s := fetchAperture s (o / 65536)
    match apertureSay s dom (o / 65536) with
    | .outside => none
    | .wait _ => some (false, s)
    | .take f win => some (true, joinPacket s m f win (o / 65536) (o % 65536) data)

/-- The domain of a master at an aperture. -/
def masterDomain (s : State) (m : Master) : Option (BitVec 16) :=
  match m with
  | .context sc slot => some (ctxOf s sc slot).asid
  | .engine sc e => some (match (engineOf s sc e).bound with
    | some t => (ctxOf s sc t).asid
    | none => 0)
  | .hart h => some (hartOf s h).asid
  | _ => none

/-- APERTURE_PACKET_TIMEOUT: 64 cycles without a continuing write (R386). -/
def execAperturePacketTimeout (s : State) : Result :=
  match s.actor with
  | .item id => match itemOf s id with
    | some (.packet p) =>
      if p.closed then .next s
      else if p.opened + 64 ≤ s.cycle then .next (closePacket s id p)
      else .next (post s (p.opened + 64 - s.cycle) (.item id) .aperturePacketTimeout)
    | _ => .next s
  | _ => .next s

/-- Whether an earlier packet of the flow has not left (R386). -/
def packetBehind (s : State) (id : Nat) (p : OutPacket) : Bool :=
  s.items.any fun e => match e.2 with
    | .packet q => decide (e.1 < id) && q.flow == p.flow && !q.closed
    | _ => false

/-- FABRIC_WRITE_ACK: the packet's writes have performed at system scope (R386). -/
def execFabricWriteAck (s : State) : Result :=
  match s.actor with
  | .item id => match itemOf s id with
    | some (.packet p) =>
      if !p.closed then .next s
      else if packetBehind s id p then .next (postLater s (.item id) .fabricWriteAck)
      else .next (wakeReissue (dropItem s id) (· == .drain))
    | _ => .next s
  | _ => .next s

end Sys2Proof.Machine
end

