-- ==== Sys2Proof/Machine/Frames.lean ====
section
/-! DEFINITION. The resources a launch takes (R13, R20, R21, R129 to R131, R398): slots, register windows and frames of a scull, what is
reserved of them, scrubbing, and the pages of a core group with their images in the backing area (R132 to R135, R288). -/

namespace Sys2Proof.Machine

/-! ### Windows of the register file (R12, R13, R21) -/

def registerEntries : Nat := 2048

/-- The register entries a context takes: its window, or the one it is to have. -/
def entriesOf (c : Ctx) : Nat := 8 * c.hdr.rgn

/-- Windows that are not clean: held ones and dirty ones. -/
def heldWindows (s : State) (sc : ScullId) : List (Nat × Nat) :=
  (scullKeys s sc).filterMap fun k =>
    let c := ctxAt s k
    if c.size = 0 then none else some (c.base, c.size)

def windowFits (taken : List (Nat × Nat)) (b n : Nat) : Bool :=
  b + n ≤ registerEntries && taken.all fun w => b + n ≤ w.1 || w.1 + w.2 ≤ b

/-- The lowest place for a window among the taken ones; windows start at multiples of 8. -/
def findWindow (taken : List (Nat × Nat)) (n : Nat) : Option Nat :=
  ((List.range 256).map (8 * ·)).find? fun b => windowFits taken b n

/-- A clean window of n entries (R21). -/
def cleanWindow (s : State) (sc : ScullId) (n : Nat) : Option Nat :=
  findWindow (heldWindows s sc ++ (scullOf s sc).dirtyWindows) n

def sumSizes (l : List (Nat × Nat)) : Nat := l.foldl (fun n w => n + w.2) 0

/-- SC.OCC (R115). -/
def occupancy (s : State) (sc : ScullId) : Word :=
  let dirty := sumSizes (scullOf s sc).dirtyWindows
  let clean := registerEntries - sumSizes (heldWindows s sc) - dirty
  (0 : BitVec 16) ++ BitVec.ofNat 12 clean ++ BitVec.ofNat 12 dirty ++ (0 : BitVec 17) ++ BitVec.ofNat 7 (64 - (scullKeys s sc).length)

/-! ### What a decision may count on (R20, R398) -/

def classKeys (s : State) (sc : ScullId) (cls : Cls) : List Nat :=
  (scullKeys s sc).filter fun k => (ctxAt s k).hdr.cls == cls

def heldSlots (x : Scull) : Nat := x.holds.foldl (fun n h => n + h.slots) 0
def heldEntries (x : Scull) : Nat := x.holds.foldl (fun n h => n + h.entries) 0

/-- Slots that are free or held by a harvest context, less those reserved (R20 step 2). -/
def slotSupply (s : State) (sc : ScullId) : Nat := 64 - (classKeys s sc .owner).length - heldSlots (scullOf s sc)

/-- Register entries that are clean, dirty or held by harvest contexts, less those reserved (R20 step 3). -/
def entrySupply (s : State) (sc : ScullId) : Nat :=
  registerEntries - (classKeys s sc .owner).foldl (fun n k => n + entriesOf (ctxAt s k)) 0 - heldEntries (scullOf s sc)

def freeSlot (s : State) (sc : ScullId) : Option Slot :=
  ((List.range 64).find? fun i => isFree (ctxAt s (sc.toNat * 64 + i))).map fun i => BitVec.ofNat 6 i

def freeSlots (s : State) (sc : ScullId) : List Slot :=
  ((List.range 64).filter fun i => isFree (ctxAt s (sc.toNat * 64 + i))).map fun i => BitVec.ofNat 6 i

/-- The slots a launch or a start still wants on a scull. -/
def wantedSlots (s : State) (sc : ScullId) (id : Nat) : Nat :=
  if (itemOf s id).isSome then 1
  else ((scullOf s sc).holds.filter fun h => h.id == id).foldl (fun n h => n + h.slots) 0

/-- The slots that pending revocations are to hand to others (R37, R398). -/
def owedSlots (s : State) (sc : ScullId) (id : Nat) : Nat :=
  (scullOf s sc).revokes.foldl (fun n r => match r with
    | .slot i => if i = id then n else n + wantedSlots s sc i
    | _ => n) 0

/-- The slot a launch or an image may take now: the lowest free one, unless revocations free it for others. -/
def takeSlot (s : State) (sc : ScullId) (id : Nat) : Option Slot :=
  if owedSlots s sc id < (freeSlots s sc).length then freeSlot s sc else none

def addHold (s : State) (sc : ScullId) (h : Hold) : State :=
  setScull s sc { scullOf s sc with holds := (scullOf s sc).holds ++ [h] }
def dropHold (s : State) (sc : ScullId) (id : Nat) : State :=
  setScull s sc { scullOf s sc with holds := (scullOf s sc).holds.filter fun h => h.id != id }

/-! ### Frames (R20 step 4, R129, R134, R398) -/

/-- Whether a frame's holder is a harvest crew, to which it is only lent (R35); one kept by HALT.KEEP is not open (R20 step 4). -/
def lentFrame (x : Scull) (f : Nat) : Bool :=
  match tabFind x.frames f with
  | some (.page crew _) => (match tabFind x.groups crew.toNat with
    | some g => g.cls == .harvest && g.kept.isNone
    | none => false)
  | _ => false

/-- Whether a later decision may take the frame: not reserved, and held by nothing or lent. -/
def frameOpen (x : Scull) (f : Nat) : Bool :=
  (tabFind x.promised f).isNone && ((tabFind x.frames f).isNone || lentFrame x f)

/-- Whether a frame may be handed over at once: held by nothing and scrubbed (R129). -/
def frameClear (x : Scull) (f : Nat) : Bool := (tabFind x.frames f).isNone && !setHas x.dirtyFrames f

/-- The frames a decision may take: scrubbed ones, then dirty ones, then lent ones, each by number. -/
def openFrames (x : Scull) : List Nat :=
  let l := (List.range spadPages).filter (frameOpen x)
  l.filter (fun f => frameClear x f) ++ l.filter (fun f => (tabFind x.frames f).isNone && setHas x.dirtyFrames f)
    ++ l.filter (fun f => lentFrame x f)

/-- Reserves a frame (R398); a lent one is revoked (R37). -/
def promiseFrame (s : State) (sc : ScullId) (who : Claimant) (f : Nat) : State :=
  let x := scullOf s sc
  let s := setScull s sc { x with promised := tabSet x.promised f who }
  if lentFrame x f then requestRevoke s sc (.frame f) else s

/-- The frame reserved for a claimant. -/
def promisedTo (x : Scull) (who : Claimant) : List Nat := (x.promised.filter fun e => e.2 == who).map Prod.fst

def unpromise (s : State) (sc : ScullId) (who : Claimant) : State :=
  setScull s sc { scullOf s sc with promised := (scullOf s sc).promised.filter fun e => e.2 != who }

/-- Posts the completion of one more scrub. -/
def postScrub (s : State) (sc : ScullId) : State := postLater s (.scull sc) .scrubComplete

/-- A frame that is released: it waits for scrubbing (R129). -/
def releaseFrame (s : State) (sc : ScullId) (f : Nat) : State :=
  let x := scullOf s sc
  postScrub (setScull s sc { x with frames := tabDrop x.frames f, dirtyFrames := setAdd x.dirtyFrames f }) sc

/-- A scrubbed frame: zeros, every F bit empty, no poison (R129). -/
def scrubFrame (x : Scull) (f : Nat) : Scull :=
  { x with
    data := x.data.filter fun e => e.1 / frameBytes != f
    full := x.full.filter fun w => w / 512 != f
    poison := x.poison.filter fun w => w / 512 != f
    dirtyFrames := setDel x.dirtyFrames f }

/-- SCRUB_COMPLETE (R31, R129): one dirty window or frame, of its own choice (log 2), goes back clean; the scull gives its notice. -/
def scrubComplete (s : State) (sc : ScullId) : State :=
  let x := scullOf s sc
  let n := x.dirtyWindows.length + x.dirtyFrames.length
  if n = 0 then s
  else
    let d := drawChoice s n
    let x' := if d.1 < x.dirtyWindows.length then { x with dirtyWindows := x.dirtyWindows.eraseIdx d.1 }
      else scrubFrame x (x.dirtyFrames.getD (d.1 - x.dirtyWindows.length) 0)
    scullNotice (setScull d.2 sc x') sc

def execScrubComplete (s : State) : Result :=
  match s.actor with
  | .scull sc => .next (scrubComplete s sc)
  | _ => .next s

/-- A window returned dirty (R31). -/
def dirtyWindow (s : State) (sc : ScullId) (c : Ctx) : State :=
  if c.size = 0 then s
  else postScrub (setScull s sc { scullOf s sc with dirtyWindows := (scullOf s sc).dirtyWindows ++ [(c.base, c.size)] }) sc

/-! ### What waits on a frame's words -/

/-- The accesses in the word queues of a frame, taken out in order of word and arrival. -/
def takeWordWaiters (s : State) (sc : ScullId) (f : Nat) : State × List Nat :=
  let x := scullOf s sc
  let mine := x.wordQueues.filter fun e => e.1 / 512 == f
  (setScull s sc { x with wordQueues := x.wordQueues.filter fun e => e.1 / 512 != f }, mine.flatMap Prod.snd)

/-- A siphon waiter whose header is going away: a context's operation is an access again, which will wait for the page or chamber; an engine
and a future's injection look again by themselves. -/
def sipToAccess (s : State) (w : SipWaiter) : State × List Nat :=
  match w.who with
  | .context k =>
    let c := ctxAt s k
    let a : Access := { newAccess s (keyScull k) (keySlot k) c (.word (.siphon w.op)) w.place w.ea 8 .plain false w.d .plain with
      phase := .atPage }
    (setCtxAt (addItem s (.access a)) k (setWait c (.access s.nextId)), [s.nextId])
  | _ => (retrySiphon s w, [])

/-- The siphon waiters at headers in some places of a scull, as accesses in their order. -/
def takeSiphonWaiters (s : State) (sc : ScullId) (at_ : Place → Bool) : State × List Nat :=
  let x := scullOf s sc
  let here := fun (w : SipWaiter) => at_ w.place
  let s' := setScull s sc { x with sipWaiters := x.sipWaiters.filter fun w => !here w }
  (x.sipWaiters.filter here).foldl (fun r w =>
    let q := sipToAccess r.1 w
    (q.1, r.2 ++ q.2)) (s', [])

/-- Cancels a context's reservation and sets its pc back to its AQR (R171); where its instruction is outstanding, once that has completed. -/
def cancelToAqr (s : State) (k : Nat) : State :=
  let c := ctxAt s k
  match c.resv with
  | none => s
  | some r =>
    let s := cancelResv s k
    let c := ctxAt s k
    setCtxAt s k (match waitOf c with
      | some (.reservation _) => awake { c with pc := r.pc }
      | some (.reissue _) | none => { c with pc := r.pc }
      | some _ => { c with back := some r.pc })

/-- Every context with a reservation on a word of a frame, cancelled so (R172). -/
def cancelFrameResvs (s : State) (sc : ScullId) (f : Nat) : State :=
  let keys := (s.ctxs.filter fun e => match e.2.resv with
    | some r => r.sc == sc && r.word / 512 == f
    | none => false).map Prod.fst
  keys.foldl cancelToAqr s

/-- The accesses that waited act again, in their order (R134 step 4): each waits until it does. -/
def sendAgain (s : State) (ids : List Nat) : State :=
  ids.foldl (fun s id => match accessOf s id with
    | some _ => post s 0 (.item id) .scratchpadAccessArrival
    | none => s) s

/-! ### Images in the backing area (R132, R288) -/

/-- Eight F bits and, alongside, the poison of eight words. -/
def bitsOf (t : NatSet) (first : Nat) : Nat → Nat
  | 0 => 0
  | n + 1 => (if setHas t first then 1 else 0) + 2 * bitsOf t (first + 1) n

/-- Where a cox may reach: memory within capacity (R356). -/
def coxMay (s : State) (pa : Nat) : Bool := !inRegisters pa && inCapacity s pa

/-- Beats of 64 bytes at a virtual address by the cox, through its shell L2 (R132), in the runtime view without capability checks (R399): none
where a walk fails or leaves capacity (R356). -/
def coxStore (s : State) (sc : ScullId) (asid : BitVec 16) (root va : Word) : List Nat → Option State
  | [] => some s
  | v :: t =>
    match shellWalkTo s (shellOf sc) asid root va .store false with
    | .error _ => none
    | .ok (s, pa) => if coxMay s pa then coxStore (agentWrite s (shellNode sc) pa 64 v) sc asid root (va + 64) t else none

/-- n beats read in the same way, with the poison of their lines. -/
def coxLoad (s : State) (sc : ScullId) (asid : BitVec 16) (root va : Word) : Nat → Option (State × List (Nat × Bool))
  | 0 => some (s, [])
  | n + 1 =>
    match shellWalkTo s (shellOf sc) asid root va .load false with
    | .error _ => none
    | .ok (s, pa) =>
      if !coxMay s pa then none
      else
        let s := fetchLine s (shellNode sc) (lineOf pa)
        match coxLoad s sc asid root (va + 64) n with
        | none => none
        | some (t, l) => some (t, (agentRead s (shellNode sc) pa 64, globalPoison s pa) :: l)

/-- The 65 beats of a frame's image: 4,096 data bytes and the F map (R132). -/
def imageBeats (x : Scull) (f : Nat) : List Nat :=
  ((List.range 64).map fun i => memReadNat x.data (f * frameBytes + 64 * i) 64) ++ [bitsOf x.full (f * 512) 512]

/-- The poisoned words of a frame, counted from its first (R331). -/
def framePoison (x : Scull) (f : Nat) : NatSet := (x.poison.filter fun w => w / 512 == f).map (· % 512)

/-- A frame filled from an image's beats; a poisoned line poisons the words it carries, that of the F map all whose F bits it holds, and poison that travelled is put back (R331). -/
def fillFrame (x : Scull) (f : Nat) (beats : List (Nat × Bool)) (poison : NatSet) : Scull :=
  let x := scrubFrame x f
  let data := (List.range 64).foldl (fun m i => memWriteNat m (f * frameBytes + 64 * i) 64 (beats.getD i (0, false)).1) x.data
  let map := (beats.getD 64 (0, false)).1
  let full := (List.range 512).foldl (fun t i => if map / 2 ^ i % 2 = 1 then setAdd t (f * 512 + i) else t) x.full
  let mapBad := (beats.getD 64 (0, false)).2
  let bad := (List.range 512).foldl (fun t i =>
    if setHas poison i || mapBad || (beats.getD (i / 8) (0, false)).2 then setAdd t (f * 512 + i) else t) x.poison
  { x with data := data, full := full, poison := bad }

/-- An offset in the backing area of a scull's member index, as a virtual address of the crew's domain (R288). -/
def backingAt (s : State) (crew : CrewId) (sc : ScullId) (off : Nat) : Option (Word × BitVec 16 × Word) :=
  match crewOf s crew, memberIndex s crew sc with
  | some x, some i => some (packetWord x.packet 4 + BitVec.ofNat 64 (i * 0x80000 + off), x.asid, x.ptroot)
  | _, _ => none

/-- The virtual address of a page's image (R288). -/
def pageImage (s : State) (crew : CrewId) (sc : ScullId) (v : Nat) : Option (Word × BitVec 16 × Word) := backingAt s crew sc (v * 4160)

/-! ### Pages between states (R131, R134, R135) -/

def setPage (s : State) (sc : ScullId) (crew : CrewId) (v : Nat) (p : PageState) : State :=
  match groupOf s sc crew with
  | some g => setGroup s sc crew { g with pages := tabSet g.pages v p }
  | none => s

/-- Whether a place lies in a page. -/
def inPage (sc : ScullId) (crew : CrewId) (v : Nat) (p : Place) : Bool :=
  match p with
  | .page y c o => y == sc && c == crew && o / frameBytes == v
  | _ => false

/-- Whether an access is a plain load or store that the page's own scull issued to it and that has not come to its bank (R135). -/
def plainAt (sc : ScullId) (crew : CrewId) (v : Nat) (a : Access) : Bool :=
  a.sc == sc && a.fe == .plain && a.phase == .inFlight && inPage sc crew v a.place && match a.op with
    | .load _ | .store _ => true
    | _ => false

/-- Whether such an access is outstanding. -/
def plainOutstanding (s : State) (sc : ScullId) (crew : CrewId) (v : Nat) : Bool :=
  s.items.any fun e => match e.2 with
    | .access a => plainAt sc crew v a
    | _ => false

/-- Starts to unpin a page: only while no reservation names one of its words, and once the plain accesses of its own scull have been accepted
(R135, R172). -/
def unpinPage (s : State) (sc : ScullId) (crew : CrewId) (v : Nat) : State :=
  match pageState s sc crew v with
  | some (.pinned f) =>
    if frameReserved (scullOf s sc) f then s
    else if plainOutstanding s sc crew v then postOnce s .none (.pageUnpin sc crew v)
    else postLater (setPage s sc crew v (.unpinning f)) .none (.pageParked sc crew v)
  | _ => s

def execPageUnpin (sc : ScullId) (crew : CrewId) (v : Nat) (s : State) : Result := .next (unpinPage s sc crew v)

/-- The page's accesses that wait on a word wait for the page from now on (R135). -/
def wordsToPage (s : State) (sc : ScullId) (crew : CrewId) (v f : Nat) : State :=
  let r := takeWordWaiters s sc f
  let s := r.2.foldl (fun s id => match accessOf s id with
    | some a => setAccess s id { a with phase := .atPage }
    | none => s) r.1
  let q := takeSiphonWaiters s sc (inPage sc crew v)
  match groupOf q.1 sc crew with
  | some g => setGroup q.1 sc crew { g with waiters := tabSet g.waiters v (r.2 ++ q.2 ++ tabGet [] g.waiters v) }
  | none => q.1

/-- Whether anything waits for a page. -/
def pageWanted (s : State) (sc : ScullId) (crew : CrewId) (v : Nat) : Bool :=
  (match groupOf s sc crew with
   | some g => tabGet [] g.waiters v != []
   | none => false)
  || s.ctxs.any fun e => match waitOf e.2 with
    | some (.reissue r) => r == .page sc crew v
    | _ => false

/-- Writes a frame's image and frees the frame: the page is PARKED. A backing area that cannot be written faults the task (R288). -/
def parkPage (s : State) (sc : ScullId) (crew : CrewId) (v f : Nat) (moved : State → State) : State :=
  let s := wordsToPage s sc crew v f
  let x := scullOf s sc
  let s := match groupOf s sc crew with
    | some g => setGroup s sc crew { g with
        imagePoison := tabSet g.imagePoison v (framePoison x f), images := tabSet g.images v (imageBeats x f) }
    | none => s
  let s := match pageImage s crew sc v with
    | none => s
    | some (va, asid, root) =>
      match coxStore s sc asid root va (imageBeats x f) with
      | some t => t
      | none => taskFault s crew 0x44 0 0 va 0
  moved (setPage s sc crew v .parked)

/-- PAGE_PARKED (R131): the image is written and the frame released; what waited meanwhile starts the refill. -/
def pageParked (s : State) (sc : ScullId) (crew : CrewId) (v : Nat) : State :=
  match pageState s sc crew v with
  | some (.unpinning f) =>
    let wanted := pageWanted s sc crew v
    let s := scullNotice (parkPage s sc crew v f fun s => releaseFrame s sc f) sc
    if wanted then touchPage s sc crew v else s
  | _ => s

def execPageParked (sc : ScullId) (crew : CrewId) (v : Nat) (s : State) : Result := .next (pageParked s sc crew v)

/-- Gives a page its frame, which holds what it is to hold; its waiters are sent again in order. -/
def pinPage (s : State) (sc : ScullId) (crew : CrewId) (v f : Nat) : State :=
  let x := scullOf s sc
  let s := setScull s sc { x with frames := tabSet x.frames f (.page crew v), promised := tabDrop x.promised f }
  match groupOf s sc crew with
  | none => s
  | some g =>
    let s := setGroup s sc crew { g with pages := tabSet g.pages v (.pinned f), waiters := tabDrop g.waiters v }
    wakeReissue (sendAgain s (tabGet [] g.waiters v)) (· == .page sc crew v)

/-- n beats of 64 bytes that the manual does not state (log 2). -/
def freeBeats (s : State) : Nat → State × List (Nat × Bool)
  | 0 => (s, [])
  | n + 1 =>
    let r := freeBeats { s with draws := s.draws + 1 } n
    (r.1, ((Config.freeWide s.draws).toNat % 2 ^ 512, false) :: r.2)

/-- What the image of a page holds when it is read back: what the cox wrote, or free values where another agent has written into it (R133). -/
def imageNow (s : State) (g : Group) (v : Nat) (beats : List (Nat × Bool)) : State × List (Nat × Bool) :=
  match tabFind g.images v with
  | some l => if l = beats.map Prod.fst then (s, beats) else freeBeats s beats.length
  | none => (s, beats)

/-- Fills a page's frame from its image and pins it; a backing area that cannot be read faults the task (R288). -/
def refillPage (s : State) (sc : ScullId) (crew : CrewId) (g : Group) (v f : Nat) : State :=
  match pageImage s crew sc v with
  | none => pinPage s sc crew v f
  | some (va, asid, root) =>
    match coxLoad s sc asid root va 65 with
    | none => taskFault s crew 0x44 0 0 va 0
    | some (s, beats) =>
      let r := imageNow s g v beats
      pinPage (setScull r.1 sc (fillFrame (scullOf r.1 sc) f r.2 (tabGet [] g.imagePoison v))) sc crew v f

/-- PAGE_REFILL_COMPLETE (R134): a frame is chosen and reserved; once it is there the image is copied in. Without one the page waits. -/
def pageRefill (s : State) (sc : ScullId) (crew : CrewId) (v : Nat) : State :=
  match groupOf s sc crew with
  | none => s
  | some g =>
    let again := fun (s : State) => postLater s .none (.pageRefillComplete sc crew v)
    match tabFind g.pages v with
    | some (.refilling none) =>
      match promisedTo (scullOf s sc) (.page crew v), openFrames (scullOf s sc) with
      | f :: _, _ => again (setPage s sc crew v (.refilling (some f)))
      | [], f :: _ => again (setPage (promiseFrame s sc (.page crew v) f) sc crew v (.refilling (some f)))
      | [], [] => again s
    | some (.refilling (some f)) =>
      if frameClear (scullOf s sc) f then refillPage s sc crew g v f else again s
    | _ => s

def execPageRefillComplete (sc : ScullId) (crew : CrewId) (v : Nat) (s : State) : Result := .next (pageRefill s sc crew v)

/-! ### A core group's allocation (R20, R32, R33, R130) -/

/-- The frames a crew still needs on a scull for an allocation of n (R130). -/
def framesNeeded (s : State) (sc : ScullId) (crew : CrewId) (n : Nat) : Nat :=
  match groupOf s sc crew with
  | some g => n - g.frm
  | none => n

/-- The group's allocation grows to n pages, each new page with a frame reserved for it. -/
def growGroup (s : State) (sc : ScullId) (crew : CrewId) (cls : Cls) (n : Nat) : State :=
  let g := (groupOf s sc crew).getD { cls := cls, frm := 0, pages := [], kept := none, waiters := [], imagePoison := [], images := [] }
  let fresh := (List.range n).filter fun v => g.frm ≤ v
  let pages := fresh.foldl (fun t v => tabSet t v PageState.fresh) g.pages
  let s := setGroup s sc crew { g with frm := max g.frm n, pages := pages, kept := none }
  fresh.foldl (fun s v => match openFrames (scullOf s sc) with
    | f :: _ => promiseFrame s sc (.page crew v) f
    | [] => s) s

/-- Grants the fresh pages whose frames are there (R20, R129). -/
def grantFresh (s : State) (sc : ScullId) (crew : CrewId) : State :=
  match groupOf s sc crew with
  | none => s
  | some g => g.pages.foldl (fun s e => match e.2 with
      | .fresh => (match promisedTo (scullOf s sc) (.page crew e.1) with
        | f :: _ => if frameClear (scullOf s sc) f then pinPage s sc crew e.1 f else s
        | [] => s)
      | _ => s) s

/-- Whether a page of the group still waits for its first frame. -/
def freshLeft (s : State) (sc : ScullId) (crew : CrewId) : Bool :=
  match groupOf s sc crew with
  | some g => g.pages.any fun e => e.2 == .fresh
  | none => false

/-- Releases a group's frames on a scull (R31, R33): what waits on them finds the pages unallocated. -/
def releaseGroup (s : State) (sc : ScullId) (crew : CrewId) : State :=
  match groupOf s sc crew with
  | none => s
  | some g =>
    let frames := g.pages.filterMap fun e => match e.2 with
      | .pinned f | .unpinning f => some f
      | _ => none
    let x := scullOf s sc
    let s := setScull s sc { x with
      groups := tabDrop x.groups crew.toNat
      promised := x.promised.filter fun e => match e.2 with
        | .page c _ => c != crew
        | _ => true }
    let s := frames.foldl (fun s f =>
      let s := cancelFrameResvs s sc f
      let r := takeWordWaiters s sc f
      sendAgain (releaseFrame r.1 sc f) r.2) s
    let s := sendAgain s (g.waiters.flatMap Prod.snd)
    let q := takeSiphonWaiters s sc fun p => match p with
      | .page y c _ => y == sc && c == crew
      | _ => false
    let s := sendAgain q.1 q.2
    scullNotice (wakeReissue s fun r => match r with
      | .page y c _ => y == sc && c == crew
      | _ => false) sc

end Sys2Proof.Machine
end

