-- ==== Sys2Proof/Machine/Backing.lean ====
section
/-! DEFINITION. The rest of a crew's backing area (R288): spilled deposits (R179), images of parked contexts and engine shadows (R39, R365). What
their bytes are is not stated: the cox writes free values there, and the machine keeps what it parked (log 32). -/

namespace Sys2Proof.Machine

/-! ### Images whose layout is not stated -/

/-- Words at a virtual address by the cox, as coxStore has its beats. -/
def coxWords (s : State) (sc : ScullId) (asid : BitVec 16) (root va : Word) : List Word → Option State
  | [] => some s
  | w :: t =>
    match shellWalkTo s (shellOf sc) asid root va .store false with
    | .error _ => none
    | .ok (s, pa) => if coxMay s pa then coxWords (agentWrite s (shellNode sc) pa 8 w.toNat) sc asid root (va + 8) t else none

/-- A backing area that cannot be used faults the task (R288). DESIGN CHOICE (log 87): word 4 of its record is the failing address, words 3 and 5
are 0. -/
def backingFails (s : State) (crew : CrewId) (va : Word) : State := taskFault s crew 0x44 0 0 va 0

/-- Writes n beats of free values at an offset of the backing area. -/
def storeOpaque (s : State) (crew : CrewId) (sc : ScullId) (off n : Nat) : State :=
  match backingAt s crew sc off with
  | none => s
  | some (va, asid, root) =>
    let r := freeBeats s n
    match coxStore r.1 sc asid root va (r.2.map Prod.fst) with
    | some t => t
    | none => backingFails r.1 crew va

/-- Reads n beats there: whether one of them is poisoned. -/
def loadOpaque (s : State) (crew : CrewId) (sc : ScullId) (off n : Nat) : State × Bool :=
  match backingAt s crew sc off with
  | none => (s, false)
  | some (va, asid, root) => match coxLoad s sc asid root va n with
    | some t => (t.1, t.2.any Prod.snd)
    | none => (backingFails s crew va, false)

/-! ### Images of parked contexts (R39, R288, R365) -/

def contextImage (place : Nat) : Nat := 0x6D800 + 2048 * place
def engineImage : Nat := 0x75800

/-- The first of the sixteen images of a crew's index that is free. -/
def freeImage (s : State) (crew : CrewId) (cidx : BitVec 11) : Option Nat :=
  (List.range 16).find? fun n => (parkedOf s crew).all fun e => e.2.ctx.cidx != cidx || e.2.image != some n

/-- The cox writes a parked context's image, and those of the engines it had bound. -/
def storeImage (s : State) (p : Parked) (place : Nat) : State :=
  let s := storeOpaque s p.ctx.crew p.sc (contextImage place) 32
  if p.engines = [] then s else storeOpaque s p.ctx.crew p.sc engineImage 672

/-- An engine state whose image a poisoned line carried: everything that can be poisoned is (R331; log 32). -/
def poisonEngine (e : EngineId) (x : Engine) : Engine :=
  match e with
  | .matrix => { x with accPoison := [0, 1, 2, 3], latchPoison := true }
  | .vector => { x with widePoison := List.range 32 }
  | .copy => x

/-- And reads them back. Poison travels with the images; which registers a poisoned line holds is not stated: all of them are poisoned (R331;
log 32). -/
def loadImage (s : State) (p : Parked) : State × Parked :=
  match p.image with
  | none => (s, p)
  | some place =>
    let r := loadOpaque s p.ctx.crew p.sc (contextImage place) 32
    let p := if r.2 then { p with ctx := { p.ctx with gPoison := (List.range (8 * p.ctx.hdr.rgn)).drop 1 } } else p
    if p.engines = [] then (r.1, p)
    else
      let q := loadOpaque r.1 p.ctx.crew p.sc engineImage 672
      (q.1, if q.2 then { p with engines := p.engines.map fun e => (e.1, poisonEngine e.1 e.2) } else p)

/-! ### Spilled deposits (R179) -/

/-- Writes an entry into its crew's spill region of the scull; none where the region is full or cannot be written. -/
def spillEntry (s : State) (sc : ScullId) (e : Deposit) : State × Bool :=
  match crewOf s e.crew, memberIndex s e.crew sc with
  | some x, some i =>
    let old := tabGet [] x.spills i
    if old.length < depositUnit then
      match backingAt s e.crew sc (0x61800 + 24 * old.length) with
      | none => (s, false)
      | some (va, asid, root) =>
        let a := drawWord s
        let b := drawWord a.2
        let c := drawWord b.2
        match coxWords c.2 sc asid root va [a.1, b.1, c.1] with
        | some t =>
          let e' := { e with image := [a.1, b.1, c.1] }
          (setCrew t e.crew { (crewOf t e.crew).getD x with spills := tabSet x.spills i (old ++ [e']) }, true)
        | none => (backingFails c.2 e.crew va, false)
    else (s, false)
  | _, _ => (s, false)

/-- Spills n entries at most, oldest first, each into its own crew's region; what cannot be spilled stays, and of a crew one of whose entries
stayed no later one is tried. -/
def spillEntries (s : State) (sc : ScullId) (stuck : List CrewId) : Nat → List Deposit → List Deposit → State
  | _, [], kept => setScull s sc { scullOf s sc with deposits := kept }
  | 0, l, kept => setScull s sc { scullOf s sc with deposits := kept ++ l }
  | n + 1, e :: l, kept =>
    if stuck.contains e.crew then spillEntries s sc stuck (n + 1) l (kept ++ [e])
    else
      let r := spillEntry s sc e
      if r.2 then spillEntries r.1 sc stuck n l kept else spillEntries r.1 sc (e.crew :: stuck) (n + 1) l (kept ++ [e])

/-- DEPOSIT_SPILL (R179): one block of 64 while more than 1,536 entries are occupied; DEPs that wait retry. -/
def execDepositSpill (s : State) : Result :=
  match s.actor with
  | .scull sc =>
    let before := (scullOf s sc).deposits
    if before.length ≤ depositMark then .next s
    else
      let s := spillEntries s sc [] 64 before []
      let left := (scullOf s sc).deposits.length
      let s := wakeReissue s fun r => match r with | .deposit x => x == sc | _ => false
      .next (if depositMark < left ∧ left < before.length then postOnce s (.scull sc) .depositSpill else s)
  | _ => .next s

/-! ### BARRIER_SETTLE (R180, R198, R288) -/

/-- Beats as one number, the first lowest. -/
def joinBeats (l : List (Nat × Bool)) : Nat := l.foldr (fun e n => e.1 + 2 ^ 512 * n) 0

/-- A spilled entry as it reads back: the one that was spilled where its words are as the cox wrote them; else its value is not stated (log 32). -/
def readEntry (s : State) (all : Nat) (k : Nat) (e : Deposit) : State × Deposit :=
  let words := (List.range 3).map fun i => (BitVec.ofNat 64 (all / 2 ^ (64 * (3 * k + i))) : Word)
  if words = e.image then (s, e)
  else
    let v := drawWord s
    (v.2, { e with value := v.1 })

/-- The entries of one region as the cox reads them back; a region that cannot be read faults the task (R288). -/
def readRegion (s : State) (crew : CrewId) (sc : ScullId) (l : List Deposit) : State × List Deposit :=
  match backingAt s crew sc 0x61800 with
  | none => (s, l)
  | some (va, asid, root) =>
    let got := match coxLoad s sc asid root va ((24 * l.length + 63) / 64) with
      | some (s, beats) => (s, joinBeats beats)
      | none => (backingFails s crew va, 0)
    (l.zip (List.range l.length)).foldl (fun r e =>
      let q := readEntry r.1 got.2 e.2 e.1
      (q.1, r.2 ++ [q.2])) (got.1, [])

/-- A crew's spilled entries as the coxes of its members read them back. -/
def readSpills (s : State) (crew : CrewId) : State × List (ScullId × Deposit) :=
  match crewOf s crew with
  | none => (s, [])
  | some x => x.spills.foldl (fun r e =>
    let sc := x.members.getD e.1 0
    let q := readRegion r.1 crew sc e.2
    (q.1, r.2 ++ q.2.map fun d => (sc, d))) (s, [])

/-- BARRIER_SETTLE (R180, R198): once every destination is there, the entries are applied in order, the spilled ones read back. -/
def execBarrierSettle (crew : CrewId) (level : BarLevel) (group : Nat) (s : State) : Result :=
  match crewOf s crew with
  | none => .next s
  | some x => match barrierOf x level group with
    | none => .next s
    | some b =>
      if !b.settle || b.settled || !allArrived s crew x b then .next s
      else
        let entries := spilledDeposits s crew ++ unitDeposits s crew
        if entries.all (settleReady s) then
          let r := readSpills s crew
          let s := (sortDeposits (r.2 ++ unitDeposits s crew)).foldl settleOne r.1
          let s := discardDeposits s crew
          match crewOf s crew with
          | some y => .next (checkBarrier (setCrew s crew (setBarrier y { b with settled := true })) crew level group)
          | none => .next s
        else .next (postLater (entries.foldl settleTouch s) .none (.barrierSettle crew level group))

end Sys2Proof.Machine
end

