-- ==== Sys2Proof/Machine/Sequence.lean ====
section
/-! DEFINITION. The sequencer common to the engines (R233 to R238): elements and their addresses, what an element must wait for, the F
actions of a word that several elements share, and the writes. An element that waits has not begun; one that performs reads and
writes in one step. -/

namespace Sys2Proof.Machine

/-! ### Elements (R233) -/

/-- The loop indices of element n. -/
def elemIndex (r : Record) (n : Nat) : Nat × Nat × Nat × Nat :=
  let t0 := r.t0.toNat
  let t1 := r.t1.toNat
  let t2 := r.t2.toNat
  (n % t0, n / t0 % t1, n / t0 / t1 % t2, n / t0 / t1 / t2)

/-- o = i0*S0 + i1*S1 + i2*S2 + i3*S3, exact and signed. -/
def elemOffset (d : Descriptor) (i : Nat × Nat × Nat × Nat) : Int :=
  i.1 * d.s0.toInt + i.2.1 * d.s1.toInt + i.2.2.1 * d.s2.toInt + i.2.2.2 * d.s3.toInt

/-- place(D) + o*z: exact for SPC 00, modulo 2^64 otherwise. -/
def siteAddr (r : Record) (g : Word) (k : Nat) (o : Int) (z : Nat) : Int :=
  let a := (placeOf r g k : Int) + o * z
  if recSpc r k = 0 then a else a % 18446744073709551616

/-- addr(D, n) for elements of z bytes. -/
def elemAddr (r : Record) (g : Word) (k n z : Nat) : Int := siteAddr r g k (elemOffset (recDesc r k) (elemIndex r n)) z

/-- Elements of a record whose trip counts number them (R233). -/
def elemTotal (r : Record) : Nat := r.t0.toNat * r.t1.toNat * r.t2.toNat * r.t3.toNat

/-- The work of a command: its elements, the size of the unit that starts at one, the indices an element has still to read (each with the key
it is kept under), an element's accesses given the indices just read, the operands whose words indices choose, and which earlier elements
an element must come after. -/
structure Work where
  total : Nat
  unit : Nat → Nat
  index : Nat → List (Comp × Nat)
  comps : Nat → Tab Nat → List Comp
  indexed : Nat → Bool
  needs : Nat → Nat → Bool

def compWord (c : Comp) : Int := c.addr / 8

/-- Whether an element touches a word of an operand (R237). -/
def touchesWord (w : Work) (k : Nat) (word : Int) (n : Nat) : Bool :=
  ((w.index n).map Prod.fst ++ w.comps n []).any fun c => c.k == k && decide (compWord c = word)

/-- The elements in flight that have not completed, in sequencer order. -/
def openElems (l : List SeqUnit) : List Nat :=
  l.flatMap fun u => ((List.range u.count).map (u.first + ·)).filter fun n => !setHas u.mask n

/-! ### Reaching an access (R236, R140, R144, R147, R356) -/

/-- Where an access of an element lands. -/
inductive Reach where
  | spad (sc : ScullId) (b : Nat)
  | mem (pa : Nat)
  | skip
  deriving DecidableEq, Repr

/-- Why an element cannot perform now: it waits; it waits for an index, without which its address is not known; it faults, fails its capability,
or its translation faulted. -/
inductive Snag where
  | stall
  | hold
  | fault (aux : BitVec 8) (addr : Word)
  | freeze (addr : Word) (kind : AccessKind) (need : Rights)
  | drop (addr : Word) (kind : AccessKind) (level : Nat) (why : WalkWhy)
  deriving DecidableEq, Repr

def addrWord (a : Int) : Word := BitVec.ofInt 64 a

/-- A scratchpad byte of a crew's page on a scull: a page not pinned starts its refill and stalls (R134); another scull that is
fenced gives poison (R305). -/
def reachPage (s : State) (own x : ScullId) (crew : CrewId) (o : Nat) (e : Word) : State × Except Snag Reach :=
  match pageState s x crew (o / frameBytes) with
  | some (.pinned f) =>
    if (scullOf s x).fenced ∧ x ≠ own then (s, .error (.fault 0x04 e)) else (s, .ok (.spad x (f * frameBytes + o % frameBytes)))
  | some _ => (touchPage s x crew (o / frameBytes), .error .stall)
  | none => (s, .error (.fault 0x02 e))

/-- Whether a copy engine may reach a physical address: capacity, or the register range from the column through its windows (R356, R380,
R392), where only queue windows take a beat and apertures are judged by R386. -/
def engineMay (s : State) (sc : ScullId) (pa n : Nat) (need : Rights) : Bool :=
  if isAperture pa then need.w
  else if inRegisters pa then
    inColumn s sc && need.w && windowGrants s pa n need && regBase + 0x100000 ≤ pa && pa < regBase + 0x140000
  else inCapacity s pa && (!inColumn s sc || windowGrants s pa n need)

/-- A global access of an element: form, capability, translation, capacity (R236, R252, R144, R356). -/
def reachGlobal (s : State) (sc : ScullId) (c : Ctx) (cmd : Command) (a e : Word) (n : Nat) (write : Bool) :
    State × Except Snag Reach :=
  let kind : AccessKind := if write then .store else .load
  let need := if write then rightsWrite else rightsRead
  if !canonical a then (s, .error (.fault 0x02 e))
  else if !capsGrant cmd.caps c.asid need a.toNat n then (s, .error (.freeze a kind need))
  else match shellWalkTo s (shellOf sc) c.asid c.ptroot a kind (!c.prv) with
    | .error (l, why) => if cmd.record.op.toNat = 0x0207 then (s, .ok .skip) else (s, .error (.drop a kind l why))
    | .ok (s, pa) =>
      if !engineMay s sc pa n need then (s, .error (.fault 0x02 e))
      else (if write || inRegisters pa || cmd.record.op == 0x0207 then s else fetchRange s (shellNode sc) pa n, .ok (.mem pa))

/-- Reaches one access of a command; a fault names the address of its element (R232). -/
def reachComp (s : State) (sc : ScullId) (c : Ctx) (cmd : Command) (x : Comp) : State × Except Snag Reach :=
  let a := addrWord x.addr
  let e := addrWord x.base
  if recSpc cmd.record x.k = 0 ∨ recSpc cmd.record x.k = 3 then
    if x.addr < 0 ∨ (spadBytes : Int) < x.addr + x.size then (s, .error (.fault 0x02 e))
    else reachPage s sc sc c.crew x.addr.toNat e
  else if recSpc cmd.record x.k = 2 then
    let i : BitVec 11 := a.extractLsb' 40 11
    let o := a.toNat % 2 ^ 40
    if a.extractLsb' 51 13 ≠ (0 : BitVec 13) ∨ c.csz.toNat < i.toNat ∨ spadBytes < o + x.size then (s, .error (.fault 0x02 e))
    else reachPage s sc (memberOf s c.crew sc i.toNat) c.crew o e
  else reachGlobal s sc c cmd a e x.size x.write

/-! ### Full and empty (R237) and poison (R332) -/

/-- Whether the F bit lets an access proceed: a destination word is waited on only before the first element of the command writes it; written
says whether one has. -/
def fReady (s : State) (r : Record) (x : Comp) (at_ : Reach) (written : Bool) : Bool :=
  match at_ with
  | .spad sc b =>
    let full := fullBit (scullOf s sc) (b / 8)
    if x.write then recFe r x.k != 1 || r.op.toNat == 0x0203 || r.op.toNat == 0x0204 || !full || written
    else recFe r x.k == 0 || full
  | _ => true

def reachPoisoned (s : State) (at_ : Reach) : Bool :=
  match at_ with
  | .spad sc b => wordPoison (scullOf s sc) (b / 8)
  | .mem pa => !inRegisters pa && globalPoison s pa
  | .skip => false

/-! ### Reads and writes -/

/-- The bytes of an access of an engine of scull x; the copy engine reaches global memory through its shell L2, and so after the stores its
shell has accepted (R159, R339). -/
def readReach (s : State) (x : ScullId) (at_ : Reach) (n : Nat) : Nat :=
  match at_ with
  | .spad sc b => memReadNat (scullOf s sc).data b n
  | .mem pa => agentRead s (shellNode x) pa n
  | .skip => 0

def writeReach (s : State) (x : ScullId) (at_ : Reach) (n v : Nat) : State :=
  match at_ with
  | .spad sc b => setScull s sc (spadWrite (scullOf s sc) b n (BitVec.ofNat 64 v))
  | .mem pa => agentWrite s (shellNode x) pa n v
  | .skip => s

/-! ### What an element waits for (R160, R234, R237) -/

/-- An element that can perform: the indices it reads, with their keys, and its accesses. -/
structure Ready where
  n : Nat
  index : List ((Comp × Nat) × Reach)
  parts : List (Comp × Reach)
  deriving DecidableEq, Repr

/-- Accesses reached in order. Every one is checked, though an earlier one must wait: a capability or an address fails at the element's issue
(R160). Where several fail, the first is reported: sources come before destinations (log 70). -/
def reachAll (s : State) (sc : ScullId) (c : Ctx) (cmd : Command) :
    List Comp → List (Comp × Reach) → Bool → State × Except Snag (List (Comp × Reach) × Bool)
  | [], got, stalled => (s, .ok (got, stalled))
  | x :: t, got, stalled =>
    match reachComp s sc c cmd x with
    | (s, .error .stall) => reachAll s sc c cmd t got true
    | (s, .error g) => (s, .error g)
    | (s, .ok at_) => reachAll s sc c cmd t (got ++ [(x, at_)]) stalled

/-- The indices among an element's accesses, as they read now. -/
def indexValues (s : State) (sc : ScullId) (keys : List Nat) (l : List (Comp × Reach)) : Tab Nat :=
  (keys.zip l).foldl (fun t e => tabSet t e.1 (readReach s sc e.2.2 e.2.1.size)) []

/-- The first poisoned source. -/
def poisonedPart (s : State) (l : List (Comp × Reach)) : Option Comp :=
  (l.find? fun e => !e.1.write && reachPoisoned s e.2).map Prod.fst

/-- Whether the F bits let every access proceed. -/
def partsReady (s : State) (r : Record) (written : Nat → Int → Bool) (l : List (Comp × Reach)) : Bool :=
  l.all fun e => fReady s r e.1 e.2 (written e.1.k (compWord e.1))

/-- An element with everything it waits for: its indices first, then its accesses. A poisoned source is consumed once nothing else is
awaited. -/
def reachElem (s : State) (sc : ScullId) (c : Ctx) (cmd : Command) (w : Work) (written : Nat → Int → Bool) (n : Nat) :
    State × Except Snag Ready :=
  let ix := w.index n
  match reachAll s sc c cmd (ix.map Prod.fst) [] false with
  | (s, .error g) => (s, .error g)
  | (s, .ok (found, stalled)) =>
    if stalled || !partsReady s cmd.record written found then (s, .error (if ix = [] then .stall else .hold))
    else match poisonedPart s found with
      | some x => (s, .error (.fault 0x04 (addrWord x.base)))
      | none =>
        match reachAll s sc c cmd (w.comps n (indexValues s sc (ix.map Prod.snd) found)) [] false with
        | (s, .error g) => (s, .error g)
        | (s, .ok (parts, stalled)) =>
          if stalled || !partsReady s cmd.record written parts then (s, .error .stall)
          else match poisonedPart s parts with
            | some x => (s, .error (.fault 0x04 (addrWord x.base)))
            | none => (s, .ok { n := n, index := (ix.zip found).map fun e => (e.1, e.2.2), parts := parts })

/-- The elements in flight that can perform now, in sequencer order, those that wait, and what stops the command. -/
structure Prep where
  s : State
  ready : List Ready
  stalled : List Nat
  snag : Option Snag

/-- Looks at elements in sequencer order. One that waits holds back only those that need it; one whose address waits for its index has not been
checked, so none after it is issued (R160). A failure stops the scan: a capability's acts at once, though earlier elements go on (R160), the
others once no earlier element waits. -/
def prepare (s : State) (sc : ScullId) (c : Ctx) (cmd : Command) (w : Work) (written : Nat → Int → Bool) :
    List Nat → List Ready → List Nat → Prep
  | [], ready, stalled => { s := s, ready := ready, stalled := stalled, snag := if stalled = [] then none else some .stall }
  | n :: t, ready, stalled =>
    if stalled.any (w.needs n) then prepare s sc c cmd w written t ready (stalled ++ [n])
    else
      let also := fun (k : Nat) (word : Int) =>
        written k word || ready.any fun r => r.parts.any fun e => e.1.k == k && decide (compWord e.1 = word)
      match reachElem s sc c cmd w also n with
      | (s, .ok r) => prepare s sc c cmd w written t (ready ++ [r]) stalled
      | (s, .error .stall) => prepare s sc c cmd w written t ready (stalled ++ [n])
      | (s, .error .hold) => { s := s, ready := ready, stalled := stalled ++ [n], snag := some .stall }
      | (s, .error (.freeze a kind need)) => { s := s, ready := ready, stalled := stalled, snag := some (.freeze a kind need) }
      | (s, .error g) => { s := s, ready := ready, stalled := stalled, snag := some (if stalled = [] then g else .stall) }

/-! ### What an element's end changes (R237, R238) -/

/-- Sets F bits of words and serves their waiters (R165, R259). -/
def setFs (s : State) (v : Bool) (l : List (ScullId × Nat)) : State :=
  l.foldl (fun s e =>
    let x := scullOf s e.1
    if fullBit x e.2 = v then s else serveFull (setScull s e.1 (setFullBit x e.2 v)) e.1 e.2) s

/-- Whether two accesses of a command's elements share a byte. -/
def sameCompBytes (r : Record) (x y : Comp) : Bool :=
  recSpc r x.k == recSpc r y.k && decide (x.addr < y.addr + y.size) && decide (y.addr < x.addr + x.size)

/-- Bytes that a later element has written keep its value (R238): such a write of an earlier element leaves no trace. -/
def dropOverwritten (r : Record) (w : Work) (later : List Nat) (e : Ready) : Ready :=
  { e with
    parts := e.parts.map fun p =>
      if p.1.write && later.any (fun m => decide (e.n < m) && (w.comps m []).any fun y => y.write && sameCompBytes r p.1 y) then (p.1, .skip)
      else p }

/-- Keeps the indices that performing elements have read (R237). -/
def keepIndices (x : Engine) (s : State) (sc : ScullId) (l : List Ready) : Engine :=
  { x with
    prog := { x.prog with
      sources := l.foldl (fun t e => e.index.foldl (fun t q => tabSet t q.1.2 (readReach s sc q.2 q.1.1.size)) t) x.prog.sources } }

/-- Whether an element that has not completed reads or writes a word of an operand, as far as its indices are known. -/
def wordWanted (w : Work) (left : List Nat) (k : Nat) (word : Int) : Bool :=
  left.any fun n => (w.indexed k && w.index n != []) || touchesWord w k word n

/-- The F action of an access's word: a source with FE 10 empties it, a destination fills it (R59, R237), but for CCLR, which leaves its words
empty (R250). -/
def fAction (s : State) (r : Record) (x : Comp) (at_ : Reach) : State :=
  match at_ with
  | .spad sc b =>
    if x.write then (if r.op = 0x0203 then s else setFs s true [(sc, b / 8)])
    else if recFe r x.k = 2 then setFs s false [(sc, b / 8)] else s
  | _ => s

/-- Whether two accesses are of one word of one operand. -/
def sameWord (x y : Comp) : Bool := x.k == y.k && decide (compWord x = compWord y)

/-- One access for each word of an operand: its F action happens once (R237). -/
def oncePerWord (l : List (Comp × Reach)) : List (Comp × Reach) :=
  l.foldl (fun got p => if got.any fun q => sameWord q.1 p.1 then got else got ++ [p]) []

/-- The F events of performed elements: each word's once, when no element that touches it is left; what must wait is owed. Sources are emptied
before destinations are filled. -/
def fEvents (s : State) (sc : ScullId) (e : EngineId) (r : Record) (w : Work) (left : List Nat) (done : List Ready) : State :=
  let all := done.flatMap fun d => (d.index.map fun q => (q.1.1, q.2)) ++ d.parts
  let order := oncePerWord (all.filter (fun p => !p.1.write) ++ all.filter (fun p => p.1.write))
  let settle := fun (s : State) (p : Comp × Reach) => if wordWanted w left p.1.k (compWord p.1) then s else fAction s r p.1 p.2
  let s := order.foldl settle s
  let x := engineOf s sc e
  let kept := x.prog.owed.filter fun y => !order.any fun p => sameWord p.1 y
  let owed := (order.filter fun p => w.indexed p.1.k && wordWanted w left p.1.k (compWord p.1)).map Prod.fst
  setEngine s sc e { x with prog := { x.prog with owed := kept ++ owed } }

/-- The F actions owed to words that no element is left to touch; a word whose page is away is waited for. -/
def payOwed (s : State) (sc : ScullId) (e : EngineId) (c : Ctx) (cmd : Command) (w : Work) (left : List Nat) : State :=
  (engineOf s sc e).prog.owed.foldl (fun s x =>
    if wordWanted w left x.k (compWord x) then s
    else match reachComp s sc c cmd x with
      | (s, .error .stall) => s
      | (s, r) =>
        let y := engineOf s sc e
        let s := setEngine s sc e { y with prog := { y.prog with owed := y.prog.owed.erase x } }
        match r with
        | .ok at_ => fAction s cmd.record x at_
        | .error _ => s) s

/-! ### Progress of a command -/

/-- The command running on an engine. -/
def running (x : Engine) : Option Command := if x.started then x.queue.head? else none

/-- Records the flags of performed elements (R232, R240). -/
def addFlags (x : Engine) (f : BitVec 5) : Engine :=
  { x with flags := x.flags ||| f, prog := { x.prog with flags := x.prog.flags ||| f } }

/-- Counts illegal ternary bytes of element n (R208, R248, R272): the address of the first in sequencer order is kept for the trap (R232). -/
def addBad (x : Engine) (n : Nat) (l : List Word) : Engine :=
  match l with
  | [] => x
  | a :: _ =>
    let first := match x.prog.badAt with
      | some (m, b) => if m ≤ n then (m, b) else (n, a)
      | none => (n, a)
    { x with
      bad := true
      badcnt := BitVec.ofNat 16 (min (x.badcnt.toNat + l.length) 0xFFFF)
      prog := { x.prog with badAt := some first } }

/-- The units in flight after elements have completed. -/
def markDone (l : List SeqUnit) (done : List Nat) : List SeqUnit :=
  (l.map fun u => { u with mask := (done.filter fun n => decide (u.first ≤ n ∧ n < u.first + u.count)).foldl setAdd u.mask }).filter fun u =>
    decide (u.mask.length < u.count)

/-- Elements that have not completed: those in flight and those not issued. -/
def leftElems (x : Engine) (w : Work) : List Nat :=
  openElems x.prog.inflight ++ (List.range (w.total - x.prog.next)).map (x.prog.next + ·)

/-- Elements leave their units; what remains of the work is posted. -/
def advance (s : State) (sc : ScullId) (e : EngineId) (w : Work) (op : Instr) (done : List Nat) : State :=
  let x := engineOf s sc e
  let rest := markDone x.prog.inflight done
  let s := setEngine s sc e { x with prog := { x.prog with inflight := rest } }
  let s := if x.prog.next < w.total ∧ rest.length < 4 then postOnce s (.engine sc e) .sequencerUnitIssue else s
  if rest ≠ [] ∨ x.prog.owed ≠ [] then postOnce s (.engine sc e) op
  else if x.prog.next < w.total then s
  else postOnce s (.engine sc e) .commandComplete

/-- Freezes the copy engine at an element (R160, R325): its record, the supervisor's message, the task's fault. -/
def freezeCopy (s : State) (sc : ScullId) (c : Ctx) (slot : Slot) (cmd : Command) (addr : Word) (kind : AccessKind) (need : Rights) :
    State :=
  let x := engineOf s sc .copy
  let m := Master.engine sc .copy
  let s := setEngine s sc .copy { x with frz := true }
  let s := sendRecord s 0x02 (kindCode kind) c.asid m addr cmd.addr (need.bits.setWidth 64) (whoWord c.crew c.cidx slot)
  let s := postLater s .none (.supervisorFreezeMessage c.crew true slot sc)
  taskFault s c.crew 0x40 0 (masterWord m) addr addr

/-- What a snag does: the engine faults or stalls with a record sent, once every earlier element has performed (R144, R232), or freezes, once for
a failing element (R160); a stall alone waits. DESIGN CHOICE (log 83): an element that waits on a word's F bit stands in no queue of R165 and is
tried again after a delay. -/
def reactSnag (s : State) (sc : ScullId) (e : EngineId) (c : Ctx) (slot : Slot) (cmd : Command) (again : Instr) (g : Snag) : State :=
  match g with
  | .stall | .hold => postOnce s (.engine sc e) again
  | .fault aux a => stopEngine s sc e aux a
  | .freeze a kind need =>
    postOnce (if (engineOf s sc e).frz then s else freezeCopy s sc c slot cmd a kind need) (.engine sc e) again
  | .drop a kind l why =>
    let x := engineOf s sc e
    let seq := s.fs.nextSeq
    let s := sendRecord s 0x01 (kindCode kind) c.asid (.engine sc e) a cmd.addr (walkDetail l why) (whoWord c.crew c.cidx slot)
    setEngine s sc e { x with dropped := some (seq, a) }

end Sys2Proof.Machine
end

