-- ==== Sys2Proof/Machine/Transcend.lean ====
section
/-! DEFINITION. The transcendental operations of R244 and the twiddle ROM of R247. A function is computed in fixed point far beyond FP32,
which settles the two FP32 neighbours of an inexact value; which of them the part delivers is a free value (Config.upperNeighbour). -/

namespace Sys2Proof.Machine

/-- Fraction bits of the fixed-point work, and one. -/
def fixBits : Nat := 200
def fixOne : Nat := 2 ^ 200

/-- ⌊π × 2^400⌋ and ⌊ln 2 × 2^260⌋. -/
def piFix : Nat := 0x3243f6a8885a308d313198a2e03707344a4093822299f31d0082efa98ec4e6c89452821e638d01377be5466cf34e90c6cc0ac
def ln2Fix : Nat := 0xb17217f7d1cf79abc9e3b39803f2f6af40f343267298b62d8a0d175b8baafa2be
def ln2At : Nat := ln2Fix / 2 ^ 60

/-- The sum of x^i/i! from a term on. -/
def expSeries (x : Nat) : Nat → Nat → Nat → Nat
  | 0, _, _ => 0
  | n + 1, i, term => term + expSeries x n (i + 1) (term * x / fixOne / (i + 1))

/-- The alternating and the plain sums of x^(i+2j)/(i+2j)! from a term on: sine and cosine, sinh and cosh. -/
def trigSeries (x2 : Nat) : Nat → Nat → Nat → Int
  | 0, _, _ => 0
  | n + 1, i, term => (term : Int) - trigSeries x2 n (i + 2) (term * x2 / fixOne / ((i + 1) * (i + 2)))
def hypSeries (x2 : Nat) : Nat → Nat → Nat → Nat
  | 0, _, _ => 0
  | n + 1, i, term => term + hypSeries x2 n (i + 2) (term * x2 / fixOne / ((i + 1) * (i + 2)))

/-- The sum of z^(i+2j)/(i+2j) from a term on. -/
def atanhSeries (z2 : Nat) : Nat → Nat → Nat → Nat
  | 0, _, _ => 0
  | n + 1, i, term => term / i + atanhSeries z2 n (i + 2) (term * z2 / fixOne)

def fixSquare (x : Nat) : Nat := x * x / fixOne
def fixExp (x : Nat) : Nat := expSeries x 64 0 fixOne
def fixSin (x : Nat) : Nat := (trigSeries (fixSquare x) 40 1 x).toNat
def fixCos (x : Nat) : Nat := (trigSeries (fixSquare x) 40 0 fixOne).toNat

/-- man × 2^exp in fixed point, exact for what FP32 holds. -/
def toFix (man : Nat) (exp : Int) : Nat := man * 2 ^ (exp + fixBits).toNat

/-- A magnitude man × 2^exp, or where sticky something above it and below the next. -/
structure Near where
  neg : Bool
  man : Nat
  exp : Int
  sticky : Bool
  deriving DecidableEq, Repr

/-- A function's value: one that R244's table or exact arithmetic gives, or a magnitude. -/
inductive TOut where
  | exact_ (o : FOut)
  | near (n : Near)
  deriving DecidableEq, Repr

def nearFix (neg : Bool) (x : Nat) (shift : Int) : TOut := .near { neg := neg, man := x, exp := shift - fixBits, sticky := true }
/-- A value just below x. -/
def below (neg : Bool) (x : Nat) (shift : Int) : TOut :=
  .near { neg := neg, man := x * 65536 - 1, exp := shift - fixBits - 16, sticky := true }
def tOne : TOut := .exact_ (exactly (.fin false 1 0))

/-- e^(±x) with x in fixed point: 2^n times a number of [1, 2), as that number and n. -/
def expParts (neg : Bool) (x : Nat) : Nat × Int :=
  let n := x / ln2At
  let r := x % ln2At
  if neg then
    if r = 0 then (fixExp 0, -(n : Int)) else (fixExp (ln2At - r), -(n : Int) - 1)
  else (fixExp r, n)

/-- e^v for a nonzero finite v = (−1)^neg × man × 2^exp. -/
def expNear (neg : Bool) (man : Nat) (exp : Int) : TOut :=
  if exp + bitLen man > 8 then .near { neg := false, man := 1, exp := if neg then -300 else 300, sticky := true }
  else
    let p := expParts neg (toFix man exp)
    if neg ∧ p.2 = -1 ∧ p.1 ≥ 2 * fixOne - 1 then below false fixOne 0 else nearFix false p.1 p.2

/-- 2^v. -/
def exp2Near (neg : Bool) (man : Nat) (exp : Int) : TOut :=
  if exp + bitLen man > 10 then .near { neg := false, man := 1, exp := if neg then -1200 else 1200, sticky := false }
  else
    let x := toFix man exp
    let n := x / fixOne
    let f := x % fixOne
    if f = 0 then .near { neg := false, man := 1, exp := if neg then -(n : Int) else n, sticky := false }
    else
      let r := (if neg then fixOne - f else f) * ln2At / fixOne
      let y := fixExp r
      if neg ∧ n = 0 ∧ y ≥ 2 * fixOne - 1 then below false fixOne 0
      else nearFix false y (if neg then -(n : Int) - 1 else n)

/-- ln of a positive value in fixed point, signed. -/
def lnFix (man : Nat) (exp : Int) : Int :=
  let l := bitLen man
  let y := man * fixOne / 2 ^ (l - 1)
  let (y, e) : Nat × Int := if 2 * y ≥ 3 * fixOne then (y / 2, exp + l) else (y, exp + l - 1)
  let up := y ≥ fixOne
  let d := if up then y - fixOne else fixOne - y
  let z := d * fixOne / (y + fixOne)
  let a := 2 * atanhSeries (fixSquare z) 64 1 z
  e * ln2At + (if up then (a : Int) else -(a : Int))

def lnNear (man : Nat) (exp : Int) : TOut :=
  let v := lnFix man exp
  if v = 0 then .exact_ (exactly (.fin false 0 0)) else nearFix (v < 0) v.natAbs 0

/-- A power of two: its exponent. -/
def powerOfTwo (man : Nat) (exp : Int) : Option Int := if man = 2 ^ (bitLen man - 1) then some (exp + bitLen man - 1) else none

def log2Near (man : Nat) (exp : Int) : TOut :=
  match powerOfTwo man exp with
  | some n => .exact_ (exactly (intVal n))
  | none => let v := lnFix man exp; nearFix (v < 0) (v.natAbs * fixOne / ln2At) 0

/-- A magnitude reduced modulo π/2: the quadrant and the rest, exact reduction with 400 bits of π. -/
def reduceAngle (man : Nat) (exp : Int) : Nat × Nat :=
  let a := man * 2 ^ (exp + 400).toNat
  let half := piFix / 2
  (a / half % 4, a % half / 2 ^ 200)

/-- sin x below x, and cos x below 1. -/
def sinNear (neg : Bool) (r : Nat) : TOut :=
  let y := fixSin r
  if y ≥ r then below neg r 0 else nearFix neg y 0
def cosNear (neg : Bool) (r : Nat) : TOut :=
  let y := fixCos r
  if y ≥ fixOne then below neg fixOne 0 else nearFix neg y 0

def sinOf (neg : Bool) (man : Nat) (exp : Int) : TOut :=
  let q := reduceAngle man exp
  match q.1 with
  | 0 => sinNear neg q.2 | 1 => cosNear neg q.2 | 2 => sinNear (!neg) q.2 | _ => cosNear (!neg) q.2
def cosOf (man : Nat) (exp : Int) : TOut :=
  let q := reduceAngle man exp
  match q.1 with
  | 0 => cosNear false q.2 | 1 => sinNear true q.2 | 2 => cosNear true q.2 | _ => sinNear false q.2

def tanhNear (neg : Bool) (man : Nat) (exp : Int) : TOut :=
  if exp + bitLen man > 7 then below neg fixOne 0
  else
    let x := toFix man exp
    if x ≤ fixOne then
      let x2 := fixSquare x
      let y := hypSeries x2 40 1 x * fixOne / hypSeries x2 40 0 fixOne
      if y ≥ x then below neg x 0 else nearFix neg y 0
    else
      let p := expParts true (2 * x)
      let t := p.1 / 2 ^ p.2.natAbs
      let y := (fixOne - t) * fixOne / (fixOne + t)
      if y ≥ fixOne then below neg fixOne 0 else nearFix neg y 0

def rsqrtNear (man : Nat) (exp : Int) : TOut :=
  let (m, e) : Nat × Int := if exp % 2 = 0 then (man, exp) else (2 * man, exp - 1)
  let r := isqrt (2 ^ 240 / m)
  .near { neg := false, man := r, exp := -(e / 2) - 120, sticky := r * r * m ≠ 2 ^ 240 }

def sigmNear (neg : Bool) (man : Nat) (exp : Int) : TOut :=
  if exp + bitLen man > 8 then
    if neg then .near { neg := false, man := 1, exp := -300, sticky := true } else below false fixOne 0
  else
    let p := expParts true (toFix man exp)
    let t := p.1 / 2 ^ p.2.natAbs
    if neg then nearFix false (p.1 * fixOne / (fixOne + t)) p.2
    else
      let y := fixOne * fixOne / (fixOne + t)
      if y ≥ fixOne then below false fixOne 0 else nearFix false y 0

/-! ### The functions with their special values (R244) -/

def tNan (nv : Bool) : TOut := .exact_ (nanOut nv)
def tInf (neg : Bool) (f : BitVec 5) : TOut := .exact_ { v := .inf neg, sticky := false, flags := f }
def tZero (neg : Bool) : TOut := .exact_ (exactly (.fin neg 0 0))

def tExp : FVal → TOut
  | .nan s => tNan s | .inf n => if n then tZero false else tInf false 0
  | .fin n m e => if m = 0 then tOne else expNear n m e
def tExp2 : FVal → TOut
  | .nan s => tNan s | .inf n => if n then tZero false else tInf false 0
  | .fin n m e => if m = 0 then tOne else exp2Near n m e
def tLogBy (f : Nat → Int → TOut) : FVal → TOut
  | .nan s => tNan s | .inf n => if n then tNan true else tInf false 0
  | .fin n m e => if m = 0 then tInf true flagDZ else if n then tNan true else f m e
def tSin : FVal → TOut
  | .nan s => tNan s | .inf _ => tNan true
  | .fin n m e => if m = 0 then tZero n else sinOf n m e
def tCos : FVal → TOut
  | .nan s => tNan s | .inf _ => tNan true
  | .fin _ m e => if m = 0 then tOne else cosOf m e
def tTanh : FVal → TOut
  | .nan s => tNan s | .inf n => .exact_ (exactly (.fin n 1 0))
  | .fin n m e => if m = 0 then tZero n else tanhNear n m e
def tRsqrt : FVal → TOut
  | .nan s => tNan s | .inf n => if n then tNan true else tZero false
  | .fin n m e => if m = 0 then tInf n flagDZ else if n then tNan true else rsqrtNear m e
def tSigm : FVal → TOut
  | .nan s => tNan s | .inf n => if n then tZero false else tOne
  | .fin n m e => if m = 0 then .exact_ (exactly (.fin false 1 (-1))) else sigmNear n m e

/-! ### Delivery (R244) -/

/-- The FP32 result: the value where FP32 holds it, else the neighbour Config.upperNeighbour names, with R210's flags. From 2^128 on both
neighbours overflow, and R209's entry for RNE is the result. -/
def deliver32 (op : BitVec 16) (operand : Nat) (sat : Bool) (t : TOut) : Nat × BitVec 5 :=
  match t with
  | .exact_ o => fp32.deliver .rne sat o
  | .near n =>
    let up := Config.upperNeighbour op (BitVec.ofNat 32 operand)
    let mode : Rounding := if 128 < n.exp + bitLen n.man then .rne else if up then .rup else .rdn
    fp32.roundFin mode sat n.neg n.man n.exp n.sticky

/-- Whether a value rounded to a format is tiny (R210). -/
def isTiny (f : FpFmt) (rm : Rounding) (v : FVal) : Bool :=
  match v with
  | .fin n m e => f.tiny rm n m e false
  | _ => false

/-- A transcendental element: FP16 and BF16 go through FP32 and are rounded twice. DESIGN CHOICE (log 85): the flags of both roundings count, UF of
the FP32 step too where the second rounding leaves the tiny range, which R210 and R244 leave open. -/
def transcend (op : BitVec 16) (f : FpFmt) (rm : Rounding) (sat : Bool) (t : FVal → TOut) (bits : Nat) : Nat × BitVec 5 :=
  if f = fp32 then deliver32 op bits sat (t (fp32.read bits))
  else
    let wide := (fp32.deliver .rne false (exactly (f.read bits))).1
    let y := deliver32 op wide sat (t (f.read bits))
    let z := f.deliver rm sat (exactly (fp32.read y.1))
    let low := if y.2 &&& flagNX ≠ 0 ∧ isTiny f rm (fp32.read y.1) then flagUF else 0
    (z.1, y.2 ||| z.2 ||| low)

/-! ### The twiddle ROM (R247) -/

/-- cos and sin of 2πj/65,536 for j up to 16,384, as values rounded to FP32. -/
def romValue (cosine : Bool) (neg : Bool) (j : Nat) : Nat :=
  let r := piFix * j / 2 ^ 15 / 2 ^ 200
  let zero := if cosine then j = 16384 else j = 0
  let one := if cosine then j = 0 else j = 16384
  if zero then 0
  else if one then (fp32.deliver .rne false (exactly (.fin neg 1 0))).1
  else (fp32.roundFin .rne false neg (if cosine then fixCos r else fixSin r) (-(fixBits : Int)) true).1

/-- w(k) of the 65,536-entry ROM: real part cos, imaginary part −sin, an exact zero as +0. -/
def twiddle (k : Nat) : Nat × Nat :=
  let j := k % 16384
  match k / 16384 % 4 with
  | 0 => (romValue true false j, romValue false true j)
  | 1 => (romValue false true j, romValue true true j)
  | 2 => (romValue true true j, romValue false false j)
  | _ => (romValue false false j, romValue true false j)

end Sys2Proof.Machine
end

