-- ==== Sys2Proof/Machine/Vector.lean ====
section
/-! DEFINITION. The step of an engine's operation on its oldest unit in flight, and the vector operations (R239 to R249): each names what
one element computes. -/

namespace Sys2Proof.Machine

/-! ### One unit of an engine (R234, R237) -/

/-- What an element computes: from the engine, its number and the sources it read, the engine after it and the values it writes. -/
abbrev Effect := Engine → Nat → List Nat → Engine × List Nat

/-- Writes values to an element's destinations in order. -/
def writeAll (sc : ScullId) : State → List (Comp × Reach) → List Nat → State
  | s, (x, at_) :: t, v :: l => writeAll sc (writeReach s sc at_ x.size v) t l
  | s, _, _ => s

/-- Performs elements one after another, in sequencer order. -/
def performList (sc : ScullId) (e : EngineId) (f : Effect) : State → List Ready → State
  | s, [] => s
  | s, d :: t =>
    let sources := (d.parts.filter fun p => !p.1.write).map fun p => readReach s sc p.2 p.1.size
    let r := f (engineOf s sc e) d.n sources
    performList sc e f (writeAll sc (setEngine s sc e r.1) (d.parts.filter fun p => p.1.write) r.2) t

/-- The binder and command of an operation that its engine may take a step of now. What a frozen copy engine had issued before the failing
element still performs (R160). -/
def engineHead (s : State) (e : EngineId) (op : Instr) : Option (ScullId × Slot × Command) :=
  match s.actor with
  | .engine sc e' =>
    let x := engineOf s sc e
    match x.bound, running x with
    | some slot, some cmd =>
      if e' ≠ e ∨ recordInstr cmd.record ≠ some op ∨ x.dropped.isSome ∨ (x.prog.inflight = [] ∧ x.prog.owed = []) then none
      else some (sc, slot, cmd)
    | _, _ => none
  | _ => none

/-- Whether a completed element of the command has written a word of an operand. -/
def wordWritten (x : Engine) (w : Work) (k : Nat) (word : Int) : Bool :=
  let open_ := openElems x.prog.inflight
  (List.range x.prog.next).any fun n => !open_.contains n && touchesWord w k word n

/-- The elements in flight of an engine's command that can perform now. -/
def prepareFlight (s : State) (sc : ScullId) (e : EngineId) (c : Ctx) (cmd : Command) (w : Work) : Prep :=
  let x := engineOf s sc e
  prepare s sc c cmd w (wordWritten x w) (openElems x.prog.inflight) [] []

/-- After elements have performed: their units advance and their F events follow, with what was owed; w is the work with their indices known. -/
def afterElements (s : State) (sc : ScullId) (e : EngineId) (op : Instr) (c : Ctx) (cmd : Command) (w : Work) (done : List Ready) : State :=
  let s := advance s sc e w op (done.map (·.n))
  let left := leftElems (engineOf s sc e) w
  let s := payOwed (fEvents s sc e cmd.record w left done) sc e c cmd w left
  let x := engineOf s sc e
  if x.prog.owed ≠ [] then postOnce s (.engine sc e) op
  else if left = [] then postOnce s (.engine sc e) .commandComplete
  else s

/-- Acts on what stops a command; a step that stopped with nothing left to wait for leaves it be. -/
def afterSnag (s : State) (sc : ScullId) (e : EngineId) (c : Ctx) (slot : Slot) (cmd : Command) (op : Instr) (g : Option Snag) : State :=
  match g with
  | none => s
  | some g => reactSnag s sc e c slot cmd op g

/-- Elements that have completed ahead of an earlier one, those of whole units among them. -/
def aheadElems (x : Engine) : List Nat :=
  match openElems x.prog.inflight with
  | [] => []
  | n :: t => ((List.range (x.prog.next - n)).map (n + ·)).filter fun m => !(n :: t).contains m

/-- The step of an operation: every element in flight that has met its waits performs (R234, R237), F events follow, and what stops the
command acts. -/
def engineStep (e : EngineId) (op : Instr) (work : Engine → Command → Work) (f : Command → Effect) (s : State) : State :=
  match engineHead s e op with
  | none => s
  | some (sc, slot, cmd) =>
    let c := ctxOf s sc slot
    let x := engineOf s sc e
    let w := work x cmd
    let p := prepareFlight s sc e c cmd w
    let s := setEngine p.s sc e (keepIndices (engineOf p.s sc e) p.s sc p.ready)
    let s := performList sc e (f cmd) s (p.ready.map (dropOverwritten cmd.record w (aheadElems x)))
    let s := afterElements s sc e op c cmd (work (engineOf s sc e) cmd) p.ready
    afterSnag s sc e c slot cmd op p.snag

/-! ### The work of a vector record (R234, R241 to R249) -/

/-- A slice ends with i0 (R234). -/
def sliceUnit (r : Record) (most n : Nat) : Nat := min most (r.t0.toNat - n % r.t0.toNat)

def isReduction (op : Nat) : Bool := 0x0038 ≤ op && op ≤ 0x003D
def isComplex (op : Nat) : Bool := 0x0040 ≤ op && op ≤ 0x0042
def isSlow (op : Nat) : Bool :=
  op == 0x0004 || op == 0x000A || op == 0x000B || (0x0028 ≤ op && op ≤ 0x0030) || op == 0x0041 || op == 0x0042
/-- One source, D1 (R241, R243, R244). -/
def isUnary (op : Nat) : Bool :=
  op == 0x0008 || op == 0x0009 || op == 0x000A || op == 0x000B || op == 0x000D || op == 0x0017 || op == 0x0020
    || (0x0028 ≤ op && op ≤ 0x0030)

/-- L of R234's table. It has no row of its own for VBFLY, whose complex elements take the plain vector rates (log 71). -/
def vectorRate (r : Record) : Nat :=
  let wide := fmtBytes r.fmta == 8 || fmtBytes r.fmtd == 8
  if r.op.toNat = 0x0048 then 32
  else if isSlow r.op.toNat then (if wide then 8 else 16)
  else if wide then 32 else 64

/-- An access of element n to a scalar element of an operand. -/
def lanePart (r : Record) (g : Word) (n k z : Nat) (write : Bool) : List Comp :=
  [{ k := k, addr := elemAddr r g k n z, size := z, write := write }]
/-- The two components of a complex element (R246), both at its address for a fault (R232). -/
def pairPart (r : Record) (g : Word) (n k z : Nat) (write : Bool) : List Comp :=
  let a := elemAddr r g k n (2 * z)
  [{ k := k, addr := a, size := z, write := write }, { k := k, addr := a + z, size := z, write := write, base := a }]
/-- The five destination elements of a ternary byte (R248). -/
def tritPart (r : Record) (g : Word) (n z : Nat) : List Comp :=
  (List.range 5).map fun (j : Nat) => { k := 0, addr := elemAddr r g 0 n z + (j : Int) * z, size := z, write := true }

/-- The accesses of element n. -/
def vectorComps (r : Record) (g : Word) (n : Nat) : List Comp :=
  let op := r.op.toNat
  let a := fmtBytes r.fmta
  let b := fmtBytes r.fmtb
  let d := fmtBytes r.fmtd
  let one := lanePart r g n 1 a false
  let out := lanePart r g n 0 d true
  if op = 0x0049 then out
  else if op = 0x0048 then one ++ tritPart r g n d
  else if isReduction op then (if n % r.t0.toNat + 1 = r.t0.toNat then one ++ out else one)
  else if op = 0x0040 then
    pairPart r g n 1 a false ++ pairPart r g n 2 a false ++ pairPart r g n 0 a true ++ pairPart r g n 3 a true
  else if op = 0x0041 then pairPart r g n 1 a false ++ pairPart r g n 0 a true
  else if op = 0x0042 then pairPart r g n 1 a false ++ pairPart r g n 2 a false ++ pairPart r g n 0 a true
  else if isUnary op then one ++ out
  else if op = 0x0005 then one ++ lanePart r g n 2 b false ++ lanePart r g n 3 d false ++ out
  else if op = 0x001B then one ++ lanePart r g n 2 b false ++ lanePart r g n 3 1 false ++ out
  else one ++ lanePart r g n 2 b false ++ out

/-- A reduction's last element of a row combines the others, so it comes after them (R212). -/
def vectorWork (_ : Engine) (cmd : Command) : Work :=
  let r := cmd.record
  { total := elemTotal r
    unit := sliceUnit r (vectorRate r)
    index := fun _ => []
    comps := fun n _ => vectorComps r cmd.g n
    indexed := fun _ => false
    needs := fun n m => isReduction r.op.toNat && n % r.t0.toNat + 1 == r.t0.toNat && n / r.t0.toNat == m / r.t0.toNat }

/-! ### Values of lanes -/

/-- Bits as an integer of w bits. -/
def laneInt (w : Nat) (signed : Bool) (bits : Nat) : Int :=
  if signed && bits.testBit (w - 1) then (bits : Int) - 2 ^ w else bits
/-- The bounds of an integer format. -/
def intLow (w : Nat) (signed : Bool) : Int := if signed then -(2 ^ (w - 1)) else 0
def intHigh (w : Nat) (signed : Bool) : Int := if signed then 2 ^ (w - 1) - 1 else 2 ^ w - 1
/-- An integer result: modulo 2^w, or clamped with SAT (R207, R240). -/
def intLane (w : Nat) (signed sat : Bool) (x : Int) : Nat :=
  let y := if sat then max (intLow w signed) (min (intHigh w signed) x) else x
  (y % 2 ^ w).toNat

/-- A conversion between formats (R211). -/
def convertLane (src dst : FmtKind) (rm : Rounding) (sat : Bool) (bits : Nat) : Nat × BitVec 5 :=
  match src, dst with
  | .fp f, .fp h =>
    let v := f.read bits
    h.deliver rm sat (if v.isNan then nanOut v.isSnan else exactly v)
  | .fp f, .int w sg =>
    let r := fpToInt rm (intLow w sg) (intHigh w sg) (f.read bits)
    (intLane w sg false r.1, r.2)
  | .int w sg, .fp h => h.deliver rm sat (exactly (intVal (laneInt w sg bits)))
  | .int w sg, .int v tg => (intLane v tg sat (laneInt w sg bits), 0)
  | _, _ => (0, 0)

/-- An integer value in a format (R248, R249). -/
def intIn (dst : FmtKind) (rm : Rounding) (sat : Bool) (x : Int) : Nat × BitVec 5 :=
  match dst with
  | .fp h => h.deliver rm sat (exactly (intVal x))
  | .int w sg => (intLane w sg sat x, 0)
  | _ => (0, 0)

/-- An FP result or an integer result of the destination's format (R240). -/
def arith (r : Record) (fp : FpFmt → FOut) (int : Nat → Bool → Int) : Nat × BitVec 5 :=
  match fmtKind r.fmtd with
  | .fp f => f.deliver (recRnd r) (recSat r) (fp f)
  | .int w sg => (intLane w sg (recSat r) (int w sg), 0)
  | _ => (0, 0)

def lane1 (h : Record → Nat → Nat × BitVec 5) (cmd : Command) : Effect := fun x _ l =>
  let v := h cmd.record (l.getD 0 0)
  (addFlags x v.2, [v.1])
def lane2 (h : Record → Nat → Nat → Nat × BitVec 5) (cmd : Command) : Effect := fun x _ l =>
  let v := h cmd.record (l.getD 0 0) (l.getD 1 0)
  (addFlags x v.2, [v.1])
def lane3 (h : Record → Nat → Nat → Nat → Nat × BitVec 5) (cmd : Command) : Effect := fun x _ l =>
  let v := h cmd.record (l.getD 0 0) (l.getD 1 0) (l.getD 2 0)
  (addFlags x v.2, [v.1])

def arith1 (fp : FVal → FOut) (int : Int → Int) (r : Record) (a : Nat) : Nat × BitVec 5 :=
  arith r (fun f => fp (f.read a)) fun w sg => int (laneInt w sg a)
def arith2 (fp : Rounding → FVal → FVal → FOut) (int : Int → Int → Int) (r : Record) (a b : Nat) : Nat × BitVec 5 :=
  arith r (fun f => fp (recRnd r) (f.read a) (f.read b)) fun w sg => int (laneInt w sg a) (laneInt w sg b)

/-- VMIN and VMAX in a format: the chosen operand, the canonical NaN, NV for a signalling one (R96). -/
def pickLane (k : FmtKind) (fp : FVal → FVal → Option Bool) (int : Int → Int → Bool) (a b : Nat) : Nat × BitVec 5 :=
  match k with
  | .fp f =>
    let x := f.read a
    let y := f.read b
    (match fp x y with
      | some true => a
      | some false => b
      | none => f.nanBits, if x.isSnan || y.isSnan then flagNV else 0)
  | .int w sg => (if int (laneInt w sg a) (laneInt w sg b) then a else b, 0)
  | _ => (0, 0)

def minLane (k : FmtKind) (a b : Nat) : Nat × BitVec 5 := pickLane k fpPickMin (fun x y => decide (x ≤ y)) a b
def maxLane (k : FmtKind) (a b : Nat) : Nat × BitVec 5 := pickLane k fpPickMax (fun x y => decide (y ≤ x)) a b

/-- A sign operation of FP (R241): a NaN gives the canonical NaN. -/
def signLane (f : Bool → Bool) (v : FVal) : FOut :=
  match v with
  | .nan s => nanOut s
  | .inf n => exactly (.inf (f n))
  | .fin n m e => exactly (.fin (f n) m e)

/-- a × 2^b (R241). -/
def scaleLane (r : Record) (a b : Nat) : Nat × BitVec 5 :=
  arith r (fun f => match f.read a with
    | .nan s => nanOut s
    | .inf n => exactly (.inf n)
    | .fin n m e => exactly (.fin n m (e + laneInt 32 true b))) fun _ _ => 0

/-- Bits of the element of D1 (R241). -/
def laneBits (r : Record) : Nat := 8 * fmtBytes r.fmta
/-- A bit operation, w the element width. -/
def bits2 (h : Nat → Nat → Nat → Nat) (r : Record) (a b : Nat) : Nat × BitVec 5 :=
  let w := laneBits r
  (h w a b % 2 ^ w, 0)

/-- The number of one bits below bit n. -/
def onesBelow (x : Nat) : Nat → Nat
  | 0 => 0
  | n + 1 => onesBelow x n + if x.testBit n then 1 else 0

/-- A relation (R242): 1 or 0, NV for a NaN where quiet is false, else for a signalling one. -/
def compareLane (quiet : Bool) (fp : FVal → FVal → Bool) (int : Int → Int → Bool) (r : Record) (a b : Nat) : Nat × BitVec 5 :=
  match fmtKind r.fmta with
  | .fp f =>
    let x := f.read a
    let y := f.read b
    let nv := if quiet then x.isSnan || y.isSnan else x.isNan || y.isNan
    (if fp x y then 1 else 0, if nv then flagNV else 0)
  | .int w sg => (if int (laneInt w sg a) (laneInt w sg b) then 1 else 0, 0)
  | _ => (0, 0)

/-- A transcendental lane (R244). -/
def transLane (t : FVal → TOut) (r : Record) (a : Nat) : Nat × BitVec 5 :=
  match fmtKind r.fmtd with
  | .fp f => transcend r.op f (recRnd r) (recSat r) t a
  | _ => (0, 0)

/-! ### Reductions (R212, R245) -/

/-- One level of the tree: neighbours combined, an odd last one passed up. -/
def treeLevel (h : Nat → Nat → Nat × BitVec 5) : List Nat → List Nat × BitVec 5
  | a :: b :: t =>
    let v := h a b
    let rest := treeLevel h t
    (v.1 :: rest.1, v.2 ||| rest.2)
  | l => (l, 0)
/-- The tree of R212, at most n levels. -/
def treeReduce (h : Nat → Nat → Nat × BitVec 5) : Nat → List Nat → Nat × BitVec 5
  | 0, l => (l.getD 0 0, 0)
  | n + 1, l =>
    match l with
    | _ :: _ :: _ =>
      let v := treeLevel h l
      let rest := treeReduce h n v.1
      (rest.1, v.2 ||| rest.2)
    | l => (l.getD 0 0, 0)

/-- An element of a reduction: converted to FMTD and kept; the last of its row combines and writes. -/
def reduceLane (h : Record → Nat → Nat → Nat × BitVec 5) (cmd : Command) : Effect := fun x n l =>
  let r := cmd.record
  let row := n / r.t0.toNat * r.t0.toNat
  let v := convertLane (fmtKind r.fmta) (fmtKind r.fmtd) (recRnd r) (recSat r) (l.getD 0 0)
  let x := addFlags x v.2
  let lanes := tabSet x.prog.lanes n (BitVec.ofNat 64 v.1)
  if n % r.t0.toNat + 1 = r.t0.toNat then
    let y := treeReduce (h r) r.t0.toNat ((List.range r.t0.toNat).map fun j => (tabGet 0 lanes (row + j)).toNat)
    let x := addFlags x y.2
    ({ x with prog := { x.prog with lanes := lanes.filter fun e => !(row ≤ e.1 && e.1 ≤ n) } }, [y.1])
  else ({ x with prog := { x.prog with lanes := lanes } }, [])

/-! ### Complex operations (R246, R247) -/

/-- One component, rounded once. -/
def roundLane (r : Record) (o : FOut) : Nat × BitVec 5 :=
  match fmtKind r.fmtd with
  | .fp f => f.deliver (recRnd r) (recSat r) o
  | _ => (0, 0)

def laneVal (r : Record) (bits : Nat) : FVal :=
  match fmtKind r.fmta with
  | .fp f => f.read bits
  | _ => .nan false

/-- The exact sum or difference of two exact products. -/
def productSum (rm : Rounding) (p q : FOut) : FOut :=
  let o := fpAdd rm p.v q.v
  { o with flags := o.flags ||| p.flags ||| q.flags }

/-- (xr + i·xi) × (yr + i·yi). -/
def complexProduct (r : Record) (xr xi yr yi : FVal) : (Nat × BitVec 5) × (Nat × BitVec 5) :=
  let rm := recRnd r
  let minus := fpMul xi yi
  (roundLane r (productSum rm (fpMul xr yr) { minus with v := minus.v.flip }),
   roundLane r (productSum rm (fpMul xr yi) (fpMul xi yr)))

def butterfly (cmd : Command) : Effect := fun x _ l =>
  let r := cmd.record
  let v := fun k => laneVal r (l.getD k 0)
  let rm := recRnd r
  let out := [fpAdd rm (v 0) (v 2), fpAdd rm (v 1) (v 3), fpSub rm (v 0) (v 2), fpSub rm (v 1) (v 3)].map (roundLane r)
  (out.foldl (fun x o => addFlags x o.2) x, out.map Prod.fst)

def complexLane (cmd : Command) : Effect := fun x _ l =>
  let r := cmd.record
  let v := fun k => laneVal r (l.getD k 0)
  let p := complexProduct r (v 0) (v 1) (v 2) (v 3)
  (addFlags (addFlags x p.1.2) p.2.2, [p.1.1, p.2.1])

/-- k of R247, as an entry of the 65,536-entry ROM. -/
def twiddleIndex (r : Record) (n : Nat) : Nat :=
  let size : Nat := 2 ^ (r.opx.setWidth 5 : BitVec 5).toNat
  let k := ((r.d3.base.toNat : Int) + elemOffset r.d3 (elemIndex r n)) % (size : Int)
  Int.toNat k * (65536 / size)

def twiddleLane (cmd : Command) : Effect := fun x n l =>
  let r := cmd.record
  let v := fun k => laneVal r (l.getD k 0)
  let w := twiddle (twiddleIndex r n)
  let p := complexProduct r (v 0) (v 1) (fp32.read w.1) (fp32.read w.2)
  (addFlags (addFlags x p.1.2) p.2.2, [p.1.1, p.2.1])

/-! ### Ternary bytes (R208, R248) -/

/-- The trits of a byte, none where it is illegal. -/
def trits (v : Nat) : Option (List Int) :=
  if v > 242 then none
  else some ((List.range 5).map fun j => match v / 3 ^ j % 3 with
    | 0 => 0
    | 1 => 1
    | _ => -1)

def unpackLane (cmd : Command) : Effect := fun x n l =>
  let r := cmd.record
  let dst := fmtKind r.fmtd
  match trits (l.getD 0 0) with
  | some t => (x, t.map fun v => (intIn dst .rne false v).1)
  | none => (addBad x n [addrWord (elemAddr r cmd.g 1 n 1)], List.replicate 5 0)

def iotaLane (cmd : Command) : Effect := fun x n _ =>
  let v := intIn (fmtKind cmd.record.fmtd) (recRnd cmd.record) (recSat cmd.record) n
  (addFlags x v.2, [v.1])

/-! ### The operations (R241 to R249) -/

/-- The step of a vector operation. Which wide registers a unit reads is not stated: while one is poisoned a unit may read it, and then the
engine faults (R332; log 76). -/
def vectorStep (op : Instr) (f : Command → Effect) (s : State) : Result :=
  match engineHead s .vector op with
  | none => .next s
  | some (sc, _, _) =>
    if (engineOf s sc .vector).widePoison = [] then .next (engineStep .vector op vectorWork f s)
    else
      let d := drawChoice s 2
      .next (if d.1 = 0 then stopEngine d.2 sc .vector 0x04 0 else engineStep .vector op vectorWork f d.2)

def execVadd (s : State) : Result := vectorStep .vadd (lane2 (arith2 fpAdd (· + ·))) s
def execVsub (s : State) : Result := vectorStep .vsub (lane2 (arith2 fpSub (· - ·))) s
def execVmul (s : State) : Result := vectorStep .vmul (lane2 (arith2 (fun _ => fpMul) (· * ·))) s
def execVdiv (s : State) : Result := vectorStep .vdiv (lane2 (arith2 (fun _ => fpDiv) fun _ _ => 0)) s
def execVfma (s : State) : Result := vectorStep .vfma (lane3 fun r a b c =>
  arith r (fun f => fpFma (recRnd r) (f.read a) (f.read b) (f.read c)) fun w sg => laneInt w sg a * laneInt w sg b + laneInt w sg c) s
def execVmin (s : State) : Result := vectorStep .vmin (lane2 fun r => minLane (fmtKind r.fmtd)) s
def execVmax (s : State) : Result := vectorStep .vmax (lane2 fun r => maxLane (fmtKind r.fmtd)) s
def execVabs (s : State) : Result := vectorStep .vabs (lane1 (arith1 (signLane fun _ => false) fun a => a.natAbs)) s
def execVneg (s : State) : Result := vectorStep .vneg (lane1 (arith1 (signLane (!·)) (- ·))) s
def execVsqrt (s : State) : Result := vectorStep .vsqrt (lane1 (arith1 fpSqrt id)) s
def execVrcp (s : State) : Result := vectorStep .vrcp (lane1 (arith1 (fpDiv (.fin false 1 0)) id)) s
def execVscalb (s : State) : Result := vectorStep .vscalb (lane2 scaleLane) s
def execVrint (s : State) : Result :=
  vectorStep .vrint (lane1 fun r a => arith r (fun f => fpRint (recRnd r) (f.read a)) fun _ _ => 0) s
def execVand (s : State) : Result := vectorStep .vand (lane2 (bits2 fun _ a b => a &&& b)) s
def execVor (s : State) : Result := vectorStep .vor (lane2 (bits2 fun _ a b => a ||| b)) s
def execVxor (s : State) : Result := vectorStep .vxor (lane2 (bits2 fun _ a b => a ^^^ b)) s
def execVandn (s : State) : Result := vectorStep .vandn (lane2 (bits2 fun w a b => a &&& (2 ^ w - 1 - b))) s
def execVshl (s : State) : Result := vectorStep .vshl (lane2 (bits2 fun w a b => a * 2 ^ (b % w))) s
def execVshr (s : State) : Result := vectorStep .vshr (lane2 (bits2 fun w a b => a / 2 ^ (b % w))) s
def execVsra (s : State) : Result :=
  vectorStep .vsra (lane2 (bits2 fun w a b => intLane w true false (laneInt w true a / 2 ^ (b % w)))) s
def execVcnt (s : State) : Result := vectorStep .vcnt (lane1 fun r a => (onesBelow a (laneBits r), 0)) s
def execVceq (s : State) : Result := vectorStep .vceq (lane2 (compareLane true fpEq fun x y => decide (x = y))) s
def execVclt (s : State) : Result := vectorStep .vclt (lane2 (compareLane false fpLt fun x y => decide (x < y))) s
def execVcle (s : State) : Result := vectorStep .vcle (lane2 (compareLane false fpLe fun x y => decide (x ≤ y))) s
def execVsel (s : State) : Result := vectorStep .vsel (lane3 fun _ a b c => (if c ≠ 0 then a else b, 0)) s
def execVcvt (s : State) : Result := vectorStep .vcvt (lane1 fun r a =>
  convertLane (fmtKind r.fmta) (fmtKind r.fmtd) (recRnd r) (recSat r) a) s
def execVexp (s : State) : Result := vectorStep .vexp (lane1 (transLane tExp)) s
def execVexp2 (s : State) : Result := vectorStep .vexp2 (lane1 (transLane tExp2)) s
def execVlog (s : State) : Result := vectorStep .vlog (lane1 (transLane (tLogBy lnNear))) s
def execVlog2 (s : State) : Result := vectorStep .vlog2 (lane1 (transLane (tLogBy log2Near))) s
def execVsin (s : State) : Result := vectorStep .vsin (lane1 (transLane tSin)) s
def execVcos (s : State) : Result := vectorStep .vcos (lane1 (transLane tCos)) s
def execVtanh (s : State) : Result := vectorStep .vtanh (lane1 (transLane tTanh)) s
def execVrsqrt (s : State) : Result := vectorStep .vrsqrt (lane1 (transLane tRsqrt)) s
def execVsigm (s : State) : Result := vectorStep .vsigm (lane1 (transLane tSigm)) s
def execVrsum (s : State) : Result := vectorStep .vrsum (reduceLane (arith2 fpAdd (· + ·))) s
def execVrmin (s : State) : Result := vectorStep .vrmin (reduceLane fun r => minLane (fmtKind r.fmtd)) s
def execVrmax (s : State) : Result := vectorStep .vrmax (reduceLane fun r => maxLane (fmtKind r.fmtd)) s
def execVrand (s : State) : Result := vectorStep .vrand (reduceLane (bits2 fun _ a b => a &&& b)) s
def execVror (s : State) : Result := vectorStep .vror (reduceLane (bits2 fun _ a b => a ||| b)) s
def execVrxor (s : State) : Result := vectorStep .vrxor (reduceLane (bits2 fun _ a b => a ^^^ b)) s
def execVbfly (s : State) : Result := vectorStep .vbfly butterfly s
def execVtwid (s : State) : Result := vectorStep .vtwid twiddleLane s
def execVcmul (s : State) : Result := vectorStep .vcmul complexLane s
def execVunp3 (s : State) : Result := vectorStep .vunp3 unpackLane s
def execViota (s : State) : Result := vectorStep .viota iotaLane s

end Sys2Proof.Machine
end

