-- ==== Sys2Proof/Machine/Copy.lean ====
section
/-! DEFINITION. The copy operations (R250 to R252): element copies in 64-byte beats, gather and scatter through an index vector that is read
before the elements, clears, siphon slots, and prefetches; and what a beat does at a queue window or a send aperture (R284, R386). -/

namespace Sys2Proof.Machine

/-! ### The work of a copy record -/

/-- A signed index of the format of FMTB (R250). -/
def signedIndex (r : Record) (v : Nat) : Int := if r.fmtb = 8 then laneInt 32 true v else laneInt 64 true v

/-- The index of element n: just read, or kept from its reading. -/
def indexOf (x : Engine) (r : Record) (got : Tab Nat) (n : Nat) : Int :=
  signedIndex r (match tabFind got n with
    | some v => v
    | none => tabGet 0 x.prog.sources n)

/-- The words an index vector's elements take. -/
def indexPart (r : Record) (g : Word) (n : Nat) : Comp :=
  { k := 3, addr := elemAddr r g 3 n (fmtBytes r.fmtb), size := fmtBytes r.fmtb, write := false }

/-- place(D) + idx(n) × z. -/
def indexedPart (x : Engine) (r : Record) (g : Word) (got : Tab Nat) (n k z : Nat) (write : Bool) : Comp :=
  { k := k, addr := siteAddr r g k (indexOf x r got n) z, size := z, write := write }

/-- The header operand of a slot command: D0 of CSIPW, D1 of CSIPR. -/
def headerOperand (r : Record) : Nat := if r.op.toNat = 0x0205 then 0 else 1

/-- Whether element n is of the slot that is claimed: that of the oldest unit. -/
def inSlot (x : Engine) (r : Record) (n : Nat) : Bool :=
  match x.prog.inflight with
  | u :: _ => n / r.t0.toNat == u.first / r.t0.toNat
  | [] => false

/-- Element n's bytes of the claimed slot, in the binding context's own scratchpad; another slot's are not known now. -/
def slotPart (x : Engine) (r : Record) (n z : Nat) (write : Bool) : List Comp :=
  if inSlot x r n then
    [{ k := headerOperand r, addr := ((x.prog.claim.getD 0).toNat : Int) + (n % r.t0.toNat) * z, size := z, write := write }]
  else []

def copyComps (x : Engine) (r : Record) (g : Word) (n : Nat) (got : Tab Nat) : List Comp :=
  let a := fmtBytes r.fmta
  let d := fmtBytes r.fmtd
  match r.op.toNat with
  | 0x0201 => [indexedPart x r g got n 1 a false] ++ lanePart r g n 0 d true
  | 0x0202 => lanePart r g n 1 a false ++ [indexedPart x r g got n 0 d true]
  | 0x0203 | 0x0204 => lanePart r g n 0 d true
  | 0x0205 => lanePart r g n 1 a false ++ slotPart x r n a true
  | 0x0206 => slotPart x r n a false ++ lanePart r g n 0 d true
  | 0x0207 => lanePart r g n 1 a false
  | _ => lanePart r g n 1 a false ++ lanePart r g n 0 d true

/-- Bytes of an element of a copy record. -/
def copyBytes (r : Record) : Nat := if r.op.toNat = 0x0203 ∨ r.op.toNat = 0x0204 then fmtBytes r.fmtd else fmtBytes r.fmta

def isSlot (r : Record) : Bool := r.op == 0x0205 || r.op == 0x0206

/-- Whether the command reads an index vector (R250). -/
def needsIndex (r : Record) : Bool := r.op == 0x0201 || r.op == 0x0202

/-- A beat of 64 bytes; a siphon slot is one unit (R234, R251). -/
def copyUnit (r : Record) (n : Nat) : Nat :=
  if isSlot r then r.t0.toNat - n % r.t0.toNat else sliceUnit r (64 / copyBytes r) n

/-- Each index is read once, by its element as it begins (R237); slots are taken one after another. -/
def copyWork (x : Engine) (cmd : Command) : Work :=
  let r := cmd.record
  { total := elemTotal r
    unit := copyUnit r
    index := fun n => if needsIndex r && (tabFind x.prog.sources n).isNone then [(indexPart r cmd.g n, n)] else []
    comps := fun n got => copyComps x r cmd.g n got
    indexed := fun k => (r.op == 0x0201 && k == 1) || (r.op == 0x0202 && k == 0)
    needs := fun n m => isSlot r && decide (m / r.t0.toNat < n / r.t0.toNat) }

/-! ### Stores, and beats to the register range (R284, R386) -/

/-- An element's store: where, how wide, what. -/
abbrev Store := Comp × Reach × Nat

/-- The stores of a unit's elements, their sources read. -/
def copyStores (s : State) (sc : ScullId) (ready : List Ready) : List Store :=
  ready.filterMap fun e =>
    match e.parts.find? (fun p => p.1.write), e.parts.find? (fun p => !p.1.write) with
    | some d, some a => some (d.1, d.2, readReach s sc a.2 a.1.size)
    | _, _ => none

/-- The bytes and number of the leading stores that run on from pa within room bytes. -/
def takeRun (pa room : Nat) : List Store → List Byte × Nat
  | (x, .mem b, v) :: t =>
    if b = pa ∧ x.size ≤ room then
      let r := takeRun (pa + x.size) (room - x.size) t
      (natBytes x.size v ++ r.1, r.2 + 1)
    else ([], 0)
  | _ => ([], 0)

/-- A transaction in the register range: accepted, or why not. Only a whole beat of a CCOPY is enqueued (R284). -/
def beatStore (s : State) (sc : ScullId) (ccopy : Bool) (pa : Nat) (a : Word) (bytes : List Byte) : Except Snag State :=
  let whole := pa % 64 == 0 && bytes.length == 64
  let data := bytesWords 8 bytes
  if isAperture pa then
    if !whole then .error (.fault 0x02 a)
    else match apertureStore s (.engine sc .copy) (masterDomain s (.engine sc .copy)) (pa - apertureBase) data with
      | none => .error (.fault 0x02 a)
      | some (true, s) => .ok s
      | some (false, _) => .error .stall
  else match windowWrite s (BitVec.ofNat 12 ((pa - regBase - 0x100000) / 64)) (whole && ccopy) data with
    | some s => .ok s
    | none => .error .stall

/-- Performs stores in order, n at most: how many were done, and what stopped the next. Stores that run on inside one line are one beat, which
clears the poison of a line it covers (R331). -/
def performStoresOf (sc : ScullId) (ccopy : Bool) : Nat → State → List Store → Nat → State × Nat × Option Snag
  | 0, s, _, done => (s, done, none)
  | _, s, [], done => (s, done, none)
  | n + 1, s, (x, at_, v) :: t, done =>
    match at_ with
    | .mem pa =>
      let run := takeRun pa (64 - pa % 64) ((x, at_, v) :: t)
      let rest := ((x, at_, v) :: t).drop run.2
      if inRegisters pa then
        match beatStore s sc ccopy pa (addrWord x.addr) run.1 with
        | .ok s => performStoresOf sc ccopy n s rest (done + run.2)
        | .error g => (s, done, some g)
      else performStoresOf sc ccopy n (agentWrite s (shellNode sc) pa run.1.length (bytesNat run.1)) rest (done + run.2)
    | _ => performStoresOf sc ccopy n (writeReach s sc at_ x.size v) t (done + 1)

/-! ### Elements -/

/-- Whether an element's destination lies in the register range, where beats are whole (R284, R386). -/
def toRegisters (e : Ready) : Bool := e.parts.any fun p => p.1.write && match p.2 with
  | .mem pa => inRegisters pa
  | _ => false

/-- The elements in flight of a unit that another element of it still holds back. -/
def splitBeat (l : List SeqUnit) (p : Prep) (e : Ready) : Bool :=
  toRegisters e && l.any fun u => decide (u.first ≤ e.n ∧ e.n < u.first + u.count)
    && (openElems [u]).any fun n => !p.ready.any fun q => q.n == n

/-- What may perform: an element for the register range only with all of its beat. -/
def wholeBeats (l : List SeqUnit) (p : Prep) : Prep :=
  let ready := p.ready.filter fun e => !splitBeat l p e
  { p with ready := ready, snag := if ready.length = p.ready.length then p.snag else some (p.snag.getD .stall) }

/-- The step of a copy operation whose elements have one source and one destination. -/
def copyStep (op : Instr) (s : State) : State :=
  match engineHead s .copy op with
  | none => s
  | some (sc, slot, cmd) =>
    let c := ctxOf s sc slot
    let x := engineOf s sc .copy
    let w := copyWork x cmd
    let p := wholeBeats x.prog.inflight (prepareFlight s sc .copy c cmd w)
    let stores := copyStores p.s sc (p.ready.map (dropOverwritten cmd.record w (aheadElems x)))
    let (s, count, stop) := performStoresOf sc (op == .ccopy) stores.length p.s stores 0
    let done := p.ready.take count
    let s := setEngine s sc .copy (keepIndices (engineOf s sc .copy) p.s sc done)
    let s := afterElements s sc .copy op c cmd (copyWork (engineOf s sc .copy) cmd) done
    afterSnag s sc .copy c slot cmd op (stop.or p.snag)

def execCcopy (s : State) : Result := .next (copyStep .ccopy s)
def execCgath (s : State) : Result := .next (copyStep .cgath s)
def execCscat (s : State) : Result := .next (copyStep .cscat s)

/-- The step of a copy operation that moves no element. -/
def touchStep (op : Instr) (perform : ScullId → State → List Ready → State) (s : State) : State :=
  match engineHead s .copy op with
  | none => s
  | some (sc, slot, cmd) =>
    let c := ctxOf s sc slot
    let w := copyWork (engineOf s sc .copy) cmd
    let p := prepareFlight s sc .copy c cmd w
    let s := afterElements (perform sc p.s p.ready) sc .copy op c cmd w p.ready
    afterSnag s sc .copy c slot cmd op p.snag

/-! ### Clears (R250) -/

/-- What a clear writes: zero words, then empty. -/
def clearWords (s : State) (ready : List Ready) : State :=
  ready.foldl (fun s e => e.parts.foldl (fun s p => match p.2 with
    | .spad sc b => setFs (setScull s sc (spadWrite (scullOf s sc) b 8 0)) false [(sc, b / 8)]
    | _ => s) s) s

def execCclr (s : State) : Result := .next (touchStep .cclr (fun _ => clearWords) s)
/-- CSETF changes F alone, as its F events do (R237). -/
def execCsetf (s : State) : Result := .next (touchStep .csetf (fun _ s _ => s) s)

/-! ### Prefetch (R250, R252) -/

/-- Asks the shell L2 for the lines of prefetched elements it does not hold. -/
def prefetch (sc : ScullId) (s : State) (ready : List Ready) : State :=
  let n := shellNode sc
  ready.foldl (fun s e => e.parts.foldl (fun s p => match p.2 with
    | .mem pa => if (copyOf s n (lineOf pa)).isSome then s else requestLine s n (lineOf pa)
    | _ => s) s) s

def execCpref (s : State) : Result := .next (touchStep .cpref prefetch s)

/-! ### Siphon slots (R251) -/

/-- Reaches the header in the binding context's scratchpad: its byte, or the snag. -/
def reachHeader (s : State) (sc : ScullId) (c : Ctx) (a : Nat) : State × Except Snag Nat :=
  let h := BitVec.ofNat 64 a
  if spadBytes < a + 64 then (s, .error (.fault 0x02 h))
  else match reachPage s sc sc c.crew a h with
    | (s, .ok (.spad _ b)) => (s, .ok b)
    | (s, .ok _) => (s, .error .stall)
    | (s, .error g) => (s, .error g)

/-- The header's page as a place, for those who wait at it. -/
def headerPlace (sc : ScullId) (c : Ctx) (a : Nat) : Place := .page sc c.crew a

/-- The header of a slot command. -/
def headerAddr (r : Record) : Nat := (recDesc r (headerOperand r)).base.toNat

/-- Keeps what a claim gave. -/
def setClaim (s : State) (sc : ScullId) (v : Option Word) : State :=
  let x := engineOf s sc .copy
  setEngine s sc .copy { x with prog := { x.prog with claim := v } }

/-- The claim of a slot for n bytes, checked first (R251): the slot's address, or the command waits in the order of R184 or faults. -/
def claimSlot64 (s : State) (sc : ScullId) (c : Ctx) (r : Record) (n : Nat) : State × Option Snag :=
  let a := headerAddr r
  let h := BitVec.ofNat 64 a
  match reachHeader s sc c a with
  | (s, .error g) => (s, some g)
  | (s, .ok b) =>
    let s := serveSiphon s sc b (headerPlace sc c a) ((scullOf s sc).sipWaiters.length)
    let x := scullOf s sc
    let cfg := spadRead x b 8
    let op : SipOp := if r.op.toNat = 0x0205 then .claimWrite else .claimRead
    if siphonPoisoned x b op then (s, some (.fault 0x04 h))
    else if !siphonCfgOk cfg ∨ 8 * (cfg.extractLsb' 16 10 : BitVec 10).toNat < n then (s, some (.fault 0x05 h))
    else match siphonAt x b h op with
      | .done l (some v) => (siphonChanged (setClaim (setScull s sc (siphonWrite x b l)) sc (some v)) sc b (headerPlace sc c a), none)
      | .wait =>
        let w : SipWaiter := { who := .engine sc, op := op, d := 0, place := headerPlace sc c a, ea := h }
        (if x.sipWaiters.any (fun q => q.who == .engine sc) then s else setScull s sc { x with sipWaiters := x.sipWaiters ++ [w] }, none)
      | _ => (s, some (.fault 0x05 h))

/-- Publishes or frees the slot once its elements have moved (R251). -/
def closeSlot (s : State) (sc : ScullId) (c : Ctx) (r : Record) (v : Word) : State × Option Snag :=
  let a := headerAddr r
  match reachHeader s sc c a with
  | (s, .error g) => (s, some g)
  | (s, .ok b) =>
    let x := scullOf s sc
    match siphonAt x b (BitVec.ofNat 64 a) (if r.op.toNat = 0x0205 then .publish v else .free) with
    | .done l _ => (siphonChanged (setClaim (setScull s sc (siphonWrite x b l)) sc none) sc b (headerPlace sc c a), none)
    | .wait => (s, some .stall)
    | .fail _ _ => (s, some (.fault 0x05 (BitVec.ofNat 64 a)))

/-- Moves the elements of the oldest unit's slot that can move; the unit stays until its slot is published or freed. -/
def moveSlot (s : State) (sc : ScullId) (c : Ctx) (cmd : Command) (u : SeqUnit) : State × Option Snag :=
  let x := engineOf s sc .copy
  let w := copyWork x cmd
  let p := prepare s sc c cmd w (wordWritten x w) (openElems [u]) [] []
  let stores := copyStores p.s sc (p.ready.map (dropOverwritten cmd.record w (aheadElems x)))
  let (s, count, stop) := performStoresOf sc false stores.length p.s stores 0
  let done := p.ready.take count
  let x := engineOf s sc .copy
  let mask := (done.map (·.n)).foldl setAdd u.mask
  let s := setEngine s sc .copy { x with prog := { x.prog with inflight := { u with mask := mask } :: x.prog.inflight.drop 1 } }
  let left := (leftElems (engineOf s sc .copy) w)
  (fEvents s sc .copy cmd.record w left done, stop.or p.snag)

/-- What a slot command that stops has begun (R234, R257): elements of a slot already claimed move; it claims, publishes and frees nothing. -/
def retireSlot (s : State) (sc : ScullId) : State :=
  let x := engineOf s sc .copy
  match running x, x.bound, x.prog.inflight, x.prog.claim with
  | some cmd, some slot, u :: _, some _ => if x.dropped.isSome then s else (moveSlot s sc (ctxOf s sc slot) cmd u).1
  | _, _, _, _ => s

/-- The step of a slot command (R251): the claim, the elements, each as its own waits are met, then the publication or the free. -/
def slotStep (op : Instr) (s : State) : State :=
  match engineHead s .copy op with
  | none => s
  | some (sc, slot, cmd) =>
    let c := ctxOf s sc slot
    let x := engineOf s sc .copy
    match x.prog.inflight, x.prog.claim with
    | [], _ => s
    | u :: _, none =>
      let r := claimSlot64 s sc c cmd.record (u.count * copyBytes cmd.record)
      let s := afterSnag r.1 sc .copy c slot cmd op r.2
      if (engineOf s sc .copy).prog.claim.isSome then postOnce s (.engine sc .copy) op else s
    | u :: _, some v =>
      let r := moveSlot s sc c cmd u
      if r.2.isSome then afterSnag r.1 sc .copy c slot cmd op r.2
      else
        let q := closeSlot r.1 sc c cmd.record v
        if q.2.isSome then afterSnag q.1 sc .copy c slot cmd op q.2
        else afterElements q.1 sc .copy op c cmd (copyWork (engineOf q.1 sc .copy) cmd) []

def execCsipw (s : State) : Result := .next (slotStep .csipw s)
def execCsipr (s : State) : Result := .next (slotStep .csipr s)

end Sys2Proof.Machine
end

