-- ==== Sys2Proof/Machine/Matrix.lean ====
section
/-! DEFINITION. The matrix operations (R260 to R279): accumulators, the A latch, products group by group with their side table, tiles loaded
and drained, and whole-accumulator records. -/

namespace Sys2Proof.Machine

/-! ### Accumulators (R260) -/

/-- Entry size of an interpretation. -/
def entryBytes (interp : BitVec 4) : Nat := if interp = 0 then 8 else 4
/-- Rows and columns of an interpretation. -/
def tileSide (interp : BitVec 4) : Nat := if interp = 0 then 16 else 32
def accAddr (interp : BitVec 4) (a m n : Nat) : Nat := 4096 * a + 128 * m + entryBytes interp * n
def accRead (x : Engine) (interp : BitVec 4) (a m n : Nat) : Nat := memReadNat x.acc (accAddr interp a m n) (entryBytes interp)
def accWrite (x : Engine) (interp : BitVec 4) (a m n v : Nat) : Engine :=
  { x with acc := memWriteNat x.acc (accAddr interp a m n) (entryBytes interp) v }
/-- All bits of an accumulator zero; its poison goes (R331). -/
def accZero (x : Engine) (a : Nat) : Engine :=
  { x with acc := x.acc.filter fun e => e.1 / 4096 != a, accPoison := setDel x.accPoison a }

/-- The bytes of the A latch: 32 columns of 2 bytes a row. -/
def latchAddr (m k : Nat) : Nat := 64 * m + 2 * k

/-! ### The work of a product (R264 to R270) -/

def isProduct (r : Record) : Bool := r.op == 0x0100 || r.op == 0x0101

/-- What a product reads, as keys of the values it has staged. -/
inductive Staged where
  | a (m i : Nat)
  | b (n i : Nat)
  | scaleA (m q : Nat)
  | scaleB (n q : Nat)
  | meta_ (n g half : Nat)
  | index (m : Nat)
  deriving DecidableEq, Repr

def stagedKey : Staged → Nat
  | .a m i => (0 * 64 + m) * 131072 + i
  | .b n i => (1 * 64 + n) * 131072 + i
  | .scaleA m q => (2 * 64 + m) * 131072 + q
  | .scaleB n q => (3 * 64 + n) * 131072 + q
  | .meta_ n g half => (4 * 64 + n) * 131072 + 2 * g + half
  | .index m => (5 * 64 + m) * 131072

def stagedValue (x : Engine) (k : Staged) : Nat := tabGet 0 x.prog.sources (stagedKey k)

def packedMx (c : BitVec 4) : Bool := c == 6
def packedTernary (c : BitVec 4) : Bool := c == 0xC

/-- Kept values of a group of 24 (R265). -/
def keptCount (spn : Nat) : Nat :=
  match spn with
  | 1 => 8 | 2 => 12 | 3 => 16 | _ => 24

def productGroup (r : Record) : Nat :=
  match mmCase r with
  | some c => c.g
  | none => 1
def productInterp (r : Record) : BitVec 4 := r.fmtd

/-- Metadata groups first read by element q (R269). -/
def metaGroups (r : Record) (q : Nat) : List Nat :=
  let g := productGroup r
  (List.range (r.t0.toNat / 24)).filter fun b => 24 * b / g = q

/-- Storage units (elements, or bytes of a packed format) of a run of count values along K from k on, first read with the group of k. -/
def unitsFrom (c : BitVec 4) (k count : Nat) : List Nat :=
  if packedMx c then (List.range (count / 2)).map (k / 2 + ·)
  else if packedTernary c then (List.range count).filterMap fun i => if (k + i) % 5 = 0 then some ((k + i) / 5) else none
  else (List.range count).map (k + ·)

/-- The units of operand B that element q reads. DESIGN CHOICE (log 83): with SPN nonzero every kept value of a metadata group is read with the
group's first element, though its position lies in a later one. -/
def unitsOfB (r : Record) (q : Nat) : List Nat :=
  let g := productGroup r
  if mmSpn r = 0 then unitsFrom r.fmtb (q * g) g
  else (metaGroups r q).flatMap fun b => unitsFrom r.fmtb (b * keptCount (mmSpn r)) (keptCount (mmSpn r))

/-- The engine as it will be once indices just read are kept. -/
def withIndices (x : Engine) (got : Tab Nat) : Engine :=
  { x with prog := { x.prog with sources := got.foldl (fun t e => tabSet t e.1 e.2) x.prog.sources } }

/-- The address of a unit: i along K, row or column j (R267). -/
def unitAddr (d : Descriptor) (c : BitVec 4) (s0 s1 : BitVec 16) (i : Nat) (j : Int) : Int :=
  let base : Int := d.base.toNat
  if packedMx c then base + i + j * s1.toInt / 2
  else if packedTernary c then base + i + j * s1.toInt
  else base + (i * s0.toInt + j * s1.toInt) * fmtBytes c

/-- A side sub-table's address (R268). -/
def sideAddr (r : Record) (s : BitVec 16) : Int := r.d3.base.toNat + 8 * s.toNat

/-- The row of A that row m takes (R270). -/
def rowOf (x : Engine) (r : Record) (m : Nat) : Int :=
  if mmGth r then laneInt 32 true (stagedValue x (.index m)) else m

def source (k : Nat) (a : Int) (n : Nat) : Comp := { k := k, addr := a, size := n, write := false }

/-- What element q reads, in order: A by rows, B by columns, scales, metadata (R272). -/
def productReads (x : Engine) (r : Record) (q : Nat) : List (Staged × Comp) :=
  let g := productGroup r
  let rows := List.range r.t1.toNat
  let cols := List.range r.t2.toNat
  let blocks : Int := r.t0.toNat / 32
  let a := if mmLat r then [] else rows.flatMap fun m => (unitsFrom r.fmta (q * g) g).map fun i =>
    (Staged.a m i, source 1 (unitAddr r.d1 r.fmta r.d1.s0 r.d1.s1 i (rowOf x r m)) (fmtBytes r.fmta))
  let b := cols.flatMap fun n => (unitsOfB r q).map fun i =>
    (Staged.b n i, source 2 (unitAddr r.d2 r.fmtb r.d2.s0 r.d2.s2 i n) (fmtBytes r.fmtb))
  let scales := if r.scm = 1 then
      rows.map (fun m => (Staged.scaleA m q, source 3 (sideAddr r r.d3.s0 + rowOf x r m * blocks + q) 1))
        ++ cols.map (fun n => (Staged.scaleB n q, source 3 (sideAddr r r.d3.s1 + n * blocks + q) 1))
    else []
  let metas := if mmSpn r = 0 then [] else cols.flatMap fun n => (metaGroups r q).flatMap fun b =>
    let at_ := sideAddr r r.d3.s2 + ((n * (r.t0.toNat / 24) + b : Nat) : Int) * 16
    [(Staged.meta_ n b 0, source 3 at_ 8), (Staged.meta_ n b 1, source 3 (at_ + 8) 8)]
  a ++ b ++ scales ++ metas

/-- The index of row m (R270). -/
def rowIndexComp (r : Record) (m : Nat) : Comp := source 3 (sideAddr r r.d3.s3 + 4 * m) 4

/-- The row indices that have still to be read, each with its key: the first element reads them, once each (R237, R270). -/
def rowIndices (x : Engine) (r : Record) : List (Comp × Nat) :=
  if isProduct r && mmGth r then
    ((List.range r.t1.toNat).map fun m => (rowIndexComp r m, stagedKey (.index m))).filter fun e => (tabFind x.prog.sources e.2).isNone
  else []

/-- The entries of a tile's row m in scratchpad (R274). -/
def rowComps (r : Record) (k : Nat) (z m : Nat) (write : Bool) : List Comp :=
  let d := recDesc r k
  (List.range r.t0.toNat).map fun (n : Nat) =>
    { k := k, addr := (d.base.toNat : Int) + (n * d.s0.toInt + m * d.s1.toInt) * z, size := z, write := write }

def isBypass (r : Record) : Bool := r.op == 0x0109 && r.opx.getLsbD 4

def matrixTotal (r : Record) : Nat :=
  match r.op.toNat with
  | 0x0100 | 0x0101 => r.t0.toNat / productGroup r
  | 0x0108 | 0x0109 => r.t1.toNat
  | _ => 1

def matrixComps (x : Engine) (r : Record) (n : Nat) : List Comp :=
  match r.op.toNat with
  | 0x0100 | 0x0101 => (productReads x r n).map Prod.snd
  | 0x0108 => rowComps r 1 (fmtBytes r.fmta) n false
  | 0x0109 => if isBypass r then [] else rowComps r 0 (fmtBytes r.fmtd) n true
  | _ => []

/-- A group element is one unit, after those before it (R234, R273); with GTH the index values choose words of A and of the scales. -/
def matrixWork (x : Engine) (cmd : Command) : Work :=
  { total := matrixTotal cmd.record
    unit := fun _ => 1
    index := fun _ => rowIndices x cmd.record
    comps := fun n got => matrixComps (withIndices x got) cmd.record n
    indexed := fun k => isProduct cmd.record && mmGth cmd.record && (k == 1 || k == 3)
    needs := fun _ _ => true }

/-! ### Group sums (R213 to R215, R269, R271) -/

/-- The value of an A or B element under its format: FP. -/
def matVal (c : BitVec 4) (unit k : Nat) : FVal :=
  match fmtKind c with
  | .fp f => f.read unit
  | .mx => e2m1.read (unit / 16 ^ (k % 2) % 16)
  | _ => .nan false

/-- The same for the integer cases; a ternary byte above 242 holds zeros (R208). -/
def matInt (c : BitVec 4) (unit k : Nat) : Int :=
  match fmtKind c with
  | .int w sg => laneInt w sg unit
  | .ternary => ((trits unit).getD [0, 0, 0, 0, 0]).getD (k % 5) 0
  | _ => 0

/-- The storage unit of element k. -/
def unitIndex (c : BitVec 4) (k : Nat) : Nat := if packedMx c then k / 2 else if packedTernary c then k / 5 else k

def latchUnit (x : Engine) (c : BitVec 4) (m k : Nat) : Nat := memReadNat x.latch (latchAddr m k) (fmtBytes c)

def unitA (x : Engine) (r : Record) (m k : Nat) : Nat :=
  if mmLat r then latchUnit x r.fmta m k else stagedValue x (.a m (unitIndex r.fmta k))
def unitB (x : Engine) (r : Record) (n k : Nat) : Nat := stagedValue x (.b n (unitIndex r.fmtb k))

/-- Position p(j) of a metadata record (R269). -/
def metaPosition (x : Engine) (n b j : Nat) : Nat :=
  (stagedValue x (.meta_ n b 0) + 2 ^ 64 * stagedValue x (.meta_ n b 1)) / 2 ^ (5 * j) % 32

/-- The positions of group q of column n that make a product: k of A, with every k of B as stored that sits there (R269). -/
def groupTerms (x : Engine) (r : Record) (q n : Nat) : List (Nat × List Nat) :=
  let g := productGroup r
  ((List.range g).map fun i =>
    let k := q * g + i
    if mmSpn r = 0 then (k, [k])
    else
      let kept := keptCount (mmSpn r)
      (k, ((List.range kept).filter fun j => metaPosition x n (k / 24) j == k % 24).map fun j => k / 24 * kept + j)).filter fun e => e.2 != []

/-- Dense B at a position: the exact sum of the values kept there, with the flags of infinities that meet (R210, R269). -/
def denseB (vb : Nat → FVal) (l : List Nat) : FOut :=
  match l with
  | [] => exactly (.fin false 0 0)
  | j :: t => t.foldl (fun o i =>
      let p := fpAdd .rne o.v (vb i)
      { p with flags := p.flags ||| o.flags }) (exactly (vb j))

/-- The product at a position of a group. -/
def termProduct (va vb : Nat → FVal) (e : Nat × List Nat) : FOut :=
  let b := denseB vb e.2
  let p := fpMul (va e.1) b.v
  { p with flags := p.flags ||| b.flags }

/-- The exact sum of finite products. An exact zero is −0 only when every product is −0 (R271); positions that sparsity drops make no product,
and a group without a product gives +0 (log 37). -/
def sumFinite (l : List (Bool × Nat × Int)) : FVal :=
  let e := l.foldl (fun e p => min e p.2.2) 0
  let t := l.foldl (fun (t : Int) p => t + scaledTo p.1 p.2.1 p.2.2 e) 0
  if t = 0 then .fin (l != [] && l.all fun p => p.1 && p.2.1 == 0) 0 0 else .fin (t < 0) t.natAbs e

def finiteOf : FOut → Option (Bool × Nat × Int)
  | { v := .fin n m e, .. } => some (n, m, e)
  | _ => none
def infSign : FOut → Option Bool
  | { v := .inf n, .. } => some n
  | _ => none

/-- The sum of a group's products with its special values and flags (R214). ∞ × 0 and infinite products of opposite sign raise NV beside a
quiet NaN operand too, as ∞ × 0 does in R95 (log 37). -/
def groupSum (l : List FOut) : FVal × BitVec 5 :=
  let infs := l.filterMap infSign
  let clash := infs.contains true && infs.contains false
  let flags := l.foldl (fun f o => f ||| o.flags) (if clash then flagNV else (0 : BitVec 5))
  if clash || l.any fun o => o.v.isNan then (.nan false, flags)
  else match infs with
    | n :: _ => (.inf n, flags)
    | [] => (sumFinite (l.filterMap finiteOf), flags)

/-- S × 2^e. -/
def scaleSum (v : FVal) (e : Int) : FVal :=
  match v with
  | .fin n m x => .fin n m (x + e)
  | v => v

/-- acc + S, one rounding to nearest (R213, R214); a signalling NaN that the accumulator holds is read, and raises NV (R204, R210). -/
def accumulateFp (f : FpFmt) (sat : Bool) (acc : Nat) (s : FVal) : Nat × BitVec 5 := f.deliver .rne sat (fpAdd .rne (f.read acc) s)

/-- One entry of an FP case (R271). -/
def accumulateEntry (x : Engine) (r : Record) (neg : Bool) (q m n : Nat) : Nat × BitVec 5 :=
  let acc := accRead x (productInterp r) (recAcc r) m n
  let terms := groupTerms x r q n
  let va := fun (k : Nat) => matVal r.fmta (unitA x r m k) k
  let vb := fun (k : Nat) => matVal r.fmtb (unitB x r n k) k
  match fmtKind (productInterp r) with
  | .fp f =>
    if productGroup r = 1 then
      match terms with
      | (i, l) :: _ =>
        let a := va i
        let b := denseB vb l
        let v := f.deliver .rne (recSat r) (fpFma .rne (if neg then a.flip else a) b.v (f.read acc))
        (v.1, v.2 ||| b.flags)
      | [] => (acc, 0)
    else
      let sa := stagedValue x (.scaleA m q)
      let sb := stagedValue x (.scaleB n q)
      let sum : FVal × BitVec 5 :=
        if r.scm = 1 ∧ (sa = 255 ∨ sb = 255) then (.nan false, 0)
        else
          let t := groupSum (terms.map (termProduct va vb))
          if r.scm = 1 then (scaleSum t.1 ((sa : Int) - 127 + ((sb : Int) - 127)), t.2) else t
      let v := accumulateFp f (recSat r) acc (if neg then sum.1.flip else sum.1)
      (v.1, v.2 ||| sum.2)
  | .int w sg =>
    let t := (terms.map fun p => matInt r.fmta (unitA x r m p.1) p.1
      * (p.2.map fun j => matInt r.fmtb (unitB x r n j) j).foldl (· + ·) 0).foldl (· + ·) (0 : Int)
    (intLane w sg (recSat r) (laneInt w sg acc + if neg then -t else t), 0)
  | _ => (acc, 0)

/-- The entries of a tile of M rows and N columns. -/
def tileEntries (m n : Nat) : List (Nat × Nat) := (List.range m).flatMap fun i => (List.range n).map fun j => (i, j)

/-- Stages what an element read, and counts its illegal ternary bytes in R272's order. -/
def stageElement (x : Engine) (r : Record) (q : Nat) (reads : List (Staged × Comp)) (l : List Nat) : Engine :=
  let got := reads.zip l
  let x := { x with prog := { x.prog with sources := got.foldl (fun t e => tabSet t (stagedKey e.1.1) e.2) x.prog.sources } }
  let bad := got.filterMap fun e => match e.1.1 with
    | .a _ _ => if packedTernary r.fmta ∧ e.2 > 242 then some (addrWord e.1.2.addr) else none
    | .b _ _ => if packedTernary r.fmtb ∧ e.2 > 242 then some (addrWord e.1.2.addr) else none
    | _ => none
  addBad x q bad

/-- Drops what no later element needs: dense values that do not straddle elements. -/
def unstage (x : Engine) (r : Record) : Engine :=
  if mmSpn r ≠ 0 ∨ packedTernary r.fmta ∨ packedTernary r.fmtb then x
  else { x with prog := { x.prog with sources := x.prog.sources.filter fun e => 5 * 64 * 131072 ≤ e.1 } }

/-- One element of a product (R271). -/
def productElement (neg : Bool) (cmd : Command) : Effect := fun x q l =>
  let r := cmd.record
  let staged := stageElement x r q (productReads x r q) l
  let out := (tileEntries r.t1.toNat r.t2.toNat).foldl (fun y e =>
    let v := accumulateEntry staged r neg q e.1 e.2
    addFlags (accWrite y (productInterp r) (recAcc r) e.1 e.2 v.1) v.2) staged
  (unstage out r, [])

/-! ### What stops an element (R269, R279, R332) -/

/-- The first faulty metadata record of an element: increasing column, then group. -/
def metaFault (x : Engine) (r : Record) (q : Nat) : Option Word :=
  if mmSpn r = 0 then none
  else ((List.range r.t2.toNat).flatMap fun n => (metaGroups r q).map fun b => (n, b)).findSome? fun e =>
    if (List.range (keptCount (mmSpn r))).any fun j => metaPosition x e.1 e.2 j > 23 then
      some (addrWord (sideAddr r r.d3.s2 + ((e.1 * (r.t0.toNat / 24) + e.2 : Nat) : Int) * 16))
    else none

/-- The engine fault an element raises before it is applied: its AUX and value. -/
def elementFault (x : Engine) (r : Record) (q : Nat) (l : List Nat) : Option (BitVec 8 × Word) :=
  let poisoned := fun (a : Nat) => setHas x.accPoison a
  match r.op.toNat with
  | 0x0100 | 0x0101 =>
    if poisoned (recAcc r) ∨ (mmLat r ∧ x.latchPoison) then some (0x04, 0)
    else (metaFault (stageElement x r q (productReads x r q) l) r q).map fun a => (0x07, a)
  | 0x0109 => if poisoned (recAcc r) then some (0x04, 0) else none
  | 0x010A => if poisoned (recAcc r) ∨ poisoned (r.opx.extractLsb' 2 2 : BitVec 2).toNat then some (0x04, 0) else none
  | _ => none

/-- The step of a matrix operation: the first element in flight, once it has met its waits. -/
def matrixStep (op : Instr) (f : Command → Effect) (s : State) : Result :=
  match engineHead s .matrix op with
  | none => .next s
  | some (sc, slot, cmd) =>
    let c := ctxOf s sc slot
    let work := fun (s : State) => matrixWork (engineOf s sc .matrix) cmd
    let p := prepareFlight s sc .matrix c cmd (work s)
    match p.ready with
    | [] => .next (afterSnag p.s sc .matrix c slot cmd op p.snag)
    | d :: _ =>
      let s := setEngine p.s sc .matrix (keepIndices (engineOf p.s sc .matrix) p.s sc [d])
      let values := (d.parts.filter fun q => !q.1.write).map fun q => readReach s sc q.2 q.1.size
      match elementFault (engineOf s sc .matrix) cmd.record d.n values with
      | some (aux, a) => .next (stopEngine s sc .matrix aux a)
      | none =>
        let s := performList sc .matrix (f cmd) s [d]
        .next (afterElements s sc .matrix op c cmd (work s) [d])

def execMmul (s : State) : Result := matrixStep .mmul (productElement false) s
def execMmuln (s : State) : Result := matrixStep .mmuln (productElement true) s

/-! ### Tiles (R274 to R277) -/

/-- The flags of a conversion; integer narrowing records none (R279). -/
def loadRow (cmd : Command) : Effect := fun x m l =>
  let r := cmd.record
  let got := (List.range r.t0.toNat).zip l
  (got.foldl (fun x e =>
    let v := convertLane (fmtKind r.fmta) (fmtKind r.fmtd) (recRnd r) (recSat r) e.2
    addFlags (accWrite x r.fmtd (recAcc r) m e.1 v.1) v.2) x, [])

def execMlda (s : State) : Result := matrixStep .mlda loadRow s

/-- The converted entries of row m. -/
def drainValues (x : Engine) (r : Record) (m : Nat) : List (Nat × BitVec 5) :=
  (List.range r.t0.toNat).map fun (n : Nat) =>
    convertLane (fmtKind r.fmta) (fmtKind r.fmtd) (recRnd r) (recSat r) (accRead x r.fmta (recAcc r) m n)

/-- After the last row CLR zeroes the accumulator. -/
def drainEnd (x : Engine) (r : Record) (m : Nat) : Engine :=
  if m + 1 = r.t1.toNat ∧ recClr r then accZero x (recAcc r) else x

def drainRow (cmd : Command) : Effect := fun x m _ =>
  let r := cmd.record
  let l := drainValues x r m
  (drainEnd (l.foldl (fun x v => addFlags x v.2) x) r m, l.map Prod.fst)

def execMdrn (s : State) : Result := matrixStep .mdrn drainRow s

/-- A row into the A latch; with the last one LST names the tile (R277). -/
def bypassRow (cmd : Command) : Effect := fun x m _ =>
  let r := cmd.record
  let z := fmtBytes r.fmtd
  let l := drainValues x r m
  let x := ((List.range l.length).zip l).foldl (fun x e =>
    addFlags { x with latch := memWriteNat x.latch (latchAddr m e.1) z e.2.1 } e.2.2) x
  let x := if m + 1 = r.t1.toNat then { x with
      latchPoison := false
      lst := { lv := true, lm := BitVec.ofNat 6 (r.t1.toNat - 1), lk := BitVec.ofNat 6 (r.t0.toNat - 1), lfmt := r.fmtd } } else x
  (drainEnd x r m, [])

def execMdrnBypass (s : State) : Result := matrixStep .mdrnBypass bypassRow s

/-! ### Whole accumulators (R278) -/

def addTiles (cmd : Command) : Effect := fun x _ _ =>
  let r := cmd.record
  let src := (r.opx.extractLsb' 2 2 : BitVec 2).toNat
  let side := tileSide r.fmtd
  ((tileEntries side side).foldl (fun y e =>
    let a := accRead x r.fmtd (recAcc r) e.1 e.2
    let b := accRead x r.fmtd src e.1 e.2
    let v : Nat × BitVec 5 := match fmtKind r.fmtd with
      | .fp f => f.deliver .rne (recSat r) (fpAdd .rne (f.read a) (f.read b))
      | .int w sg => (intLane w sg (recSat r) (laneInt w sg a + laneInt w sg b), 0)
      | _ => (a, 0)
    addFlags (accWrite y r.fmtd (recAcc r) e.1 e.2 v.1) v.2) x, [])

def execMadda (s : State) : Result := matrixStep .madda addTiles s

def clearTiles (cmd : Command) : Effect := fun x _ _ =>
  ((List.range 4).foldl (fun x a => if cmd.record.opx.getLsbD a then accZero x a else x) x, [])

def execMclr (s : State) : Result := matrixStep .mclr clearTiles s

end Sys2Proof.Machine
end

