-- ==== Sys2Proof/Machine/Command.lean ====
section
/-! DEFINITION. A command from its start to its completion (R224, R232, R234, R261, R271): what its start does, the units the sequencer issues,
what completion signals, and how the units in flight of a stopped engine retire (R234, R257). -/

namespace Sys2Proof.Machine

/-- The work of a command on its engine. -/
def workOf (e : EngineId) (x : Engine) (cmd : Command) : Work :=
  match e with
  | .vector => vectorWork x cmd
  | .copy => copyWork x cmd
  | .matrix => matrixWork x cmd

/-! ### COMMAND_START (R224, R261, R271, R275) -/

/-- Whether the latch tile does not serve a LAT product (R271). -/
def latchUnfit (x : Engine) (r : Record) : Bool :=
  mmLat r && (!x.lst.lv || x.lst.lfmt != r.fmta || decide (x.lst.lm.toNat + 1 < r.t1.toNat) || decide (x.lst.lk.toNat + 1 < r.t0.toNat))

/-- What the start of a matrix command changes: LV, and the accumulator that CLR names. -/
def startMatrix (x : Engine) (r : Record) : Engine :=
  let x := if isProduct r ∧ !mmLat r then { x with lst := { x.lst with lv := false } } else x
  if (isProduct r ∨ r.op = 0x0108) ∧ recClr r then accZero x (recAcc r) else x

def commandStart (s : State) (sc : ScullId) (e : EngineId) : State :=
  let x := engineOf s sc e
  match x.queue, x.bound with
  | cmd :: _, some _ =>
    if x.started ∨ (scullOf s sc).fenced then s
    else
      let x := { x with started := true, prog := .none, dropped := none }
      if e = .matrix ∧ isProduct cmd.record ∧ latchUnfit x cmd.record then stopEngine (setEngine s sc e x) sc e 0x06 0
      else
        let x := match e with
          | .matrix => startMatrix x cmd.record
          | .vector => { x with wide := [], widePoison := [] }
          | .copy => x
        postOnce (setEngine s sc e x) (.engine sc e) .sequencerUnitIssue
  | _, _ => s

def execCommandStart (s : State) : Result :=
  match s.actor with
  | .engine sc e => .next (commandStart s sc e)
  | _ => .next s

/-! ### SEQUENCER_UNIT_ISSUE (R234); the engines of a fenced scull issue no more (R305) -/

/-- A unit of the vector engine keeps operands and partial results in wide registers; no operation names them, and which one holds what is not
stated (R241; log 76): one is written with a free value, a whole granule (R331). -/
def useWide (s : State) (sc : ScullId) : State :=
  let x := engineOf s sc .vector
  let n := Config.choice s.draws % 32
  setEngine { s with draws := s.draws + 1 } sc .vector {
    x with wide := tabSet x.wide n (Config.freeWide s.draws), widePoison := setDel x.widePoison n }

/-- Issues the next unit: at most four are in flight. -/
def issueUnit (s : State) (sc : ScullId) (e : EngineId) (cmd : Command) : State :=
  let x := engineOf s sc e
  let w := workOf e x cmd
  let n := x.prog.next
  if w.total ≤ n ∨ 4 ≤ x.prog.inflight.length then s
  else
    let count := max 1 (min (w.unit n) (w.total - n))
    let flight := x.prog.inflight ++ [{ first := n, count := count, mask := [] }]
    let s := setEngine s sc e { x with prog := { x.prog with next := n + count, inflight := flight } }
    let s := if e = .vector then useWide s sc else s
    let s := match recordInstr cmd.record with
      | some op => postOnce s (.engine sc e) op
      | none => s
    if n + count < w.total ∧ flight.length < 4 then postOnce s (.engine sc e) .sequencerUnitIssue else s

def sequencerUnitIssue (s : State) (sc : ScullId) (e : EngineId) : State :=
  let x := engineOf s sc e
  match running x, x.bound with
  | some cmd, some _ => if x.frz ∨ x.dropped.isSome ∨ (scullOf s sc).fenced then s else issueUnit s sc e cmd
  | _, _ => s

def execSequencerUnitIssue (s : State) : Result :=
  match s.actor with
  | .engine sc e => .next (sequencerUnitIssue s sc e)
  | _ => .next s

/-- Sets a stopped command going again, where it was: after a thaw, a RETRY or a resumption. -/
def restartCommand (s : State) (sc : ScullId) (e : EngineId) : State :=
  match running (engineOf s sc e) with
  | none => if (engineOf s sc e).queue = [] then s else postOnce s (.engine sc e) .commandStart
  | some cmd =>
    let s := match recordInstr cmd.record with
      | some op => postOnce s (.engine sc e) op
      | none => s
    postOnce (postOnce s (.engine sc e) .sequencerUnitIssue) (.engine sc e) .commandComplete

/-! ### Units that retire without the binder (R234, R257) -/

/-- The step of a record operation. -/
def engineOp (i : Instr) (s : State) : Result :=
  match i with
  | .vadd => execVadd s
  | .vsub => execVsub s
  | .vmul => execVmul s
  | .vdiv => execVdiv s
  | .vfma => execVfma s
  | .vmin => execVmin s
  | .vmax => execVmax s
  | .vabs => execVabs s
  | .vneg => execVneg s
  | .vsqrt => execVsqrt s
  | .vrcp => execVrcp s
  | .vscalb => execVscalb s
  | .vrint => execVrint s
  | .vand => execVand s
  | .vor => execVor s
  | .vxor => execVxor s
  | .vandn => execVandn s
  | .vshl => execVshl s
  | .vshr => execVshr s
  | .vsra => execVsra s
  | .vcnt => execVcnt s
  | .vceq => execVceq s
  | .vclt => execVclt s
  | .vcle => execVcle s
  | .vsel => execVsel s
  | .vcvt => execVcvt s
  | .vexp => execVexp s
  | .vexp2 => execVexp2 s
  | .vlog => execVlog s
  | .vlog2 => execVlog2 s
  | .vsin => execVsin s
  | .vcos => execVcos s
  | .vtanh => execVtanh s
  | .vrsqrt => execVrsqrt s
  | .vsigm => execVsigm s
  | .vrsum => execVrsum s
  | .vrmin => execVrmin s
  | .vrmax => execVrmax s
  | .vrand => execVrand s
  | .vror => execVror s
  | .vrxor => execVrxor s
  | .vbfly => execVbfly s
  | .vtwid => execVtwid s
  | .vcmul => execVcmul s
  | .vunp3 => execVunp3 s
  | .viota => execViota s
  | .mmul => execMmul s
  | .mmuln => execMmuln s
  | .mlda => execMlda s
  | .mdrn => execMdrn s
  | .mdrnBypass => execMdrnBypass s
  | .madda => execMadda s
  | .mclr => execMclr s
  | .ccopy => execCcopy s
  | .cgath => execCgath s
  | .cscat => execCscat s
  | .cclr => execCclr s
  | .csetf => execCsetf s
  | .csipw => execCsipw s
  | .csipr => execCsipr s
  | .cpref => execCpref s
  | _ => .next s

/-- One step of an engine's running command. -/
def runUnits (s : State) (sc : ScullId) (e : EngineId) (op : Instr) : State :=
  match engineOp op { s with actor := .engine sc e } with
  | .next t => { t with actor := s.actor }
  | _ => s

/-- Carries to completion what an engine that stops has begun: every element in flight whose waits have been met (R234), of a product the one
element in the array (R273), and of a slot command what is left of a slot that it has claimed (R251, R257). -/
def retireUnits (s : State) (sc : ScullId) (e : EngineId) : State :=
  match (running (engineOf s sc e)).bind fun cmd => recordInstr cmd.record with
  | none => s
  | some .csipw | some .csipr => retireSlot s sc
  | some op => runUnits s sc e op

/-! ### COMMAND_COMPLETE (R224, R232) -/

def engineAux (e : EngineId) : BitVec 8 := if e = .matrix then 0x10 else 0x11

/-- The trap a completing command raises: enabled FP flags, else illegal ternary bytes under BTE. -/
def completionTrap (e : EngineId) (x : Engine) : Option Trap :=
  let f := x.prog.flags &&& x.fen
  if f ≠ 0 then some { code := 0x05, aux := engineAux e, tval := f.setWidth 64 }
  else match x.prog.badAt with
    | some (_, a) => if x.bte then some { code := 0x0E, aux := engineAux e, tval := a } else none
    | none => none

def commandComplete (s : State) (sc : ScullId) (e : EngineId) : State :=
  let x := engineOf s sc e
  match running x, x.bound with
  | some cmd, some slot =>
    if x.frz ∨ x.prog.inflight ≠ [] ∨ x.prog.owed ≠ [] ∨ x.prog.next ≠ (workOf e x cmd).total then s
    else
      let rest := x.queue.drop 1
      let s := setEngine s sc e { x with queue := rest, started := false, prog := .none }
      let s := if cmd.record.semen = 1 then signalSem s sc cmd.record.semn.toNat else s
      let s := match completionTrap e x with
        | some t => pendEngineTrap s sc e slot t
        | none => s
      let s := wakeBinder (acceptWaiting s sc e) sc e slot
      if rest = [] then s else post s 1 (.engine sc e) .commandStart
  | _, _ => s

def execCommandComplete (s : State) : Result :=
  match s.actor with
  | .engine sc e => .next (commandComplete s sc e)
  | _ => .next s

end Sys2Proof.Machine
end

