-- ==== Sys2Proof/Machine/Lifecycle.lean ====
section
/-! DEFINITION. A context's life (R13, R19 to R23, R31 to R34, R126, R166): withdrawing its waits, ending it, deciding an active message,
starting it, HALT and HALT.KEEP, kept frames, LAUNCH and LWAIT (R190 to R195). -/

namespace Sys2Proof.Machine

/-! ### Withdrawal (R38, R126, R134, R166, R328) -/

/-- A wait that ends with the instruction still to be issued, or with the AQR of a cancelled reservation (R171). -/
def unwait (s : State) (k : Nat) : State := setCtxAt s k (awake (goBack (ctxAt s k)))

def eraseId (l : List Nat) (id : Nat) : List Nat := l.filter (· != id)

/-- Removes an access from every queue in which one can wait for a page, a chamber or a word. -/
def unqueueAccess (s : State) (id : Nat) : State :=
  { s with
    sculls := tabMap (fun _ x => { x with
      wordQueues := (tabMap (fun _ q => eraseId q id) x.wordQueues).filter fun e => e.2 != []
      groups := tabMap (fun _ g => { g with waiters := (tabMap (fun _ q => eraseId q id) g.waiters).filter fun e => e.2 != [] })
        x.groups }) s.sculls
    directory := { s.directory with live := tabMap (fun _ x => { x with waiters := eraseId x.waiters id }) s.directory.live } }

/-- The message of a LAUNCH that its scull has not decided. -/
def undecidedLaunch (s : State) (id : Nat) : Option Nat :=
  s.items.findSome? fun e => match e.2 with
    | .launch m => if m.sender = some id ∧ !m.accepted then some e.1 else none
    | _ => none

/-- The steps a context waits for are off the agenda. -/
def unpostContext (s : State) (k : Nat) : State :=
  { s with agenda := s.agenda.filter fun p => p.actor != .context (keyScull k) (keySlot k) }

/-- Withdraws the wait of the context with key k (R166): its entry leaves the queue it waits in and pc still addresses the instruction.
What has already left and completes by itself stays: an access on its way and a launch that has been decided (R38). -/
def withdraw (s : State) (k : Nat) : State :=
  let sc := keyScull k
  let slot := keySlot k
  let c := ctxAt s k
  let s := if (waitOf c).isSome then unpostContext s k else s
  match waitOf c with
  | none => s
  | some (.access id) =>
    match accessOf s id with
    | some a =>
      if a.phase = .atPage ∨ a.phase = .atWord then unwait (dropItem (unqueueAccess s id) id) k else s
    | none => unwait s k
  | some (.status _ id) => match undecidedLaunch s id with
    | some n => unwait (dropItem (dropItem s n) id) k
    | none => s
  | some (.make _ _) => s
  | some (.reservation _) => cancelToAqr s k
  | some .siphon =>
    unwait { s with sculls := tabMap (fun _ x => { x with sipWaiters := x.sipWaiters.filter fun w => w.who != .context k }) s.sculls } k
  | some (.send id) =>
    match sendOf s id with
    | some m => if m.report = some none then complete (dropItem s id) k c else unwait (dropItem s id) k
    | none => unwait s k
  | some (.semaphore n) =>
    let x := scullOf s sc
    unwait (setScull s sc { x with semQueues := tabSet x.semQueues n.toNat (eraseId (tabGet [] x.semQueues n.toNat) k) }) k
  | some (.bind e) =>
    let x := engineOf s sc e
    let s := setEngine s sc e { x with bindQueue := x.bindQueue.filter (· != slot) }
    unwait (setScull s sc { scullOf s sc with revokes := (scullOf s sc).revokes.filter (· != .engine e slot) }) k
  | some (.reissue (.dropped seq _)) =>
    unwait { s with fs := { s.fs with awaiting := s.fs.awaiting.filter fun w => w.1 != seq } } k
  | some .directory =>
    unwait { s with directory := { s.directory with
      requests := s.directory.requests.filter fun r => r.actor != .context sc slot } } k
  | some .table =>
    unwait { s with table := { s.table with requests := s.table.requests.filter fun r => r.actor != .context sc slot } } k
  | some (.future i _) =>
    unwait { s with table := { s.table with
      live := tabMap (fun n f => if n = i.toNat then { f with waiters := eraseId f.waiters k } else f) s.table.live } } k
  | some _ => unwait s k

/-! ### The end of a context (R31, R32, R126, R302) -/

/-- Whether a core group still has a member on its scull: resident, parked (R32), or accepted and about to start (R130, R398). -/
def groupAlive (s : State) (sc : ScullId) (crew : CrewId) : Bool :=
  ((crewKeys s crew).any fun k => k / 64 == sc.toNat) || ((parkedOf s crew).any fun e => e.2.sc == sc)
    || s.items.any fun e => match e.2 with
      | .launch m => m.accepted && m.crew == crew && m.target == sc
      | _ => false

/-- Whether launches into the crew are on their way or accepted. -/
def launchesFor (s : State) (crew : CrewId) : Bool :=
  s.items.any fun e => match e.2 with
    | .launch m => m.crew == crew
    | _ => false

/-- Sets the completion of a task going once every context of its crew has retired (R295, R302). -/
def checkTask (s : State) (crew : CrewId) : State :=
  match crewOf s crew with
  | none => s
  | some x =>
    if x.state = .running ∧ x.settling = [] ∧ crewKeys s crew = [] ∧ parkedOf s crew = [] ∧ !launchesFor s crew then
      postOnce s .none (.taskComplete crew)
    else s

/-- Whether a crew is being pre-empted, so that its retirements are acknowledgements (R302). -/
def preempting (s : State) (crew : CrewId) : Bool :=
  match crewOf s crew with
  | some x => x.state == .signalled || x.state == .draining
  | none => false

/-- Whether a PREEMPT of the crew takes effect at the end of this cycle: a HALT that completes in it may be an acknowledgement (R303). -/
def preemptComing (s : State) (crew : CrewId) : Bool :=
  s.agenda.any fun p => decide (p.due ≤ s.cycle) && match p.instr with
    | .preemptPacket q => let x := queueOf s q
      x.head != x.tail && (hubWord s (ringEntry x x.head + 8)).setWidth 32 == crew
    | _ => false

/-- The barrier arrivals of a context that will be resumed (R197, R304). -/
def keepArrivals (x : Crew) (k : Nat) (c : Ctx) (slot : Slot) : Crew :=
  let leave := fun (b : Barrier) =>
    if b.arrived.contains k then { b with arrived := eraseId b.arrived k, parked := b.parked ++ [(c.cidx, slot)] } else b
  let passed : List BarLevel := (c.barrier.filter Prod.snd).map Prod.fst
  { x with barriers := x.barriers.map leave, barDone := x.barDone ++ passed.map fun level => (c.cidx, slot, level) }

/-- An acknowledgement of pre-emption (R302): entry none for a context that is not resumed. -/
def acknowledge (s : State) (k : Nat) (entry : Option Word) : State :=
  let c := ctxAt s k
  match crewOf s c.crew, entry with
  | some x, some e =>
    let slot := keySlot k
    let x := keepArrivals x k c slot
    setCrew s c.crew { x with acks := x.acks ++ [(c.cidx, slot, e)] }
  | _, _ => s

/-- A context that ends in the cycle of a PREEMPT of its crew: what its end is, the PREEMPT decides (R303). -/
def endsLate (s : State) (k : Nat) (keep : Option Word) : State :=
  let c := ctxAt s k
  match crewOf s c.crew with
  | none => s
  | some x =>
    let x := if keep.isSome then keepArrivals x k c (keySlot k) else x
    setCrew s c.crew { x with ending := x.ending ++ [(keyScull k, c.cidx, keySlot k, keep)] }

/-- Once every context of a signalled crew has acknowledged, it drains (R300). -/
def checkSignalled (s : State) (crew : CrewId) : State :=
  match crewOf s crew with
  | none => s
  | some x =>
    if x.state = .signalled ∧ x.settling = [] ∧ crewKeys s crew = [] ∧ !launchesFor s crew then
      postOnce (setCrew s crew { x with state := .draining }) .none (.crewDrainComplete crew)
    else s

/-- The frames of a core group whose last member has gone: kept for a successor, or released (R31 to R33); a crew that is being pre-empted
keeps its pages until they are parked (R302). Kept frames stay in the crew's page table, so the crew's other sculls go on reaching them (log 68). -/
def endGroup (s : State) (sc : ScullId) (crew : CrewId) (keep : Option Word) : State :=
  if groupAlive s sc crew ∨ preempting s crew ∨ preemptComing s crew then s
  else match keep, groupOf s sc crew with
    | some entry, some g =>
      let t := (scullOf s sc).keepto.toNat
      if t = 0 then releaseGroup s sc crew
      else post (setGroup s sc crew { g with kept := some (entry, s.cycle + t) }) t (.scull sc) .keepTimeout
    | _, _ => releaseGroup s sc crew

/-- Ends a context: its slot is FREE, its window dirty, its engines unbound, its reservation cancelled; the scull gives its notice (R31,
R119, R126). -/
def endContext (s : State) (k : Nat) (keep : Option Word) : State :=
  let sc := keyScull k
  let slot := keySlot k
  let c := ctxAt s k
  let s := if preempting s c.crew then acknowledge s k keep else if preemptComing s c.crew then endsLate s k keep else s
  let s := failSends (cancelResv s k) k
  let s := (boundEngines s sc slot).foldl (fun s e => unbindEngine s sc e) s
  let s := { s with agenda := s.agenda.filter fun p => p.actor != .context sc slot }
  let s := dirtyWindow (setCtxAt s k .absent) sc c
  let s := leaveBarriers s c.crew k
  let s := scullNotice (endGroup s sc c.crew keep) sc
  checkTask (checkSignalled s c.crew) c.crew

/-- MKILL of a context (R126): it waits for nothing; its accesses that have left still perform, and what its engines have begun retires
(R234, R257). -/
def killContext (s : State) (k : Nat) : State :=
  let sc := keyScull k
  let slot := keySlot k
  let s := withdraw s k
  let s := (boundEngines s sc slot).foldl (fun s e =>
    clearEngine (retireUnits s sc e) sc e) s
  endContext s k none

/-! ### HALT and HALT.KEEP (R31, R33, R119) -/

/-- Waits until the engine queues are empty and the outstanding accesses have performed, then retires. -/
def haltBody (keep : Option Word) (s : State) (sc : ScullId) (slot : Slot) (c : Ctx) : State :=
  if c.overlap ≠ [] ∨ (boundEngines s sc slot).any (fun e => (engineOf s sc e).queue != []) then park s sc slot c (.reissue .retire)
  else endContext s (ctxKey sc slot) keep

def execHalt (s : State) : Result := .next (issueBy .halt [] [] false (haltBody none) s)

def execHaltKeep (a : Reg) (s : State) : Result :=
  .next (issueBy (.haltKeep a) [a] [] false (fun s sc slot c =>
    let e := readReg c a
    if e.toNat % 8 ≠ 0 then raise s sc slot { code := 0x03, aux := 0, tval := e }
    else haltBody (some e) s sc slot c) s)

/-- The crews with kept frames on a scull. -/
def keptCrews (s : State) (sc : ScullId) : List (CrewId × Word × Nat) :=
  (scullOf s sc).groups.filterMap fun e => e.2.kept.map fun p => (BitVec.ofNat 32 e.1, p.1, p.2)

/-- KEEP_TIMEOUT (R33): kept frames whose time has passed are released. -/
def keepTimeout (s : State) (sc : ScullId) : State :=
  (keptCrews s sc).foldl (fun s p => if p.2.2 ≤ s.cycle then releaseGroup s sc p.1 else s) s

def execKeepTimeout (s : State) : Result :=
  match s.actor with
  | .scull sc => .next (keepTimeout s sc)
  | _ => .next s

/-- KEEP_RELEASE (R34): all kept frames of the scull at once. -/
def keepRelease (s : State) (sc : ScullId) : State := (keptCrews s sc).foldl (fun s p => releaseGroup s sc p.1) s

def execKeepRelease (s : State) : Result :=
  match s.actor with
  | .scull sc => .next (keepRelease s sc)
  | _ => .next s

/-! ### Entry headers (R14, R15) -/

/-- The header a word holds; none where it is invalid. -/
def readHeader (w : Word) : Option Header :=
  let frm := (w.extractLsb' 40 8 : BitVec 8).toNat
  let rgn := (w.extractLsb' 35 5 : BitVec 5).toNat
  if w.extractLsb' 56 8 ≠ (0 : BitVec 8) ∨ w.extractLsb' 48 8 ≠ (0xE9 : BitVec 8) ∨ w.extractLsb' 0 31 ≠ (0 : BitVec 31) ∨ rgn = 0
      ∨ 16 < rgn ∨ 96 < frm then none
  else
    let cls : Cls := if w.getLsbD 34 then .harvest else .owner
    some { frm := frm, rgn := rgn, cls := cls, em := w.getLsbD 33, ev := w.getLsbD 32, ec := w.getLsbD 31 }

/-! ### Status words (R192) -/

/-- A launch status word. -/
def statusWord (status : BitVec 2) (ncnt : BitVec 32) (unit : Bool) (cidx : BitVec 11) : Word :=
  ncnt ++ b1 unit ++ (0 : BitVec 4) ++ cidx ++ (0 : BitVec 14) ++ status

def statusOf (s : State) (id : Nat) : Option StatusMsg :=
  match itemOf s id with
  | some (.status m) => some m
  | _ => none

/-- Sends a status word, or a trap, back to the context that waits for it. -/
def answerStatus (s : State) (sender : Option Nat) (v : Word) (t : Option Trap) : State :=
  match sender with
  | none => s
  | some id => match statusOf s id with
    | some m => postLater (setItem s id (.status { m with value := v, trap := t })) (.item id) .launchStatusReturn
    | none => s

/-- The image that holds a wait for an item: the context in a slot, or a parked one. -/
def parkedWaiting (s : State) (w : Ctx → Bool) : Option (Nat × Parked) :=
  s.items.findSome? fun e => match e.2 with
    | .parked p => if w p.ctx then some (e.1, p) else none
    | _ => none

def waitsStatus (id : Nat) (c : Ctx) : Bool :=
  match waitOf c with
  | some (.status _ n) => n == id
  | _ => false

/-- A parked image whose instruction completes (R38); one whose reservation was cancelled goes on at its AQR. -/
def completeImage (p : Parked) (c : Ctx) : Parked := { p with ctx := awake (goBack (retire c)) }

/-- The trap of a parked image's instruction, entered in the image; where that freezes, the record is sent now and the context will resume
into FROZEN (R338). -/
def trapImage (s : State) (id : Nat) (p : Parked) (t : Trap) : State :=
  let c := { p.ctx with back := none }
  let cw := { c with cause := causeWord t, tval := t.tval }
  if c.hnd ∨ c.tvec = 0 then
    let m := Master.context p.sc p.slot
    let s := setItem s id (.parked { p with ctx := { cw with st := .frozen .ready } })
    let s := sendRecord s 0x03 0 c.asid m t.tval c.pc (trapDetail c t) (whoWord c.crew c.cidx p.slot)
    let s := postLater s .none (.supervisorFreezeMessage c.crew false p.slot p.sc)
    taskFault s c.crew (t.code.setWidth 8) t.aux (masterWord m) c.pc t.tval
  else setItem s id (.parked { p with ctx := { cw with st := .ready, tpc := c.pc, hnd := true, pc := c.tvec } })

/-! ### The outcome of an access returns to its context (R26, R38, R324) -/

/-- The value a load or atomic writes (R162, R175). -/
def resultValue (a : Access) (v : Word) : Word :=
  match a.op with
  | .load signed => extendValue signed a.size v
  | _ => v

/-- A trap that ends an overlap access is reported late, bit 7 of AUX set (R324), and after this cycle (R322). -/
def deferTrap (c : Ctx) (t : Trap) : Ctx :=
  { c with deferred := c.deferred ++ [{ t with aux := t.aux ||| 0x80 }], freshTraps := c.freshTraps + 1 }

/-- What an overlap access's outcome does to its context's registers. -/
def overlapDone (c : Ctx) (id : Nat) (a : Access) : Ctx :=
  let c := { c with overlap := eraseId c.overlap id }
  match a.phase with
  | .value v => writeReg c a.d (resultValue a v)
  | .trapped t => deferTrap c t
  | _ => c

/-- A context that waits for its overlap accesses issues again. -/
def wakeOverlap (c : Ctx) : Ctx :=
  match waitOf c with
  | some (.reissue .overlap) | some (.reissue .drain) | some (.reissue .retire) => awake c
  | _ => c

/-- The outcome returns to the context in its slot. -/
def answerContext (s : State) (id : Nat) (a : Access) (k : Nat) : State :=
  let c := ctxAt s k
  if a.ov then setCtxAt s k (wakeOverlap (overlapDone c id a))
  else match a.phase with
    | .value v => complete s k (writeReg c a.d (resultValue a v))
    | .trapped t => trapWaiting s k t
    | _ => complete s k c

/-- The outcome returns to a parked image (R38). -/
def answerImage (s : State) (id : Nat) (a : Access) (n : Nat) (p : Parked) : State :=
  if a.ov then setItem s n (.parked { p with ctx := overlapDone p.ctx id a })
  else match a.phase with
    | .value v => setItem s n (.parked (completeImage p (writeReg p.ctx a.d (resultValue a v))))
    | .trapped t => trapImage s n p t
    | _ => setItem s n (.parked (completeImage p p.ctx))

/-- The access is over: its outcome goes to whoever waits for it. That of a killed context is dropped (R126). -/
def deliverAccess (s : State) (id : Nat) (a : Access) : State :=
  let k := ctxKey a.sc a.slot
  let s := dropItem s id
  if ownsAccess (ctxAt s k) id then answerContext s id a k
  else match parkedWaiting s (fun c => ownsAccess c id) with
    | some (n, p) => answerImage s id a n p
    | none => s

/-- A waiting access ends in this cycle with a trap: its context takes it, or has it deferred (R322, R324). -/
def failAccess (t : Word → Trap) (s : State) (id : Nat) : State :=
  match accessOf s id with
  | some a => deliverAccess s id { a with phase := .trapped (t a.ea) }
  | none => s

/-! ### Launch statuses return (R192) -/

/-- LAUNCH_STATUS_RETURN (R192). -/
def execLaunchStatusReturn (s : State) : Result :=
  match s.actor with
  | .item id => match statusOf s id with
    | none => .next s
    | some m =>
      let k := ctxKey m.sc m.slot
      let c := ctxAt s k
      let s := dropItem s id
      if waitsStatus id c then
        match m.trap with
        | some t => .next (trapWaiting s k t)
        | none => .next (complete s k (writeReg c m.d m.value))
      else match parkedWaiting s (waitsStatus id) with
        | none => .next s
        | some (n, p) => match m.trap with
          | some t => .next (trapImage s n p t)
          | none => .next (setItem s n (.parked (completeImage p (writeReg p.ctx m.d m.value))))
  | _ => .next s

/-! ### LAUNCH and LWAIT (R191, R193, R195) -/

/-- Where a LAUNCH goes. -/
inductive LaunchTo where
  | scull (sc : ScullId)
  | notResident (n : ChamberSlot)
  | fails (t : Trap)
  deriving DecidableEq, Repr

/-- The sculls that hold a frame of a chamber. -/
def holderSculls (x : Chamber) : List ScullId := (x.holders.map Prod.fst).eraseDups

/-- The target in ga (R191, R193). -/
def launchTarget (s : State) (sc : ScullId) (c : Ctx) (ga : Word) : LaunchTo :=
  if ga.getLsbD 63 then
    match openChamber s c.asid ga with
    | none => .fails (attachMiss 0x03 ga)
    | some x =>
      let here := ((List.range (c.csz.toNat + 1)).map fun i => memberOf s c.crew sc i).find? fun y => (holderSculls x).contains y
      match x.state, here with
      | .resident, some y => .scull y
      | _, _ => .notResident (handleSlot ga)
  else if ga.extractLsb' 11 52 ≠ (0 : BitVec 52) ∨ c.csz.toNat < (ga.extractLsb' 0 11 : BitVec 11).toNat then .fails (capacityTrap 0x02 ga)
  else .scull (memberOf s c.crew sc (ga.extractLsb' 0 11 : BitVec 11).toNat)

/-- Reads the header before an entry as a fetch charged to the sender (R15); k has the word. -/
def withHeader (s : State) (sc : ScullId) (slot : Slot) (c : Ctx) (entry : Word) (k : State → Word → State) : State :=
  let a := entry - 8
  if !canonical a then raise s sc slot { code := 0x06, aux := 0x01, tval := a }
  else if !capsGrant c.caps c.asid rightsFetch a.toNat 8 then freezeCap s sc slot .fetch a rightsFetch
  else match translate s sc slot c a .fetch with
    | .miss s => s
    | .hit s pa =>
      if !contextMay s sc pa 8 rightsFetch || inRegisters pa then raise s sc slot (capacityTrap 0x03 a)
      else if globalPoison s pa then raise s sc slot (poisonTrap 0x04 a)
      else
        let s := fetchLine s (shellNode sc) (lineOf pa)
        k s (agentWord s (shellNode sc) pa)

/-- The crew-relative index of a scull in a crew. -/
def indexIn (s : State) (crew : CrewId) (sc : ScullId) : BitVec 11 := BitVec.ofNat 11 ((memberIndex s crew sc).getD 0)

/-- Sends the message and waits for its status. -/
def sendLaunch (s : State) (sc : ScullId) (slot : Slot) (c : Ctx) (d : Reg) (ga : Word) (m : LaunchMsg) : State :=
  let id := s.nextId
  let s := addItem s (.status { sc := sc, slot := slot, d := d, ga := ga, value := 0, trap := none })
  let mid := s.nextId
  let s := addItem s (.launch { m with sender := some id })
  postLater (park s sc slot c (.status d id)) (.item mid) .activeMessageArrival

/-- The launch unit answers that a chamber is not there, and its refill starts (R193). -/
def launchMissed (s : State) (sc : ScullId) (slot : Slot) (c : Ctx) (d : Reg) (ga : Word) (n : ChamberSlot) : State :=
  let id := s.nextId
  let s := addItem s (.status { sc := sc, slot := slot, d := d, ga := ga, value := 0, trap := none })
  let s := wantChamber (park s sc slot c (.status d id)) n
  answerStatus s (some id) (statusWord 3 s.unit.notice true 0) none

def execLaunch (d a b x y : Reg) (s : State) : Result :=
  .next (issueBy (.launch d a b x y) [a, b, x, y] [d] false (fun s sc slot c =>
    let ga := readReg c a
    let gb := readReg c b
    match launchTarget s sc c ga with
    | .fails t => raise s sc slot t
    | target =>
      if gb.toNat % 8 ≠ 0 then raise s sc slot { code := 0x03, aux := 0, tval := gb }
      else whenDrained s sc slot c .package (withHeader s sc slot c gb fun s w =>
        let c := ctxOf s sc slot
        match target with
        | .scull t =>
          let header := if inColumn s t && !inColumn s sc then none else readHeader w
          sendLaunch s sc slot c d ga {
            sender := none, target := t, crew := c.crew, entry := gb, g1 := readReg c x, g2 := readReg c y, header := header,
            caps := c.caps, asid := c.asid, ptroot := c.ptroot, prv := c.prv, accepted := false }
        | .notResident n => launchMissed s sc slot c d ga n
        | .fails t => raise s sc slot t)) s)

/-- The notice count of a party (R195). -/
def noticeOf (s : State) (unit : Bool) (party : ScullId) : BitVec 32 := if unit then s.unit.notice else (scullOf s party).notice

/-- LWAIT issues: it names nothing to wait for, or leaves rotation for its party's answer (R190, R195). It never traps on what its operand
holds. -/
def lwaitIssue (a : Reg) (s : State) : State :=
  issueBy (.lwait a) [a] [] false (fun s sc slot c =>
    let v := readReg c a
    let status : BitVec 2 := v.extractLsb' 0 2
    let i : BitVec 11 := v.extractLsb' 16 11
    let n : BitVec 32 := v.extractLsb' 32 32
    let unit := v.getLsbD 31
    if status = 0 ∨ status = 2 ∨ (!unit ∧ c.csz.toNat < i.toNat) then finish s sc slot c
    else postLater (park s sc slot c (.notice unit (memberOf s c.crew sc i.toNat) n)) (.context sc slot) (.lwait a)) s

/-- LWAIT (R190, R195): its issue; and, for a context that waits, its arrival at its party, whose count may differ already. -/
def execLwait (a : Reg) (s : State) : Result :=
  .next (match s.actor with
    | .context sc slot => match waitOf (ctxOf s sc slot) with
      | some (.notice unit party n) =>
        if noticeOf s unit party = n then s else complete s (ctxKey sc slot) (ctxOf s sc slot)
      | _ => lwaitIssue a s
    | _ => s)

/-! ### Deciding and starting (R20, R21, R33) -/

/-- What a scull decides on a launch of a header (R20 steps 2 to 5). -/
def roomFor (s : State) (sc : ScullId) (crew : CrewId) (h : Header) (n : Nat) : Bool :=
  n ≤ slotSupply s sc && 8 * h.rgn * n ≤ entrySupply s sc && framesNeeded s sc crew h.frm ≤ (openFrames (scullOf s sc)).length

/-- The context a launch creates, in STARTING (R21, R22). -/
def newContext (s : State) (m : LaunchMsg) (h : Header) : Ctx :=
  let csz := match crewOf s m.crew with
    | some x => x.members.length - 1
    | none => 0
  let signalled := match crewOf s m.crew with
    | some x => x.state == .signalled
    | none => false
  let c := { Ctx.absent with
    st := .starting, ppnd := signalled, hdr := h, crew := m.crew, csz := BitVec.ofNat 11 csz, cidx := indexIn s m.crew m.target, pc := m.entry,
    caps := m.caps, prv := m.prv, asid := m.asid, ptroot := m.ptroot }
  writeReg (writeReg c 1 m.g1) 2 m.g2

/-- Cycles from a launch's arrival to READY when nothing has to be waited for: it issues in the next one, the 28th (R21). -/
def startCycles : Nat := 27

/-- Whether a context that comes into a slot now is FROZEN before it issues: its scull is fenced, or its crew has an isolated member (R305, R334,
R337). -/
def startsFrozen (s : State) (sc : ScullId) (crew : CrewId) : Bool :=
  (scullOf s sc).fenced || match crewOf s crew with
    | some x => x.members.any fun y => setHas s.isolated (y.toNat / 8)
    | none => false

/-- Puts a new context into a slot. -/
def putContext (s : State) (sc : ScullId) (slot : Slot) (c : Ctx) : State :=
  if startsFrozen s sc c.crew then setCtx s sc slot { c with st := .frozen .starting }
  else post (setCtx s sc slot c) startCycles (.context sc slot) .contextStart

/-- An accepted launch takes a free slot, or asks for one that a harvest context holds, which the revocation hands to it (R20, R37). -/
def claimSlot (s : State) (id : Nat) (m : LaunchMsg) (h : Header) : State :=
  match takeSlot s m.target id with
  | some slot =>
    let s := dropHold (dropItem s id) m.target id
    putContext s m.target slot (newContext s m h)
  | none => requestRevoke s m.target (.slot id)

/-- Kept frames before a LAUNCH of the same crew is judged: those kept for another entry are released (R33). -/
def settleKept (s : State) (sc : ScullId) (crew : CrewId) (entry : Word) : State :=
  match (groupOf s sc crew).bind (·.kept) with
  | some (e, _) => if e = entry then s else releaseGroup s sc crew
  | none => s

/-- Accepts a message: its resources are reserved from this cycle (R20 step 5, R398). -/
def acceptLaunch (s : State) (id : Nat) (m : LaunchMsg) (h : Header) : State :=
  let s := growGroup s m.target m.crew h.cls h.frm
  let m := { m with accepted := true, sender := none }
  let s := addHold (setItem s id (.launch m)) m.target { id := id, slots := 1, entries := 8 * h.rgn }
  claimSlot s id m h

/-- Whether a crew takes new contexts: one that drains or is pre-empted does not (R300). -/
def takesLaunches (s : State) (crew : CrewId) : Bool :=
  match crewOf s crew with
  | some x => x.state == .running || x.state == .signalled
  | none => true

/-- ACTIVE_MESSAGE_ARRIVAL (R20, R33, R305). -/
def messageArrives (s : State) (id : Nat) (m : LaunchMsg) : State :=
  let cidx := indexIn s m.crew m.target
  let say := fun (s : State) (st : BitVec 2) =>
    answerStatus s m.sender (statusWord st (if st = 2 then 0 else (scullOf s m.target).notice) false cidx) none
  let ga := match m.sender.bind (statusOf s) with
    | some q => q.ga
    | none => 0
  let drop := fun (s : State) => checkTask (checkSignalled (dropItem s id) m.crew) m.crew
  if setHas s.isolated (m.target.toNat / 8) then drop (say s 1)
  else if (scullOf s m.target).fenced then drop (answerStatus s m.sender 0 (some (poisonTrap 0x03 ga)))
  else
    let s := settleKept s m.target m.crew m.entry
    match m.header with
    | none => drop (say s 2)
    | some h =>
      if h.cls = .harvest then drop (say s 2)
      else
        if takesLaunches s m.crew && roomFor s m.target m.crew h 1 then acceptLaunch (say s 0) id m h else drop (say s 1)

/-- The header of a LAUNCH from the host or a tool hart, read as a fetch of the crew's launch set; where that fails there is no valid header
(log 77). -/
def outsideHeader (s : State) (x : Crew) (target : ScullId) (prv : Bool) (entry : Word) : State × Option Header :=
  let a := entry - 8
  if !canonical a || !capsGrant x.caps x.asid rightsFetch a.toNat 8 then (s, none)
  else match walkTo s hubNode x.ptroot a .fetch (!prv) with
    | .error _ => (s, none)
    | .ok (s, pa) =>
      if inRegisters pa || !contextMay s target pa 8 rightsFetch || globalPoison s pa then (s, none)
      else (fetchLine s hubNode (lineOf pa), readHeader (agentWord s hubNode pa))

/-- A LAUNCH from the host or a tool hart (R19, R22): a context of the crew it names, with that crew's launch set. One that names no crew, no scull
of it or no aligned entry does not reach a scull. -/
def outsideArrives (s : State) (q : OutsideLaunch) : State :=
  match crewOf s q.crew, (crewOf s q.crew).bind (·.members.head?) with
  | some x, some first =>
    let c := { Ctx.absent with crew := q.crew, asid := x.asid, csz := BitVec.ofNat 11 (x.members.length - 1) }
    match launchTarget s first c q.target with
    | .scull t =>
      if q.entry.toNat % 8 ≠ 0 then s
      else
        let prv := x.views.getD ((memberIndex s q.crew t).getD 0) false
        let r := outsideHeader s x t prv q.entry
        let id := r.1.nextId
        let m : LaunchMsg := {
          sender := none, target := t, crew := q.crew, entry := q.entry, g1 := q.g1, g2 := q.g2, header := r.2, caps := x.caps, asid := x.asid,
          ptroot := x.ptroot, prv := prv, accepted := false }
        messageArrives (addItem r.1 (.launch m)) id m
    | .notResident n => wantChamber s n
    | .fails _ => s
  | _, _ => s

/-- ACTIVE_MESSAGE_ARRIVAL (R19, R20): a context's message that has come to its scull, or one from the host or a tool hart. -/
def execActiveMessageArrival (s : State) : Result :=
  match s.actor with
  | .outside q => .next (outsideArrives s q)
  | .item id => match itemOf s id with
    | some (.launch m) => if m.accepted then .next s else .next (messageArrives s id m)
    | _ => .next s
  | _ => .next s

/-- Gives a STARTING context its window and its group's frames; with both it is READY (R21). A dirty window is waited for; one that only a
harvest context's could make is asked for (R37). -/
def contextStarts (s : State) (sc : ScullId) (slot : Slot) : State :=
  let c := ctxOf s sc slot
  let again := fun (s : State) => postLater s (.context sc slot) .contextStart
  match c.st with
  | .starting =>
    let s := grantFresh s sc c.crew
    if c.size = 0 then
      match cleanWindow s sc (entriesOf c) with
      | some b =>
        let c := { c with base := b, size := entriesOf c }
        if freshLeft s sc c.crew then again (setCtx s sc slot c) else setCtx s sc slot { c with st := .ready }
      | none =>
        let owners := (classKeys s sc .owner).filterMap fun k =>
          let o := ctxAt s k
          if o.size = 0 then none else some (o.base, o.size)
        if (findWindow (heldWindows s sc) (entriesOf c)).isNone ∧ (findWindow owners (entriesOf c)).isSome then
          requestRevoke s sc (.window slot)
        else again s
    else if freshLeft s sc c.crew then again s
    else setCtx s sc slot { c with st := .ready }
  | _ => s

def execContextStart (s : State) : Result :=
  match s.actor with
  | .context sc slot => .next (contextStarts s sc slot)
  | .item id => match itemOf s id with
    | some (.launch m) => (match m.accepted, m.header with
      | true, some h => .next (claimSlot s id m h)
      | _, _ => .next s)
    | _ => .next s
  | _ => .next s

end Sys2Proof.Machine
end

