-- ==== Sys2Proof/Machine/Revoke.lean ====
section
/-! DEFINITION. Harvest contexts (R35 to R40): admission's conditions, revocation of a slot, window, frame or engine, the parked image and its
move to the backing area, and resumption on a scull of the shell (R32). -/

namespace Sys2Proof.Machine

/-! ### Parking a context (R37, R38) -/

/-- The SENDs that wait at a context, and its aperture packets, follow it into its image (R17, R386). -/
def holdItems (s : State) (k id : Nat) : State :=
  { s with
    items := tabMap (fun _ i => match i with
      | .send m => if ctxKey m.target m.targetSlot = k ∧ m.arrived.isSome ∧ m.held.isNone ∧ m.report.isNone
          then .send { m with held := some id } else i
      | .packet p => if p.master = .context (keyScull k) (keySlot k) ∧ p.held.isNone then .packet { p with held := some id } else i
      | i => i) s.items }

/-- They are at its new slot once it is resumed. -/
def releaseItems (s : State) (id : Nat) (sc : ScullId) (slot : Slot) : State :=
  { s with
    items := tabMap (fun _ i => match i with
      | .send m => if m.held = some id then .send { m with held := none, target := sc, targetSlot := slot } else i
      | .packet p => if p.held = some id then .packet { p with held := none, master := .context sc slot } else i
      | i => i) s.items }

/-- A parked member's arrivals, under its image's identifier (R197). -/
def awayArrivals (s : State) (crew : CrewId) (k id : Nat) : State :=
  match crewOf s crew with
  | none => s
  | some x =>
    let move := fun (b : Barrier) =>
      if b.arrived.contains k then { b with arrived := eraseId b.arrived k, away := b.away ++ [id] } else b
    setCrew s crew { x with barriers := x.barriers.map move }

/-- And back. -/
def backArrivals (s : State) (crew : CrewId) (k id : Nat) : State :=
  match crewOf s crew with
  | none => s
  | some x =>
    let move := fun (b : Barrier) =>
      if b.away.contains id then { b with arrived := b.arrived ++ [k], away := eraseId b.away id } else b
    setCrew s crew { x with barriers := x.barriers.map move }

/-- Takes a context out of its slot into an image (R37, R365): the slot FREE, the window dirty, the scull's notice given. -/
def parkContext (s : State) (k : Nat) (future : Option (FutureIndex × Reg)) (image : Option Nat) : State :=
  let sc := keyScull k
  let slot := keySlot k
  let c := ctxAt s k
  let id := s.nextId
  let s := holdItems (awayArrivals s c.crew k id) k id
  let s := addItem s (.parked {
    sc := sc, slot := slot, ctx := c, engines := [], future := future, image := image, moved := false, trap := none, ready := false, result := 0 })
  let s := { s with agenda := s.agenda.filter fun p => p.actor != .context sc slot }
  scullNotice (dirtyWindow (setCtxAt s k .absent) sc c) sc

/-- Puts an image back into a slot, in STARTING (R39). -/
def unparkContext (s : State) (id : Nat) (p : Parked) (c : Ctx) (sc : ScullId) (slot : Slot) : State :=
  let s := releaseItems (dropItem s id) id sc slot
  let deferred := match p.trap with
    | some t => t :: c.deferred
    | none => c.deferred
  let frozen := isFrozen c || startsFrozen s sc c.crew
  let st : CtxState := if frozen then .frozen .starting else .starting
  let s := setCtx s sc slot { c with st := st, base := 0, size := 0, deferred := deferred, lastIssue := none }
  let s := { s with
    items := tabMap (fun n i => match i with
    | .access a => if c.overlap.contains n then .access { a with sc := sc, slot := slot } else i
    | i => i) s.items }
  let s := backArrivals s c.crew (ctxKey sc slot) id
  if startsFrozen s sc c.crew then s else post s startCycles (.context sc slot) .contextStart

/-! ### Selecting a victim (R37, R40) -/

/-- Harvest contexts of a scull that can be revoked now: READY or WAITING. -/
def victims (s : State) (sc : ScullId) : List Nat :=
  (classKeys s sc .harvest).filter fun k => match (ctxAt s k).st with
    | .ready | .waiting _ => true
    | _ => false

/-- What a request comes to. -/
inductive Selection where
  | done
  | wait
  | noVictim
  | victim (k : Nat)
  deriving DecidableEq, Repr

/-- Chooses one of some victims (R37 names no rule; log 2), or waits for a FROZEN or STARTING one. -/
def chooseVictim (s : State) (l : List Nat) : State × Selection :=
  match l with
  | [] => (s, .wait)
  | _ =>
    let d := drawChoice s l.length
    match l[d.1]? with
    | some k => (d.2, .victim k)
    | none => (s, .wait)

/-- Whether a request still needs a revocation, and of whom (R37, R40). -/
def selectFor (s : State) (sc : ScullId) (r : RevokeFor) : State × Selection :=
  let any_ := if (classKeys s sc .harvest) = [] then (s, Selection.done) else chooseVictim s (victims s sc)
  match r with
  | .slot id =>
    if wantedSlots s sc id ≤ (freeSlots s sc).length then (s, .done) else any_
  | .window slot =>
    let c := ctxOf s sc slot
    if c.st ≠ .starting ∨ c.size ≠ 0 ∨ (findWindow (heldWindows s sc) (entriesOf c)).isSome then (s, .done) else any_
  | .frame n =>
    let x := scullOf s sc
    match tabFind x.frames n with
    | some (.page crew _) =>
      if !lentFrame x n then (s, .done)
      else
        let mine := (classKeys s sc .harvest).filter fun k => (ctxAt s k).crew == crew
        if mine = [] then (s, .noVictim) else chooseVictim s ((victims s sc).filter fun k => (ctxAt s k).crew == crew)
    | _ => (s, .done)
  | .engine e slot =>
    if waitOf (ctxOf s sc slot) ≠ some (.bind e) then (s, .done)
    else match (engineOf s sc e).bound with
      | some t =>
        if slotClass s sc t = .harvest then chooseVictim s ((victims s sc).filter (· == ctxKey sc t)) else (s, .done)
      | none => (s, .done)
  | .preempt slot =>
    if slotClass s sc slot = .harvest ∧ !isFree (ctxOf s sc slot) then chooseVictim s ((victims s sc).filter (· == ctxKey sc slot))
    else (s, .done)

/-- Whether the reserve banks have room for one more image: 512 general-register entries, 64 link registers (R12). -/
def reserveRoom (s : State) (sc : ScullId) (c : Ctx) : Bool :=
  let held := (scullOf s sc).reserve.foldl (fun n id => match itemOf s id with
    | some (.parked p) => n + entriesOf p.ctx
    | _ => n) 0
  (scullOf s sc).reserve.length < 16 && held + entriesOf c ≤ 512

/-! ### REVOCATION (R37) -/

/-- The state of a bound engine, whose begun elements have retired, goes to its shadow set, its running command stopped where it is (R234,
R256): an element that waits is abandoned, its claim unmade and its access withdrawn (R328). -/
def shadowEngine (sc : ScullId) (id : Nat) (s : State) (e : EngineId) : State :=
  let s := dropSipEngine s sc e
  let x := engineOf s sc e
  let state := { x with bindQueue := [], dropped := none }
  let s := { s with shadows := tabSet s.shadows (engineKey sc e) { parked := id, e := e, state := state } }
  let s := match x.dropped with
    | some d => { s with fs := { s.fs with awaiting := s.fs.awaiting.filter fun w => w.1 != d.1 } }
    | none => s
  setEngine s sc e (freshEngine x)

/-- A division already issued completes into the parked image (R37). -/
def completeDivide (s : State) (k : Nat) : State :=
  let c := ctxAt s k
  match waitOf c with
  | some (.divide d v) => complete s k (writeReg c d v)
  | _ => s

/-- The last context of a harvest crew leaves a scull: frames reserved for its parked pages are open again. -/
def unpromiseParked (s : State) (sc : ScullId) (crew : CrewId) : State :=
  if (crewKeys s crew).any fun k => k / 64 == sc.toNat then s
  else
    let x := scullOf s sc
    setScull s sc { x with promised := x.promised.filter fun e => match e.2 with
      | .page c v => !(c == crew && pageState s sc crew v == some .parked)
      | _ => true }

/-- Stops a victim: its wait withdrawn, its reservation cancelled, its engines into the shadow sets, its registers into the reserve banks. -/
def revokeContext (s : State) (k : Nat) : State :=
  let sc := keyScull k
  let engines := boundEngines s sc (keySlot k)
  let s := engines.foldl (fun s e => retireUnits s sc e) (cancelToAqr (withdraw (completeDivide s k) k) k)
  let id := s.nextId
  let s := engines.foldl (shadowEngine sc id) s
  let crew := (ctxAt s k).crew
  let s := unpromiseParked (parkContext s k none none) sc crew
  let s := setScull s sc { scullOf s sc with reserve := (scullOf s sc).reserve ++ [id] }
  postLater s (.item id) .harvestImageMove

def nextRevocation (s : State) (sc : ScullId) : State :=
  if (scullOf s sc).revokes = [] then s else postOnceWithin s 4 (.scull sc) .revocation

/-- The requester takes up, in this cycle, what is free for it now (R37). -/
def requesterGoesOn (s : State) (sc : ScullId) (r : RevokeFor) : State :=
  match r with
  | .slot id => match itemOf s id, tabFind s.unit.starts id with
    | some (.launch _), _ => hasten s (.item id) .contextStart
    | some (.parked _), _ => hasten s (.item id) .fwaitEvictResume
    | _, some st => hasten s .none (.crewCommitArrival st.crew sc)
    | _, none => s
  | .window slot => hasten s (.context sc slot) .contextStart
  | .engine e slot =>
    if waitOf (ctxOf s sc slot) = some (.bind e) then
      let x := engineOf s sc e
      serveBind (if x.bindQueue.contains slot then s else setEngine s sc e { x with bindQueue := x.bindQueue ++ [slot] }) sc e
    else s
  | _ => s

/-- The plain accesses of a page's own scull that are on their way to it are accepted at its banks (R135). -/
def acceptPlain (s : State) (sc : ScullId) (crew : CrewId) (v : Nat) : State :=
  s.items.foldl (fun s e => match e.2 with
    | .access a =>
      if plainAt sc crew v a then accessArrives { s with agenda := s.agenda.filter fun p => p.actor != .item e.1 } e.1 a else s
    | _ => s) s

/-- A page whose frame is requested: the reservations on its words are cancelled, what its own scull has issued to it is accepted, and it is
UNPINNING (R37, R131, R135, R172). -/
def unpinFrame (s : State) (sc : ScullId) (n : Nat) : State :=
  match tabFind (scullOf s sc).frames n with
  | some (.page crew v) =>
    let s := acceptPlain (cancelFrameResvs s sc n) sc crew v
    match pageState s sc crew v with
    | some (.pinned f) => setPage s sc crew v (.unpinning f)
    | _ => s
  | _ => s

/-- What a request's selection does at once to the resource itself. -/
def takeAway (s : State) (sc : ScullId) (r : RevokeFor) : State :=
  match r with
  | .frame n => unpinFrame s sc n
  | _ => s

/-- REVOCATION: selects the victim of the oldest request and stops it; the resource passes within 86 cycles of the request (R5, R37). -/
def revocation (s : State) (sc : ScullId) : State :=
  let x := scullOf s sc
  match x.granting, x.revokes with
  | none, r :: rest =>
    let q := selectFor s sc r
    let s := q.1
    let drop := fun (s : State) => setScull s sc { scullOf s sc with revokes := rest }
    let grant := fun (s : State) (id : Nat) =>
      postWithin (takeAway (setScull s sc { scullOf s sc with granting := some (r, id) }) sc r) 82 (.scull sc) .revocationGrant
    match q.2 with
    | .done => nextRevocation (requesterGoesOn (drop s) sc r) sc
    | .wait => postOnceWithin s 4 (.scull sc) .revocation
    | .noVictim => grant s s.nextId
    | .victim k =>
      if reserveRoom s sc (ctxAt s k) then
        let id := s.nextId
        grant (revokeContext s k) id
      else postOnceWithin s 4 (.scull sc) .revocation
  | _, _ => s

def execRevocation (s : State) : Result :=
  match s.actor with
  | .scull sc => .next (revocation s sc)
  | _ => .next s

/-! ### REVOCATION_GRANT (R37) -/

/-- A frame that a revocation hands over: scrubbed as it passes (R129), its claimant goes on in this cycle (R37, R398). -/
def handFrame (s : State) (sc : ScullId) (n : Nat) : State :=
  let x := scullOf s sc
  let s := setScull s sc (scrubFrame { x with frames := tabDrop x.frames n } n)
  match tabFind x.promised n with
  | some (.page crew v) => match pageState s sc crew v with
    | some .fresh => ((crewKeys s crew).filter fun k => k / 64 == sc.toNat && (ctxAt s k).st == .starting && (ctxAt s k).size != 0).foldl
        (fun s k => hasten s (.context (keyScull k) (keySlot k)) .contextStart) (grantFresh s sc crew)
    | some (.refilling _) => hasten s .none (.pageRefillComplete sc crew v)
    | _ => s
  | _ => s

/-- The requested frame, UNPINNING since the selection, is written to the harvest crew's backing area and passes on (R37, R131). -/
def grantFrame (s : State) (sc : ScullId) (n : Nat) : State :=
  match tabFind (scullOf s sc).frames n with
  | some (.page crew v) => match pageState s sc crew v with
    | some (.unpinning _) =>
      let wanted := pageWanted s sc crew v
      let s := parkPage s sc crew v n fun s => handFrame s sc n
      if wanted then touchPage s sc crew v else s
    | _ => s
  | _ => s

/-- The requested engine passes to the requester, if it still waits for it and is not FROZEN (R219, R397). -/
def grantRequested (s : State) (sc : ScullId) (e : EngineId) (slot : Slot) : State :=
  let c := ctxOf s sc slot
  if waitOf c = some (.bind e) then
    if isFrozen c ∨ (engineOf s sc e).bound.isSome then requesterGoesOn s sc (.engine e slot) else grantEngine s sc e slot
  else s

/-- The victim's window passes to the requester, scrubbed as it passes (R37). -/
def handWindow (s : State) (sc : ScullId) (victim : Nat) : State :=
  match itemOf s victim with
  | some (.parked p) =>
    let x := scullOf s sc
    setScull s sc { x with dirtyWindows := x.dirtyWindows.filter (· != (p.ctx.base, p.ctx.size)) }
  | _ => s

/-- The resource passes to the requester, which goes on in this cycle (R37). -/
def revocationGrant (s : State) (sc : ScullId) : State :=
  let x := scullOf s sc
  match x.granting with
  | none => s
  | some (r, victim) =>
    let s := setScull s sc { x with granting := none, revokes := x.revokes.filter (· != r) }
    let s := match r with
      | .frame n => grantFrame s sc n
      | .engine e slot => grantRequested s sc e slot
      | .window _ => requesterGoesOn (handWindow s sc victim) sc r
      | r => requesterGoesOn s sc r
    nextRevocation s sc

def execRevocationGrant (s : State) : Result :=
  match s.actor with
  | .scull sc => .next (revocationGrant s sc)
  | _ => .next s

/-! ### HARVEST_IMAGE_MOVE (R38, R39) -/

/-- Whether loads of the image are still outstanding (R38), or an answer it waits for. -/
def imageBusy (s : State) (c : Ctx) : Bool :=
  (match waitOf c with
   | some (.access _) | some (.status _ _) | some (.make _ _) => true
   | _ => false)
  || c.overlap.any fun id => match accessOf s id with
    | some a => (match a.op with
      | .store _ => false
      | _ => true)
    | none => false

/-- Frees the shadow sets of an image; the engines' bind queues are served again. -/
def clearShadows (s : State) (id : Nat) (sc : ScullId) : State :=
  let s := { s with shadows := s.shadows.filter fun e => e.2.parked != id }
  [EngineId.matrix, .vector, .copy].foldl (fun s e => serveBind s sc e) s

/-- Whether the revocation that made the image has still to hand its resource on. -/
def grantingOf (s : State) (id : Nat) (p : Parked) : Bool :=
  match (scullOf s p.sc).granting with
  | some (_, victim) => victim == id
  | none => false

/-- HARVEST_IMAGE_MOVE: the image goes to one of the sixteen places of its index, and its reserve banks and shadow sets are free (R39, R288). -/
def harvestImageMove (s : State) (id : Nat) (p : Parked) : State :=
  if p.moved then s
  else if grantingOf s id p then postLater s (.item id) .harvestImageMove
  else match imageBusy s p.ctx, freeImage s p.ctx.crew p.ctx.cidx with
  | false, some place =>
    let mine := (s.shadows.filter fun e => e.2.parked == id).map fun e => (e.2.e, e.2.state)
    let p := { p with moved := true, engines := mine, image := some place }
    let s := storeImage (setItem s id (.parked p)) p place
    let s := setScull s p.sc { scullOf s p.sc with reserve := eraseId (scullOf s p.sc).reserve id }
    postOnce (clearShadows s id p.sc) .none (.harvestResume (shellOf p.sc))
  | _, _ => postLater s (.item id) .harvestImageMove

def execHarvestImageMove (s : State) : Result :=
  match s.actor with
  | .item id => match itemOf s id with
    | some (.parked p) => .next (harvestImageMove s id p)
    | _ => .next s
  | _ => .next s

/-! ### Admission and resumption (R32, R35, R39) -/

/-- What a decision reserved for harvest contexts that have not arrived yet (R398). -/
def harvestHold (s : State) (h : Hold) : Bool :=
  match tabFind s.unit.starts h.id, itemOf s h.id with
  | some st, _ => st.header.cls == .harvest
  | none, some (.parked p) => p.ctx.hdr.cls == .harvest
  | _, _ => false

/-- Whether a waiting queue at level 7, other than the one asking, holds a scull against a start (R291). -/
def heldScull (s : State) (own : Option QueueId) (sc : ScullId) : Bool :=
  s.queues.any fun e =>
    some (BitVec.ofNat 12 e.1) != own && e.2.level == 7 && e.2.state == .enabled && e.2.head != e.2.tail
      && match e.2.wait with
        | some w => w.sculls.any fun p => p.1 == sc
        | none => false

/-- R35 for n harvest contexts of a header that need a number of frames; those admitted and still to arrive count. -/
def mayAdmit (s : State) (sc : ScullId) (h : Header) (n frames : Nat) : Bool :=
  let x := scullOf s sc
  let here := classKeys s sc .harvest
  let due := x.holds.filter (harvestHold s)
  let held := due.foldl (fun m h => m + h.entries) (here.foldl (fun m k => m + entriesOf (ctxAt s k)) 0)
  let engineFree := fun (e : EngineId) =>
    !mayBind h e || (!shadowTaken s sc e && match (engineOf s sc e).bound with
      | some t => slotClass s sc t != .owner
      | none => true)
  n + heldSlots x ≤ (freeSlots s sc).length && held + 8 * h.rgn * n ≤ x.hbud.toNat
    && due.foldl (fun m h => m + h.slots) here.length + n ≤ 16
    && frames ≤ ((openFrames x).filter fun f => !lentFrame x f).length
    && engineFree .matrix && engineFree .vector && engineFree .copy && !x.fenced && !setHas s.isolated (sc.toNat / 8)

/-- Whether a page has neither a frame nor one reserved for it. -/
def frameless (x : Scull) (crew : CrewId) (v : Nat) (p : PageState) : Bool :=
  match p with
  | .pinned _ | .refilling (some _) => false
  | _ => promisedTo x (.page crew v) == []

/-- Pages of a group that need a frame before its context goes on. -/
def framelessPages (x : Scull) (crew : CrewId) (g : Group) : Nat := (g.pages.filter fun e => frameless x crew e.1 e.2).length

/-- Each of them has one reserved from now on (R398); a harvest crew takes no lent frame (R35). -/
def promisePages (s : State) (sc : ScullId) (crew : CrewId) : State :=
  match groupOf s sc crew with
  | none => s
  | some g => g.pages.foldl (fun s e =>
    let x := scullOf s sc
    if frameless x crew e.1 e.2 then
      match (openFrames x).find? fun f => !lentFrame x f with
      | some f => promiseFrame s sc (.page crew e.1) f
      | none => s
    else s) s

/-- Whether a parked context is the only member of its core group (R32). -/
def aloneInGroup (s : State) (id : Nat) (p : Parked) : Bool :=
  (crewKeys s p.ctx.crew).all (fun k => k / 64 != p.sc.toNat)
    && (parkedOf s p.ctx.crew).all fun e => e.1 == id || e.2.sc != p.sc

/-- The engines it binds are free there. -/
def enginesFree (s : State) (sc : ScullId) (p : Parked) : Bool :=
  p.engines.all fun e => (engineOf s sc e.1).bound.isNone && !shadowTaken s sc e.1

/-- A core group's deposits in its scull's unit. -/
def groupDeposits (s : State) (crew : CrewId) (sc : ScullId) : List Deposit :=
  (scullOf s sc).deposits.filter fun d => d.crew == crew && d.chamber.isNone

/-- Whether they find room on another scull: in its unit, and then in the spill region of the group's index (R179). -/
def depositsFit (s : State) (crew : CrewId) (from_ to_ : ScullId) : Bool :=
  let spilled := match crewOf s crew, memberIndex s crew from_ with
    | some x, some i => (tabGet [] x.spills i).length
    | _, _ => 0
  (groupDeposits s crew from_).length + (scullOf s to_).deposits.length + spilled ≤ 2 * depositUnit

/-- Whether a core group may move to another scull: the crew is not there yet (log 43), and its deposits find room. -/
def mayMove (s : State) (id : Nat) (p : Parked) (to_ : ScullId) : Bool :=
  aloneInGroup s id p && (memberIndex s p.ctx.crew to_).isNone && (groupOf s to_ p.ctx.crew).isNone && depositsFit s p.ctx.crew p.sc to_

/-- Whether a parked context may resume on a scull now. -/
def mayResume (s : State) (id : Nat) (p : Parked) (sc : ScullId) : Bool :=
  let pages := match groupOf s p.sc p.ctx.crew with
    | some g => if sc = p.sc then framelessPages (scullOf s sc) p.ctx.crew g else g.frm
    | none => 0
  (sc == p.sc || mayMove s id p sc) && !heldScull s none sc && mayAdmit s sc p.ctx.hdr 1 pages && enginesFree s sc p

/-- The sculls of its shell, its own first. -/
def resumeSculls (p : Parked) : List ScullId :=
  p.sc :: (((List.range 8).map fun i => (BitVec.ofNat 11 (p.sc.toNat / 8 * 8 + i) : ScullId)).filter (· != p.sc))

/-- The deposits of a moved group, and those that no longer fit the unit spilled, oldest first (R179). -/
def moveDeposits (s : State) (crew : CrewId) (from_ to_ : ScullId) : State :=
  let l := groupDeposits s crew from_
  let excess := l.length - (depositUnit - (scullOf s to_).deposits.length)
  let s := setScull s from_ { scullOf s from_ with deposits := (scullOf s from_).deposits.filter fun d => !l.contains d }
  let r := (l.take excess).foldl (fun (r : State × List Deposit) e =>
    let q := spillEntry r.1 to_ e
    (q.1, if q.2 then r.2 else r.2 ++ [e])) (s, [])
  let x := scullOf r.1 to_
  let s := setScull r.1 to_ { x with deposits := x.deposits ++ r.2 ++ l.drop excess }
  if depositMark < (scullOf s to_).deposits.length then postOnce s (.scull to_) .depositSpill else s

/-- The fabric writes that wait for a moved group's pages (R254). -/
def moveFabric (s : State) (crew : CrewId) (from_ to_ : ScullId) : State :=
  let mine := (scullOf s from_).fabric.filter fun w => w.crew == crew
  if mine = [] then s
  else
    let s := setScull s from_ { scullOf s from_ with fabric := (scullOf s from_).fabric.filter fun w => w.crew != crew }
    postOnce (setScull s to_ { scullOf s to_ with fabric := (scullOf s to_).fabric ++ mine }) (.scull to_) .fabricWrite

/-- A place in a moved group. -/
def movePlace (crew : CrewId) (from_ to_ : ScullId) (p : Place) : Place :=
  match p with
  | .page y c o => if y = from_ ∧ c = crew then .page to_ c o else p
  | p => p

/-- Moves a core group whose pages are all parked to another scull, under the same crew-relative index (R32): with it go its deposits, its
fabric writes, the accesses that wait for it, and its barrier instances. -/
def moveGroup (s : State) (crew : CrewId) (from_ to_ : ScullId) : State :=
  let s := match groupOf s from_ crew with
    | none => s
    | some g =>
      let s := setScull s from_ { scullOf s from_ with groups := tabDrop (scullOf s from_).groups crew.toNat }
      setGroup s to_ crew g
  let s := { s with
    items := tabMap (fun _ i => match i with
      | .access a => .access { a with place := movePlace crew from_ to_ a.place }
      | i => i) s.items }
  let s := match crewOf s crew with
    | none => s
    | some x => setCrew s crew { x with
        members := x.members.map fun y => if y = from_ then to_ else y
        barriers := x.barriers.map fun b => if b.level = .cgrp ∧ b.group = from_.toNat then { b with group := to_.toNat } else b }
  wakeReissue (moveFabric (moveDeposits s crew from_ to_) crew from_ to_) fun r => match r with
    | .page y c _ => y == from_ && c == crew
    | .deposit y => y == from_
    | _ => false

/-- Whether every page of a group is parked. -/
def allParked (g : Group) : Bool := g.pages.all fun e => e.2 == .parked

/-- Resumes a parked context on a scull: frames reserved for its pages, its engines and their commands where they were (R39, R398). -/
def resumeParked (s : State) (id : Nat) (p : Parked) (sc : ScullId) : State :=
  match freeSlot s sc with
  | none => s
  | some slot =>
    let r := loadImage s { p with sc := sc }
    let p := r.2
    let s := promisePages (unparkContext r.1 id p p.ctx sc slot) sc p.ctx.crew
    p.engines.foldl (fun s e =>
      let x := engineOf s sc e.1
      restartCommand (setEngine s sc e.1 { e.2 with bound := some slot, bindQueue := x.bindQueue, fwcnt := x.fwcnt }) sc e.1) s

/-- One parked context: resumed where it may, its group moved first where it must. -/
def tryResume (s : State) (id : Nat) (p : Parked) : State :=
  match (resumeSculls p).find? (mayResume s id p) with
  | none => s
  | some sc =>
    if sc = p.sc then resumeParked s id p sc
    else match groupOf s p.sc p.ctx.crew with
      | none => resumeParked s id p sc
      | some g =>
        if allParked g then resumeParked (moveGroup s p.ctx.crew p.sc sc) id p sc
        else g.pages.foldl (fun s e => unpinPage s p.sc p.ctx.crew e.1) s

/-- HARVEST_RESUME (R32, R35, R39). What cannot resume yet is tried again. -/
def execHarvestResume (h : ShellId) (s : State) : Result :=
  let mine := s.items.filterMap fun e => match e.2 with
    | .parked p => if p.future.isNone && p.moved && shellOf p.sc == h then some e.1 else none
    | _ => none
  let s := mine.foldl (fun s id => match itemOf s id with
    | some (.parked p) => tryResume s id p
    | _ => s) s
  let left := s.items.any fun e => match e.2 with
    | .parked p => p.future.isNone && p.moved && shellOf p.sc == h
    | _ => false
  .next (if left then postOnce s .none (.harvestResume h) else s)

end Sys2Proof.Machine
end

