-- ==== Sys2Proof/Machine/FutureTable.lean ====
section
/-! DEFINITION. Entries of the future table (R357 to R359): handles, state words, cancelling, freeing, and waking the contexts that wait on an
entry. -/

namespace Sys2Proof.Machine

def futureOf (s : State) (i : FutureIndex) : Option Future := tabFind s.table.live i.toNat
def setFuture (s : State) (i : FutureIndex) (f : Future) : State :=
  { s with table := { s.table with live := tabSet s.table.live i.toNat f } }
def futureGen (s : State) (i : FutureIndex) : BitVec 16 := tabGet 0 s.table.gens i.toNat

/-- A future handle (R357). -/
def futureHandle (gen : BitVec 16) (i : FutureIndex) : Word := (0xF5 : BitVec 8) ++ gen ++ (0 : BitVec 22) ++ i
def handleIndex (h : Word) : FutureIndex := h.extractLsb' 0 18

/-- The entry a handle names, of any domain (R357, R374). -/
def liveFuture (s : State) (h : Word) : Option Future :=
  let i := handleIndex h
  if h = futureHandle (futureGen s i) i then futureOf s i else none

/-- The entry a handle opens to a domain (R357). -/
def openFuture (s : State) (asid : BitVec 16) (h : Word) : Option Future :=
  match liveFuture s h with
  | some f => if f.owner = asid then some f else none
  | none => none

def futureTrap (aux : BitVec 8) (v : Word) : Trap := { code := 0x0A, aux := aux, tval := v }

def FutState.code : FutState → BitVec 3
  | .idle => 0 | .armed => 1 | .pending => 2 | .fulfilled => 3 | .timedOut => 4 | .cancelled => 5

/-- The state word (R359). -/
def futureWord (f : Future) : Word :=
  f.reason ++ (0 : BitVec 16) ++ BitVec.ofNat 16 (min f.slots 0xFFFF) ++ (0 : BitVec 9) ++ b1 f.committed ++ b1 f.slost ++ b1 f.fail
    ++ (0 : BitVec 1) ++ f.state.code

/-- Whether the entry has settled (R364). -/
def settledFuture (f : Future) : Bool :=
  !f.committed && (f.state == .fulfilled || f.state == .timedOut || f.state == .cancelled)

/-- Whether a settlement may still be decided (R369). -/
def openToSettle (f : Future) : Bool := !f.committed && (f.state == .armed || f.state == .pending)

/-- An entry as FALLOC makes it (R362). -/
def freshFuture (owner : BitVec 16) : Future :=
  { state := .idle, owner := owner, crew := none, chamber := none, flow := none, deadline := none, siphon := none, token := 0, tool := 0, pool := none, remote := none, argBase := 0, argLen := 0, caller := 0, arg := [], order := 0, waiters := [], evicted := [], committed := false, payload := none, settleAs := .fulfilled, checked := false, claim := none, filled := false, slots := 0, slost := false, fail := false, reason := 0 }

/-- The first free entry: not live and not retired (R362, R376). -/
def freeFutureIndex (s : State) : Option FutureIndex :=
  match (List.range (s.table.live.length + s.table.retired.length + 1)).find? fun i =>
      (tabFind s.table.live i).isNone && !setHas s.table.retired i with
  | some i => if i < 262144 then some (BitVec.ofNat 18 i) else none
  | none => none

/-- Removes an entry from its call queue. -/
def unqueueCall (s : State) (i : FutureIndex) : State :=
  { s with table := { s.table with pools := tabMap (fun _ q => q.filter (· != i)) s.table.pools } }

/-- Wakes the waiters of a settlement with the state word; evicted ones resume when they can (R364, R365). -/
def deliverWake (s : State) (w : FutureWake) : State :=
  let s := w.waiters.foldl (fun s k =>
    let c := ctxAt s k
    match waitOf c with
    | some (.future j d) => if j = w.index then complete s k (writeReg c d w.word) else s
    | _ => s) s
  w.evicted.foldl (fun s id => match itemOf s id with
    | some (.parked p) => postOnce (setItem s id (.parked { p with ready := true, result := w.word })) (.item id) .fwaitEvictResume
    | _ => s) s

/-- The waiters of an entry, which leave its chain. -/
def wakeFor (s : State) (i : FutureIndex) (f : Future) (n : Nat) : FutureWake :=
  { index := i, due := s.cycle + n, word := futureWord f, waiters := f.waiters, evicted := f.evicted }

/-- Wakes every waiter of an entry now. -/
def wakeFuture (s : State) (i : FutureIndex) : State :=
  match futureOf s i with
  | none => s
  | some f => deliverWake (setFuture s i { f with waiters := [], evicted := [] }) (wakeFor s i f 0)

/-- The waiters of a settlement that this cycle wakes. -/
def dueWakes (s : State) (i : FutureIndex) : List FutureWake := s.table.wakes.filter fun w => w.index == i && w.due ≤ s.cycle

/-- Wakes them. -/
def wakeSettled (s : State) (i : FutureIndex) : State :=
  let l := dueWakes s i
  l.foldl deliverWake { s with table := { s.table with wakes := s.table.wakes.filter fun w => !l.contains w } }

/-- Cancels an entry that is ARMED or PENDING and not committed (R368); a remote call is cancelled at the far end (R387). -/
def cancelFuture (s : State) (i : FutureIndex) (f : Future) : State :=
  let s := unqueueCall (setFuture s i { f with state := .cancelled }) i
  let s := match f.state, f.remote with
    | .pending, some (flow, _) => sendRemote s (.cancel flow (futureHandle (futureGen s i) i))
    | _, _ => s
  wakeFuture s i

/-- Ends every wait on an entry with a trap of its FWAIT (R358, R376). -/
def failWaiters (s : State) (i : FutureIndex) (f : Future) (t : Trap) : State :=
  let s := f.waiters.foldl (fun s k => match waitOf (ctxAt s k) with
    | some (.future j _) => if j = i then trapWaiting s k t else s
    | _ => s) s
  f.evicted.foldl (fun s id => match itemOf s id with
    | some (.parked p) => postOnce (setItem s id (.parked { p with ready := true, trap := some t })) (.item id) .fwaitEvictResume
    | _ => s) s

/-- An entry that goes no longer waits for a claim at its siphon (R370). -/
def dropSipFuture (s : State) (i : FutureIndex) : State :=
  { s with sculls := tabMap (fun _ x => { x with sipWaiters := x.sipWaiters.filter fun w => w.who != .future i }) s.sculls }

/-- Frees an entry: cancelled first where it must be, its waits ended, its generation advanced (R357, R358). -/
def freeFuture (s : State) (i : FutureIndex) : State :=
  match futureOf s i with
  | none => s
  | some f =>
    let h := futureHandle (futureGen s i) i
    let s := if openToSettle f then cancelFuture s i f else s
    let s := match futureOf s i with
      | some f => failWaiters s i f (futureTrap 0x01 h)
      | none => s
    let s := dropSipFuture (unqueueCall s i) i
    { s with table := { s.table with
      live := tabDrop s.table.live i.toNat, gens := tabSet s.table.gens i.toNat (futureGen s i + 1) } }

/-- Frees every entry whose lifetime has ended. -/
def freeFutures (s : State) (ends : Future → Bool) : State :=
  (s.table.live.filter fun e => ends e.2).foldl (fun s e => freeFuture s (BitVec.ofNat 18 e.1)) s

end Sys2Proof.Machine
end

