-- ==== Sys2Proof/Machine/Chambers.lean ====
section
/-! DEFINITION. Chambers (R308 to R322, R378): the directory, placement and pressure, eviction and refill, the end of a chamber, and the
instructions CMAKE, CATT, CDET, CDROP, CQRY and CEVT. -/

namespace Sys2Proof.Machine

/-! ### Placement (R314, R320, R378) -/

/-- The frames a placement asks for. -/
inductive FrameWant where
  | exactly (l : List (ScullId × Nat))
  | perScull (l : List ScullId) (fps : Nat)
  | spread (nfr : Nat)
  | interleave (count fps : Nat)
  deriving DecidableEq, Repr

/-- Whether a frame counts as free, with some frames taken as already evicted. -/
def countsFree (s : State) (extra : List (ScullId × Nat)) (sc : ScullId) (f : Nat) : Bool :=
  frameOpen (scullOf s sc) f || extra.contains (sc, f)

/-- The frames of a scull that count as free, by number. -/
def countedFrames (s : State) (extra : List (ScullId × Nat)) (sc : ScullId) : List Nat :=
  (List.range spadPages).filter (countsFree s extra sc)

/-- Inserts a shell by its count, highest first, the lower number first of equals. -/
def insertShell (e : Nat × Nat) : List (Nat × Nat) → List (Nat × Nat)
  | [] => [e]
  | h :: t => if h.2 < e.2 then e :: h :: t else h :: insertShell e t

/-- Whether chambers may be placed on a shell: owner space (R311), and available (R334). -/
def shellPlaces (s : State) (h : Nat) : Bool := !inColumnShell s h && !setHas s.isolated h

/-- The sculls of the package in the order of R314. -/
def rankedSculls (s : State) (extra : List (ScullId × Nat)) : List ScullId :=
  let sculls := fun (h : Nat) => (List.range 8).map fun i => (BitVec.ofNat 11 (h * 8 + i) : ScullId)
  let count := fun (h : Nat) => (sculls h).foldl (fun n sc => n + (countedFrames s extra sc).length) 0
  let shells := ((List.range 256).filter (shellPlaces s)).foldl (fun t h => insertShell (h, count h) t) []
  shells.flatMap fun e => sculls e.1

/-- The frames a placement takes, page by page; none where they are not there. -/
def placeFrames (s : State) (extra : List (ScullId × Nat)) : FrameWant → Option (List (ScullId × Nat))
  | .exactly l => if l.all fun e => countsFree s extra e.1 e.2 then some l else none
  | .perScull l fps =>
    let got := l.map fun sc => (sc, (countedFrames s extra sc).take fps)
    if got.all fun e => e.2.length == fps then some (got.flatMap fun e => e.2.map fun f => (e.1, f)) else none
  | .spread nfr =>
    let all_ := ((rankedSculls s extra).flatMap fun sc => (countedFrames s extra sc).map fun f => (sc, f)).take nfr
    if all_.length = nfr then some all_ else none
  | .interleave count fps =>
    let got := (((rankedSculls s extra).map fun sc => (sc, (countedFrames s extra sc).take fps)).filter fun e => e.2.length == fps).take count
    if got.length = count then some (got.flatMap fun e => e.2.map fun f => (e.1, f)) else none

/-- The sculls a placement concerns. -/
def wantSculls (w : FrameWant) (sc : ScullId) : Bool :=
  match w with
  | .exactly l => l.any fun e => e.1 == sc
  | .perScull l _ => l.contains sc
  | _ => true

/-- The order of R320: priority, last attach, slot. -/
def pressureKey (e : Nat × Chamber) : Nat := (e.2.prio.toNat * 2 ^ 64 + e.2.lastAttach) * 32768 + e.1
def insertCandidate (e : Nat × Chamber) : List (Nat × Chamber) → List (Nat × Chamber)
  | [] => [e]
  | h :: t => if pressureKey e < pressureKey h then e :: h :: t else h :: insertCandidate e t

/-- The chambers pressure may evict for a placement (R320). -/
def candidates (s : State) (w : FrameWant) : List (Nat × Chamber) :=
  (s.directory.live.filter fun e =>
    e.2.state == .resident && e.2.writeback && e.2.atc == 0 && e.2.holders.any fun h => wantSculls w h.1).foldl
      (fun t e => insertCandidate e t) []

/-- The shortest run of candidates whose eviction makes the placement possible. -/
def pressureRun (s : State) (w : FrameWant) (extra : List (ScullId × Nat)) : List (Nat × Chamber) → Option (List ChamberSlot)
  | [] => none
  | e :: t =>
    let extra := extra ++ e.2.holders
    let slot : ChamberSlot := BitVec.ofNat 15 e.1
    match placeFrames s extra w with
    | some _ => some [slot]
    | none => (pressureRun s w extra t).map (slot :: ·)

/-! ### States (R313) -/

/-- Starts an eviction (R313). -/
def beginEvict (s : State) (n : ChamberSlot) : State :=
  match chamberOf s n with
  | some x =>
    if x.state = .resident then postLater (setChamber s n { x with state := .evicting }) (.chamber n) .chamberEvictComplete else s
  | none => s

/-- The contexts whose wait satisfies p. -/
def waitingKeys (s : State) (p : Wait → Bool) : List Nat :=
  (s.ctxs.filter fun e => match waitOf e.2 with
    | some w => p w
    | none => false).map Prod.fst

/-- Whether a crew's attach table of 16 has no place for a chamber that is not in it (R317). -/
def attachFull (s : State) (crew : CrewId) (n : ChamberSlot) : Bool :=
  let table := match crewOf s crew with
    | some y => y.attach
    | none => []
  decide (16 ≤ table.length) && !(table.any fun t => t.slot == n && t.gen == generation s n)

/-- Counts an attachment in a crew's table (R317). -/
def addAttach (l : List Attach) (n : ChamberSlot) (gen : BitVec 15) : List Attach :=
  if l.any fun a => a.slot == n && a.gen == gen then l.map fun a => if a.slot = n ∧ a.gen = gen then { a with count := a.count + 1 } else a
  else l ++ [{ slot := n, gen := gen, count := 1 }]

/-- CATT's effect on a RESIDENT chamber (R317). A table that filled while the CATT waited has no place: it answers LIMIT (log 79). -/
def attachNow (s : State) (k : Nat) (n : ChamberSlot) (d : Reg) : State :=
  match chamberOf s n with
  | none => s
  | some x =>
    let c := ctxAt s k
    let gen := generation s n
    if attachFull s c.crew n then complete s k (writeReg c d 6)
    else
    let s := setChamber s n { x with atc := x.atc + 1, lastAttach := gtcOf s }
    let s := match crewOf s c.crew with
      | some y => setCrew s c.crew { y with attach := addAttach y.attach n gen }
      | none => s
    complete s k (writeReg c d (chamberHandle gen n))

/-- Ends a CMAKE that waited for its frames, in its slot or in its image. -/
def answerMake (s : State) (n : ChamberSlot) (v : Word) : State :=
  let mine := fun (c : Ctx) => match waitOf c with
    | some (.make m _) => m == n
    | _ => false
  let put := fun (c : Ctx) => match waitOf c with
    | some (.make _ d) => writeReg c d v
    | _ => c
  match s.ctxs.find? fun e => mine e.2 with
  | some (k, c) => complete s k (put c)
  | none => match parkedWaiting s mine with
    | some (id, p) => setItem s id (.parked (completeImage p (put p.ctx)))
    | none => s

/-- A chamber has become RESIDENT: what waits for it goes on, in order of arrival (R134, R313, R317). -/
def nowResident (s : State) (n : ChamberSlot) (refilled : Bool) : State :=
  match chamberOf s n with
  | none => s
  | some x =>
    let s := setChamber s n { x with waiters := [] }
    let s := sendAgain s x.waiters
    let s := answerMake s n (chamberHandle (generation s n) n)
    let s := (waitingKeys s fun w => match w with
      | .attach m _ _ => m == n
      | _ => false).foldl (fun s k => match waitOf (ctxAt s k) with
        | some (.attach _ d _) => attachNow s k n d
        | _ => s) s
    let s := if (waitingKeys s (· == .evict n)) = [] then s else beginEvict s n
    if refilled then unitNotice s else s

/-- Gives a chamber the frames chosen for it once they are all there. -/
def takeChosen (s : State) (n : ChamberSlot) (x : Chamber) : State :=
  let put := fun (s : State) (e : Nat × (ScullId × Nat)) =>
    let y := scullOf s e.2.1
    let y := if x.blank then scrubFrame y e.2.2 else y
    setScull s e.2.1 { y with frames := tabSet y.frames e.2.2 (.chamber n e.1), promised := tabDrop y.promised e.2.2 }
  let s := ((List.range x.chosen.length).zip x.chosen).foldl put s
  setChamber s n { x with state := .resident, holders := x.chosen, chosen := [], victims := [], blank := false }

/-- Whether the frames chosen for a chamber are there: held by nothing, and scrubbed where an image goes into them. -/
def chosenReady (s : State) (x : Chamber) : Bool :=
  x.chosen.all fun e =>
    let y := scullOf s e.1
    (tabFind y.frames e.2).isNone && (x.blank || !setHas y.dirtyFrames e.2)

/-- Reserves the frames chosen for a chamber (R398). -/
def promiseChosen (s : State) (n : ChamberSlot) (l : List (ScullId × Nat)) : State :=
  l.foldl (fun s e => promiseFrame s e.1 (.chamber n) e.2) s

/-- The images of a chamber, page by page, from its backing region into its frames; none while a walk fails (R312, R314). -/
def loadImages (s : State) (x : Chamber) : List (Nat × (ScullId × Nat)) → Option State
  | [] => some s
  | (j, sc, f) :: t =>
    match coxLoad s sc x.owner x.ptroot (x.backr + BitVec.ofNat 64 (4160 * j)) 65 with
    | none => none
    | some (s, beats) => loadImages (setScull s sc (fillFrame (scullOf s sc) f beats (tabGet [] x.imagePoison j))) x t

/-- The same outward (R135). -/
def storeImages (s : State) (x : Chamber) : List (Nat × (ScullId × Nat)) → Option State
  | [] => some s
  | (j, sc, f) :: t =>
    match coxStore s sc x.owner x.ptroot (x.backr + BitVec.ofNat 64 (4160 * j)) (imageBeats (scullOf s sc) f) with
    | none => none
    | some s => storeImages s x t

def numbered {α : Type} (l : List α) : List (Nat × α) := (List.range l.length).zip l

/-- The placement a refill asks for (R314). -/
def refillWant (x : Chamber) : FrameWant := if x.interleave then .interleave (x.nfr / x.fps) x.fps else .spread x.nfr

/-- Whether an eviction that pressure began is still under way. -/
def stillEvicting (s : State) (l : List ChamberSlot) : Bool :=
  l.any fun n => match chamberOf s n with
    | some x => x.state == .evicting
    | none => false

/-- CHAMBER_REFILL_COMPLETE (R314, R320): frames are chosen and reserved, lent ones revoked, and once they are there the images are copied in.
Without frames, or while pressure makes them, the refill waits; frames that others have taken meanwhile are looked for again. -/
def refillChamber (s : State) (n : ChamberSlot) : State :=
  let again := fun (s : State) => postLater s (.chamber n) .chamberRefillComplete
  match chamberOf s n with
  | none => s
  | some x =>
    if x.state ≠ .refilling then s
    else if x.chosen = [] then
      match placeFrames s [] (refillWant x) with
      | some l => again (promiseChosen (setChamber s n { x with chosen := l }) n l)
      | none =>
        if stillEvicting s x.victims then again s
        else match pressureRun s (refillWant x) [] (candidates s (refillWant x)) with
          | some l => again (l.foldl beginEvict (setChamber s n { x with victims := l }))
          | none => again s
    else if !chosenReady s x then again s
    else if x.blank then nowResident (takeChosen s n x) n false
    else match loadImages s x (numbered x.chosen) with
      | none => again s
      | some s => nowResident (takeChosen s n x) n true

def execChamberRefillComplete (s : State) : Result :=
  match s.actor with
  | .chamber n => .next (refillChamber s n)
  | _ => .next s

/-! ### The end of a chamber (R313, R315, R322) -/

/-- The accesses in the word queues of a chamber's frames. -/
def takeFrameWaiters (s : State) (l : List (ScullId × Nat)) : State × List Nat :=
  l.foldl (fun r e =>
    let q := takeWordWaiters r.1 e.1 e.2
    (q.1, r.2 ++ q.2)) (s, [])

/-- Whether a place lies in a chamber. -/
def inChamber (n : ChamberSlot) (p : Place) : Bool :=
  match p with
  | .chamber m _ _ => m == n
  | _ => false

/-- Traps the contexts that wait at siphon headers or for reservations in a chamber, and drops the reservations held there. -/
def failInChamber (s : State) (n : ChamberSlot) (holders : List (ScullId × Nat)) : State :=
  let s := holders.foldl (fun s e =>
    let r := takeSiphonWaiters s e.1 (inChamber n)
    r.2.foldl (failAccess (attachMiss 0x03)) r.1) s
  let keys := (s.ctxs.filter fun e => match e.2.resv with
    | some r => holders.contains (r.sc, r.word / 512)
    | none => false).map Prod.fst
  let s := { s with sculls := tabMap (fun i x => { x with
    resvs := x.resvs.filter fun r => !holders.contains (BitVec.ofNat 11 i, r.word / 512)
    resvOverflow := x.resvOverflow.filter fun e => !holders.contains (BitVec.ofNat 11 i, e.2 / 512) }) s.sculls }
  keys.foldl (fun s k =>
    let c := ctxAt s k
    let ea := (c.resv.map (·.ea)).getD 0
    let s := setCtxAt s k { c with resv := none }
    match waitOf c with
    | some (.reservation _) => trapWaiting s k (attachMiss 0x03 ea)
    | _ => s) s

/-- A chamber becomes DEAD (R313, R322): its attachments go, its waiting accesses and contexts trap, its frames are released, its slot's
generation advances, and the futures that live with it are freed (R358). -/
def chamberDies (s : State) (n : ChamberSlot) : State :=
  match chamberOf s n with
  | none => s
  | some x =>
    let gen := generation s n
    let s := { s with directory := { s.directory with
      live := tabDrop s.directory.live n.toNat, gens := tabSet s.directory.gens n.toNat (gen + 1) } }
    let s := { s with crews := tabMap (fun _ y => { y with attach := y.attach.filter fun a => a.slot != n }) s.crews }
    let r := takeFrameWaiters s x.holders
    let s := (r.2 ++ x.waiters).foldl (failAccess (attachMiss 0x03)) r.1
    let s := failInChamber s n x.holders
    let s := x.holders.foldl (fun s e => scullNotice (releaseFrame s e.1 e.2) e.1) s
    let s := x.chosen.foldl (fun s e => unpromise s e.1 (.chamber n)) s
    let s := answerMake s n 2
    let s := (waitingKeys s fun w => match w with
      | .attach m _ _ | .evict m => m == n
      | _ => false).foldl (fun s k =>
        let c := ctxAt s k
        match waitOf c with
        | some (.attach _ d _) => complete s k (writeReg c d 5)
        | some (.evict _) => complete s k c
        | _ => s) s
    postOnce (freeFutures s fun f => f.chamber == some (n, gen)) .none .launchUnitStart

/-- CHAMBER_LEASE_EXPIRY (R315). -/
def execChamberLeaseExpiry (s : State) : Result :=
  match s.actor with
  | .chamber n => match chamberOf s n with
    | some x => if x.life = .lease ∧ x.deadl.toNat ≤ gtcOf s then .next (chamberDies s n) else .next s
    | none => .next s
  | _ => .next s

/-! ### CHAMBER_EVICT_COMPLETE (R135, R172, R313) -/

/-- The chamber is EVICTED: the accesses that arrived meanwhile are treated as arriving now, so under FAULT they miss and under REFILL they start
the refill; so do a CATT that waits and a launch that wanted it (R193, R313, R317). What was accepted before stays, in its order. -/
def nowEvicted (s : State) (n : ChamberSlot) (kept : List Nat) : State :=
  match chamberOf s n with
  | none => s
  | some x =>
    let s := (waitingKeys s (· == .evict n)).foldl (fun s k => complete s k (ctxAt s k)) s
    let wanted := x.wanted
    let x := { x with wanted := false }
    let s := if x.faultOnMiss then x.waiters.foldl (failAccess (attachMiss 0x02)) (setChamber s n { x with waiters := kept })
      else setChamber s n { x with waiters := kept ++ x.waiters }
    let attach := waitingKeys s fun w => match w with
      | .attach m _ _ => m == n
      | _ => false
    let s := if wanted ∨ attach ≠ [] ∨ (!x.faultOnMiss ∧ x.waiters ≠ []) then touchChamber s n else s
    postOnce s .none .launchUnitStart

/-- What waits at the words of a frame and stays to be evaluated after the refill (R135). -/
def keepWaiters (s : State) (n : ChamberSlot) (holders : List (ScullId × Nat)) : State × List Nat :=
  let r := takeFrameWaiters s holders
  let s := r.2.foldl (fun s id => match accessOf s id with
    | some a => setAccess s id { a with phase := .atPage }
    | none => s) r.1
  holders.foldl (fun (q : State × List Nat) e =>
    let w := takeSiphonWaiters q.1 e.1 (inChamber n)
    (w.1, q.2 ++ w.2)) (s, r.2)

def evictChamber (s : State) (n : ChamberSlot) : State :=
  let again := fun (s : State) => postLater s (.chamber n) .chamberEvictComplete
  match chamberOf s n with
  | none => s
  | some x =>
    if x.state ≠ .evicting then s
    else if x.holders.any fun e => frameReserved (scullOf s e.1) e.2 then again s
    else if !x.writeback then chamberDies s n
    else match storeImages s x (numbered x.holders) with
      | none => again s
      | some s =>
        let r := keepWaiters s n x.holders
        let poison := (numbered x.holders).foldl (fun t e => tabSet t e.1 (framePoison (scullOf s e.2.1) e.2.2)) ([] : Tab NatSet)
        let s := x.holders.foldl (fun s e => scullNotice (releaseFrame s e.1 e.2) e.1) r.1
        match chamberOf s n with
        | some x => nowEvicted (setChamber s n { x with state := .evicted, holders := [], imagePoison := poison }) n r.2
        | none => s

def execChamberEvictComplete (s : State) : Result :=
  match s.actor with
  | .chamber n => .next (evictChamber s n)
  | _ => .next s

/-! ### CMAKE (R310, R311, R317) -/

/-- A glb read of n bytes by an instruction through its shell L2, checked in the order of R149 and after the context's earlier accesses to those
bytes (R155); k has its physical address. -/
def withGlb (s : State) (sc : ScullId) (slot : Slot) (c : Ctx) (ea : Word) (n align : Nat) (k : State → Nat → State) : State :=
  checkAccess s sc slot c { mode := .glb, a := 0, b := 0, off := 0 } ea n align .load rightsRead fun s p =>
    match p with
    | .global pa =>
      if inRegisters pa then raise s sc slot (capacityTrap 0x03 ea)
      else if overlapsEarlier s c p n then park s sc slot (ctxOf s sc slot) (.reissue .overlap)
      else if globalPoison s pa || globalPoison s (pa + n - 1) then raise s sc slot (poisonTrap 0x02 ea)
      else k (fetchRange (setCtx s sc slot (touch s sc (ctxOf s sc slot) p)) (shellNode sc) pa n) pa
    | _ => s

/-- n words at a, each by its own glb load of 8 bytes, in order (R194, R310, R363). -/
def readBlock (sc : ScullId) (slot : Slot) (a : Word) : Nat → List Word → (State → List Word → State) → State → State
  | 0, l, k, s => k s l
  | n + 1, l, k, s =>
    withGlb s sc slot (ctxOf s sc slot) (a + BitVec.ofNat 64 (8 * l.length)) 8 8 fun s pa =>
      readBlock sc slot a n (l ++ [agentWord s (shellNode sc) pa]) k s

/-- The request block's fields. -/
def makeLife (w1 : Word) : Life :=
  match (w1.extractLsb' 0 2 : BitVec 2).toNat with
  | 0 => .kernel | 1 => .job | 2 => .lease | _ => .pinned
def makeFps (w1 : Word) : Nat := (w1.extractLsb' 8 8 : BitVec 8).toNat
def makeList (w1 : Word) : Bool := !w1.getLsbD 7

/-- FIRST, COUNT − 1 and STRIDE as R285 gives them: the sculls named, as numbers. -/
def rangeSculls (w : Word) : List Nat :=
  (List.range ((w.extractLsb' 16 11 : BitVec 11).toNat + 1)).map fun c =>
    (w.extractLsb' 0 11 : BitVec 11).toNat + c * (w.extractLsb' 32 11 : BitVec 11).toNat
def rangeBits (w : Word) : Bool := w &&& ~~~((0x7FF : Word) ||| ((0x7FF : Word) <<< 16) ||| ((0x7FF : Word) <<< 32)) == 0

def noRepeats : List Nat → Bool
  | [] => true
  | a :: t => !t.contains a && noRepeats t

/-- Whether a range stays on the package and names no scull twice (R286). -/
def rangeOk (w : Word) : Bool := rangeBits w && (rangeSculls w).all (fun n => n ≤ 2047) && noRepeats (rangeSculls w)

/-- R311 on the block, its placement list apart. -/
def blockInvalid (s : State) (c : Ctx) (w : List Word) : Bool :=
  let w1 := w.getD 1 0
  let place := w.getD 2 0
  let deadl := w.getD 3 0
  let backr := w.getD 4 0
  let fps := makeFps w1
  let nfrm1 := (w1.extractLsb' 16 16 : BitVec 16).toNat
  let jobp := match crewOf s c.crew with
    | some x => packetWord x.packet 5
    | none => 0
  w.getD 0 0 == 0 || w1.extractLsb' 32 32 != (0 : BitVec 32) || (w.drop 5).any (· != 0)
    || (makeLife w1 != .lease && deadl != 0)
    || (if makeList w1 then fps != 0 || decide (4095 < nfrm1)
        else nfrm1 != 0 || fps == 0 || decide (96 < fps) || !rangeOk place || decide (65536 < (rangeSculls place).length * fps)
          || (rangeSculls place).any fun n => inColumnShell s (n / 8))
    || (makeLife w1 == .job && jobp == 0)
    || (makeLife w1 == .lease && decide (deadl.toNat ≤ gtcOf s))
    || (if w1.getLsbD 2 then backr != 0 else backr == 0 || backr.toNat % 4096 != 0)
    || c.hdr.cls == .harvest

/-- A list entry's scull and frame. -/
def entryPlace (e : Word) : ScullId × Nat := (e.extractLsb' 16 11, (e.extractLsb' 0 7 : BitVec 7).toNat)

/-- R311 on the placement list. -/
def listInvalid (s : State) (l : List Word) : Bool :=
  (l.any fun e => e &&& ~~~((0x7FF : Word) <<< 16 ||| 0x7F) != 0 || decide (96 ≤ (entryPlace e).2) || inColumn s (entryPlace e).1)
    || !noRepeats (l.map fun e => (entryPlace e).1.toNat * 128 + (entryPlace e).2)

/-- Reads the n entries of a placement list with 4-byte glb loads, in order (R310). -/
def readEntries (sc : ScullId) (slot : Slot) (place : Word) : Nat → Nat → List Word → (State → List Word → State) → State → State
  | 0, _, l, k, s => k s l
  | n + 1, i, l, k, s =>
    withGlb s sc slot (ctxOf s sc slot) (place + BitVec.ofNat 64 (4 * i)) 4 4 fun s pa =>
      readEntries sc slot place n (i + 1) (l ++ [BitVec.ofNat 64 (agentRead s (shellNode sc) pa 4)]) k s

/-- The live chamber of a domain's name. -/
def namedChamber (s : State) (asid : BitVec 16) (name : Word) : Option (ChamberSlot × Chamber) :=
  (s.directory.live.find? fun e => e.2.owner == asid && e.2.name == name).map fun e => (BitVec.ofNat 15 e.1, e.2)

/-- The lowest free directory slot. -/
def freeChamberSlot (s : State) : Option ChamberSlot :=
  match (List.range (s.directory.live.length + 1)).find? fun i => (tabFind s.directory.live i).isNone with
  | some i => if i < 32768 then some (BitVec.ofNat 15 i) else none
  | none => none

/-- The placement a CMAKE asks for. -/
def makeWant (w : List Word) : FrameWant :=
  if makeList (w.getD 1 0) then .exactly ((w.drop 8).map entryPlace)
  else .perScull ((rangeSculls (w.getD 2 0)).map fun n => BitVec.ofNat 11 n) (makeFps (w.getD 1 0))

/-- A new chamber's descriptor (R309), its frames chosen. -/
def newChamber (s : State) (c : Ctx) (w : List Word) (chosen : List (ScullId × Nat)) : Chamber :=
  let w1 := w.getD 1 0
  { owner := c.asid, name := w.getD 0 0, interleave := !makeList w1, fps := makeFps w1, nfr := chosen.length, holders := [], state := .refilling, life := makeLife w1, writeback := !w1.getLsbD 2, faultOnMiss := w1.getLsbD 3, prio := w1.extractLsb' 4 3, backr := w.getD 4 0, deadl := w.getD 3 0, ptroot := c.ptroot, atc := 0, lastAttach := gtcOf s, creator := c.crew, jobp := (match crewOf s c.crew with | some x => packetWord x.packet 5 | none => 0), jobAsid := c.asid, waiters := [], chosen := chosen, victims := [], wanted := false, blank := true, imagePoison := [] }

/-- Makes the chamber on the frames chosen: at once, or after the frames lent to harvest contexts are revoked (R378, R398). -/
def makeChamber (s : State) (k : Nat) (d : Reg) (w : List Word) (n : ChamberSlot) (l : List (ScullId × Nat)) : State :=
  let c := ctxAt s k
  let x := newChamber s c w l
  let s := promiseChosen (setChamber s n x) n l
  if chosenReady s x then
    let s := takeChosen s n x
    complete s k (writeReg c d (chamberHandle (generation s n) n))
  else
    let st : CtxState := if isFrozen c then .frozen (.waiting (.make n d)) else .waiting (.make n d)
    postLater (setCtxAt s k { c with st := st }) (.chamber n) .chamberRefillComplete

/-- The directory looks at its requests again. -/
def postDirectory (s : State) : State := postOnce s .none .chamberDirectoryRequest

/-- Keeps a context's request at the directory: in its place where it is there already, else as the latest (R319). -/
def keepRequest (s : State) (k : Nat) (r : TableReq) : State :=
  let l := s.directory.requests
  let l := if l.any fun q => q.actor == r.actor then l.map fun q => if q.actor = r.actor then r else q else l ++ [r]
  postDirectory (setCtxAt { s with directory := { s.directory with requests := l } } k (setWait (ctxAt s k) .directory))

/-- Whether a request may be served: its context is not FROZEN (R397). -/
def requestAwake (s : State) (r : TableReq) : Bool :=
  match r.actor with
  | .context sc slot => !isFrozen (ctxOf s sc slot)
  | _ => true

/-- A request of a context for the directory. -/
def directoryReq (s : State) (k : Nat) (i : Instr) (w : List Word) (victims : List ChamberSlot) : TableReq :=
  { arrived := s.cycle, actor := .context (keyScull k) (keySlot k), instr := i, words := w, victims := victims }

/-- A context's request arrives at the directory: served in this step, or after the older ones (R319). -/
def viaDirectory (i : Instr) (w : List Word) (body : State → ScullId → Slot → Ctx → State) (s : State) (sc : ScullId) (slot : Slot) (c : Ctx) :
    State :=
  let k := ctxKey sc slot
  if s.directory.requests.any (requestAwake s) then keepRequest s k (directoryReq s k i w []) else body s sc slot c

/-- The directory decides a CMAKE whose words have been read (R317, R320). One that lacks frames and can have them by pressure waits for the
evictions and is decided again. -/
def decideMake (s : State) (k : Nat) (d : Reg) (i : Instr) (w : List Word) : State :=
  let c := ctxAt s k
  let say := fun (v : Word) => complete s k (writeReg c d v)
  if blockInvalid s c (w.take 8) || (makeList (w.getD 1 0) && listInvalid s (w.drop 8)) then say 4
  else if (namedChamber s c.asid (w.getD 0 0)).isSome then say 1
  else match freeChamberSlot s with
    | none => say 3
    | some n => match placeFrames s [] (makeWant w) with
      | some l => makeChamber s k d w n l
      | none =>
        match pressureRun s (makeWant w) [] (candidates s (makeWant w)) with
        | some l => keepRequest (l.foldl beginEvict s) k (directoryReq s k i w l)
        | none => say 2

def execCmake (d a b : Reg) (s : State) : Result :=
  .next (issueBy (.cmake d a b) [a, b] [d] false (fun s sc slot c =>
    let gb := readReg c b
    if gb.toNat % 64 ≠ 0 then raise s sc slot { code := 0x03, aux := 0, tval := gb }
    else readBlock sc slot gb 8 [] (fun s w =>
      let c := ctxOf s sc slot
      let ask := fun (s : State) (w : List Word) =>
        viaDirectory (.cmake d a b) w (fun s sc slot _ => decideMake s (ctxKey sc slot) d (.cmake d a b) w) s sc slot (ctxOf s sc slot)
      let w1 := w.getD 1 0
      if makeList w1 && !blockInvalid s c w then
        let n := (w1.extractLsb' 16 16 : BitVec 16).toNat + 1
        readEntries sc slot (w.getD 2 0) n 0 [] (fun s l => ask s (w ++ l)) s
      else ask s w) s) s)

/-! ### CATT, CDET, CDROP, CQRY, CEVT (R317, R318) -/

/-- The scope operand: codes 001 to 101 in bits 2:0, and nothing above the bits that are read. -/
def scopeOperand (v : Word) (top : Nat) : Option Scope :=
  if v.toNat / 2 ^ (top + 1) ≠ 0 then none
  else match (v.extractLsb' 0 3 : BitVec 3).toNat with
    | 1 => some .core | 2 => some .shell | 3 => some .die | 4 => some .package | 5 => some .system | _ => none

def badScope (v : Word) : Trap := { code := 0x01, aux := 0x04, tval := v }

def cattBody (d a b : Reg) (s : State) (sc : ScullId) (slot : Slot) (c : Ctx) : State :=
  let name := readReg c a
  let gb := readReg c b
  let k := ctxKey sc slot
  match scopeOperand gb 3 with
  | none => raise s sc slot (badScope gb)
  | some scope =>
    match namedChamber s c.asid name with
    | none => complete s k (writeReg c d 5)
    | some (n, x) =>
      if attachFull s c.crew n then complete s k (writeReg c d 6)
      else if x.state = .resident then attachNow s k n d
      else if x.faultOnMiss ∧ !gb.getLsbD 3 then raise s sc slot (attachMiss 0x01 name)
      else touchChamber (park s sc slot c (.attach n d scope)) n

def execCatt (d a b : Reg) (s : State) : Result :=
  .next (issueBy (.catt d a b) [a, b] [d] false (viaDirectory (.catt d a b) [] (cattBody d a b)) s)

/-- Takes one attachment away (R317, R319). -/
def detach (s : State) (crew : CrewId) (n : ChamberSlot) (count : Nat) : State :=
  let s := match chamberOf s n with
    | some x => setChamber s n { x with atc := x.atc - count }
    | none => s
  match crewOf s crew with
  | some y =>
    let l := (y.attach.map fun a => if a.slot = n then { a with count := a.count - count } else a).filter fun a => a.count != 0
    setCrew s crew { y with attach := l }
  | none => s

def cdetBody (a b : Reg) (s : State) (sc : ScullId) (slot : Slot) (c : Ctx) : State :=
  let h := readReg c a
  let gb := readReg c b
  match scopeOperand gb 2 with
  | none => raise s sc slot (badScope gb)
  | some scope =>
    if (openChamber s c.asid h).isNone ∨ !crewAttached s c.crew h then raise s sc slot (attachMiss 0x03 h)
    else whenDrained s sc slot c scope (finish (detach s c.crew (handleSlot h) 1) sc slot c)

def execCdet (a b : Reg) (s : State) : Result :=
  .next (issueBy (.cdet a b) [a, b] [] false (viaDirectory (.cdet a b) [] (cdetBody a b)) s)

def cdropBody (a : Reg) (s : State) (sc : ScullId) (slot : Slot) (c : Ctx) : State :=
  let h := readReg c a
  if (openChamber s c.asid h).isNone then raise s sc slot (attachMiss 0x03 h)
  else chamberDies (finish s sc slot c) (handleSlot h)

def execCdrop (a : Reg) (s : State) : Result := .next (issueBy (.cdrop a) [a] [] false (viaDirectory (.cdrop a) [] (cdropBody a)) s)

def ChamberState.code : ChamberState → BitVec 3
  | .resident => 1 | .evicting => 2 | .evicted => 3 | .refilling => 4
def Life.code : Life → BitVec 2
  | .kernel => 0 | .job => 1 | .lease => 2 | .pinned => 3

/-- The status word (R318). -/
def chamberWord (n : ChamberSlot) (gen : BitVec 15) (x : Chamber) : Word :=
  x.state.code ++ x.life.code ++ b1 (!x.writeback) ++ b1 x.faultOnMiss ++ x.prio ++ gen ++ n ++ BitVec.ofNat 8 (min x.atc 255)
    ++ BitVec.ofNat 16 (x.nfr - 1)

def cqryBody (d a : Reg) (s : State) (sc : ScullId) (slot : Slot) (c : Ctx) : State :=
  let v := match namedChamber s c.asid (readReg c a) with
    | some (n, x) => chamberWord n (generation s n) x
    | none => 0
  finishReg s sc slot c d v

def execCqry (d a : Reg) (s : State) : Result := .next (issueBy (.cqry d a) [a] [d] false (viaDirectory (.cqry d a) [] (cqryBody d a)) s)

def cevtBody (a : Reg) (s : State) (sc : ScullId) (slot : Slot) (c : Ctx) : State :=
  let h := readReg c a
  match openChamber s c.asid h with
  | none => raise s sc slot (attachMiss 0x03 h)
  | some x =>
    if x.state = .evicted then finish s sc slot c
    else beginEvict (park s sc slot c (.evict (handleSlot h))) (handleSlot h)

def execCevt (a : Reg) (s : State) : Result := .next (issueBy (.cevt a) [a] [] false (viaDirectory (.cevt a) [] (cevtBody a)) s)

/-! ### CHAMBER_DIRECTORY_REQUEST (R319) -/

/-- Serves a context's request. -/
def serveDirectory (s : State) (r : TableReq) (sc : ScullId) (slot : Slot) (c : Ctx) : State :=
  match r.instr with
  | .cmake d _ _ => decideMake s (ctxKey sc slot) d r.instr r.words
  | .catt d a b => cattBody d a b s sc slot c
  | .cdet a b => cdetBody a b s sc slot c
  | .cdrop a => cdropBody a s sc slot c
  | .cqry d a => cqryBody d a s sc slot c
  | .cevt a => cevtBody a s sc slot c
  | _ => s

/-- A request that has been served is kept only while its context waits at the directory still. -/
def dropServed (s : State) (r : TableReq) (sc : ScullId) (slot : Slot) : State :=
  if waitOf (ctxOf s sc slot) = some .directory then s
  else { s with directory := { s.directory with requests := s.directory.requests.filter fun q => q.actor != r.actor } }

/-- The oldest request whose context is not FROZEN is served, once the evictions it waits for have ended (R319, R320, R397). -/
def execChamberDirectoryRequest (s : State) : Result :=
  let again := fun (s : State) => if s.directory.requests = [] then s else postDirectory s
  match s.directory.requests.find? (requestAwake s) with
  | none => .next (again s)
  | some r =>
    if stillEvicting s r.victims then .next (again s)
    else match r.actor with
      | .context sc slot =>
        let c := ctxOf s sc slot
        let s := if waitOf c = some .directory then serveDirectory (setCtx s sc slot (awake c)) r sc slot (awake c) else s
        .next (again (dropServed s r sc slot))
      | _ => .next { s with directory := { s.directory with requests := s.directory.requests.filter (· != r) } }

/-! ### Lifetimes that end with a crew or a job (R315, R319) -/

/-- The chambers of a lifetime end. -/
def endChambers (s : State) (ends : Chamber → Bool) : State :=
  (s.directory.live.filter fun e => ends e.2).foldl (fun s e => chamberDies s (BitVec.ofNat 15 e.1)) s

/-- A retiring crew's attachments are released (R319). -/
def releaseAttachments (s : State) (crew : CrewId) : State :=
  match crewOf s crew with
  | none => s
  | some x => x.attach.foldl (fun s a => detach s crew a.slot a.count) s

end Sys2Proof.Machine
end

