-- ==== Sys2Proof/Machine/Settle.lean ====
section
/-! DEFINITION. Settling a future (R364, R367 to R370, R375, R387): the commit, the reply slots written into the siphon, timeouts, and the
tool table (R360). -/

namespace Sys2Proof.Machine

/-! ### The tool table (R360) -/

/-- A valid entry of the tool table. -/
structure Tool where
  remote : Bool
  asid : BitVec 16
  pool : BitVec 4
  rtool : BitVec 32
  flow : BitVec 24
  deriving DecidableEq, Repr

/-- The table reads entry T through the hub L2 (R339). -/
def fetchTool (s : State) (t : Nat) : State := if 2 ^ s.table.lsz ≤ t then s else hubFetch s (s.table.base + 16 * t) 16

/-- Entry T; none outside the table, where V = 0, or where a reserved bit is set. -/
def toolOf (s : State) (t : Nat) : Option Tool :=
  if 2 ^ s.table.lsz ≤ t then none
  else
    let w0 := hubWord s (s.table.base + 16 * t)
    let w1 := hubWord s (s.table.base + 16 * t + 8)
    if !w0.getLsbD 63 ∨ w0.extractLsb' 48 14 ≠ (0 : BitVec 14) ∨ w0.extractLsb' 4 28 ≠ (0 : BitVec 28)
        ∨ w1.extractLsb' 24 8 ≠ (0 : BitVec 8) then none
    else some {
      remote := w0.getLsbD 62, asid := w0.extractLsb' 32 16, pool := w0.extractLsb' 0 4, rtool := w1.extractLsb' 32 32,
      flow := w1.extractLsb' 0 24 }

/-! ### The commit (R367 to R370, R375) -/

/-- Whether a reply length is valid (R367). -/
def replyLengthOk (n : Nat) : Bool := n % 8 == 0 && decide (n ≤ 65536)

/-- What a proxy sends back over its flow (R375, R387). -/
def proxyAnswer (flow : BitVec 24) (h : Word) : Payload → Option RemoteMsg
  | .bytes l => some (.reply flow h l)
  | .failure r => some (.fail flow h (r.setWidth 16))
  | _ => none

/-- Writes the outcome of a settlement into its entry (R359, R370). -/
def outcome (f : Future) : Future :=
  match f.payload with
  | some (.failure r) => { f with
      state := f.settleAs, committed := false, claim := none, filled := false, fail := true, reason := r.setWidth 16 }
  | _ => { f with state := f.settleAs, committed := false, claim := none, filled := false }

/-- Settles a committed entry: its waiters leave it and wake in the next cycle (R358, R364). -/
def settleFuture (s : State) (i : FutureIndex) (f : Future) (lost : Bool) : State :=
  let g := { outcome f with slost := lost }
  let s := { s with table := { s.table with wakes := s.table.wakes ++ [wakeFor s i g 1] } }
  post (setFuture s i { g with waiters := [], evicted := [] }) 1 (.future i) .futureSlotInject

/-- Commits a settlement: the entry leaves its call queue and the injection of its slots begins; a proxy has no siphon and answers over its
flow (R387). -/
def commitFuture (s : State) (i : FutureIndex) (f : Future) (p : Payload) (as_ : FutState) : State :=
  let g := { f with committed := true, payload := some p, settleAs := as_, checked := false, claim := none, filled := false, slots := 0 }
  let s := unqueueCall (setFuture s i g) i
  match f.flow with
  | none => postLater s (.future i) .futureSlotInject
  | some (flow, h) =>
    let s := settleFuture s i g false
    match proxyAnswer flow h p with
    | some m => sendRemote s m
    | none => s

/-! ### Reading a reply buffer (R367, R370) -/

/-- A word that the table reads through the hub L2 (R339) at a virtual address under a domain's root, view and capabilities; none where a translation, a capability or poison stops it. -/
def readAs (s : State) (sc : ScullId) (asid : BitVec 16) (root : Word) (prv : Bool) (caps : Tab (BitVec 128)) (va : Word) :
    State × Option Word :=
  if !canonical va || va.toNat % 8 != 0 || !capsGrant caps asid rightsRead va.toNat 8 then (s, none)
  else match walkTo s hubNode root va .load (!prv) with
    | .error _ => (s, none)
    | .ok (s, pa) =>
      if inRegisters pa || !contextMay s sc pa 8 rightsRead || globalPoison s pa then (s, none)
      else let s := hubFetch s pa 8; (s, some (globalWord s pa))

/-- n words from va on; none where one of them cannot be read. -/
def readWordsAs (s : State) (sc : ScullId) (asid : BitVec 16) (root : Word) (prv : Bool) (caps : Tab (BitVec 128)) (va : Word) :
    Nat → State × Option (List Word)
  | 0 => (s, some [])
  | n + 1 =>
    match readAs s sc asid root prv caps va with
    | (s, none) => (s, none)
    | (s, some w) => match readWordsAs s sc asid root prv caps (va + 8) n with
      | (s, some l) => (s, some (w :: l))
      | (s, none) => (s, none)

/-! ### Slots (R370) -/

/-- The control word of a slot. -/
def slotControl (i : FutureIndex) (fail timeout last : Bool) (bytes : Nat) : Word :=
  i.setWidth 32 ++ (0 : BitVec 13) ++ b1 fail ++ b1 timeout ++ b1 last ++ BitVec.ofNat 16 bytes

/-- Bytes of a payload. -/
def payloadBytes : Payload → Nat
  | .bytes l => l.length
  | .buffer _ _ n _ _ _ _ => n
  | _ => 8

/-- Whether slot n, of per payload bytes, is the last. -/
def lastSlot (p : Payload) (per n : Nat) : Bool := decide (payloadBytes p ≤ (n + 1) * per)

/-- The words of slot n of a payload, per bytes to a slot, the last one padded with zero words: none where a word of an FPUT buffer cannot be
read. -/
def slotWords (s : State) (i : FutureIndex) (p : Payload) (per n : Nat) : State × Option (List Word) :=
  let count := min per (payloadBytes p - n * per)
  let last := lastSlot p per n
  match p with
  | .bytes l => (s, some (slotControl i false false last count :: bytesWords (per / 8) (l.drop (n * per))))
  | .buffer sc base _ asid root prv caps =>
    match readWordsAs s sc asid root prv caps (base + 8 + BitVec.ofNat 64 (n * per)) (count / 8) with
    | (s, some l) => (s, some (slotControl i false false last count :: l ++ List.replicate (per / 8 - count / 8) 0))
    | (s, none) => (s, none)
  | .timeout token => (s, some (slotControl i false true true 8 :: token :: List.replicate (per / 8 - 1) 0))
  | .failure reason => (s, some (slotControl i true false true 8 :: reason :: List.replicate (per / 8 - 1) 0))

/-- Writes words at chamber offsets from o on, each full (R370). A word whose place is gone is not written. -/
def slotStore (s : State) (n : ChamberSlot) (gen : BitVec 15) (o : Nat) : List Word → State
  | [] => s
  | w :: t =>
    let s := match locate s (.chamber n gen o) 0 with
      | .at_ sc b => engineWord s sc b (w, false)
      | _ => s
    slotStore s n gen (o + 8) t

/-- The check of the whole siphon before the first claim. -/
def siphonRefused (x : Scull) (b o nfr : Nat) : Bool :=
  let cfg := spadRead x b 8
  let n := (cfg.extractLsb' 0 16 : BitVec 16).toNat
  let z := 8 * (cfg.extractLsb' 16 10 : BitVec 10).toNat
  (List.range 5).any (fun i => wordPoison x (b / 8 + i)) || !siphonCfgOk cfg || decide (z < 16) || decide (nfr * 4096 < o + 64 + n * z)

/-- Payload bytes of a slot under a header's CFG. -/
def slotPayload (x : Scull) (b : Nat) : Nat := 8 * ((spadRead x b 8).extractLsb' 16 10 : BitVec 10).toNat - 8

/-- Whether the injection of an entry waits at its header already. -/
def injectionWaits (x : Scull) (i : FutureIndex) : Bool := x.sipWaiters.any fun w => w.who == .future i

/-- The injection joins the waiters of its header, in arrival order (R184). -/
def injectionJoins (s : State) (i : FutureIndex) (op : SipOp) (at_ : Place) (o : Nat) (sc : ScullId) : State :=
  let x := scullOf s sc
  setScull s sc { x with sipWaiters := x.sipWaiters ++ [{ who := .future i, op := op, d := 0, place := at_, ea := BitVec.ofNat 64 o }] }

/-- A slot is published: the entry settles after the last, else the next one is claimed. -/
def injectNext (s : State) (i : FutureIndex) (f : Future) (p : Payload) (sc : ScullId) (b : Nat) : State :=
  let g := { f with slots := f.slots + 1, claim := none, filled := false }
  if lastSlot p (slotPayload (scullOf s sc) b) f.slots then settleFuture s i g false
  else post (setFuture s i g) 0 (.future i) .futureSlotInject

/-- Publishes the slot that is filled, once earlier claims are published. -/
def injectPublish (s : State) (i : FutureIndex) (f : Future) (p : Payload) (at_ : Place) (o : Nat) (sc : ScullId) (b : Nat) (v : Word) :
    State :=
  match siphonAt (scullOf s sc) b (BitVec.ofNat 64 o) (.publish v) with
  | .wait => injectionJoins s i (.publish v) at_ o sc
  | .fail _ _ => settleFuture s i f true
  | .done l _ => injectNext (siphonChanged (setScull s sc (siphonWrite (scullOf s sc) b l)) sc b at_) i f p sc b

/-- Fills the claimed slot; a word of an FPUT buffer that cannot be read makes it a failure slot (R370). -/
def injectFill (s : State) (i : FutureIndex) (f : Future) (p : Payload) (n : ChamberSlot) (gen : BitVec 15) (o : Nat) (sc : ScullId)
    (b : Nat) (v : Word) : State :=
  let at_ := Place.chamber n gen o
  let per := slotPayload (scullOf s sc) b
  let filled := slotWords s i p per f.slots
  match filled.2 with
  | some w =>
    let g := { f with filled := true }
    injectPublish (setFuture (slotStore filled.1 n gen v.toNat w) i g) i g p at_ o sc b v
  | none =>
    let q := Payload.failure 0xFFFD
    let w := (slotWords filled.1 i q per f.slots).2.getD []
    let g := { f with filled := true, payload := some q }
    injectPublish (setFuture (slotStore filled.1 n gen v.toNat w) i g) i g q at_ o sc b v

/-- The next thing an injection does at its header: it claims a slot as SIPW does, after the waiters before it; fills it; publishes it as SIPP
does; or goes on after the publication (R184, R370). -/
def injectAt (s : State) (i : FutureIndex) (f : Future) (p : Payload) (n : ChamberSlot) (gen : BitVec 15) (o : Nat) (sc : ScullId)
    (b : Nat) : State :=
  let at_ := Place.chamber n gen o
  match f.claim, f.filled with
  | some v, true => injectPublish s i f p at_ o sc b v
  | some v, false => injectFill s i f p n gen o sc b v
  | none, true => injectNext s i f p sc b
  | none, false =>
    let s := siphonChanged (setFuture s i f) sc b at_
    match siphonAt (scullOf s sc) b (BitVec.ofNat 64 o) .claimWrite with
    | .wait => injectionJoins s i .claimWrite at_ o sc
    | .fail _ _ => settleFuture s i f true
    | .done l r =>
      let v := r.getD 0
      let g := { f with claim := some v }
      injectFill (setFuture (siphonChanged (setScull s sc (siphonWrite (scullOf s sc) b l)) sc b at_) i g) i g p n gen o sc b v

/-- One step of the injection of a committed entry (R370). An EVICTED chamber is refilled whatever its miss policy. -/
def injectSlot (s : State) (i : FutureIndex) (f : Future) (p : Payload) : State :=
  match f.siphon with
  | none => settleFuture s i f true
  | some (n, gen, o) =>
    match chamberOf s n with
    | none => settleFuture s i f true
    | some x =>
      if generation s n ≠ gen then settleFuture s i f true
      else if x.state ≠ .resident then postLater (touchChamber s n) (.future i) .futureSlotInject
      else match locate s (.chamber n gen o) 0 with
        | .at_ sc b =>
          if injectionWaits (scullOf s sc) i then s
          else if !f.checked && siphonRefused (scullOf s sc) b o x.nfr then settleFuture s i f true
          else injectAt s i { f with checked := true } p n gen o sc b
        | _ => settleFuture s i f true

/-- FUTURE_SLOT_INJECT (R370); in the cycle after a settlement the same step wakes the waiters (R364). -/
def execFutureSlotInject (s : State) : Result :=
  match s.actor with
  | .future i =>
    let s := wakeSettled s i
    match futureOf s i with
    | some f => match f.committed, f.payload with
      | true, some p => .next (injectSlot s i f p)
      | _, _ => .next s
    | none => .next s
  | _ => .next s

/-! ### FUTURE_TIMEOUT (R369) and FUTURE_ENTRY_ERROR (R376) -/

/-- The deadline of an entry that is not committed is reached; a proxy's does not count here (R375). -/
def timeoutDue (s : State) (f : Future) : Bool :=
  openToSettle f && f.flow.isNone && match f.deadline with
    | some d => decide (d ≤ gtcOf s)
    | none => false

def execFutureTimeout (s : State) : Result :=
  match s.actor with
  | .future i => match futureOf s i with
    | some f => if timeoutDue s f then .next (commitFuture s i f (.timeout f.token) .timedOut) else .next s
    | none => .next s
  | _ => .next s

/-- An entry with an uncorrectable error leaves service until reset: its waiters trap and its handle is stale (R376). The value of their
CTX.TVAL is not stated. -/
def retireFuture (s : State) (i : FutureIndex) (f : Future) : State :=
  let v := drawWord s
  let s := dropSipFuture (unqueueCall (failWaiters v.2 i f (futureTrap 0x07 v.1)) i) i
  { s with table := { s.table with
    live := tabDrop s.table.live i.toNat, gens := tabSet s.table.gens i.toNat (futureGen s i + 1) } }

def execFutureEntryError (s : State) : Result :=
  match s.actor with
  | .future i =>
    let s := match futureOf s i with
      | some f => retireFuture s i f
      | none => s
    let s := { s with table := { s.table with retired := setAdd s.table.retired i.toNat } }
    .next (sendEventRecord s 0x07 0 (i.setWidth 64))
  | _ => .next s

end Sys2Proof.Machine
end

