-- ==== Sys2Proof/Machine/Harts.lean ====
section
/-! DEFINITION. Tool harts (R371 to R374, R396): their registers, the checks and translation of their accesses, what stops them (R330, R332,
R356), and the delivery of calls. -/

namespace Sys2Proof.Machine

/-! ### Registers and faults -/

def readX (h : Hart) (r : BitVec 5) : Word := if r = 0 then 0 else tabGet 0 h.x r.toNat
def writeX (h : Hart) (r : BitVec 5) (v : Word) : Hart := if r = 0 then h else { h with x := tabSet h.x r.toNat v }

/-- A completed hart instruction. -/
def hartDone (s : State) (n : HartId) (h : Hart) (rd : BitVec 5) (v : Word) : State :=
  let h := writeX h rd v
  setHart s n { h with pc := h.pc + 4, st := .running }

/-! RISC-V's trap CSRs by number (log 11). -/

def hartReg (h : Hart) (num : Nat) : Word := tabGet 0 h.csrs num
def setHartReg (h : Hart) (num : Nat) (v : Word) : Hart := { h with csrs := tabSet h.csrs num v }

/-- mstatus keeps SIE, MIE, SPIE, MPIE, SPP and MPP; sstatus shows three of them. -/
def mstatusBits : Word := 0x19AA
def sstatusBits : Word := 0x122

def HartMode.rank : HartMode → Nat
  | .user => 0 | .supervisor => 1 | .machine => 3

/-- A bit of a word set to a Bool. -/
def putBit (v : Word) (i : Nat) (b : Bool) : Word := (v &&& ~~~((1 : Word) <<< i)) ||| (if b then (1 : Word) <<< i else 0)

/-- A hart takes an exception in its own privileged software, as the RISC-V privileged architecture enters one (R371; log 11): in supervisor mode
where medeleg delegates the cause and the hart is not in machine mode, else in machine mode; the pc, cause and value are kept, interrupts are off,
and the handler is the base of stvec or mtvec. -/
def hartTrap (s : State) (n : HartId) (cause : Nat) (tval : Word) : State :=
  let h := hartOf s n
  let m := hartReg h 0x300
  let code := BitVec.ofNat 64 cause
  setHart s n (if h.mode ≠ .machine ∧ (hartReg h 0x302).getLsbD cause then
    let h' := setHartReg (setHartReg (setHartReg h 0x141 h.pc) 0x142 code) 0x143 tval
    let h' := setHartReg h' 0x300 (putBit (putBit (putBit m 5 (m.getLsbD 1)) 1 false) 8 (h.mode == .supervisor))
    { h' with st := .running, mode := .supervisor, pc := hartReg h 0x105 &&& ~~~3 }
  else
    let h' := setHartReg (setHartReg (setHartReg h 0x341 h.pc) 0x342 code) 0x343 tval
    let m := putBit (putBit m 7 (m.getLsbD 3)) 3 false
    let h' := setHartReg h' 0x300 (putBit (putBit m 11 (h.mode != .user)) 12 (h.mode == .machine))
    { h' with st := .running, mode := .machine, pc := hartReg h 0x305 &&& ~~~3 })

/-- A capability failure freezes the hart before the access (R330, R373); its record alone reports it (R329). -/
def hartFreeze (s : State) (n : HartId) (kind : AccessKind) (va : Word) (need : Rights) : State :=
  let h := hartOf s n
  let s := setHart s n { h with st := .frozen }
  sendRecord s 0x02 (kindCode kind) h.asid (.hart n) va 0 (need.bits.setWidth 64) 0

/-- What a hart's access finds. -/
inductive HartReach where
  | at_ (s : State) (pa : Nat)
  | stop (s : State)
  deriving DecidableEq

/-- RISC-V's page fault and access fault of a kind of access. -/
def pageCause : AccessKind → Nat
  | .load => 13 | .fetch => 12 | _ => 15
def accessCause : AccessKind → Nat
  | .load => 5 | .fetch => 1 | _ => 7

def hartRights : AccessKind → Rights
  | .load => rightsRead | .store => rightsWrite | .fetch => rightsFetch | _ => rightsAtomic

/-- n bytes of one page at va: capabilities (R373), translation (R371), capacity (R356) or a send aperture (R380, R386), poison (R332). -/
def hartReach (s : State) (n : HartId) (kind : AccessKind) (va : Word) (size : Nat) : HartReach :=
  let h := hartOf s n
  let need := hartRights kind
  if !capsGrant h.caps h.asid need va.toNat size then .stop (hartFreeze s n kind va need)
  else
    let there := fun (s : State) (pa : Nat) =>
      if kind = .store ∧ size = 8 ∧ isAperture pa ∧ (apertureStore s (.hart n) (some h.asid) (pa - apertureBase) [0]).isSome then
        HartReach.at_ s pa
      else if !inCapacity s pa then .stop (hartTrap s n (accessCause kind) va)
      else if kind ≠ .store ∧ globalPoison s pa then .stop (hartTrap s n 19 va)
      else .at_ s pa
    if h.bare then there s va.toNat
    else if !canonical va then .stop (hartTrap s n (pageCause kind) va)
    else match walkTo s hartNode h.ptroot va kind (h.mode == .user) with
      | .error _ => .stop (hartTrap s n (pageCause kind) va)
      | .ok (s, pa) => there s pa

/-- Reads n words from va on, each its own load through the hart L2 (R339); the words, or the state after what stopped one. -/
def hartWords (s : State) (n : HartId) (va : Word) : Nat → List Word → Except State (State × List Word)
  | 0, l => .ok (s, l)
  | k + 1, l => match hartReach s n .load va 8 with
    | .stop s => .error s
    | .at_ s pa => hartWords (fetchLine s hartNode (lineOf pa)) n (va + 8) k (l ++ [globalWord s pa])

/-! ### Calls (R373, R374) -/

/-- hcap7 for a taken call (R373). -/
def callCap (f : Future) : BitVec 128 :=
  f.owner ++ (f.argLen.setWidth 48 : BitVec 48) ++ (1 : BitVec 1) ++ (0 : BitVec 10) ++ (1 : BitVec 5) ++ (f.argBase.setWidth 48 : BitVec 48)

/-- The record of a taken call (R374). -/
def callRecord (handle : Word) (f : Future) : List Word :=
  [handle, BitVec.ofNat 64 f.tool, f.argBase, f.argLen,
    match f.deadline with
    | some d => BitVec.ofNat 64 d
    | none => 0xFFFFFFFFFFFFFFFF,
    f.caller.setWidth 64, 0, 0]

/-- The oldest call of the pools of a mask. -/
def oldestCall (s : State) (mask : BitVec 16) : Option (FutureIndex × Future) :=
  let heads := (List.range 16).filterMap fun p =>
    if mask.getLsbD p then (tabGet [] s.table.pools p).head?.bind fun i => (futureOf s i).map fun f => (i, f) else none
  heads.foldl (fun best e => match best with
    | none => some e
    | some b => if b.2.order ≤ e.2.order then some b else some e) none

/-- Gives a hart a call, unless its record cannot be written. -/
def deliverCall (s : State) (n : HartId) (rd : BitVec 5) (rec_ : Word) (i : FutureIndex) (f : Future) : State :=
  match hartReach s n .store rec_ 64 with
  | .stop s => s
  | .at_ s pa =>
    let handle := futureHandle (futureGen s i) i
    let s := agentWriteWords s hartNode pa (callRecord handle f)
    let s := unqueueCall (setFuture s i { f with state := .pending }) i
    let h := hartOf s n
    hartDone s n { h with call := some handle, caps := tabSet h.caps 7 (callCap f) } rd handle

/-- Offers the queued calls to the waiting harts, in the order in which they came (R374). -/
def offerCalls (s : State) : Nat → State
  | 0 => s
  | k + 1 =>
    match s.table.takers.findSome? fun t => (oldestCall s (hartOf s t.1).hfpool).map fun c => (t, c) with
    | none => s
    | some (t, c) =>
      let s := { s with table := { s.table with takers := s.table.takers.filter fun q => q.1 != t.1 } }
      offerCalls (deliverCall s t.1 t.2.1 t.2.2 c.1 c.2) k

/-- Puts a call in its pool's queue and offers it. -/
def queueCall (s : State) (i : FutureIndex) (pool : BitVec 4) : State :=
  let q := tabGet [] s.table.pools pool.toNat ++ [i]
  let s := { s with table := { s.table with pools := tabSet s.table.pools pool.toNat q } }
  offerCalls s s.table.takers.length

/-! ### The hart future instructions at the table (R374) -/

/-- hfut.take. -/
def hartTake (s : State) (n : HartId) (rd rs1 : BitVec 5) : State :=
  let h := hartOf s n
  let rec_ := readX h rs1
  if h.call.isSome then hartDone s n h rd 0
  else if rec_.toNat % 64 ≠ 0 then hartTrap s n 6 rec_
  else match oldestCall s h.hfpool with
    | some (i, f) => deliverCall (setHart s n { h with st := .running }) n rd rec_ i f
    | none =>
      if h.irq then hartDone s n { h with irq := false } rd 0
      else
        let s := setHart s n { h with st := .waitTake rd rec_ }
        { s with table := { s.table with takers := s.table.takers ++ [(n, rd, rec_)] } }

/-- The hart no longer holds a call, and its hcap7 is clear (R373). -/
def releaseCall (h : Hart) : Hart := { h with call := none, caps := tabSet h.caps 7 0 }

/-- What hfut.put and hfut.fail share: whose call it is, and whether it is still open. -/
def withCall (s : State) (n : HartId) (rd : BitVec 5) (handle : Word) (k : FutureIndex → Future → State) : State :=
  let h := hartOf s n
  if h.call ≠ some handle then hartDone s n h rd 2
  else match liveFuture s handle with
    | some f => if openToSettle f then k (handleIndex handle) f else hartDone s n (releaseCall h) rd 1
    | none => hartDone s n (releaseCall h) rd 1

/-- hfut.put: the whole buffer is read before the commit. -/
def hartPut (s : State) (n : HartId) (rd rs1 rs2 : BitVec 5) : State :=
  let h := hartOf s n
  let buf := readX h rs2
  withCall s n rd (readX h rs1) fun i f =>
    if buf.toNat % 8 ≠ 0 then hartTrap s n 4 buf
    else match hartReach s n .load buf 8 with
      | .stop s => s
      | .at_ s pa =>
        let s := fetchLine s hartNode (lineOf pa)
        let len := (globalWord s pa).toNat
        if !replyLengthOk len then hartDone s n (hartOf s n) rd 3
        else match hartWords s n (buf + 8) (len / 8) [] with
          | .error s => s
          | .ok (s, l) =>
            let s := commitFuture s i f (.bytes (wordsBytes l)) .fulfilled
            hartDone s n (releaseCall (hartOf s n)) rd 0

/-- hfut.poll, of any domain. -/
def hartPoll (s : State) (n : HartId) (rd rs1 : BitVec 5) : State :=
  let h := hartOf s n
  hartDone s n h rd (match liveFuture s (readX h rs1) with
    | some f => futureWord f
    | none => 7)

/-- hfut.fail. -/
def hartFail (s : State) (n : HartId) (rd rs1 rs2 : BitVec 5) : State :=
  let h := hartOf s n
  withCall s n rd (readX h rs1) fun i f =>
    let s := commitFuture s i f (.failure ((readX h rs2).setWidth 16 |>.setWidth 64)) .fulfilled
    hartDone s n (releaseCall (hartOf s n)) rd 0

/-! ### CSRs (R371, R372)

The numbers of those that R372 does not number, satp's fields and the instructions that reach a CSR are RISC-V's (log 11). -/

/-- satp: MODE 9 is Sv48, 0 none. -/
def satpWord (h : Hart) : Word := (if h.bare then (0 : BitVec 4) else 9) ++ h.asid ++ (h.ptroot.extractLsb' 12 44 : BitVec 44)

/-- The trap CSRs that hold what is written to them, by number, with the bits they keep (log 11): stvec, sscratch, sepc, scause and stval; and of
machine mode medeleg and the same five. -/
def trapCsr (num : Nat) : Option Word :=
  match num with
  | 0x105 | 0x305 => some (~~~3)
  | 0x141 | 0x341 => some (~~~1)
  | 0x140 | 0x142 | 0x143 | 0x302 | 0x340 | 0x342 | 0x343 => some (~~~0)
  | _ => none

/-- hcapiL and hcapiH, hfpool (R372), satp, time in nanoseconds of GTC and mhartid (R371), and the CSRs of traps; none for any other. -/
def hartCsrRead (s : State) (n : HartId) (num : Nat) : Option Word :=
  let h := hartOf s n
  if 0x5C0 ≤ num ∧ num < 0x5D0 then some ((capOf h.caps ((num - 0x5C0) / 2) >>> (64 * (num % 2))).setWidth 64)
  else match num with
    | 0x5D0 => some (h.hfpool.setWidth 64)
    | 0x180 => some (satpWord h)
    | 0xC01 => some (BitVec.ofNat 64 (gtcOf s))
    | 0xF14 => some (n.setWidth 64)
    | 0x300 => some (hartReg h 0x300)
    | 0x100 => some (hartReg h 0x300 &&& sstatusBits)
    | _ => (trapCsr num).map fun _ => hartReg h num

/-- A write of satp with another MODE has no effect. -/
def hartSatp (h : Hart) (v : Word) : Hart :=
  let mode : BitVec 4 := v.extractLsb' 60 4
  if mode = 0 ∨ mode = 9 then { h with bare := mode == 0, asid := v.extractLsb' 44 16, ptroot := (0 : BitVec 8) ++ (v.setWidth 44 : BitVec 44) ++ (0 : BitVec 12) }
  else h

/-- A write of such a CSR: hfpool keeps bits 15:0, a capability's reserved bits stay zero (R372, R43). -/
def hartCsrWrite (h : Hart) (num : Nat) (v : Word) : Hart :=
  if num = 0x5D0 then { h with hfpool := v.setWidth 16 }
  else if num = 0x180 then hartSatp h v
  else if num = 0x300 then setHartReg h 0x300 (v &&& mstatusBits)
  else if num = 0x100 then setHartReg h 0x300 ((hartReg h 0x300 &&& ~~~sstatusBits) ||| (v &&& sstatusBits))
  else match trapCsr num with
  | some keep => setHartReg h num (v &&& keep)
  | none => { h with caps := tabSet h.caps ((num - 0x5C0) / 2) (capWithHalf (capOf h.caps ((num - 0x5C0) / 2)) num v) }

/-- What CSRRW, CSRRS and CSRRC leave. -/
def csrPut (kind : Nat) (old x : Word) : Word :=
  match kind with
  | 1 => x
  | 2 => old ||| x
  | _ => old &&& ~~~x

/-- A CSR instruction of a hart on one of these: illegal below the mode of the CSR (R372: from U-mode), and as a write of one that is
read only; none for any other word. -/
def hartCsr (s : State) (n : HartId) (w : BitVec 32) : Option State :=
  let kind := (w.extractLsb' 12 2 : BitVec 2).toNat
  if w.extractLsb' 0 7 ≠ (0x73 : BitVec 7) ∨ kind = 0 then none
  else
    let h := hartOf s n
    let num := (w.extractLsb' 20 12 : BitVec 12).toNat
    let rs1 : BitVec 5 := w.extractLsb' 15 5
    let writes := decide (kind = 1 ∨ rs1 ≠ 0)
    (hartCsrRead s n num).map fun old =>
      if h.mode.rank < num / 256 % 4 ∨ (writes ∧ num / 1024 = 3) then hartTrap s n 2 (w.setWidth 64)
      else
        let x := if w.getLsbD 14 then rs1.setWidth 64 else readX h rs1
        hartDone s n (if writes then hartCsrWrite h num (csrPut kind old x) else h) (w.extractLsb' 7 5) old

/-! ### APERTURE_WRITE (R356, R386) -/

/-- A write at an aperture that is outside capacity is not applied (R356); a hart takes an access fault, whose address is not stated here. -/
def apertureOutside (s : State) (m : Master) : State :=
  match m with
  | .hart n => let v := drawWord s; hartTrap v.2 n (accessCause .store) v.1
  | _ => s

/-- APERTURE_WRITE: a write reaches the endpoint; one to a frozen flow waits (R386). -/
def execApertureWrite (m : Master) (o : Nat) (data : List Word) (s : State) : Result :=
  let go := fun (s : State) (wait : State) => match apertureStore s m (masterDomain s m) o data with
    | none => apertureOutside s m
    | some (true, t) => t
    | some (false, _) => wait
  match m with
  | .pcie _ => .next (pcieWrite s (.apertureWrite m o data) fun s => go s (holdPcie s (.apertureWrite m o data)))
  | _ => .next (go s (postLater s .none (.apertureWrite m o data)))

/-! ### HART_INTERRUPT, HART_ACCESS, and a hart's death (R330, R373, R374) -/

/-- HART_INTERRUPT: it ends a wait; without one it stays pending. -/
def execHartInterrupt (n : HartId) (s : State) : Result :=
  let h := hartOf s n
  match h.st with
  | .waitTake rd _ =>
    let s := { s with table := { s.table with takers := s.table.takers.filter fun t => t.1 != n } }
    .next (hartDone s n h rd 0)
  | _ => .next (setHart s n { h with irq := true })

/-- HART_ACCESS: a load, store or fetch of the hart's own software, checked and translated; a read brings its lines into the hart L2 (R339). A failing
one freezes the hart, which keeps it for MTHAW to reissue. -/
def execHartAccess (n : HartId) (kind : AccessKind) (va : Word) (size : Nat) (s : State) : Result :=
  let h := hartOf s n
  if h.st = .frozen ∨ h.st = .halted then .next s
  else match hartReach s n kind va size with
    | .at_ s pa => .next (if kind = .store ∨ inRegisters pa then s else fetchRange s hartNode pa size)
    | .stop s =>
      let g := hartOf s n
      .next (if g.st = .frozen then setHart s n { g with access := some (kind, va, size) } else s)

/-- MTHAW of a frozen hart: its access, or its instruction, is issued again. -/
def thawHart (s : State) (n : HartId) : State :=
  let h := hartOf s n
  let s := setHart s n { h with st := .running, access := none }
  match h.access with
  | some (kind, va, size) => post s 0 .none (.hartAccess n kind va size)
  | none => s

/-- MKILL of a hart (R330): its sandbox, which R373 makes one ASID and the eight capabilities, ends with its capabilities cleared (log 48), its
call fails as hfut.fail fails it, and it is idle. The reason is not stated. -/
def killHart (s : State) (n : HartId) : State :=
  let h := hartOf s n
  let s := match h.call.bind fun c => (liveFuture s c).map fun f => (handleIndex c, f) with
    | some (i, f) =>
      if openToSettle f then
        let v := drawWord s
        commitFuture v.2 i f (.failure (v.1 &&& 0xFFFF)) .fulfilled
      else s
    | none => s
  let s := { s with table := { s.table with
    takers := s.table.takers.filter fun t => t.1 != n, requests := s.table.requests.filter fun r => r.actor != .hart n } }
  setHart s n { releaseCall h with st := .idle, access := none, caps := [] }

end Sys2Proof.Machine
end

