-- ==== Sys2Proof/Machine/Futures.lean ====
section
/-! DEFINITION. The future instructions (R361 to R368), the order in which the table serves its requests (R369), the hart future instructions
as requests (R374), the messages of remote calls (R375, R387), and the return of an evicted waiter (R365). -/

namespace Sys2Proof.Machine

/-! ### Requests to the table (R369) -/

/-- The rank of same-cycle arrivals: sculls, then harts, then the endpoint. -/
def requestRank : Actor → Nat
  | .context _ _ => 0
  | .hart _ => 1
  | _ => 2

/-- Whether the table serves a request of an actor in this cycle at once. -/
def tableFree (s : State) (a : Actor) : Bool :=
  s.table.busyAt != some s.cycle
    && s.table.requests.all fun r => r.arrived == s.cycle && decide (requestRank a < requestRank r.actor)

/-- The table serves one request in this cycle. -/
def tableBusy (s : State) : State := { s with table := { s.table with busyAt := some s.cycle } }

/-- The table's next service, a cycle from now. -/
def postTable (s : State) : State :=
  if isPosted s .none .futureTableRequest then s else post s 1 .none .futureTableRequest

/-- Puts a request behind those that precede it. -/
def queueRequest (s : State) (a : Actor) (i : Instr) : State :=
  let before := fun (q : TableReq) => !(q.arrived == s.cycle && decide (requestRank a < requestRank q.actor))
  let r : TableReq := { arrived := s.cycle, actor := a, instr := i, words := [], victims := [] }
  let l := s.table.requests
  postTable { s with table := { s.table with requests := l.takeWhile before ++ [r] ++ l.dropWhile before } }

/-! ### FALLOC, FPOLL, FCAN (R362, R366, R368) -/

def fallocBody (d a : Reg) (s : State) (sc : ScullId) (slot : Slot) (c : Ctx) : State :=
  let ga := readReg c a
  let make := fun (f : Future) => match freeFutureIndex s with
    | some i => finishReg (setFuture s i f) sc slot c d (futureHandle (futureGen s i) i)
    | none => finishReg s sc slot c d 0
  if ga = 0 then make { freshFuture c.asid with crew := some c.crew }
  else match openChamber s c.asid ga with
    | none => raise s sc slot (attachMiss 0x03 ga)
    | some _ => make { freshFuture c.asid with chamber := some (handleSlot ga, handleGen ga) }

/-- Runs k on the entry of an open handle (R357). -/
def withFuture (s : State) (sc : ScullId) (slot : Slot) (c : Ctx) (h : Word) (k : FutureIndex → Future → State) : State :=
  match openFuture s c.asid h with
  | none => raise s sc slot (futureTrap 0x01 h)
  | some f => k (handleIndex h) f

def fpollBody (d a : Reg) (s : State) (sc : ScullId) (slot : Slot) (c : Ctx) : State :=
  withFuture s sc slot c (readReg c a) fun _ f => finishReg s sc slot c d (futureWord f)

def fcanBody (d a : Reg) (s : State) (sc : ScullId) (slot : Slot) (c : Ctx) : State :=
  withFuture s sc slot c (readReg c a) fun i f =>
    if f.committed then finishReg s sc slot c d 2
    else if openToSettle f then cancelFuture (finishReg s sc slot c d 0) i f
    else freeFuture (finishReg s sc slot c d 1) i

/-! ### FCALL (R363, R375) -/

/-- R363 on the words of a descriptor. -/
def descriptorBad (w : List Word) : Bool :=
  let high := fun (n : Nat) => (w.getD n 0).extractLsb' 32 32 != (0 : BitVec 32)
  high 0 || high 2 || high 3 || w.getD 6 0 != 0 || w.getD 7 0 != 0 || (w.getD 3 0).toNat % 64 != 0 || decide (65536 < (w.getD 2 0).toNat)

/-- A byte of an argument buffer under the caller's root, view and capabilities; a byte that cannot be read is free (log 2). -/
def argByte (s : State) (sc : ScullId) (c : Ctx) (va : Word) : State × Byte :=
  let free := let v := drawWord s; (v.2, v.1.setWidth 8)
  if !canonical va || !capsGrant c.caps c.asid rightsRead va.toNat 1 then free
  else match walkTo s hubNode c.ptroot va .load (!c.prv) with
    | .error _ => free
    | .ok (t, pa) => if inRegisters pa || !contextMay t sc pa 1 rightsRead || globalPoison t pa then free else (fetchLine t hubNode (lineOf pa), globalByte t pa)

def argBytes (s : State) (sc : ScullId) (c : Ctx) (va : Word) : Nat → List Byte → State × List Byte
  | 0, l => (s, l)
  | n + 1, l => let r := argByte s sc c va; argBytes r.1 sc c (va + 1) n (l ++ [r.2])

/-- The deadline as a call states it; all ones where there is none (R374). -/
def deadlineWord (f : Future) : Word :=
  match f.deadline with
  | some d => BitVec.ofNat 64 d
  | none => 0xFFFFFFFFFFFFFFFF

/-- The entry of an accepted call. -/
def armedFuture (s : State) (f : Future) (c : Ctx) (gb : Word) (w : List Word) (t : Tool) : Future :=
  let ns := (w.getD 4 0).toNat
  { f with
    state := if t.remote then .pending else .armed
    siphon := some (handleSlot gb, handleGen gb, (w.getD 3 0).toNat)
    deadline := if ns = 0 then none else some (gtcOf s + ns)
    token := w.getD 5 0, tool := (w.getD 0 0).toNat, argBase := w.getD 1 0, argLen := w.getD 2 0, caller := c.crew, order := s.nextId
    pool := if t.remote then none else some t.pool
    remote := if t.remote then some (t.flow, t.rtool.setWidth 64) else none }

/-- Accepts a call: to its pool's queue, or to the far package once its arguments are read. -/
def acceptCall (s : State) (sc : ScullId) (slot : Slot) (c : Ctx) (i : FutureIndex) (f : Future) (t : Tool) : State :=
  let s := finish (freshId (setFuture s i f)) sc slot c
  if t.remote then
    let r := argBytes s sc c f.argBase f.argLen.toNat []
    sendRemote r.1 (.call t.flow (futureHandle (futureGen s i) i) (deadlineWord f) (t.rtool.setWidth 64) r.2)
  else queueCall s i t.pool

def fcallBody (a b e : Reg) (s : State) (sc : ScullId) (slot : Slot) (c : Ctx) : State :=
  let ga := readReg c a
  let gb := readReg c b
  let gc := readReg c e
  withFuture s sc slot c ga fun i f =>
    if f.state ≠ .idle then raise s sc slot (futureTrap 0x02 ga)
    else if gc.toNat % 64 ≠ 0 then raise s sc slot { code := 0x03, aux := 0, tval := gc }
    else readBlock sc slot gc 8 [] (fun s w =>
      let c := ctxOf s sc slot
      if descriptorBad w then raise s sc slot (futureTrap 0x03 gc)
      else
        let s := fetchTool s (w.getD 0 0).toNat
        match toolOf s (w.getD 0 0).toNat with
        | none => raise s sc slot (futureTrap 0x04 gc)
        | some t =>
          if t.asid ≠ c.asid then raise s sc slot (futureTrap 0x04 gc)
          else match openChamber s c.asid gb with
            | none => raise s sc slot (attachMiss 0x03 gb)
            | some x =>
              if x.nfr * 4096 < (w.getD 3 0).toNat + 64 then raise s sc slot (capacityTrap 0x07 (w.getD 3 0))
              else whenDrained s sc slot c .system (acceptCall s sc slot c i (armedFuture s f c gb w t) t)) s

/-! ### FWAIT (R364, R365) -/

/-- The conditions of R365, apart from a free image. -/
def mayEvict (s : State) (sc : ScullId) (slot : Slot) (c : Ctx) : Bool :=
  boundEngines s sc slot == [] && c.resv.isNone && c.overlap.isEmpty

/-- The context gives up its slot and window, its image written to its place (R288, R365). -/
def evictContext (s : State) (k : Nat) (future : FutureIndex × Reg) (place : Nat) : State :=
  let c := ctxAt s k
  let id := s.nextId
  let s := parkContext s k (some future) (some place)
  checkSignalled (match itemOf s id with
    | some (.parked p) => storeImage s p place
    | _ => s) c.crew

def fwaitBody (d a : Reg) (evict : Bool) (s : State) (sc : ScullId) (slot : Slot) (c : Ctx) : State :=
  withFuture s sc slot c (readReg c a) fun i f =>
    if settledFuture f then finishReg s sc slot c d (futureWord f)
    else if 16 ≤ f.waiters.length + f.evicted.length then
      let v := drawWord s
      raise v.2 sc slot (futureTrap 0x05 v.1)
    else match evict && mayEvict s sc slot c, freeImage s c.crew c.cidx with
      | true, some place => evictContext (setFuture s i { f with evicted := f.evicted ++ [s.nextId] }) (ctxKey sc slot) (i, d) place
      | _, _ => park (setFuture s i { f with waiters := f.waiters ++ [ctxKey sc slot] }) sc slot c (.future i d)

/-! ### FPUT (R367) -/

/-- FPUT, a release at system scope: the buffer is read after every earlier access of the context (R155, R367). -/
def fputBody (d a b : Reg) (s : State) (sc : ScullId) (slot : Slot) (c : Ctx) : State :=
  let gb := readReg c b
  withFuture s sc slot c (readReg c a) fun i f =>
    if f.committed || settledFuture f then finishReg s sc slot c d 1
    else if !openToSettle f then
      let v := drawWord s
      raise v.2 sc slot (futureTrap 0x02 v.1)
    else if gb.toNat % 8 ≠ 0 then raise s sc slot { code := 0x03, aux := 0, tval := gb }
    else whenDrained s sc slot c .system (
      let commit := fun (s : State) (p : Payload) => commitFuture (finishReg s sc slot c d 0) i f p .fulfilled
      match readAs s sc c.asid c.ptroot c.prv c.caps gb with
      | (s, none) => commit s (.failure 0xFFFD)
      | (s, some r) =>
        if replyLengthOk r.toNat then commit s (.buffer sc gb r.toNat c.asid c.ptroot c.prv c.caps) else finishReg s sc slot c d 3)

/-! ### Issue and service (R361, R369) -/

/-- Serves a context's request. -/
def serveContext (i : Instr) (s : State) (sc : ScullId) (slot : Slot) (c : Ctx) : State :=
  match i with
  | .falloc d a => fallocBody d a s sc slot c
  | .fcall a b e => fcallBody a b e s sc slot c
  | .fwait d a ev => fwaitBody d a ev s sc slot c
  | .fpoll d a => fpollBody d a s sc slot c
  | .fput d a b => fputBody d a b s sc slot c
  | .fcan d a => fcanBody d a s sc slot c
  | _ => s

/-- An issued future instruction: served at once, or out of rotation until the table answers. -/
def viaTable (i : Instr) (s : State) (sc : ScullId) (slot : Slot) (c : Ctx) : State :=
  if tableFree s (.context sc slot) then serveContext i (tableBusy s) sc slot c
  else queueRequest (park s sc slot c .table) (.context sc slot) i

def execFalloc (d a : Reg) (s : State) : Result := .next (issueBy (.falloc d a) [a] [d] false (viaTable (.falloc d a)) s)
def execFcall (a b c : Reg) (s : State) : Result := .next (issueBy (.fcall a b c) [a, b, c] [] false (viaTable (.fcall a b c)) s)
def execFwait (d a : Reg) (evict : Bool) (s : State) : Result :=
  .next (issueBy (.fwait d a evict) [a] [d] false (viaTable (.fwait d a evict)) s)
def execFpoll (d a : Reg) (s : State) : Result := .next (issueBy (.fpoll d a) [a] [d] false (viaTable (.fpoll d a)) s)
def execFput (d a b : Reg) (s : State) : Result := .next (issueBy (.fput d a b) [a, b] [d] false (viaTable (.fput d a b)) s)
def execFcan (d a : Reg) (s : State) : Result := .next (issueBy (.fcan d a) [a] [d] false (viaTable (.fcan d a)) s)

/-- Serves a hart's request. -/
def serveHart (i : Instr) (s : State) (n : HartId) : State :=
  match i with
  | .hfutTake rd rs1 => hartTake s n rd rs1
  | .hfutPut rd rs1 rs2 => hartPut s n rd rs1 rs2
  | .hfutPoll rd rs1 => hartPoll s n rd rs1
  | .hfutFail rd rs1 rs2 => hartFail s n rd rs1 rs2
  | _ => s

/-- A hart future instruction of a running hart. -/
def hartIssue (i : Instr) (s : State) : State :=
  match s.actor with
  | .hart n =>
    let h := hartOf s n
    if h.st ≠ .running then s
    else if tableFree s (.hart n) then serveHart i (tableBusy s) n
    else queueRequest (setHart s n { h with st := .waitTable }) (.hart n) i
  | _ => s

def execHfutTake (rd rs1 : BitVec 5) (s : State) : Result := .next (hartIssue (.hfutTake rd rs1) s)
def execHfutPut (rd rs1 rs2 : BitVec 5) (s : State) : Result := .next (hartIssue (.hfutPut rd rs1 rs2) s)
def execHfutPoll (rd rs1 : BitVec 5) (s : State) : Result := .next (hartIssue (.hfutPoll rd rs1) s)
def execHfutFail (rd rs1 rs2 : BitVec 5) (s : State) : Result := .next (hartIssue (.hfutFail rd rs1 rs2) s)

/-! ### Remote calls (R375, R387) -/

/-- The proxy entry of a call. Where its bytes lie in the far package's memory, and its caller's CREWID, are not stated: free. -/
def proxyFuture (s : State) (flow : BitVec 24) (handle deadline rtool : Word) (arg : List Byte) : Future × State :=
  let a := drawWord s
  let b := drawWord a.2
  ({ freshFuture (flowAsid s flow) with
      state := .armed, flow := some (flow, handle), deadline := if deadline = 0xFFFFFFFFFFFFFFFF then none else some deadline.toNat,
      tool := rtool.toNat, argBase := a.1, argLen := BitVec.ofNat 64 arg.length, caller := b.1.setWidth 32, arg := arg,
      order := s.nextId }, freshId b.2)

def remoteCall (s : State) (flow : BitVec 24) (handle deadline rtool : Word) (arg : List Byte) : State :=
  match freeFutureIndex s with
  | none => sendRemote s (.fail flow handle 0xFFFE)
  | some i =>
    let s := fetchTool s rtool.toNat
    match toolOf s rtool.toNat with
    | none => sendRemote s (.fail flow handle 0xFFFF)
    | some t =>
      if t.asid ≠ flowAsid s flow then sendRemote s (.fail flow handle 0xFFFF)
      else
        let p := proxyFuture s flow handle deadline rtool arg
        queueCall (setFuture p.2 i { p.1 with pool := some t.pool }) i t.pool

/-- A reply or fail for an entry that takes none is discarded and counted (R375). -/
def discardReply (s : State) : State := { s with table := { s.table with discarded := s.table.discarded + 1 } }

/-- Commits what a far package answers, to an open entry that may still settle. -/
def remoteAnswer (s : State) (flow : BitVec 24) (handle : Word) (p : Payload) (valid : Bool) : State :=
  match openFuture s (flowAsid s flow) handle with
  | some f => if valid && openToSettle f then commitFuture s (handleIndex handle) f p .fulfilled else discardReply s
  | none => discardReply s

/-- The proxy of a caller's handle on a flow. -/
def proxyOf (s : State) (flow : BitVec 24) (handle : Word) : Option (FutureIndex × Future) :=
  (s.table.live.find? fun e => e.2.flow == some (flow, handle)).map fun e => (BitVec.ofNat 18 e.1, e.2)

def remoteCancel (s : State) (flow : BitVec 24) (handle : Word) : State :=
  match proxyOf s flow handle with
  | some (i, f) => if openToSettle f then cancelFuture s i f else s
  | none => s

/-- Serves a message. -/
def serveMessage (s : State) (i : Instr) : State :=
  match i with
  | .remoteCallMessage flow handle deadline rtool arg => remoteCall s flow handle deadline rtool arg
  | .remoteReplyMessage flow handle reply => remoteAnswer s flow handle (.bytes reply) (replyLengthOk reply.length)
  | .remoteFailMessage flow handle reason => remoteAnswer s flow handle (.failure (reason.setWidth 64)) true
  | .remoteCancelMessage flow handle => remoteCancel s flow handle
  | _ => s

/-- A message arrives on an open flow of the right kind, or is refused (R385, R387). -/
def messageVia (i : Instr) (flow : BitVec 24) (kind : BitVec 2) (s : State) : State :=
  if !endpointUp s then s
  else if flowState s flow = .open_ ∧ flowOutside s flow then freezeOutside s flow
  else if flowState s flow ≠ .open_ ∨ flowKind s flow ≠ kind then sendRemote s (.nack flow) else queueRequest s .none i

def execRemoteCallMessage (flow : BitVec 24) (handle deadline rtool : Word) (arg : List Byte) (s : State) : Result :=
  .next (messageVia (.remoteCallMessage flow handle deadline rtool arg) flow 2 s)
def execRemoteReplyMessage (flow : BitVec 24) (handle : Word) (reply : List Byte) (s : State) : Result :=
  .next (messageVia (.remoteReplyMessage flow handle reply) flow 1 s)
def execRemoteFailMessage (flow : BitVec 24) (handle : Word) (reason : BitVec 16) (s : State) : Result :=
  .next (messageVia (.remoteFailMessage flow handle reason) flow 1 s)
def execRemoteCancelMessage (flow : BitVec 24) (handle : Word) (s : State) : Result :=
  .next (messageVia (.remoteCancelMessage flow handle) flow 2 s)

/-! ### FUTURE_TABLE_REQUEST (R369) -/

/-- Whether a request may be served: its context is not FROZEN (R397). -/
def requestReady (s : State) (r : TableReq) : Bool :=
  match r.actor with
  | .context sc slot => !isFrozen (ctxOf s sc slot)
  | _ => true

def serveRequest (s : State) (r : TableReq) : State :=
  match r.actor with
  | .context sc slot =>
    let c := ctxOf s sc slot
    if waitOf c = some .table then serveContext r.instr (setCtx s sc slot (awake c)) sc slot (awake c) else s
  | .hart n =>
    let h := hartOf s n
    if h.st = .waitTable then serveHart r.instr (setHart s n { h with st := .running }) n else s
  | _ => serveMessage s r.instr

/-- The first request that may be served; the rest wait for the next cycle. -/
def execFutureTableRequest (s : State) : Result :=
  if s.table.busyAt = some s.cycle then .next (if s.table.requests = [] then s else postTable s)
  else match s.table.requests.find? (requestReady s) with
    | none => .next (if s.table.requests = [] then s else postTable s)
    | some r =>
      let s := tableBusy { s with table := { s.table with requests := s.table.requests.erase r } }
      let s := serveRequest s r
      .next (if s.table.requests = [] then s else postTable s)

/-! ### FWAIT_EVICT_RESUME (R365) -/

/-- The crew of an evicted context is running: pre-emption leaves it as it is (R300). -/
def crewRunning (s : State) (crew : CrewId) : Bool :=
  match crewOf s crew with
  | some x => x.state == .running
  | none => false

/-- One that is refused, or whose crew does not run, waits for a notice or for the resume. -/
def evictResume (s : State) (id : Nat) (p : Parked) (d : Reg) : State :=
  let c := p.ctx
  let x := scullOf s p.sc
  let held := x.holds.any fun h => h.id == id
  if !crewRunning s c.crew then s
  else if !held && (x.fenced || setHas s.isolated (p.sc.toNat / 8) || !roomFor s p.sc c.crew c.hdr 1) then s
  else match takeSlot s p.sc id with
    | none =>
      let s := if held then s else addHold s p.sc { id := id, slots := 1, entries := entriesOf c }
      requestRevoke s p.sc (.slot id)
    | some slot =>
      let r := loadImage (dropHold s p.sc id) p
      let p := r.2
      unparkContext r.1 id p (if p.trap.isSome then p.ctx else retire (writeReg p.ctx d p.result)) p.sc slot

def execFwaitEvictResume (s : State) : Result :=
  match s.actor with
  | .item id => match itemOf s id with
    | some (.parked p) => match p.future, p.ready with
      | some (_, d), true => .next (evictResume s id p d)
      | _, _ => .next s
    | _ => .next s
  | _ => .next s

end Sys2Proof.Machine
end

