-- ==== Sys2Proof/Machine/Packets.lean ====
section
/-! DEFINITION. Packets (R285, R286, R293, R299, R377, R395): their checks, the launch unit's reads (R399), and what a packet comes to when the
launch unit takes it. -/

namespace Sys2Proof.Machine

/-! ### The launch unit's reads (R399) -/

/-- For whom the launch unit reads: the scull, view, domain, root and capabilities of the context of crew index 0. -/
structure Reader where
  sc : ScullId
  asid : BitVec 16
  root : Word
  prv : Bool
  caps : Tab (BitVec 128)
  deriving DecidableEq, Repr

/-- The physical address of an aligned word that the reader may access; none on any failure (R399). -/
def unitReach (s : State) (r : Reader) (kind : AccessKind) (need : Rights) (va : Word) : State × Option Nat :=
  if !canonical va || va.toNat % 8 != 0 || !capsGrant r.caps r.asid need va.toNat 8 then (s, none)
  else match walkTo s hubNode r.root va kind (!r.prv) with
    | .error _ => (s, none)
    | .ok (s, pa) => if inRegisters pa || !contextMay s r.sc pa 8 need || globalPoison s pa then (s, none) else (s, some pa)

def unitRead (s : State) (r : Reader) (kind : AccessKind) (need : Rights) (va : Word) : State × Option Word :=
  let q := unitReach s r kind need va
  match q.2 with
  | some pa => (hubFetch q.1 pa 8, some (globalWord q.1 pa))
  | none => (q.1, none)

/-- n words from va on. -/
def unitWords (s : State) (r : Reader) (va : Word) : Nat → State × Option (List Word)
  | 0 => (s, some [])
  | n + 1 => match unitRead s r .load rightsRead va with
    | (s, none) => (s, none)
    | (s, some w) => match unitWords s r (va + 8) n with
      | (s, some l) => (s, some (w :: l))
      | (s, none) => (s, none)

/-- The root registered for a domain; none where V = 0 (R381). -/
def rootOf (s : State) (asid : BitVec 16) : Option Word :=
  match tabFind s.roots asid.toNat with
  | some w => if w.getLsbD 63 then some (w &&& 0xFFFFFFFFFF000) else none
  | none => none

/-- Entry CAPSEL of a queue's capability table (R283, R287). -/
def tableCaps (s : State) (x : Queue) (sel : BitVec 8) : Tab (BitVec 128) :=
  (List.range 8).map fun i => (i, capStored (BitVec.ofNat 128 (bytesNat (wordsBytes (hubWords s (x.capt + 128 * sel.toNat + 16 * i) 2)))))

/-! ### Fields of a packet (R285) -/

def packetType (w : List Word) : BitVec 8 := (packetWord w 0).extractLsb' 0 8
def packetAsid (w : List Word) : BitVec 16 := (packetWord w 0).extractLsb' 48 16
def packetSel (w : List Word) : BitVec 8 := (packetWord w 0).extractLsb' 40 8
def packetNctx (w : List Word) : Nat := ((packetWord w 0).extractLsb' 24 8 : BitVec 8).toNat
def packetBit (w : List Word) (n : Nat) : Bool := (packetWord w 0).getLsbD n
/-- PREH (R285 W7 bits 47:3). DESIGN CHOICE (log 86): its bits 63:48 are zero. -/
def packetPreh (w : List Word) : Word := packetWord w 7 &&& 0xFFFFFFFFFFF8
def packetSave (w : List Word) : Nat := ((packetWord w 7).extractLsb' 57 7 : BitVec 7).toNat

/-- Every reserved bit is zero (R285, R286). -/
def packetBitsOk (w : List Word) : Bool :=
  let w2 := packetWord w 2
  packetWord w 0 &&& 0xFF00FF0300 == 0 && packetWord w 6 &&& 0xFFFF0000 == 0 && packetWord w 7 &&& 0x1FF000000000007 == 0
    && (packetBit w 13 || (if w2.getLsbD 63 then w2 &&& 0x7FFF00000000003F == 0 else rangeBits w2))

/-- R286 on what needs no read, for a crew launch: o is where the packet came from. -/
def crewFormOk (o : Start) (w : List Word) : Bool :=
  let entry := packetWord w 1
  decide (1 ≤ packetNctx w) && decide (packetNctx w ≤ 64) && entry.toNat % 8 == 0 && canonical entry
    && packetWord w 4 != 0 && (packetWord w 4).toNat % 4096 == 0 && !(packetBit w 13 && packetBit w 14)
    && (o.queue.isSome || (!packetBit w 14 && packetSel w == 0))

/-- The fields that R299 requires to be zero. -/
def controlFormOk (w : List Word) : Bool :=
  packetWord w 0 &&& 0xFFFFFFFFE300 == 0 && packetWord w 1 &&& 0xFFFFFFFF00000000 == 0 && packetWord w 4 == 0 && packetWord w 7 == 0
    && (packetType w == 0x11 || packetWord w 2 == 0)

/-! ### Placement (R285, R293) -/

/-- What W2 names. -/
inductive Placement where
  | bad
  | wait (n : ChamberSlot)
  | sculls (l : List ScullId)
  deriving DecidableEq, Repr

def insertScull (a : ScullId) : List ScullId → List ScullId
  | [] => [a]
  | b :: t => if a.toNat < b.toNat then a :: b :: t else b :: insertScull a t

/-- The sculls a bitmap names, in increasing number. -/
def bitmapSculls (l : List Word) : List ScullId :=
  ((List.range 2048).filter fun i => (l.getD (i / 64) 0).getLsbD (i % 64)).map fun i => BitVec.ofNat 11 i

/-- What the words at va hold, whoever may read them: a bitmap tells in this way which context of the packet has index 0. -/
def peekWords (s : State) (root va : Word) : Nat → State × Option (List Word)
  | 0 => (s, some [])
  | n + 1 => match walkTo s hubNode root va .load false with
    | .error _ => (s, none)
    | .ok (s, pa) => match peekWords s root (va + 8) n with
      | (t, some l) => (t, some (hubWord s pa :: l))
      | (t, none) => (t, none)

/-- Reads a bitmap as the context of index 0 would, which the bitmap itself names (R399). fixed: the view of a CLAUNCH's issuer. -/
def readBitmap (s : State) (r : Reader) (fixed : Bool) (va : Word) : State × Placement :=
  let first := peekWords s r.root va 32
  match first.2.map bitmapSculls with
  | some (a :: t) =>
    let read := unitWords first.1 { r with sc := a, prv := if fixed then r.prv else inColumn s a } va 32
    (read.1, if read.2.isSome then .sculls (a :: t) else .bad)
  | _ => (first.1, .bad)

/-- The members a packet names. A chamber that is not RESIDENT is to be refilled. DESIGN CHOICE (log 86): bits 63:48 of a bitmap's address, of which W2
holds 47:6, are zero. -/
def placement (s : State) (r : Reader) (fixed : Bool) (w : List Word) : State × Placement :=
  let w2 := packetWord w 2
  if packetBit w 13 then
    match openChamber s r.asid w2 with
    | none => (s, .bad)
    | some x =>
      if x.state = .resident then (s, .sculls ((holderSculls x).foldl (fun t a => insertScull a t) []))
      else (s, .wait (handleSlot w2))
  else if w2.getLsbD 63 then readBitmap s r fixed (w2 &&& 0xFFFFFFFFFFC0)
  else if rangeOk w2 then (s, .sculls ((rangeSculls w2).map fun n => BitVec.ofNat 11 n))
  else (s, .bad)

/-! ### Judging (R286, R287, R381, R395, R399) -/

/-- What a packet comes to. -/
inductive Judged where
  | bad (kind : BitVec 8)
  | marker
  | preempt
  | resume
  | wait (n : ChamberSlot)
  | crew (st : Start)
  deriving DecidableEq, Repr

/-- Whether a packet's origin may name sculls of the column: a PRIV queue alone (R395). -/
def mayNameColumn (s : State) (o : Start) : Bool :=
  match o.queue with
  | some q => (queueOf s q).priv
  | none => false

/-- The capabilities and root a packet's contexts receive, for CLAUNCH the issuer's; none where the domain has no root (R22, R287, R381). -/
def packetIdentity (s : State) (o : Start) (w : List Word) : Option (Tab (BitVec 128) × Word) :=
  match o.queue with
  | some q => (rootOf s (packetAsid w)).map fun root => (tableCaps s (queueOf s q) (packetSel w), root)
  | none => (rootOf s (packetAsid w)).map fun _ => (o.caps, o.ptroot)

/-- A crew launch whose placement is known: its header and its arguments are read. -/
def judgeMembers (s : State) (o : Start) (r : Reader) (w : List Word) (l : List ScullId) : State × Judged :=
  let views := if o.queue.isSome then l.map (inColumn s) else l.map fun _ => r.prv
  let r := { r with sc := l.headD 0, prv := views.headD false }
  if l.any (inColumn s) ∧ !mayNameColumn s o then (s, .bad 0x41)
  else
    let h := unitRead s r .fetch rightsFetch (packetWord w 1 - 8)
    match h.2.bind readHeader with
    | none => (h.1, .bad 0x41)
    | some hdr =>
      if (hdr.cls = .harvest) ≠ (packetBit w 14 = true) ∨ (packetPreh w ≠ 0 ∧ hdr.frm ≤ packetSave w) then (h.1, .bad 0x41)
      else
        let a := if packetBit w 15 then unitWords h.1 r (packetWord w 3) (l.length * packetNctx w) else (h.1, some [])
        match a.2 with
        | none => (a.1, .bad 0x44)
        | some args =>
          (a.1, .crew { o with
            packet := w, header := hdr, members := l, judged := true, caps := r.caps, asid := r.asid, ptroot := r.root
            views := views, args := args })

/-- Judges a packet from an origin o, whose domain is dom (R286). -/
def judge (s : State) (o : Start) (w : List Word) (dom : BitVec 16) : State × Judged :=
  let type := packetType w
  let priv := match o.queue with
    | some q => (queueOf s q).priv
    | none => false
  if !packetBitsOk w || packetAsid w != dom || (packetWord w 5).toNat % 8 != 0 then (s, .bad 0x41)
  else if type = 0x02 then (s, .marker)
  else if type = 0x10 ∨ type = 0x11 then
    if !priv || !controlFormOk w then (s, .bad 0x41) else (s, if type = 0x10 then .preempt else .resume)
  else if type ≠ 0x01 ∨ !crewFormOk o w then (s, .bad 0x41)
  else match packetIdentity s o w with
    | none => (s, .bad 0x44)
    | some (caps, root) =>
      let r : Reader := { sc := 0, asid := dom, root := root, prv := o.views.headD false, caps := caps }
      let p := placement s r o.queue.isNone w
      match p.2 with
      | .bad => (p.1, .bad 0x41)
      | .wait n => (p.1, .wait n)
      | .sculls l => judgeMembers p.1 o r w l

/-! ### Job counters and completion (R295) -/

/-- The atomic add of −1 on a job counter: its old value, none where it cannot be made. -/
def jobStep (s : State) (r : Option Reader) (jobp : Word) : State × Option Word :=
  match r with
  | none => (s, none)
  | some r => match unitReach s r .atomic rightsAtomic jobp with
    | (s, none) => (s, none)
    | (s, some pa) =>
      let u := updateWord s hubNode pa (· - 1)
      (u.1, some u.2)

/-- Steps 1 to 3 of R295, for a task with the reader of its packet. DESIGN CHOICE (log 87): a job counter that cannot be reached is recorded with
words 3 to 5 zero. -/
def finishTask (s : State) (q : Option QueueId) (r : Option Reader) (w : List Word) (crew : CrewId) (index : BitVec 32) (faulted : Bool) :
    State :=
  let s := match q with
    | some q => setQueue s q { queueOf s q with out := (queueOf s q).out - 1 }
    | none => s
  let jobp := packetWord w 5
  let signal := fun (s : State) (old : Option Word) =>
    if packetBit w 11 && (!packetBit w 10 || old == some 1) then postPacketSignal s w else s
  if faulted ∨ jobp = 0 then signal s none
  else match jobStep s r jobp with
    | (s, some old) =>
      let s := if old = 1 then endChambers s fun x => x.life == .job && x.jobp == jobp && x.jobAsid == packetAsid w else s
      signal s (some old)
    | (s, none) => match q with
      | some q => faultQueue s q crew 0x44 0 index w (packetWord w 0) 0 0 0
      | none => postPacketSignal s w

/-- The reader for a packet that starts no context: the crew view (log 20). -/
def plainReader (s : State) (q : QueueId) (w : List Word) : Option Reader :=
  (rootOf s (packetAsid w)).map fun root =>
    { sc := if inColumn s 2047 then 0 else 2047, asid := packetAsid w, root := root, prv := false, caps := tableCaps s (queueOf s q) (packetSel w) }

end Sys2Proof.Machine
end

