-- ==== Sys2Proof/Machine/Crews.lean ====
section
/-! DEFINITION. The launch unit (R287 to R295, R304, R307, R337, R398): choosing a queue, reserving, committing and starting a crew, CLAUNCH
(R194), harvest admission, markers, and the completion of a task. -/

namespace Sys2Proof.Machine

/-! ### Choosing the next packet (R289 to R291, R307) -/

/-- Whether a queue still waits under R291: no count it recorded has changed, and its chamber is still on its way. DESIGN CHOICE (log 89): a head that
waits for its chamber names no scull, and its wait also ends once the chamber is neither EVICTING nor REFILLING. -/
def stillWaits (s : State) (x : Queue) : Bool :=
  match x.wait with
  | none => false
  | some w =>
    w.unit == s.unit.notice && w.sculls.all (fun e => (scullOf s e.1).notice == e.2)
      && match w.chamber with
        | some n => (match chamberOf s n with
          | some y => y.state == .evicting || y.state == .refilling
          | none => false)
        | none => true

/-- R289. -/
def eligibleQueue (s : State) (x : Queue) : Bool :=
  x.state == .enabled && x.head != x.tail && !stillWaits s x
    && (x.out == 0 || !(hubWord s (ringEntry x x.head)).getLsbD 12)

/-- The queues of a level in round-robin order after the last one started at it. -/
def levelQueues (s : State) (level : Nat) : List Nat :=
  let here := (s.queues.filter fun e => e.2.level == level).map Prod.fst
  match tabFind s.unit.roundRobin level with
  | some last => here.filter (fun q => decide (last.toNat < q)) ++ here.filter fun q => decide (q ≤ last.toNat)
  | none => here

/-- The queues in the order of R290's loop that it has still to try. -/
def queuesToTry (s : State) : List Nat :=
  let order := ((List.range 8).reverse).flatMap (levelQueues s)
  match s.unit.scan with
  | some q => (order.dropWhile (· != q.toNat)).drop 1
  | none => order

/-- The next eligible queue of R290's loop. -/
def chooseQueue (s : State) : Option QueueId :=
  ((queuesToTry s).find? fun q => eligibleQueue s (tabGet .reset s.queues q)).map fun q => BitVec.ofNat 12 q

/-- A passed-over queue ages (R290). -/
def ageQueue (x : Queue) : Queue :=
  let n := x.ageCount + 1
  let step := if x.age = 0 then 1 else x.age.toNat
  { x with ageCount := n, level := if n % step = 0 then min (x.level + 1) 7 else x.level }

/-- The start of a queue's head succeeds (R290): it is popped, counted in OUT, and every other eligible queue ages. -/
def startedQueue (s : State) (q : QueueId) : State :=
  let x := queueOf s q
  let s := popQueue s q
  let y := queueOf s q
  let s := setQueue s q { y with out := y.out + 1, level := y.pri.toNat, ageCount := 0, wait := none }
  let aged := s.queues.map fun e => if e.1 ≠ q.toNat ∧ eligibleQueue s e.2 then (e.1, ageQueue e.2) else e
  { s with queues := aged, unit := { s.unit with roundRobin := tabSet s.unit.roundRobin x.level q, scan := none } }

/-- Asks the launch unit to choose again. -/
def kickUnit (s : State) : State := postOnce s .none .launchUnitStart

/-- A packet at a head faults its task (R298): it is popped, the queue FROZEN, the record written. DESIGN CHOICE (log 87): with no master frozen, words 3
to 5 of the record are 0; and the signal of an entry that reads as poison has SIGN and USER 0, as w is empty then. -/
def faultHead (s : State) (q : QueueId) (kind : BitVec 8) (w : List Word) : State :=
  let index := (queueOf s q).head
  let s := popQueue s q
  kickUnit (faultQueue (setQueue s q { queueOf s q with wait := none }) q 0 kind 0 index w (packetWord w 0) 0 0 0)

/-- A queue waits under R291 and R307. DESIGN CHOICE (log 89): the notice counts of the sculls named are those at the withdrawal; R307 fixes the
moment for the launch unit's alone. -/
def waitQueue (s : State) (q : QueueId) (l : List ScullId) (n : Option ChamberSlot) : State :=
  let w : QueueWait := { unit := s.unit.notice, sculls := l.map fun sc => (sc, (scullOf s sc).notice), chamber := n }
  kickUnit (setQueue s q { queueOf s q with wait := some w })

/-! ### Starts being reserved (R292) -/

def startOf (s : State) (id : Nat) : Option Start := tabFind s.unit.starts id
def setStart (s : State) (id : Nat) (st : Start) : State := { s with unit := { s.unit with starts := tabSet s.unit.starts id st } }
def dropStart (s : State) (id : Nat) : State := { s with unit := { s.unit with starts := tabDrop s.unit.starts id } }

/-- A start whose packet has not been judged. -/
def blankStart : Start :=
  { kind := .crew, queue := none, sender := none, packet := [], header := .none, members := [], agreed := 0, isolated := false, judged := false, committed := false, crew := 0, caps := [], asid := 0, ptroot := 0, views := [], args := [], restarts := [] }

/-- The reservation step of a start: harvest packets are admitted, others reserved. -/
def reserveStep (st : Start) : Instr := if st.header.cls = .harvest then .harvestAdmission else .crewReservationRequest

/-- Sets the reservation of a start going. -/
def beginStart (s : State) (id : Nat) (st : Start) : State := postLater (setStart s id st) (.item id) (reserveStep st)

/-- What a queue is doing already: a start not yet committed, or a packet that starts at once. -/
def unitBusy (s : State) : Bool :=
  (s.unit.starts.any fun e => e.2.queue.isSome && !e.2.committed)
    || s.agenda.any fun p => match p.instr with
      | .markerPacket _ | .preemptPacket _ | .resumePacket _ => true
      | _ => false

/-- Takes the packet at a queue's head. -/
def takeHead (s : State) (q : QueueId) : State :=
  let x := queueOf s q
  let pa := ringEntry x x.head
  if hubInside s pa 64 && globalPoison s pa then faultHead s q 0x43 []
  else
    let s := hubFetch (hubFetch s pa 64) (x.capt + 128 * ((hubWord s pa).extractLsb' 40 8 : BitVec 8).toNat) 128
    let w := hubWords s pa 8
    let j := judge s { blankStart with queue := some q } w x.asid
    match j.2 with
    | .bad kind => faultHead j.1 q kind w
    | .marker => post j.1 0 .none (.markerPacket q)
    | .preempt => post j.1 1 .none (.preemptPacket q)
    | .resume => post j.1 0 .none (.resumePacket q)
    | .wait n => waitQueue (wantChamber j.1 n) q [] (some n)
    | .crew st => beginStart (freshId j.1) j.1.nextId st

/-- Answers a CLAUNCH. -/
def answerDirect (s : State) (st : Start) (status : BitVec 2) (ncnt : BitVec 32) : State :=
  answerStatus s st.sender (statusWord status ncnt true 0) none

/-- Judges the packet of a CLAUNCH (R194, R377). -/
def judgeDirect (s : State) (id : Nat) (st : Start) : State :=
  let j := judge s st st.packet st.asid
  match j.2 with
  | .crew t => beginStart j.1 id t
  | .marker =>
    let s := answerDirect (dropStart j.1 id) st 0 0
    let sc := match st.sender.bind (statusOf s) with
      | some m => m.sc
      | none => 0
    finishTask s none
      (some { sc := sc, asid := st.asid, root := st.ptroot, prv := st.views.headD false, caps := st.caps }) st.packet 0 0 false
  | .wait n =>
    let s := wantChamber (dropStart j.1 id) n
    answerDirect s st 3 s.unit.notice
  | .bad kind =>
    let s := answerDirect (dropStart j.1 id) st 2 0
    if kind = 0x44 then postPacketSignal s st.packet else s
  | _ => answerDirect (dropStart j.1 id) st 2 0

/-- Tries a queue's head, and remembers where the loop is. -/
def tryQueue (s : State) (q : QueueId) : State := takeHead { s with unit := { s.unit with scan := some q } } q

/-- The loop has reached its end without a start: it begins anew where some queue is eligible. -/
def restartScan (s : State) : State :=
  let s := { s with unit := { s.unit with scan := none } }
  if (chooseQueue s).isSome then kickUnit s else s

/-- LAUNCH_UNIT_START (R290). -/
def execLaunchUnitStart (s : State) : Result :=
  match s.unit.starts.find? fun e => !e.2.judged with
  | some (id, st) => .next (kickUnit (judgeDirect s id st))
  | none =>
    if unitBusy s then .next s
    else match chooseQueue s with
      | some q => .next (tryQueue s q)
      | none => .next (if s.unit.scan.isSome then restartScan s else s)

/-! ### A member's judgement (R20, R35, R291, R292, R334, R398) -/

/-- Slots, register entries and frames a start needs on the scull of index c. -/
def startNeeds (s : State) (st : Start) (c : Nat) : Nat × Nat × Nat :=
  match st.kind with
  | .crew => (packetNctx st.packet, 8 * st.header.rgn * packetNctx st.packet, st.header.frm)
  | .resume crew =>
    let mine := st.restarts.filter fun r => r.1.toNat == c
    let frm := match (crewOf s crew).bind fun x => x.members[c]? with
      | some old => (match groupOf s old crew with
        | some g => g.frm
        | none => 0)
      | none => 0
    (mine.length, mine.foldl (fun n r => n + 8 * r.2.2.2.rgn) 0, frm)

/-- Whether a member scull agrees. -/
def memberAgrees (s : State) (st : Start) (c : Nat) (sc : ScullId) : Bool :=
  let n := startNeeds s st c
  !(scullOf s sc).fenced && !heldScull s st.queue sc
    && if st.header.cls = .harvest then mayAdmit s sc st.header n.1 n.2.2
      else n.1 ≤ slotSupply s sc && n.2.1 ≤ entrySupply s sc && n.2.2 ≤ (openFrames (scullOf s sc)).length

/-- Reserves what a member agreed to; a harvest crew takes no lent frame (R35). -/
def reserveMember (s : State) (id : Nat) (st : Start) (c : Nat) (sc : ScullId) : State :=
  let n := startNeeds s st c
  let s := addHold s sc { id := id, slots := n.1, entries := n.2.1 }
  let x := scullOf s sc
  let open_ := (openFrames x).filter fun f => st.header.cls != .harvest || !lentFrame x f
  (open_.take n.2.2).foldl (fun s f => promiseFrame s sc (.start id) f) s

/-- Whether a member of a start is isolated, so that it fails under R337 whichever member refuses. -/
def memberIsolated (s : State) (st : Start) : Bool := st.members.any fun sc => setHas s.isolated (sc.toNat / 8)

/-- Withdraws a start that cannot be committed. -/
def refuseStart (s : State) (id : Nat) (st : Start) : State :=
  post (setStart s id { st with isolated := memberIsolated s st }) 0 (.item id) .crewReservationWithdraw

/-- One member judges; the next follows, or the commit, or the withdrawal. A LAUNCH that reaches the scull in this cycle has been decided before
(R292). -/
def reservationStep (s : State) (id : Nat) (st : Start) : State :=
  match st.members[st.agreed]? with
  | none => post s 0 (.item id) .crewCommit
  | some sc =>
    if memberIsolated s st then refuseStart s id st
    else if memberAgrees s st st.agreed sc then
      let s := setStart (reserveMember s id st st.agreed sc) id { st with agreed := st.agreed + 1 }
      post s 0 (.item id) (if st.agreed + 1 = st.members.length then .crewCommit else reserveStep st)
    else refuseStart s id st

/-- The start an actor names, while it is not committed. -/
def openStart (s : State) : Option (Nat × Start) :=
  match s.actor with
  | .item id => match startOf s id with
    | some st => if st.judged && !st.committed then some (id, st) else none
    | none => none
  | _ => none

def execCrewReservationRequest (s : State) : Result :=
  match openStart s with
  | some (id, st) => .next (reservationStep s id st)
  | none => .next s

/-- HARVEST_ADMISSION (R294). -/
def execHarvestAdmission (s : State) : Result :=
  match openStart s with
  | some (id, st) => .next (reservationStep s id st)
  | none => .next s

/-! ### Withdrawal (R291, R292, R307, R337) -/

/-- Frees what the members reserved. -/
def releaseStart (s : State) (id : Nat) (st : Start) : State :=
  st.members.foldl (fun s sc => unpromise (dropHold s sc id) sc (.start id)) s

/-- Whether a start fails under R337: a member was isolated when it was refused, or is by now. -/
def startIsolated (s : State) (st : Start) : Bool := st.isolated || memberIsolated s st

/-- The chamber a packet waits for when a member of its placement is isolated: one that is to be refilled elsewhere (R293, R337). -/
def waitedChamber (s : State) (st : Start) : Option ChamberSlot :=
  let n := handleSlot (packetWord st.packet 2)
  if packetBit st.packet 13 && startIsolated s st then
    match chamberOf s n with
    | some x => if x.state = .resident then none else some n
    | none => none
  else none

def withdrawStart (s : State) (id : Nat) (st : Start) : State :=
  let s := unitNotice (dropStart (releaseStart s id st) id)
  let fails := startIsolated s st && !packetBit st.packet 13
  match st.queue with
  | none =>
    let s := answerDirect s st 1 s.unit.notice
    if fails then postPacketSignal s st.packet else s
  | some q =>
    if (queueOf s q).state ≠ .enabled then kickUnit s
    else if fails then faultHead s q 0x45 st.packet
    else match waitedChamber s st with
      | some n => waitQueue (wantChamber s n) q [] (some n)
      | none => waitQueue s q st.members none

def execCrewReservationWithdraw (s : State) : Result :=
  match openStart s with
  | some (id, st) => .next (withdrawStart s id st)
  | none => .next s

/-! ### Commit (R287, R290, R292, R304) -/

/-- A CREWID that no live crew holds. -/
def freshCrew (s : State) : CrewId :=
  let ids := (List.range (s.crews.length + 2)).map fun i => s.unit.nextCrew + BitVec.ofNat 32 i
  (ids.find? fun c => c != 0 && (crewOf s c).isNone).getD s.unit.nextCrew

/-- The crew a packet creates. -/
def newCrew (st : Start) (index : BitVec 32) : Crew :=
  { Crew.none with
    cls := st.header.cls, members := st.members, caps := st.caps, asid := st.asid, ptroot := st.ptroot
    packet := st.packet, queue := st.queue, ringIndex := index, settling := st.members, views := st.views }

def commitCrew (s : State) (id : Nat) (st : Start) : State :=
  let crew := freshCrew s
  let index := match st.queue with
    | some q => (queueOf s q).head
    | none => 0
  let s := { s with unit := { s.unit with nextCrew := crew + 1 } }
  let s := setStart (setCrew s crew (newCrew st index)) id { st with committed := true, crew := crew }
  let s := match st.queue with
    | some q => startedQueue s q
    | none => answerDirect s st 0 crew
  st.members.foldl (fun s sc => postLater s .none (.crewCommitArrival crew sc)) s

/-- Takes the core groups of a pre-empted crew off its old sculls. -/
def liftGroups (s : State) (crew : CrewId) : State × Tab Group :=
  let held := s.sculls.filterMap fun e => (tabFind e.2.groups crew.toNat).map fun g => (e.1, g)
  ({ s with sculls := tabMap (fun _ x => { x with groups := tabDrop x.groups crew.toNat }) s.sculls }, held)

/-- Puts the group of each index on its new scull, the frames reserved there promised to its pages (R304, R398). -/
def placeGroups (s : State) (crew : CrewId) (id : Nat) (groups : Tab Group) (l : List (ScullId × ScullId)) : State :=
  l.foldl (fun s e => match tabFind groups e.1.toNat with
    | none => s
    | some g =>
      let s := setGroup s e.2 crew g
      let frames := promisedTo (scullOf s e.2) (.start id)
      let s := unpromise s e.2 (.start id)
      ((List.range g.frm).zip frames).foldl (fun s (p : Nat × Nat) => promiseFrame s e.2 (.page crew p.1) p.2) s) s

/-- Evicted contexts belong to the new scull of their index. -/
def moveImages (s : State) (crew : CrewId) (l : List (ScullId × ScullId)) : State :=
  { s with
    items := tabMap (fun _ i => match i with
      | .parked p => if p.ctx.crew = crew then .parked { p with sc := ((l.find? fun e => e.1 == p.sc).map Prod.snd).getD p.sc } else i
      | i => i) s.items }

/-- Writes the status word of a control packet in the runtime view; none where its address cannot be written (R299). -/
def writeControlStatus (s : State) (w : List Word) (v : Word) : Option State :=
  match rootOf s (packetAsid w) with
  | none => none
  | some root =>
    let a := packetWord w 3
    if !canonical a || a.toNat % 8 != 0 then none
    else match walkTo s hubNode root a .store false with
      | .error _ => none
      | .ok (s, pa) => if inRegisters pa || !inCapacity s pa then none else some (hubWrite s pa 8 v.toNat)

/-- A control packet completes (R299): its status is written, then its task completes; a status that cannot be written faults it. DESIGN CHOICE (log
87): word 5 of that record is the status address, words 3 and 4 are 0. -/
def finishControl (s : State) (q : QueueId) (w : List Word) (index : BitVec 32) (v : Word) : State :=
  let done := fun (s : State) (faulted : Bool) => kickUnit (finishTask s (some q) (plainReader s q w) w 0 index faulted)
  match writeControlStatus s w v with
  | some s => done s false
  | none => done (faultQueue s q 0 0x44 0 index w (packetWord w 0) 0 0 (packetWord w 3)) true

/-- The kept arrivals of a crew's core and shell groups on its new placement, of pre-empted members and of evicted ones: each belongs to the
instance of the group its index lies in now (R197, R304). at_ is the scull of an image. -/
def rekeyBarriers (l : List Barrier) (members : List ScullId) (at_ : Nat → ScullId) : List Barrier :=
  let put := fun (t : List Barrier) (b : Barrier) =>
    if t.any (sameInstance b.level b.group) then
      t.map fun q => if sameInstance b.level b.group q then
        { q with parked := q.parked ++ b.parked, away := q.away ++ b.away, settle := q.settle || b.settle } else q
    else t ++ [b]
  let split := fun (b : Barrier) =>
    if b.level = .crew then [b]
    else
      let groupNow := fun (a : BitVec 11 × Slot) => barGroup b.level (members.getD a.1.toNat 0)
      let awayNow := fun (id : Nat) => barGroup b.level (at_ id)
      ((b.parked.map groupNow ++ b.away.map awayNow).eraseDups).map fun g =>
        { b with
          group := g, arrived := [], away := b.away.filter (awayNow · == g), parked := b.parked.filter (groupNow · == g), settled := false }
  (l.flatMap split).foldl put []

/-- The scull of a parked image. -/
def imageScull (s : State) (id : Nat) : ScullId :=
  match itemOf s id with
  | some (.parked p) => p.sc
  | _ => 0

/-- A committed RESUME: the crew is RUNNING on its new placement (R300, R304). With no context to restart, what its shells have accepted performs
and its task completes in this cycle (R295, R302). -/
def commitResume (s : State) (id : Nat) (st : Start) (crew : CrewId) (x : Crew) (q : QueueId) : State :=
  let index := (queueOf s q).head
  let pairs := x.members.zip st.members
  let waits := st.members.filter fun sc => st.restarts.any fun r => st.members.getD r.1.toNat 0 == sc
  let groups := liftGroups s crew
  let s := moveImages (placeGroups groups.1 crew id groups.2 pairs) crew pairs
  let s := setCrew s crew { x with
    members := st.members, state := .running, settling := waits, left := (x.left ++ x.members).eraseDups, barriers := rekeyBarriers x.barriers st.members (imageScull s) }
  let s := setStart s id { st with committed := true, crew := crew }
  let s := wakeEvicted (finishControl (startedQueue s q) q st.packet index 0) fun p => p.ctx.crew == crew
  if waits = [] then
    let s := (x.left ++ x.members ++ st.members).foldl (fun s sc => flushStores s (shellNode sc)) s
    post (dropStart s id) 0 .none (.taskComplete crew)
  else waits.foldl (fun s sc => postLater s .none (.crewCommitArrival crew sc)) s

/-- CREW_COMMIT (R292, R337): only while the queue is ENABLED and no member is isolated. -/
def execCrewCommit (s : State) : Result :=
  match openStart s with
  | none => .next s
  | some (id, st) =>
    let enabled := match st.queue with
      | some q => (queueOf s q).state == .enabled
      | none => true
    if !enabled ∨ st.agreed ≠ st.members.length then .next (post s 0 (.item id) .crewReservationWithdraw)
    else if memberIsolated s st then .next (refuseStart s id st)
    else match st.kind, st.queue with
      | .resume crew, some q => match crewOf s crew with
        | some x => .next (commitResume s id st crew x q)
        | none => .next (post s 0 (.item id) .crewReservationWithdraw)
      | _, _ => .next (kickUnit (commitCrew s id st))

/-! ### CREW_COMMIT_ARRIVAL (R21, R287, R304, R337) -/

/-- The frames a member reserved become the pages of its core group. -/
def claimFrames (s : State) (id : Nat) (sc : ScullId) (crew : CrewId) (h : Header) : State :=
  let frames := promisedTo (scullOf s sc) (.start id)
  let pages := (List.range h.frm).map fun v => (v, PageState.fresh)
  let s := setGroup s sc crew { cls := h.cls, frm := h.frm, pages := pages, kept := none, waiters := [], imagePoison := [], images := [] }
  let s := unpromise s sc (.start id)
  ((List.range h.frm).zip frames).foldl (fun s (p : Nat × Nat) => promiseFrame s sc (.page crew p.1) p.2) s

/-- The message that describes a context of a crew. -/
def memberMessage (x : Crew) (crew : CrewId) (c : Nat) (sc : ScullId) (entry g1 g2 : Word) : LaunchMsg :=
  { sender := none, target := sc, crew := crew, entry := entry, g1 := g1, g2 := g2, header := none, caps := x.caps, asid := x.asid
    ptroot := x.ptroot, prv := x.views.getD c false, accepted := true }

/-- The NCTX contexts of index c in the lowest-numbered free slots (R287). -/
def startMembers (s : State) (st : Start) (x : Crew) (c : Nat) (sc : ScullId) : State :=
  let n := packetNctx st.packet
  let slots := (freeSlots s sc).take n
  ((List.range n).zip slots).foldl (fun s (p : Nat × Slot) =>
    let o := c * n + p.1
    let g2 := if packetBit st.packet 15 then st.args.getD o 0 else packetWord st.packet 3
    let m := memberMessage x st.crew c sc (packetWord st.packet 1) (BitVec.ofNat 64 o) g2
    putContext s sc p.2 (newContext s m st.header)) s

/-- The barrier arrivals of a restarted context pass to its new slot (R197, R304). -/
def restoreArrivals (x : Crew) (c : BitVec 11) (old : Slot) (k : Nat) : Crew × List (BarLevel × Bool) :=
  let arrived := (x.barriers.filter fun b => b.parked.contains (c, old)).map fun b => (b.level, false)
  let passed := (x.barDone.filter fun e => e.1 == c && e.2.1 == old).map fun e => (e.2.2, true)
  let move := fun (b : Barrier) =>
    if b.parked.contains (c, old) then { b with parked := b.parked.filter (· != (c, old)), arrived := b.arrived ++ [k] } else b
  ({ x with barriers := x.barriers.map move, barDone := x.barDone.filter fun e => !(e.1 == c && e.2.1 == old) }, passed ++ arrived)

/-- One context for each HALT.KEEP acknowledgement of index c (R304). -/
def restartMembers (s : State) (st : Start) (c : Nat) (sc : ScullId) : State :=
  let mine := st.restarts.filter fun r => r.1.toNat == c
  (mine.zip (freeSlots s sc)).foldl (fun s (p : (BitVec 11 × Slot × Word × Header) × Slot) =>
    let r := p.1
    let x := (crewOf s st.crew).getD .none
    let b := restoreArrivals x r.1 r.2.1 (ctxKey sc p.2)
    let s := setCrew s st.crew { b.1 with acks := b.1.acks.filter fun a => !(a.1 == r.1 && a.2.1 == r.2.1) }
    let m := memberMessage x st.crew c sc r.2.2.1 (r.2.1.setWidth 64) 0
    let k := newContext s m r.2.2.2
    putContext s sc p.2 { k with cidx := r.1, barrier := b.2 }) s

/-- Harvest contexts that start while their crew is being pre-empted are revoked with the others (R299). -/
def revokeArrived (s : State) (crew : CrewId) (sc : ScullId) (x : Crew) : State :=
  if x.cls = .harvest ∧ x.preemptStatus.isSome then
    ((crewKeys s crew).filter fun k => k / 64 == sc.toNat).foldl (fun s k => requestRevoke s sc (.preempt (keySlot k))) s
  else s

/-- The commit reaches a member: with too few free slots, harvest contexts are revoked first, and each grant
comes back here (R37). -/
def arriveMember (s : State) (crew : CrewId) (sc : ScullId) (id : Nat) (st : Start) (x : Crew) (c : Nat) : State :=
  let n := startNeeds s st c
  if (freeSlots s sc).length < n.1 + owedSlots s sc id then requestRevoke s sc (.slot id)
  else
    let s := dropHold s sc id
    let s := match st.kind with
      | .crew => startMembers (claimFrames s id sc crew st.header) st x c sc
      | .resume _ => restartMembers s st c sc
    let x := (crewOf s crew).getD .none
    let left := x.settling.filter (· != sc)
    let s := revokeArrived (setCrew s crew { x with settling := left }) crew sc x
    if left = [] then checkTask (checkSignalled (dropStart s id) crew) crew else s

def execCrewCommitArrival (crew : CrewId) (sc : ScullId) (s : State) : Result :=
  match s.unit.starts.find? (fun e => e.2.committed && e.2.crew == crew), crewOf s crew with
  | some (id, st), some x => match x.members.findIdx? (· == sc) with
    | some c => if x.settling.contains sc then .next (arriveMember s crew sc id st x c) else .next s
    | none => .next s
  | _, _ => .next s

/-! ### CLAUNCH (R194) -/

def execClaunch (d a : Reg) (s : State) : Result :=
  .next (issueBy (.claunch d a) [a] [d] false (fun s sc slot c =>
    let ga := readReg c a
    if ga.toNat % 64 ≠ 0 then raise s sc slot { code := 0x03, aux := 0, tval := ga }
    else whenDrained s sc slot c .package (readBlock sc slot ga 8 [] (fun s w =>
      let c := ctxOf s sc slot
      let id := s.nextId
      let s := addItem s (.status { sc := sc, slot := slot, d := d, ga := ga, value := 0, trap := none })
      let st := { blankStart with
        sender := some id, packet := w, caps := c.caps, asid := c.asid, ptroot := c.ptroot, views := [c.prv] }
      kickUnit (setStart (freshId (park s sc slot c (.status d id))) s.nextId st)) s)) s)

/-! ### MARKER_PACKET (R285) -/

/-- Runs k on the packet at the head of a queue that is ENABLED, if it still is of a type. -/
def withHead (s : State) (q : QueueId) (type : BitVec 8) (k : List Word → BitVec 32 → State) : State :=
  let x := queueOf s q
  let w := hubWords s (ringEntry x x.head) 8
  if x.state = .enabled ∧ x.head ≠ x.tail ∧ packetType w = type then k w x.head else kickUnit s

def execMarkerPacket (q : QueueId) (s : State) : Result :=
  .next (withHead s q 0x02 fun w index =>
    let s := startedQueue s q
    kickUnit (finishTask s (some q) (plainReader s q w) w 0 index false))

/-! ### TASK_COMPLETE (R295, R302, R315, R319) -/

/-- Every access of the crew's contexts has performed at system scope, those of killed ones and those made before a RESUME too: completion is a
release (R295). -/
def crewDrained (s : State) (crew : CrewId) (x : Crew) : Bool :=
  (x.members ++ x.left).all (fun sc => (agentOf s (shellNode sc)).stores.isEmpty)
    && s.items.all fun e => match e.2 with
      | .packet p => p.crew != crew
      | .access a => a.crew != crew
      | _ => true

/-- The core groups that a crew leaves at its end: those not kept by HALT.KEEP, with the frames reserved for them (R31, R33). -/
def leaveGroups (s : State) (crew : CrewId) : State :=
  s.sculls.foldl (fun s e => match tabFind e.2.groups crew.toNat with
    | some g => if g.kept.isNone then releaseGroup s (BitVec.ofNat 11 e.1) crew else s
    | none => s) s

/-- The reader for a crew's job counter (R295, R399). -/
def crewReader (x : Crew) : Reader :=
  { sc := x.members.headD 0, asid := x.asid, root := x.ptroot, prv := x.views.headD false, caps := x.caps }

def endCrew (s : State) (crew : CrewId) (x : Crew) : State :=
  let s := finishTask s x.queue (some (crewReader x)) x.packet crew x.ringIndex x.faulted
  let s := releaseAttachments s crew
  let s := endChambers s fun y => y.life == .kernel && y.creator == crew
  let s := freeFutures s fun f => f.crew == some crew
  let s := leaveGroups (discardDeposits s crew) crew
  unitNotice { s with crews := tabDrop s.crews crew.toNat }

def execTaskComplete (crew : CrewId) (s : State) : Result :=
  match crewOf s crew with
  | none => .next s
  | some x =>
    if x.state ≠ .running ∨ x.settling ≠ [] ∨ crewKeys s crew ≠ [] ∨ parkedOf s crew ≠ [] ∨ launchesFor s crew then .next s
    else if crewDrained s crew x then .next (endCrew s crew x)
    else .next (postLater s .none (.taskComplete crew))

end Sys2Proof.Machine
end

