-- ==== Sys2Proof/Machine/Preempt.lean ====
section
/-! DEFINITION. Pre-emption and resumption (R299 to R304): the PREEMPT and RESUME packets, the diversion, and draining. -/

namespace Sys2Proof.Machine

/-! ### PREEMPT (R299, R300) -/

def isFrozenKey (s : State) (k : Nat) : Bool := isFrozen (ctxAt s k)

/-- Whether a member is frozen or fenced (R299, R303). -/
def memberStopped (s : State) (crew : CrewId) (x : Crew) : Bool :=
  (crewKeys s crew).any (isFrozenKey s) || x.members.any fun sc => (scullOf s sc).fenced

/-- PPND is set in every owner context, the waits withdrawn (R300). -/
def signalCrew (s : State) (crew : CrewId) : State :=
  (crewKeys s crew).foldl (fun s k =>
    let s := withdraw s k
    setCtxAt s k { ctxAt s k with ppnd := true }) s

/-- PREEMPT (R299, R300). DESIGN CHOICE (log 88): where two statuses apply, 3, for PREH = 0, comes before 1. -/
def preemptPacket (s : State) (q : QueueId) (w : List Word) (index : BitVec 32) : State :=
  let crew : CrewId := (packetWord w 1).setWidth 32
  let s := startedQueue s q
  match crewOf s crew with
  | none => finishControl s q w index 2
  | some x =>
    let mark := { x with preemptStatus := some (w, some q, index) }
    if x.cls = .harvest then
      if memberStopped s crew x ∨ x.preemptStatus.isSome then finishControl s q w index 1
      else
        let s := (crewKeys s crew).foldl (fun s k => requestRevoke s (keyScull k) (.preempt (keySlot k))) (setCrew s crew mark)
        postLater s .none (.crewDrainComplete crew)
    else if packetPreh x.packet = 0 then finishControl s q w index 3
    else if x.state ≠ .running ∨ memberStopped s crew x then finishControl s q w index 1
    else checkSignalled (signalCrew (setCrew s crew { mark with state := .signalled }) crew) crew

/-- The contexts that ended in this cycle have acknowledged where the crew is pre-empted now, and have ended plainly where it is not (R302, R303). -/
def decideEnds (s : State) (crew : CrewId) (x : Crew) : State :=
  if x.state = .signalled ∨ x.state = .draining then
    setCrew s crew { x with
      ending := [], acks := x.acks ++ x.ending.filterMap fun e => e.2.2.2.map fun entry => (e.2.1, e.2.2.1, entry) }
  else
    let gone := fun (a : BitVec 11 × Slot) => x.ending.any fun e => e.2.1 == a.1 && e.2.2.1 == a.2
    let s := setCrew s crew { x with
      ending := []
      barriers := x.barriers.map fun b => { b with parked := b.parked.filter fun a => !gone a }
      barDone := x.barDone.filter fun a => !gone (a.1, a.2.1) }
    checkBarriers (x.ending.foldl (fun s e => scullNotice (endGroup s e.1 crew e.2.2.2) e.1) s) crew

/-- PREEMPT at the end of its cycle (R303, R336). -/
def execPreemptPacket (q : QueueId) (s : State) : Result :=
  let s := kickUnit (withHead s q 0x10 fun w index => preemptPacket s q w index)
  .next (s.crews.foldl (fun s e => if e.2.ending = [] then s else decideEnds s (BitVec.ofNat 32 e.1) e.2) s)

/-! ### The diversion (R301) -/

/-- The words of a context's record, upward from offset 0. -/
def diversionRecord (c : Ctx) : List Word :=
  [c.pc, c.tpc, c.cause, c.tval, ctxStat c, c.fflags.setWidth 64, c.fen.setWidth 64, c.tsave]

/-- Plain stores: F unchanged. -/
def plainWords (x : Scull) (b : Nat) : List Word → Scull
  | [] => x
  | w :: t => plainWords (spadWrite x b 8 w) (b + 8) t

def divert (s : State) (sc : ScullId) (slot : Slot) : State :=
  let s := cancelToAqr s (ctxKey sc slot)
  let c := ctxOf s sc slot
  match crewOf s c.crew with
  | none => s
  | some x =>
    let v := packetSave x.packet
    let go := fun (s : State) =>
      setCtx s sc slot { c with hnd := true, ppnd := false, pc := packetPreh x.packet }
    match pageState s sc c.crew v with
    | some (.pinned f) =>
      go (setScull s sc (plainWords (scullOf s sc) (f * frameBytes + slot.toNat * 64) (diversionRecord c)))
    | some _ => touchPage (park s sc slot c (.reissue (.page sc c.crew v))) sc c.crew v
    | none => go s

def execPreemptDiversion (s : State) : Result :=
  match s.actor with
  | .context sc slot => if (ctxOf s sc slot).ppnd then .next (divert s sc slot) else .next s
  | _ => .next s

/-! ### Draining (R300, R302) -/

/-- Spills an entry; one that finds its region full or unwritable is kept with the spilled ones all the same, for none is lost (log 32). -/
def spillKept (s : State) (i : Nat) (sc : ScullId) (e : Deposit) : State :=
  let q := spillEntry s sc e
  if q.2 then q.1
  else match crewOf q.1 e.crew with
    | some x => setCrew q.1 e.crew { x with spills := tabSet x.spills i (tabGet [] x.spills i ++ [e]) }
    | none => q.1

/-- Spills the crew's entries of every member scull to its backing area. -/
def spillCrew (s : State) (crew : CrewId) (x : Crew) : State :=
  (numbered x.members).foldl (fun s e =>
    let mine := (scullOf s e.2).deposits.filter fun d => d.crew == crew
    let s := mine.foldl (fun s d => spillKept s e.1 e.2 d) s
    setScull s e.2 { scullOf s e.2 with deposits := (scullOf s e.2).deposits.filter fun d => d.crew != crew }) s

/-- Whether every page of a crew is parked. -/
def crewParked (s : State) (crew : CrewId) : Bool :=
  s.sculls.all fun e => match tabFind e.2.groups crew.toNat with
    | some g => allParked g
    | none => true

/-- Unpins every page of a crew. -/
def unpinCrew (s : State) (crew : CrewId) : State :=
  s.sculls.foldl (fun s e => match tabFind e.2.groups crew.toNat with
    | some g => g.pages.foldl (fun s p => unpinPage s (BitVec.ofNat 11 e.1) crew p.1) s
    | none => s) s

/-- Whether a pre-emption's revocations of a harvest crew are still to come. -/
def revokesLeft (s : State) (crew : CrewId) : Bool :=
  s.sculls.any fun e => e.2.revokes.any fun r => match r with
    | .preempt slot => (ctxOf s (BitVec.ofNat 11 e.1) slot).crew == crew
    | _ => false

/-- Completes the packet that pre-empted a crew. -/
def preemptDone (s : State) (crew : CrewId) (x : Crew) : State :=
  let s := setCrew s crew { x with preemptStatus := none }
  match x.preemptStatus with
  | some (w, some q, index) => finishControl s q w index 0
  | _ => s

def execCrewDrainComplete (crew : CrewId) (s : State) : Result :=
  match crewOf s crew with
  | none => .next s
  | some x =>
    if x.cls = .harvest then
      if x.preemptStatus.isNone then .next s
      else if revokesLeft s crew ∨ x.settling ≠ [] then .next (postLater s .none (.crewDrainComplete crew))
      else .next (preemptDone s crew x)
    else if x.state ≠ .draining then .next s
    else if crewParked s crew then
      let s := spillCrew s crew x
      let x := (crewOf s crew).getD x
      .next (preemptDone s crew { x with state := .preempted })
    else .next (postLater (unpinCrew s crew) .none (.crewDrainComplete crew))

/-! ### RESUME (R299, R304) -/

/-- The headers of the entries to restart, read as R399 gives; none where one is invalid. -/
def restartHeaders (s : State) (x : Crew) : List (BitVec 11 × Slot × Word) →
    State × Option (List (BitVec 11 × Slot × Word × Header))
  | [] => (s, some [])
  | a :: t =>
    let h := unitRead s (crewReader x) .fetch rightsFetch (a.2.2 - 8)
    match h.2.bind readHeader with
    | none => (h.1, none)
    | some hdr =>
      let r := restartHeaders h.1 x t
      (r.1, r.2.map ((a.1, a.2.1, a.2.2, hdr) :: ·))

/-- RESUME (R299, R302). DESIGN CHOICE (log 88): where two statuses apply, the crew's state comes before its member count. -/
def resumePacket (s : State) (q : QueueId) (w : List Word) (index : BitVec 32) : State :=
  let crew : CrewId := (packetWord w 1).setWidth 32
  let refuse := fun (s : State) (v : Word) => finishControl (startedQueue s q) q w index v
  match plainReader s q w with
  | none => faultHead s q 0x44 w
  | some r =>
    let p := placement s r false w
    match p.2 with
    | .sculls l =>
      let s := p.1
      if l.any (inColumn s) ∧ !(queueOf s q).priv then faultHead s q 0x41 w
      else match crewOf s crew with
        | none => refuse s 2
        | some x =>
          if x.state ≠ .preempted then refuse s 1
          else if l.length ≠ x.members.length then refuse s 3
          else if l.any fun sc => (scullOf s sc).fenced && !setHas s.isolated (sc.toNat / 8) then refuse s 1
          else
            let h := restartHeaders s x x.acks
            match h.2 with
            | none => refuse h.1 1
            | some restarts =>
              beginStart (freshId h.1) h.1.nextId { blankStart with
                kind := .resume crew, queue := some q, packet := w, members := l, judged := true, restarts := restarts }
    | _ => faultHead p.1 q 0x41 w

def execResumePacket (q : QueueId) (s : State) : Result :=
  .next (withHead s q 0x11 fun w index => resumePacket s q w index)

end Sys2Proof.Machine
end

