-- ==== Sys2Proof/Machine/Control.lean ====
section
/-! DEFINITION. The control registers and the CTL instructions (R34, R36, R101 to R115, R228 to R231), and TRAP, RTE, BEAT, RDGTC, WAITT and the
capability instructions (R117, R118, R120 to R122, R124). -/

namespace Sys2Proof.Machine

/-! ### Values of the control registers -/

def clsBit : Cls → BitVec 1
  | .owner => 0 | .harvest => 1

/-- CTX.ID (R105). -/
def ctxIdWord (sc : ScullId) (slot : Slot) : Word := (0 : BitVec 37) ++ sc ++ (0 : BitVec 10) ++ slot
/-- CTX.CREW (R106). -/
def ctxCrewWord (c : Ctx) : Word := c.crew ++ clsBit c.hdr.cls ++ (0 : BitVec 8) ++ c.csz ++ (0 : BitVec 1) ++ c.cidx
/-- CTX.ENG (R114). -/
def ctxEngWord (s : State) (sc : ScullId) (slot : Slot) : Word :=
  (0 : BitVec 61) ++ b1 (boundBy s sc .copy slot) ++ b1 (boundBy s sc .vector slot) ++ b1 (boundBy s sc .matrix slot)

/-- A per-context register (R104 to R114). -/
def ctxRegister (s : State) (sc : ScullId) (slot : Slot) (c : Ctx) (n : Nat) : Word :=
  match n with
  | 0x0 => ctxIdWord sc slot
  | 0x1 => ctxCrewWord c
  | 0x2 => ctxStat c
  | 0x3 => c.tvec
  | 0x4 => c.tpc
  | 0x5 => c.cause
  | 0x6 => c.tval
  | 0x7 => c.tsave
  | 0x8 => c.fflags.setWidth 64
  | 0x9 => c.fen.setWidth 64
  | 0xA => c.asid.setWidth 64
  | 0xB => c.ptroot
  | 0xC => ctxEngWord s sc slot
  | 0xD => c.icnt
  | _ => 0

/-- A scull register (R34, R36, R115); SC.KEEP.REL reads zero. -/
def scullRegister (s : State) (sc : ScullId) (n : Nat) : Word :=
  let x := scullOf s sc
  match n with
  | 0 => x.keepto.setWidth 64
  | 1 => x.hbud.setWidth 64
  | 2 => x.hbint.setWidth 64
  | 3 => x.hbcnt.setWidth 64
  | 4 => if x.probe then 1 else 0
  | 5 => x.occ
  | _ => 0

/-- The engine whose registers a number lies among (R228). -/
def registerEngine (n : Nat) : Option EngineId :=
  match n with
  | 0x200 | 0x201 => some .matrix
  | 0x210 | 0x211 => some .vector
  | 0x220 => some .copy
  | _ => none

def engineRegister (s : State) (sc : ScullId) (n : Nat) : Word :=
  match registerEngine n with
  | none => 0
  | some e => if n % 16 = 0 then engineStat e (engineOf s sc e) else engineCtl e (engineOf s sc e)

/-- The value a CTL instruction finds in a register: WO fields read zero (R101). -/
def readControl (s : State) (sc : ScullId) (slot : Slot) (c : Ctx) (n : Nat) : Word :=
  if n < 0x100 then ctxRegister s sc slot c n
  else if n < 0x200 then scullRegister s sc (n - 0x100)
  else engineRegister s sc n

/-! ### Access codes (R102) -/

/-- The RW bits of a register in a view. -/
def rwMask (prv : Bool) (n : Nat) : Word :=
  match n with
  | 0x2 => 0x2
  | 0x3 | 0x4 => 0xFFFFFFFFFFFFFFF8
  | 0x5 => 0xFF3F
  | 0x6 | 0x7 => 0xFFFFFFFFFFFFFFFF
  | 0x8 => 0x3F
  | 0x9 => 0x1F
  | 0xA => if prv then 0xFFFF else 0
  | 0xB => if prv then 0xFFFFFFFFFF000 else 0
  | 0xD => if prv then 0xFFFFFFFFFFFFFFFF else 0
  | 0x100 => 0xFFFFFFFF
  | 0x101 => 0x3F8
  | 0x102 => 0xFFFFFFFFFF
  | 0x104 => 1
  | 0x200 | 0x210 => 0xFFFF0000
  | 0x201 | 0x211 => 0x3F
  | _ => 0

/-- The W1C bits of a register. -/
def w1cMask (n : Nat) : Word :=
  match n with
  | 0x200 | 0x210 => 0x21F
  | _ => 0

/-- The WO bits of a register. -/
def woMask (n : Nat) : Word :=
  match n with
  | 0x100 => 0x8000000000000000
  | _ => 0

/-- Whether a field of the register is shown as absent in the crew view. -/
def runtimeOnly (n : Nat) : Bool := n == 0xB || (0x100 ≤ n && n < 0x200)

/-- Writes v into the fields of a per-context register. -/
def putCtxRegister (c : Ctx) (n : Nat) (v : Word) : Ctx :=
  match n with
  | 0x2 => { c with hnd := v.getLsbD 1 }
  | 0x3 => { c with tvec := v }
  | 0x4 => { c with tpc := v }
  | 0x5 => { c with cause := v }
  | 0x6 => { c with tval := v }
  | 0x7 => { c with tsave := v }
  | 0x8 => { c with fflags := v.setWidth 6 }
  | 0x9 => { c with fen := v.setWidth 5 }
  | 0xA => { c with asid := v.setWidth 16 }
  | 0xB => { c with ptroot := v }
  | 0xD => { c with icnt := v }
  | _ => c

/-- SC.HBUD.HBUD as it reads back (R36). -/
def clampBudget (v : Word) : BitVec 10 := if v.toNat > 512 then 512 else v.setWidth 10
/-- SC.HBINT.INT as it reads back (R115). -/
def clampInterval (v : Word) : BitVec 40 := if v ≠ 0 ∧ v.toNat < 1024 then 1024 else v.setWidth 40

/-- The same for a scull register. -/
def putScullRegister (x : Scull) (n : Nat) (v : Word) : Scull :=
  match n with
  | 0 => { x with keepto := v.setWidth 32 }
  | 1 => { x with hbud := clampBudget v }
  | 2 => { x with hbint := clampInterval v, hbgov := if v = 0 then 0 else x.hbgov }
  | 4 => { x with probe := v.getLsbD 0 }
  | _ => x

/-- The same for an engine register. -/
def putEngineRegister (x : Engine) (n : Nat) (v : Word) : Engine :=
  if n % 16 = 0 then { x with badcnt := v.extractLsb' 16 16, bad := v.getLsbD 9, flags := v.extractLsb' 0 5 }
  else { x with bte := v.getLsbD 5, fen := v.extractLsb' 0 5 }

/-- What a control register write leaves: the context and the state apart from it. -/
def putControl (s : State) (sc : ScullId) (c : Ctx) (n : Nat) (v : Word) : State × Ctx :=
  if n < 0x100 then (s, putCtxRegister c n v)
  else if n < 0x200 then (setScull s sc (putScullRegister (scullOf s sc) (n - 0x100) v), c)
  else match registerEngine n with
    | some .copy | none => (s, c)
    | some e => (setEngine s sc e (putEngineRegister (engineOf s sc e) n v), c)

/-- The action of a WO field: SC.KEEP.REL releases the kept frames, after what reached the scull in this cycle (R34, R103). -/
def controlAction (s : State) (sc : ScullId) (n : Nat) (v : Word) : State :=
  if v &&& woMask n = 0 then s else post s 0 (.scull sc) .keepRelease

/-! ### CTLR, CTLW, CTLS, CTLC (R101 to R103, R228) -/

/-- The binding of R228, then k. -/
def withControl (n : BitVec 16) (k : State → ScullId → Slot → Ctx → State) (s : State) (sc : ScullId) (slot : Slot) (c : Ctx) :
    State :=
  match registerEngine n.toNat with
    | some e => if !c.prv ∧ !boundBy s sc e slot then raise s sc slot (engineFault 0x01 0) else k s sc slot c
    | none => k s sc slot c

/-- Ends a CTL instruction that writes new into a register and old into gd; CTX.ICNT is counted after its write (R114). -/
def finishControlWrite (s : State) (sc : ScullId) (slot : Slot) (c : Ctx) (n : Nat) (new action : Word) (d : Reg) (old : Word) : State :=
  let r := putControl s sc c n new
  controlAction (finishReg r.1 sc slot r.2 d old) sc n action

def execCtlr (d : Reg) (n : BitVec 16) (s : State) : Result :=
  .next (issueBy (.ctlr d n) [] [d] (runtimeOnly n.toNat) (withControl n fun s sc slot c =>
    finishReg s sc slot c d (readControl s sc slot c n.toNat)) s)

/-- CTLW: RW fields from ga, W1C bits cleared where ga has ones, WO actions taken. -/
def execCtlw (a : Reg) (n : BitVec 16) (s : State) : Result :=
  .next (issueBy (.ctlw a n) [a] [] (runtimeOnly n.toNat) (withControl n fun s sc slot c =>
    let old := readControl s sc slot c n.toNat
    let v := readReg c a
    let rw_ := rwMask c.prv n.toNat
    let new := ((old &&& ~~~rw_) ||| (v &&& rw_)) &&& ~~~(v &&& w1cMask n.toNat)
    finishControlWrite s sc slot c n.toNat new v 0 0) s)

/-- CTLS: RW bits set; W1C and WO fields as CTLW. -/
def execCtls (d a : Reg) (n : BitVec 16) (s : State) : Result :=
  .next (issueBy (.ctls d a n) [a] [d] (runtimeOnly n.toNat) (withControl n fun s sc slot c =>
    let old := readControl s sc slot c n.toNat
    let v := readReg c a
    let new := (old ||| (v &&& rwMask c.prv n.toNat)) &&& ~~~(v &&& w1cMask n.toNat)
    finishControlWrite s sc slot c n.toNat new v d old) s)

/-- CTLC: RW bits cleared; W1C and WO fields unchanged. -/
def execCtlc (d a : Reg) (n : BitVec 16) (s : State) : Result :=
  .next (issueBy (.ctlc d a n) [a] [d] (runtimeOnly n.toNat) (withControl n fun s sc slot c =>
    let old := readControl s sc slot c n.toNat
    finishControlWrite s sc slot c n.toNat (old &&& ~~~(readReg c a &&& rwMask c.prv n.toNat)) 0 d old) s)

/-! ### TRAP, RTE, BEAT (R117, R118, R120) -/

/-- TRAP: CTX.TPC takes its address + 8; a freeze leaves pc at it (R116). -/
def execTrap (code : BitVec 16) (s : State) : Result :=
  .next (issueBy (.trap code) [] [] false (fun s sc slot c =>
    takeTrap s sc slot { code := 0x0C, aux := 0, tval := code.setWidth 64 } (c.pc + 8)) s)

def execRte (s : State) : Result :=
  .next (issueBy .rte [] [] false (fun s sc slot c =>
    if c.hnd then setCtx s sc slot (returnFromTrap c) else trapIllegal s sc slot .rte) s)

/-- BEAT (R120): the test of this cycle comes after it. -/
def execBeat (s : State) : Result :=
  .next (issueBy .beat [] [] false (fun s sc slot c =>
    finish (setScull s sc { scullOf s sc with hbcnt := 0, hbMissed := false }) sc slot c) s)

/-! ### Time (R121, R122) -/

/-- What GTC advances by in a cycle, in units of a nanosecond over 7 · 2^32, a written STEP included (R2, R388). -/
def gtcAdvance (s : State) : Nat :=
  (10 * (4294967296 + s.power.rateGov.toInt)).toNat + 7 * 4294967296 * s.power.pendingStep
/-- GTC in the next cycle. -/
def gtcNext (s : State) : Word := BitVec.ofNat 64 ((s.gtcNum + gtcAdvance s) / (7 * 4294967296))

def execRdgtc (d : Reg) (s : State) : Result :=
  .next (issueBy (.rdgtc d) [] [d] false (fun s sc slot c =>
    finishReg s sc slot c d (gtcNext s)) s)

def execWaitt (d a : Reg) (s : State) : Result :=
  .next (issueBy (.waitt d a) [a] [d] false (fun s sc slot c =>
    let now : Word := BitVec.ofNat 64 (gtcOf s)
    if (readReg c a).toNat ≤ now.toNat then finishReg s sc slot c d now
    else park s sc slot c (.time d (readReg c a))) s)

/-- WAITT_DEADLINE: gd takes the first GTC value at or past the deadline. -/
def execWaittDeadline (s : State) : Result :=
  match s.actor with
  | .context sc slot =>
    let c := ctxOf s sc slot
    match waitOf c with
    | some (.time d deadline) =>
      if deadline.toNat ≤ gtcOf s then .next (complete s (ctxKey sc slot) (writeReg c d (BitVec.ofNat 64 (gtcOf s)))) else .next s
    | _ => .next s
  | _ => .next s

/-! ### Capability registers (R124) -/

/-- The image's address, checked as a loc access of 16 bytes (R136, R137). -/
def capImage (a : Reg) (k : State → ScullId → Slot → Ctx → Word → Nat → State) (s : State) (sc : ScullId) (slot : Slot) (c : Ctx) :
    State :=
  let ea := readReg c a
  if ea.toNat % 16 ≠ 0 then raise s sc slot { code := 0x03, aux := 0, tval := ea }
  else match ownRange s sc c ea 16 with
    | .bad => raise s sc slot (capacityTrap 0x01 ea)
    | .page v => touchPage (park s sc slot c (.reissue (.page sc c.crew v))) sc c.crew v
    | .at_ => k s sc slot (touchOwn s sc c ea 16) ea (ownByte s sc c ea.toNat)

/-- CAPLD (R124, R332). -/
def execCapld (cap : BitVec 3) (a : Reg) (s : State) : Result :=
  .next (issueBy (.capld cap a) [a] [] true (capImage a fun s sc slot c ea b =>
    let x := scullOf s sc
    if wordPoison x (b / 8) || wordPoison x (b / 8 + 1) then raise s sc slot (poisonTrap 0x01 ea)
    else
      let v := capStored (BitVec.ofNat 128 (memReadNat x.data b 16))
      finish s sc slot { c with caps := tabSet c.caps cap.toNat v }) s)

/-- CAPST: F bits unchanged. -/
def execCapst (cap : BitVec 3) (a : Reg) (s : State) : Result :=
  .next (issueBy (.capst cap a) [a] [] false (capImage a fun s sc slot c _ b =>
    let v := capStored (capOf c.caps cap.toNat)
    let x := spadWrite (spadWrite (scullOf s sc) b 8 (v.setWidth 64)) (b + 8) 8 (v.extractLsb' 64 64)
    finish (setScull s sc x) sc slot c) s)

def execCapclr (cap : BitVec 3) (s : State) : Result :=
  .next (issueBy (.capclr cap) [] [] true (fun s sc slot c =>
    finish s sc slot { c with caps := tabSet c.caps cap.toNat 0 }) s)

end Sys2Proof.Machine
end

