-- ==== Sys2Proof/Machine/Service.lean ====
section
/-! DEFINITION. The fault service (R325 to R329) and the cox's messages to a crew's supervisor (R306, R329). -/

namespace Sys2Proof.Machine

/-! ### Records (R325, R326) -/

/-- The eight words of a record (R325). -/
def recordWords (r : FaultRec) : List Word :=
  [r.type ++ r.kind ++ r.asid ++ r.seq, r.master, r.addr, r.pc, r.detail, r.who, r.gtc, 0]

/-- Records the ring holds. -/
def logSlots (fs : FaultUnit) : Nat := 64 * 2 ^ fs.lsz
def logFull (fs : FaultUnit) : Bool := decide (logSlots fs ≤ (fs.tail - fs.head).toNat)

/-- Signals the service after a record. The USER of its host signal is not stated: free. -/
def signalService (s : State) : State :=
  if s.fs.svcHost then
    let v := drawWord s
    postSignal v.2 s.fs.sign (v.1.setWidth 32)
  else signalSem s s.fs.fsc s.fs.semn.toNat

/-- FAULT_RECORD_WRITE: the oldest record goes into the ring while it has room. -/
def writeRecord (s : State) : State :=
  match s.fs.held with
  | [] => s
  | r :: rest =>
    if logFull s.fs then s
    else
      let s := hubWrite s (s.fs.logBase + 64 * (s.fs.tail.toNat % logSlots s.fs)) 64 (bytesNat (wordsBytes (recordWords r)))
      signalService { s with fs := { s.fs with tail := s.fs.tail + 1, held := rest } }

def execFaultRecordWrite (s : State) : Result := .next (writeRecord s)

/-- FS.HEAD is written: held records go on, one step each. -/
def setLogHead (s : State) (v : BitVec 32) : State :=
  s.fs.held.foldl (fun s _ => post s 0 .none .faultRecordWrite) { s with fs := { s.fs with head := v } }

def execFsHeadWrite (v : BitVec 32) (s : State) : Result := .next (pcieWrite s (.fsHeadWrite v) fun s => setLogHead s v)

/-! ### Verdicts (R144, R327, R328) -/

/-- A verdict that is discarded is counted. -/
def discardVerdict (s : State) : State := { s with fs := { s.fs with badv := s.fs.badv + 1 } }

/-- Applies a verdict to the context or copy engine that waits for it; reason none is RETRY. -/
def applyVerdict (s : State) (seq : BitVec 32) (reason : Option (BitVec 8)) (m : Master) : State :=
  match m with
  | .context sc slot =>
    let c := ctxOf s sc slot
    match waitOf c with
    | some (.reissue (.dropped n ea)) =>
      if n ≠ seq then discardVerdict s
      else match reason with
        | none => setCtx s sc slot (awake c)
        | some r => trapWaiting s (ctxKey sc slot) { code := 0x06, aux := r, tval := ea }
    | _ => discardVerdict s
  | .engine sc e =>
    let x := engineOf s sc e
    match x.dropped with
    | some (n, a) =>
      if n ≠ seq then discardVerdict s
      else match reason with
        | none => restartCommand (setEngine s sc e { x with dropped := none }) sc e
        | some _ => stopEngine s sc e 0x08 a
    | none => discardVerdict s
  | _ => discardVerdict s

/-- A verdict for a record number: it must await one. -/
def verdict (s : State) (seq : BitVec 32) (reason : Option (BitVec 8)) : State :=
  match s.fs.awaiting.find? fun w => w.1 == seq with
  | none => discardVerdict s
  | some w =>
    applyVerdict { s with fs := { s.fs with awaiting := s.fs.awaiting.filter fun q => q.1 != seq } } seq reason w.2

def execVerdictRetry (seq : BitVec 32) (s : State) : Result :=
  .next (pcieWrite s (.verdictRetry seq) fun s => verdict s seq none)

/-- A FAIL with a reason below 2 is discarded and counted. -/
def execVerdictFail (seq : BitVec 32) (reason : BitVec 8) (s : State) : Result :=
  .next (pcieWrite s (.verdictFail seq reason) fun s =>
    if reason.toNat < 2 then discardVerdict s else verdict s seq (some reason))

/-- A write of FS.VERD. -/
def verdictWrite (s : State) (v : Word) : State :=
  let seq : BitVec 32 := v.extractLsb' 32 32
  let reason : BitVec 8 := v.extractLsb' 8 8
  if v &&& 0xFFFF00FC ≠ 0 then discardVerdict s
  else match (v.extractLsb' 0 2 : BitVec 2).toNat with
    | 1 => verdict s seq none
    | 2 => if reason.toNat < 2 then discardVerdict s else verdict s seq (some reason)
    | _ => discardVerdict s

/-! ### Messages to the supervisor (R306, R329) -/

/-- A context's place in its crew's order: crew-relative index, then slot (log 21). -/
def memberOrder (c : Ctx) (k : Nat) : Nat := c.cidx.toNat * 64 + k % 64

/-- The lowest-ordinal context of a crew that exists, is on no fenced scull and satisfies p. -/
def supervisorOf (s : State) (crew : CrewId) (p : Ctx → Bool) : Option Nat :=
  ((crewKeys s crew).filter fun k => p (ctxAt s k) && !(scullOf s (keyScull k)).fenced).foldl (fun best k => match best with
    | none => some k
    | some b => if memberOrder (ctxAt s b) b ≤ memberOrder (ctxAt s k) k then some b else some k) (none : Option Nat)

/-- Writes a message at the supervisor's k3 once its presence is clear. -/
def tellSupervisor (s : State) (crew : CrewId) (p : Ctx → Bool) (i : Instr) (v : Word) : State :=
  match supervisorOf s crew p with
  | none => s
  | some k => if (linkOf (ctxAt s k) 3).present then postLater s .none i else linkArrive s k 3 v

def freezeMessage (copy : Bool) (slot : Slot) (cidx : BitVec 11) (sc : ScullId) : Word :=
  (if copy then (3 : BitVec 16) else 2) ++ (0 : BitVec 10) ++ slot ++ (0 : BitVec 5) ++ cidx ++ (0 : BitVec 5) ++ sc

/-- SUPERVISOR_FREEZE_MESSAGE (R329). -/
def execSupervisorFreezeMessage (crew : CrewId) (copy : Bool) (slot : Slot) (sc : ScullId) (s : State) : Result :=
  .next (tellSupervisor s crew (fun c => !isFrozen c) (.supervisorFreezeMessage crew copy slot sc)
    (freezeMessage copy slot (indexIn s crew sc) sc))

def lostMessage (cidx : BitVec 11) (sc : ScullId) : Word :=
  (1 : BitVec 16) ++ (0 : BitVec 21) ++ cidx ++ (0 : BitVec 5) ++ sc

/-- HEARTBEAT_LOST_MESSAGE (R306). -/
def execHeartbeatLostMessage (sc : ScullId) (crew : CrewId) (s : State) : Result :=
  .next (tellSupervisor s crew (fun _ => true) (.heartbeatLostMessage sc crew) (lostMessage (indexIn s crew sc) sc))

end Sys2Proof.Machine
end

