-- ==== Sys2Proof/Machine/Fences.lean ====
section
/-! DEFINITION. Fences and isolation (R120, R305, R306, R334, R337, R389), and errors (R331, R333, R347). -/

namespace Sys2Proof.Machine

/-! ### Fencing a scull (R305) -/

/-- The state a freeze puts a context into; its record and its task's fault are the fence's (R305, R334). -/
def frozenOver (c : Ctx) : Ctx :=
  match c.st with
  | .starting => { c with st := .frozen .starting }
  | .ready => { c with st := .frozen .ready }
  | .waiting w => { c with st := .frozen (.waiting w) }
  | _ => c

def freezeKeys (s : State) (l : List Nat) : State := l.foldl (fun s k => setCtxAt s k (frozenOver (ctxAt s k))) s

/-- The owner crews that have a scull as a member and are not pre-empted: their tasks run on it, though no context of theirs is left there
(R298, R305). One that is pre-empted has left the scull (log 80). -/
def memberCrews (s : State) (sc : ScullId) : List CrewId :=
  (s.crews.filter fun e => e.2.cls == .owner && e.2.state != .preempted && e.2.members.contains sc).map fun e => BitVec.ofNat 32 e.1

/-- The crews with a context on a scull. -/
def scullCrews (s : State) (sc : ScullId) : List CrewId := ((scullKeys s sc).map fun k => (ctxAt s k).crew).eraseDups

/-- The accesses of other sculls that wait at a scull's words or for its pages. -/
def foreignWaiters (s : State) (sc : ScullId) : List Nat :=
  let x := scullOf s sc
  let all := x.wordQueues.flatMap Prod.snd ++ x.groups.flatMap fun g => g.2.waiters.flatMap Prod.snd
  all.filter fun id => match accessOf s id with
    | some a => a.sc != sc
    | none => false

/-- Ends the waits of others at siphon headers of a scull. -/
def failSiphons (s : State) (sc : ScullId) : State :=
  let x := scullOf s sc
  let own := fun (w : SipWaiter) => match w.who with
    | .context k => k / 64 == sc.toNat
    | .engine y => y == sc
    | .future _ => false
  let s := setScull s sc { x with sipWaiters := x.sipWaiters.filter own }
  (x.sipWaiters.filter fun w => !own w).foldl (fun s w => failSipWaiter s w (poisonTrap 0x03 w.ea)) s

/-- Drops the other sculls' reservations of a scull's words, those that wait first; one that waits for its word ends. -/
def failResvs (s : State) (sc : ScullId) : State :=
  let keys := fun (held : Bool) => (s.ctxs.filter fun e => e.1 / 64 != sc.toNat && match e.2.resv with
    | some r => r.sc == sc && r.held == held
    | none => false).map Prod.fst
  (keys false ++ keys true).foldl (fun s k =>
    let c := ctxAt s k
    let ea := (c.resv.map (·.ea)).getD 0
    let s := cancelResv s k
    match waitOf (ctxAt s k) with
    | some (.reservation _) => trapWaiting s k (poisonTrap 0x03 ea)
    | _ => s) s

/-- The SENDs of other sculls that wait at its contexts end (R187). -/
def failForeignSends (s : State) (sc : ScullId) : State :=
  s.items.foldl (fun s e => match e.2 with
    | .send m =>
      if m.target = sc ∧ m.sc ≠ sc ∧ m.arrived.isSome ∧ m.report.isNone ∧ m.held.isNone then
        reportSend s e.1 m (some (poisonTrap 0x03 m.ga))
      else s
    | _ => s) s

/-- Closes a scull: its contexts FROZEN, its engines stopped at their next boundary, and every access of another scull that waits there
ends as poison. -/
def closeScull (s : State) (sc : ScullId) : State :=
  let ids := foreignWaiters s sc
  let s := freezeKeys (setScull s sc { scullOf s sc with fenced := true }) (scullKeys s sc)
  let s := ids.foldl (fun s id => failAccess (fun ea => poisonTrap 0x03 ea) (unqueueAccess s id) id) s
  let s := failForeignSends (failResvs (failSiphons s sc) sc) sc
  wakeReissue s fun r => match r with
    | .page x _ _ => x == sc
    | .deposit x => x == sc
    | _ => false

/-- A task fault by a fence (R298): which frozen context its record names is not stated; one of them. DESIGN CHOICE (log 87): with no context of the
crew there, words 3 to 5 of the record are 0. -/
def faultByFence (s : State) (crew : CrewId) (kind : BitVec 8) (keys : List Nat) : State :=
  let d := drawChoice s keys.length
  match keys[d.1]? with
  | some k =>
    let c := ctxAt s k
    taskFault d.2 crew kind 0 (masterWord (.context (keyScull k) (keySlot k))) c.pc c.tval
  | none => taskFault s crew kind 0 0 0 0

def crewClass (s : State) (crew : CrewId) : Cls :=
  match crewOf s crew with
  | some x => x.cls
  | none => .owner

/-- Fences a scull (R305): one record, the tasks of the owner crews that have it as a member faulted with kind 0x42, and the supervisors of the
crews with a context there told (R306). -/
def fenceScull (s : State) (sc : ScullId) : State :=
  if (scullOf s sc).fenced then s
  else
    let crews := (memberCrews s sc ++ scullCrews s sc).eraseDups
    let s := sendRecord (closeScull s sc) 0x05 0 0 (.context sc 0) 0 0 0 0
    let s := (crews.filter fun c => crewClass s c == .owner).foldl (fun s c =>
      faultByFence s c 0x42 ((scullKeys s sc).filter fun k => (ctxAt s k).crew == c)) s
    (scullCrews s sc).foldl (fun s c => postLater s .none (.heartbeatLostMessage sc c)) s

/-! ### HEARTBEAT_MISSED (R120) and SCULL_UNFENCE (R305) -/

/-- Whether the test of R120 holds. -/
def beatOverdue (x : Scull) : Bool := x.hbgov != 0 && decide (x.hbgov.toNat ≤ x.hbcnt.toNat)

/-- The test of R120 at the end of a cycle: a BEAT of the cycle came before it, and a write of 0 has stopped it. -/
def heartbeatMiss (s : State) (sc : ScullId) : State :=
  let x := scullOf s sc
  if beatOverdue x ∧ !x.hbMissed then fenceScull (setScull s sc { x with hbMissed := true }) sc else s

def execHeartbeatMissed (s : State) : Result :=
  match s.actor with
  | .scull sc => .next (heartbeatMiss s sc)
  | _ => .next s

/-- The engines of a scull go on where they stopped. -/
def restartEngines (s : State) (sc : ScullId) : State :=
  [EngineId.matrix, .vector, .copy].foldl (fun s e => restartCommand s sc e) s

/-- Unfences a scull; its contexts stay FROZEN until MTHAW or MKILL. One of an isolated shell returns with its shell (R334). -/
def unfence (s : State) (sc : ScullId) : State :=
  if (scullOf s sc).fenced ∧ setHas s.isolated (sc.toNat / 8) = false then
    unitNotice (wakeEvicted (restartEngines (setScull s sc { scullOf s sc with fenced := false }) sc) fun p => p.sc == sc)
  else s

def execScullUnfence (s : State) : Result :=
  match s.actor with
  | .scull sc => .next (unfence s sc)
  | _ => .next s

/-! ### COX_FAILURE (R334, R337) -/

def shellSculls (h : Nat) : List ScullId := (List.range 8).map fun i => BitVec.ofNat 11 (h * 8 + i)

def onShell (h : Nat) (sc : ScullId) : Bool := sc.toNat / 8 == h

/-- The crews with a member on a shell. -/
def shellCrews (s : State) (h : Nat) : List CrewId :=
  let listed := (s.crews.filter fun e => e.2.members.any (onShell h)).map fun e => (BitVec.ofNat 32 e.1 : CrewId)
  (listed ++ (shellSculls h).flatMap (scullCrews s)).eraseDups

/-- Freezes every context of a crew, on every scull, and faults its task. -/
def isolateCrew (s : State) (crew : CrewId) : State :=
  let keys := crewKeys s crew
  faultByFence (freezeKeys s keys) crew 0x45 keys

/-- Evicts the chambers with frames on a shell as CEVT would; a refill that has chosen frames there chooses again. -/
def evictShell (s : State) (h : Nat) : State :=
  s.directory.live.foldl (fun s e =>
    let n : ChamberSlot := BitVec.ofNat 15 e.1
    match chamberOf s n with
    | none => s
    | some x =>
      if x.holders.any (fun p => onShell h p.1) then (if x.writeback then beginEvict s n else chamberDies s n)
      else if x.chosen.any (fun p => onShell h p.1) ∧ x.blank = false then
        let s := (x.chosen.map Prod.fst).eraseDups.foldl (fun s sc => unpromise s sc (.chamber n)) s
        setChamber s n { x with chosen := [] }
      else s) s

/-- What the partner cox does: the record, the supervisors' messages, MKILL of the isolated contexts, and the evictions. -/
def partnerActs (s : State) (h : Nat) : State :=
  let s := sendRecord s 0x06 0 0 (.context (BitVec.ofNat 11 (h * 8)) 0) 0 0 0 0
  let keys := (shellSculls h).flatMap (scullKeys s)
  let s := keys.foldl (fun s k =>
    postLater s .none (.supervisorFreezeMessage (ctxAt s k).crew false (keySlot k) (keyScull k))) s
  evictShell (keys.foldl killContext s) h

/-- A cox fails: its shell is isolated. -/
def coxFails (s : State) (shell : ShellId) : State :=
  let h := shell.toNat
  if setHas s.isolated h then { s with coxFailed := setAdd s.coxFailed h }
  else
    let crews := shellCrews s h
    let s := { s with isolated := setAdd s.isolated h, coxFailed := setAdd s.coxFailed h }
    let s := (shellSculls h).foldl closeScull s
    let s := declareDead s (shell.setWidth 9)
    let s := crews.foldl isolateCrew s
    if setHas s.coxFailed (h ^^^ 1) then s else partnerActs s h

def execCoxFailure (shell : ShellId) (s : State) : Result := .next (coxFails s shell)

/-- The reset of an isolated shell once no context is left there: registers and frames scrubbed, its L2 swept and empty (R346, R347), available
again. -/
def returnShell (s : State) (shell : ShellId) : State :=
  let h := shell.toNat
  if setHas s.isolated h ∧ (shellSculls h).all (fun sc => (scullKeys s sc) == []) then
    let s := (shellSculls h).foldl (fun s sc =>
      let s := setScull s sc { Scull.reset with notice := (scullOf s sc).notice }
      let s := [EngineId.matrix, .vector, .copy].foldl (fun s e => setEngine s sc e .reset) s
      scullNotice s sc) s
    let n : Node := shell.setWidth 9
    let s := deathSweep s n
    let s := setAgent s n { agentOf s n with dead := false, lines := [], leaving := [] }
    unitNotice { s with
      isolated := setDel s.isolated h, coxFailed := setDel s.coxFailed h, walkers := tabDrop s.walkers h }
  else s

def execShellReturnToService (shell : ShellId) (s : State) : Result := .next (returnShell s shell)

/-! ### Errors (R331, R333, R347) -/

/-- A TYPE 0x07 record at detection: where the error is, as a number of the structure's own. -/
def errorRecord (s : State) (addr : Nat) : State := sendEventRecord s 0x07 0 (BitVec.ofNat 64 addr)

/-- A read of a queue's ring or descriptor has found an error: the packet at its head is popped, the queue FROZEN with a kind 0x43 record, the packet
word zero; enabled again it goes on after that packet (R298, R333). DESIGN CHOICE (log 87): the signal of the
entry, whose words are not known, has SIGN and USER 0; with no packet in the ring, the index is that of the entry read. -/
def badQueue (s : State) (q : QueueId) : State :=
  let index := (queueOf s q).head
  let s := if (queueOf s q).head = (queueOf s q).tail then s else popQueue s q
  faultQueue (setQueue s q { queueOf s q with wait := none }) q 0 0x43 0 index [] 0 0 0 0

/-- One error more in a die's counters (R333). -/
def countError (s : State) (die : Nat) : State :=
  { s with power := { s.power with corrected := tabSet s.power.corrected die (tabGet 0 s.power.corrected die + 1) } }

/-- An entry of a reserve bank: a register of one of the images it holds, by its place among them (R12, R331). -/
def poisonReserve (s : State) (sc : ScullId) (index : Nat) (r : Reg) : State :=
  match (scullOf s sc).reserve[index]? with
  | none => s
  | some id => match itemOf s id with
    | some (.parked p) => setItem s id (.parked { p with ctx := { p.ctx with gPoison := setAdd p.ctx.gPoison r.toNat } })
    | _ => s

/-- What an uncorrectable error does to its structure (R333). -/
def uncorrectable (s : State) : ErrorSite → State
  | .reserveEntry sc index r => errorRecord (poisonReserve s sc index r) r.toNat
  | .wideRegister sc w =>
    let x := engineOf s sc .vector
    errorRecord (setEngine s sc .vector { x with widePoison := setAdd x.widePoison w.toNat }) w.toNat
  | .latchTile sc =>
    let x := engineOf s sc .matrix
    errorRecord (setEngine s sc .matrix { x with latchPoison := true }) 0
  | .spadWord sc w =>
    let x := scullOf s sc
    errorRecord (setScull s sc { x with poison := setAdd x.poison w }) (w * 8)
  | .memLine pa => errorRecord (setMemoryPoison s (lineOf pa) true) pa
  | .cacheLine n line => errorRecord (modLine s n line fun l => { l with poison := true }) (line * 64)
  | .register sc slot r =>
    let c := ctxOf s sc slot
    errorRecord (if isFree c then s else setCtx s sc slot { c with gPoison := setAdd c.gPoison r.toNat }) r.toNat
  | .accumulator sc acc =>
    let x := engineOf s sc .matrix
    errorRecord (setEngine s sc .matrix { x with accPoison := setAdd x.accPoison acc.toNat }) acc.toNat
  | .tlbEntry sc i =>
    let x := scullOf s sc
    countError (setScull s sc { x with tlb := tabDrop x.tlb i }) (dieOf sc)
  | .walkerEntry h i => countError { s with walkers := tabSet s.walkers h.toNat ((walkEntries s h).eraseIdx i) } (h.toNat / 32)
  | .coxMemory h => coxFails s h
  | .queueRing q => badQueue s q
  | .chamberDescriptor n =>
    match chamberOf s n with
    | some _ => errorRecord (chamberDies s n) n.toNat
    | none => s
  | .futureEntry i => post s 0 (.future i) .futureEntryError
  | .tagEntry _ i => { errorRecord s i with fatal := true }

def execUncorrectableError (site : ErrorSite) (s : State) : Result := .next (uncorrectable s site)

/-- CORRECTABLE_ERROR: corrected in place and counted for its die (R333). -/
def execCorrectableError (die : BitVec 4) (s : State) : Result := .next (countError s die.toNat)

/-! ### THERMAL_TRIP and POWER_THROTTLE (R389) -/

/-- At 115 °C every scull is fenced, the harts halt and the alarm is raised. -/
def thermalTrip (s : State) : State :=
  let s := (List.range 2048).foldl (fun s n => fenceScull s (BitVec.ofNat 11 n)) s
  let s := { s with harts := (List.range 128).foldl (fun t n => tabSet t n { tabGet Hart.reset t n with st := .halted }) s.harts }
  { s with power := { s.power with alarm := true } }

def execThermalTrip (_die : BitVec 3) (s : State) : Result := .next (thermalTrip s)

/-- The matrix engines are throttled first and the vector engines if that is not enough: on a second excess while they are. THR counts the
steps up to 7, and goes back to 0 when both limits are met. -/
def execPowerThrottle (watts : Nat) (temps : List Nat) (s : State) : Result :=
  let hottest := temps.foldl max 0
  let p := { s.power with temp := BitVec.ofNat 8 hottest }
  let excess := decide (p.lim.toNat < watts) || decide (105 < hottest)
  .next { s with power :=
    if excess then { p with
      vectorThrottled := p.matrixThrottled
      matrixThrottled := true
      thr := if p.thr.toNat < 7 then p.thr + 1 else 7 }
    else { p with matrixThrottled := false, vectorThrottled := false, thr := 0 } }

end Sys2Proof.Machine
end

