-- ==== Sys2Proof/Machine/Masters.lean ====
section
/-! DEFINITION. Thawing and killing masters: MTHAW and MKILL (R125, R126, R330, R397). -/

namespace Sys2Proof.Machine

/-- What an operand of MTHAW or MKILL names (R125). -/
def masterOf (v : Word) : Option Master :=
  match (v.extractLsb' 60 4 : BitVec 4).toNat with
  | 0 => some (.context (v.extractLsb' 16 11) (v.extractLsb' 0 6))
  | 1 => match (v.extractLsb' 0 2 : BitVec 2).toNat with
    | 0 => some (.engine (v.extractLsb' 16 11) .matrix)
    | 1 => some (.engine (v.extractLsb' 16 11) .vector)
    | 2 => some (.engine (v.extractLsb' 16 11) .copy)
    | _ => none
  | 2 => some (.hart (v.extractLsb' 0 7))
  | 3 => some (.pcie (v.extractLsb' 0 8))
  | 4 => some (.flow (v.extractLsb' 0 24))
  | _ => none

def isolatedScull (s : State) (sc : ScullId) : Bool := setHas s.isolated (sc.toNat / 8)

/-! ### MTHAW -/

/-- A frozen context goes back to its prior state (R126). It is served at the next event of the queue it waits in (R397). -/
def thawContext (s : State) (sc : ScullId) (slot : Slot) (p : Prior) : State :=
  let c := ctxOf s sc slot
  match p with
  | .starting => post (setCtx s sc slot { c with st := .starting }) startCycles (.context sc slot) .contextStart
  | .ready => setCtx s sc slot { c with st := .ready }
  | .waiting w => setCtx s sc slot { c with st := .waiting w }

/-- The copy engine takes the binding context's capabilities and issues the failing element again. -/
def thawCopy (s : State) (sc : ScullId) : State :=
  let x := engineOf s sc .copy
  let caps := match x.bound with
    | some slot => (ctxOf s sc slot).caps
    | none => []
  let x := { x with frz := false, queue := x.queue.map fun cmd => { cmd with caps := caps } }
  restartCommand (setEngine s sc .copy x) sc .copy

/-- MTHAW's effect and status. A FREE slot holds no master: status 2, where R125 could also mean 1; MKILL alike (log 69). -/
def thawMaster (s : State) : Master → State × Word
  | .context sc slot =>
    if isolatedScull s sc then (s, 2)
    else match (ctxOf s sc slot).st with
      | .free => (s, 2)
      | .frozen p => (thawContext s sc slot p, 0)
      | _ => (s, 1)
  | .engine sc e =>
    if isolatedScull s sc then (s, 2)
    else if e = .copy ∧ (engineOf s sc .copy).frz then (thawCopy s sc, 0)
    else (s, 1)
  | .hart h => if (hartOf s h).st = .frozen then (thawHart s h, 0) else (s, 1)
  | .pcie f =>
    if f ≠ 0 then (s, 2)
    else if setHas s.host.frozen 0 then (releasePcie { s with host := { s.host with frozen := [] } }, 0)
    else (s, 1)
  | .flow f =>
    match flowState s f with
    | .closed | .open_ => (s, 1)
    | .frozen => (releasePcie (setFlowState s f .open_), 0)

/-! ### MKILL -/

/-- An engine dies: what it has begun retires (R234), its commands are discarded, it is unbound, and its former binder has an engine fault
to take (R232, R330). -/
def killEngine (s : State) (sc : ScullId) (e : EngineId) : State :=
  unbindEngine (stopEngine (retireUnits s sc e) sc e 0x09 0) sc e

/-- MKILL's effect and status. -/
def killMaster (s : State) : Master → State × Word
  | .context sc slot =>
    match (ctxOf s sc slot).st with
    | .free => (s, 2)
    | .frozen _ => (killContext s (ctxKey sc slot), 0)
    | _ => (s, 1)
  | .engine sc .copy => if (engineOf s sc .copy).frz then (killEngine s sc .copy, 0) else (s, 1)
  | .engine sc e => if (engineOf s sc e).bound.isSome then (killEngine s sc e, 0) else (s, 1)
  | .hart h => if (hartOf s h).st = .frozen then (killHart s h, 0) else (s, 1)
  | .pcie f =>
    if f ≠ 0 then (s, 2)
    else if setHas s.host.frozen 0 then ({ s with host := { s.host with frozen := [], requests := [] } }, 0)
    else (s, 1)
  | .flow f =>
    match flowState s f with
    | .closed | .open_ => (s, 1)
    | .frozen =>
      let s := freeFutures (setFlowState s f .closed) fun x => match x.flow with
        | some (g, _) => g == f
        | none => false
      (releasePcie s, 0)

/-- MTHAW or MKILL issues: its context waits until the change is complete (R76, R125). -/
def masterIssue (i : Instr) (d a : Reg) (s : State) : State :=
  issueBy i [a] [d] true (fun s sc slot c =>
    postLater (park s sc slot c (.master d (masterOf (readReg c a)))) (.context sc slot) i) s

/-- The change, and the end of the instruction that waits for it with its status; one whose own context it killed ends with it. -/
def masterAct (act : State → Master → State × Word) (d : Reg) (m : Option Master) (s : State) (sc : ScullId) (slot : Slot) : State :=
  let r := match m with
    | some m => act s m
    | none => (s, 2)
  let c := ctxOf r.1 sc slot
  if waitOf c = some (.master d m) then complete r.1 (ctxKey sc slot) (writeReg c d r.2) else r.1

/-- Both steps of MTHAW or MKILL: its issue, and, for a context that waits for it, the change. -/
def masterStep (i : Instr) (d a : Reg) (act : State → Master → State × Word) (s : State) : State :=
  match s.actor with
  | .context sc slot => match waitOf (ctxOf s sc slot) with
    | some (.master d m) => masterAct act d m s sc slot
    | _ => masterIssue i d a s
  | _ => s

def execMthaw (d a : Reg) (s : State) : Result := .next (masterStep (.mthaw d a) d a thawMaster s)

def execMkill (d a : Reg) (s : State) : Result := .next (masterStep (.mkill d a) d a killMaster s)

end Sys2Proof.Machine
end

