-- ==== Sys2Proof/Machine/Invalidate.lean ====
section
/-! DEFINITION. TLBI and TLBIASID (R123, R142, R335). Entries leave every TLB and walker cache in the instruction's own step; the reports that
follow wait for the accesses translated under them. -/

namespace Sys2Proof.Machine

/-- Whether a TLB entry matches: an ASID, and for TLBI a page (R142: a G entry matches every ASID). -/
def entryMatches (e : TlbEntry) (asid : BitVec 16) (page : Option Nat) : Bool :=
  (e.glob || e.asid == asid) && match page with
    | some v => v / 512 ^ e.level == e.vpn % 68719476736 / 512 ^ e.level
    | none => true

/-- Whether a walker's entry does: it was read for a page under the same table entry. -/
def walkMatches (e : WalkEntry) (asid : BitVec 16) (page : Option Nat) : Bool :=
  e.asid == asid && match page with
    | some v => v / 512 ^ e.level == e.vpn % 68719476736 / 512 ^ e.level
    | none => true

/-- Removes the matching entries of the package. -/
def removeEntries (s : State) (asid : BitVec 16) (page : Option Nat) : State :=
  { s with
    sculls := tabMap (fun _ x => { x with tlb := x.tlb.filter fun e => !entryMatches e.2 asid page }) s.sculls
    walkers := tabMap (fun _ l => l.filter fun e => !walkMatches e asid page) s.walkers }

/-- The agents that report: the sculls by number, the walkers from 2,048 on, the harts from 4,096 on; those that have state, and the
issuer's own scull. -/
def tlbAgents (s : State) (sc : ScullId) : List Nat :=
  sc.toNat :: ((s.sculls.map Prod.fst).filter (· != sc.toNat) ++ s.walkers.map (fun e => 2048 + e.1) ++ s.harts.map fun e => 4096 + e.1)

/-- Whether an access of a scull may have been translated under a removed entry and has not performed. The entry may have been a superpage's, and
one with G serves every ASID: every access of the same top-level region is waited for, whatever its ASID. The wait has no bound. -/
def translatedUnder (n : Nat) (page : Option Nat) (a : Access) : Bool :=
  a.sc.toNat == n && a.phase == .inFlight
    && (match a.place with
      | .global _ => true
      | _ => false)
    && match page with
      | some v => a.ea.toNat / 4096 % 68719476736 / 512 ^ 3 == v / 512 ^ 3
      | none => true

/-- Whether an agent cannot report yet: such an access of its scull, or a store its shell has accepted, has not performed. -/
def agentBusy (s : State) (page : Option Nat) (n : Nat) : Bool :=
  if n < 2048 then s.items.any fun e => match e.2 with
    | .access a => translatedUnder n page a
    | _ => false
  else if n < 4096 then !(agentOf s (BitVec.ofNat 9 (n - 2048))).stores.isEmpty
  else false

/-- Takes the entries out and waits for the reports. -/
def invalidate (asid : BitVec 16) (page : Option Nat) (s : State) (sc : ScullId) (slot : Slot) (c : Ctx) : State :=
  let agents := tlbAgents s sc
  let s := park (removeEntries s asid page) sc slot c (.tlb asid page agents)
  agents.foldl (fun s n => postLater s .none (.tlbInvalidateReport sc slot n)) s

def execTlbi (a : Reg) (s : State) : Result :=
  .next (issueBy (.tlbi a) [a] [] true (fun s sc slot c =>
    let v := readReg c a
    invalidate (v.extractLsb' 48 16) (some (v.extractLsb' 12 36 : BitVec 36).toNat) s sc slot c) s)

def execTlbiasid (a : Reg) (s : State) : Result :=
  .next (issueBy (.tlbiasid a) [a] [] true (fun s sc slot c => invalidate ((readReg c a).setWidth 16) none s sc slot c) s)

/-- TLB_INVALIDATE_REPORT: the last report completes the issuer's wait. -/
def execTlbInvalidateReport (sc : ScullId) (slot : Slot) (agent : Nat) (s : State) : Result :=
  let c := ctxOf s sc slot
  match waitOf c with
  | some (.tlb asid page agents) =>
    if !agents.contains agent then .next s
    else if agentBusy s page agent then .next (postLater s .none (.tlbInvalidateReport sc slot agent))
    else
      let rest := agents.filter (· != agent)
      if rest = [] then .next (complete s (ctxKey sc slot) c)
      else
        let w := Wait.tlb asid page rest
        .next (setCtx s sc slot { c with st := if isFrozen c then .frozen (.waiting w) else .waiting w })
  | _ => .next s

end Sys2Proof.Machine
end

