-- ==== Sys2Proof/Machine/Stacks.lean ====
section
/-! DEFINITION. Retiring a memory stack (R349 to R355): the vacate handshake, SWAP and COMPACT chunk by chunk, and replays. The memory is
kept by place, so a move of a granule moves its bytes, and every address reads as before. -/

namespace Sys2Proof.Machine

/-- Whether the migration phase is stable (R349). -/
def phaseStable (mc : MemCtl) : Bool := mc.mphase.toNat % 4 = 0

/-- The lowered MEMCAP (R350). -/
def loweredCap (mc : MemCtl) : Nat := hbmBase + (mc.s - 1) * stackBytes

/-- MEMCAP_WRITE (R350 step 2): only while stable, only the lowered value or the one that cancels it; it clears VACD. It governs checks from the
next cycle on. -/
def memcapWrite (s : State) (v : Word) : State :=
  let cap := (v.extractLsb' 0 52 : BitVec 52).toNat
  if phaseStable s.mc ∧ (cap = loweredCap s.mc ∨ cap = hbmBase + s.mc.s * stackBytes) then
    { s with mc := { s.mc with memcap := cap, vacd := false } }
  else s

def execMemcapWrite (v : Word) (s : State) : Result := .next (pcieWrite s (.memcapWrite v) fun s => memcapWrite s v)

/-- VACK (R350 step 3): VACD clears and the vacating starts. -/
def vack (s : State) : State :=
  postLater { s with mc := { s.mc with vacd := false, vacating := true } } .none .vacateComplete

def execVack (s : State) : Result := .next (pcieWrite s .vack vack)

/-- The line a coherence message is about. -/
def messageLine : Instr → Option Nat
  | .cohRead _ l _ => some l
  | .cohWrite _ l _ => some l
  | .cohForward _ _ l _ => some l
  | .cohInvalidateHop _ _ l => some l
  | .cohInvalidateAck _ l _ _ => some l
  | .cohCompletionReport _ l _ => some l
  | .cohUnlink _ l _ _ _ _ => some l
  | .cohWriteback _ l _ => some l
  | .cohWritebackAck _ l => some l
  | _ => none

/-- Whether a coherence message about such a line is on its way. -/
def messageFor (s : State) (p : Nat → Bool) : Bool := s.agenda.any fun e => (messageLine e.instr).any p

/-- An access that passed its check against the old MEMCAP and has not performed, or a request or transaction for a line above MEMCAP. -/
def aboveCapPending (s : State) : Bool :=
  let above := fun (line : Nat) => decide (s.mc.memcap ≤ line * 64)
  (s.items.any fun e => match e.2 with
    | .access a => (match a.place, a.phase with
      | .global pa, .inFlight => decide (s.mc.memcap ≤ pa)
      | _, _ => false)
    | _ => false)
  || (s.agents.any fun e => e.2.stores.any fun t => decide (s.mc.memcap ≤ t.pa))
  || messageFor s above || s.homes.any fun e => above e.1 && (e.2.tx.isSome || e.2.queue != [] || e.2.stalled != [])

/-- VACATE_COMPLETE (R350 step 3): every cached line at or above MEMCAP is written back and invalidated, and VACD sets once every access
checked against the old MEMCAP has performed. -/
def execVacateComplete (s : State) : Result :=
  if !s.mc.vacating then .next s
  else if aboveCapPending s then .next (postLater s .none .vacateComplete)
  else
    let lines := (s.homes.filter fun e => s.mc.memcap ≤ e.1 * 64).map Prod.fst
    let s := lines.foldl collapseLine s
    .next { s with mc := { s.mc with vacd := true, vacating := false } }

/-- Why a RETIRE is refused, as REF codes it (R349, R350); none where it is accepted. -/
def retireRefusal (mc : MemCtl) (f : BitVec 4) : Option (BitVec 4) :=
  if !phaseStable mc then some 1
  else if !mc.vacd then some 2
  else if mc.memcap ≠ loweredCap mc then some 3
  else if mc.s ≤ f.toNat ∨ mc.s = 1 then some 4
  else none

/-- The end of a chunk's motion: the requests that stalled for it proceed under the new map (R353). -/
def endMotion (s : State) : State :=
  s.homes.foldl (fun s e =>
    let h := homeOf s e.1
    if h.stalled = [] then s
    else serveHome (setHome s e.1 { h with queue := h.queue ++ h.stalled, stalled := [] }) e.1 (h.queue.length + h.stalled.length + 1)) s

/-- RETIRE (R350): BUSY sets and MPHASE increments to swapping; a refusal changes REF alone. When f = S − 1 SWAP passes at once (R351). -/
def retireStack (s : State) (f : BitVec 4) : State :=
  match retireRefusal s.mc f with
  | some r => { s with mc := { s.mc with ref := r } }
  | none =>
    let s := { s with mc := { s.mc with busy := true, fail := f, chunk := 0, mphase := s.mc.mphase + 1 } }
    if f.toNat = s.mc.s - 1 then endSwap s else postLater s .none .swapChunk

def execRetire (f : BitVec 4) (s : State) : Result := .next (pcieWrite s (.retire f) fun s => retireStack s f)

/-- Takes a chunk into motion, and once what its homes had accepted has performed, moves it (R351 to R353); the next chunk follows in the same
phase. -/
def chunkStep (s : State) (again : Instr) : State :=
  if s.mc.moving && chunkQuiet s then
    let t := endMotion (moveChunk s)
    if t.mc.mphase = s.mc.mphase then postOnce t .none again else t
  else postLater { s with mc := { s.mc with moving := true } } .none again

/-- SWAP_CHUNK (R351): the chunk waits, then the two stacks' rows of it are exchanged. -/
def execSwapChunk (s : State) : Result :=
  if s.mc.mphase.toNat % 4 ≠ 1 then .next s else .next (chunkStep s .swapChunk)

/-- COMPACT begins: MPHASE is compacting, CHUNK at the last chunk (R352). -/
def startCompact (s : State) : State :=
  let chunk := BitVec.ofNat 32 ((s.mc.s - 1) * 3072 - 1)
  postLater { s with mc := { s.mc with mphase := s.mc.mphase + 1, chunk := chunk } } .none .compactChunk

/-- COMPACT_CHUNK (R352): a chunk waits as in R351, then its granules move. -/
def execCompactChunk (s : State) : Result :=
  match s.mc.mphase.toNat % 4 with
  | 2 => .next (startCompact s)
  | 3 => .next (chunkStep s .compactChunk)
  | _ => .next s

/-- HBM_REQUEST_REPLAY (R354): a request stamped with progress under which its granule lay elsewhere is counted and goes to the right
home; no value changes. -/
def execHbmRequestReplay (pa : Nat) (phase chunk : BitVec 32) (s : State) : Result :=
  if misplaced s.mc { stampHere s with phase := phase, chunk := chunk } (lineOf pa) then
    .next { s with mc := { s.mc with rply := s.mc.rply + 1 } }
  else .next s

end Sys2Proof.Machine
end

