-- ==== Sys2Proof/Machine/Device.lean ====
section
/-! DEFINITION. The device register range (R283, R326, R349, R360, R379 to R384, R386, R388, R389), its writes from PCIe (R394), host signals
(R297, R383), the management port (R393) and the boot (R390, R391, R395). -/

namespace Sys2Proof.Machine

/-! ### Queue descriptors (R283) -/

def stateCode : QState → BitVec 2
  | .disabled => 0 | .enabled => 1 | .frozen => 2

/-- QD.CFG. -/
def queueCfg (x : Queue) : Word :=
  x.asid ++ (0 : BitVec 8) ++ x.age ++ (0 : BitVec 4) ++ BitVec.ofNat 4 x.lsz ++ b1 x.priv ++ x.pri ++ (0 : BitVec 18) ++ stateCode x.state

def readQueue (x : Queue) (r : Nat) : Word :=
  match r with
  | 0 => queueCfg x
  | 1 => BitVec.ofNat 64 x.ring
  | 2 => x.head.setWidth 64
  | 3 => x.tail.setWidth 64
  | 4 => BitVec.ofNat 64 x.capt
  | 5 => BitVec.ofNat 64 x.frec
  | 6 => x.drop.setWidth 64
  | _ => x.out.setWidth 64

/-- Bits hi : lo of a word, in place. -/
def keepBits (v : Word) (hi lo : Nat) : Nat := v.toNat / 2 ^ lo % 2 ^ (hi - lo + 1) * 2 ^ lo

/-- A write of QD.CFG: LSZ only while DISABLED; a rewritten PRI is the queue's level again (R290). -/
def writeQueueCfg (s : State) (q : QueueId) (v : Word) : State :=
  let x := queueOf s q
  let age : BitVec 8 := v.extractLsb' 32 8
  let lsz := (v.extractLsb' 24 4 : BitVec 4).toNat
  let pri : BitVec 3 := v.extractLsb' 20 3
  let y := { x with
    asid := v.extractLsb' 48 16
    age := if age = 0 then 1 else age
    lsz := if x.state = .disabled then (if lsz < 4 then 4 else lsz) else x.lsz
    priv := v.getLsbD 23
    pri := pri
    level := if pri = x.pri then x.level else pri.toNat
    ageCount := if pri = x.pri then x.ageCount else 0 }
  setQueueState (setQueue s q y) q (v.extractLsb' 0 2)

def writeQueue (s : State) (q : QueueId) (r : Nat) (v : Word) : State :=
  let x := queueOf s q
  let idle := x.state == .disabled
  match r with
  | 0 => writeQueueCfg s q v
  | 1 => if idle then setQueue s q { x with ring := keepBits v 51 6 } else s
  | 4 => if idle then setQueue s q { x with capt := keepBits v 51 7 } else s
  | 5 => if idle then setQueue s q { x with frec := keepBits v 51 6 } else s
  | 6 => setQueue s q { x with drop := x.drop &&& ~~~(v.setWidth 32) }
  | _ => s

/-! ### The fault unit (R326) -/

def readFs (s : State) (r : Nat) : Word :=
  match r with
  | 0 => s.fs.sign ++ s.fs.fsc ++ s.fs.semn ++ (0 : BitVec 31) ++ b1 s.fs.svcHost
  | 1 => BitVec.ofNat 64 (s.fs.logBase + s.fs.lsz)
  | 2 => s.fs.head.setWidth 64
  | 3 => s.fs.tail.setWidth 64
  | 5 => s.fs.badv.setWidth 64
  | _ => 0

def writeFs (s : State) (r : Nat) (v : Word) : State :=
  match r with
  | 0 => { s with fs := { s.fs with sign := v.extractLsb' 48 16, fsc := v.extractLsb' 37 11, semn := v.extractLsb' 32 5 } }
  | 1 => { s with fs := { s.fs with logBase := keepBits v 51 12, lsz := min 10 (keepBits v 3 0) } }
  | 2 => setLogHead s (v.setWidth 32)
  | 4 => verdictWrite s v
  | 5 => { s with fs := { s.fs with badv := s.fs.badv &&& ~~~(v.setWidth 32) } }
  | _ => s

/-! ### The memory registers (R349) -/

def mapWord (l : List Nat) : Word :=
  BitVec.ofNat 64 ((List.range 16).foldl (fun n i => n + (l.getD i 0) % 16 * 16 ^ i) 0)

def readMc (s : State) (r : Nat) : Word :=
  let m := s.mc
  match r with
  | 0 => m.ret ++ (0 : BitVec 5) ++ BitVec.ofNat 11 m.lpsz ++ (0 : BitVec 27) ++ BitVec.ofNat 5 m.s
  | 1 => mapWord m.stkmap
  | 2 => BitVec.ofNat 64 m.memcap
  | 4 => m.chunk ++ (0 : BitVec 8) ++ m.fail ++ m.ref ++ (0 : BitVec 14) ++ b1 m.vacd ++ b1 m.busy
  | 5 => m.mphase.setWidth 64
  | 6 => m.rply ++ m.stale
  | _ => 0

/-- MC.CMD: VACK and RETIRE together are refused. -/
def memoryCommand (s : State) (v : Word) : State :=
  if v.getLsbD 9 ∧ v.getLsbD 8 then { s with mc := { s.mc with ref := 5 } }
  else if v.getLsbD 9 then vack s
  else if v.getLsbD 8 then retireStack s (v.setWidth 4)
  else s

def writeMc (s : State) (r : Nat) (v : Word) : State :=
  match r with
  | 2 => memcapWrite s v
  | 3 => memoryCommand s v
  | 6 => { s with mc := { s.mc with stale := s.mc.stale &&& ~~~(v.setWidth 32) } }
  | _ => s

/-! ### Host, time, power, boot and endpoint registers -/

def readHs (s : State) (r : Nat) : Word :=
  match r with
  | 0 => s.host.ring ||| s.host.lsz.setWidth 64
  | 1 => s.host.head.setWidth 64
  | 2 => s.host.tail.setWidth 64
  | _ => BitVec.ofNat 64 s.host.stab

/-- The oldest held signal may go (R383). -/
def setHostHead (s : State) (v : BitVec 32) : State :=
  s.host.held.foldl (fun s _ => post s 0 .none .hostSignal) { s with host := { s.host with head := v } }

def writeHs (s : State) (r : Nat) (v : Word) : State :=
  match r with
  | 0 => { s with host := { s.host with ring := v &&& ~~~0xFFF, lsz := v.setWidth 4 } }
  | 1 => setHostHead s (v.setWidth 32)
  | 3 => { s with host := { s.host with stab := keepBits v 51 12 } }
  | _ => s

/-- GTC.RATE.OFS as it reads back (R388). -/
def clampRate (v : BitVec 32) : BitVec 32 :=
  if v.toInt > 0x100000 then 0x100000 else if v.toInt < -0x100000 then BitVec.ofInt 32 (-0x100000) else v

def readGtc (s : State) (r : Nat) : Word :=
  match r with
  | 0 => BitVec.ofNat 64 (gtcOf s)
  | 1 => s.power.rateOfs.setWidth 64
  | 3 => (b1 s.power.lock).setWidth 64
  | _ => 0

/-- A STEP written takes effect in the next cycle. -/
def stepGtc (s : State) (v : BitVec 32) : State :=
  { s with power :=
    if s.turn = 0 then { s.power with pendingStep := s.power.pendingStep + v.toNat } else { s.power with lateStep := s.power.lateStep + v.toNat } }

/-- GTC.RATE governs the advance at the end of its cycle, unless a context has issued in it: then from the next cycle (R121). -/
def rateGtc (s : State) (v : BitVec 32) : State :=
  let r := clampRate v
  { s with power := { s.power with rateOfs := r, rateGov := if s.turn = 0 then r else s.power.rateGov } }

def writeGtc (s : State) (r : Nat) (v : Word) : State :=
  match r with
  | 1 => rateGtc s (v.setWidth 32)
  | 2 => stepGtc s (v.setWidth 32)
  | 3 => { s with power := { s.power with lock := v.getLsbD 0 } }
  | _ => s

/-- BOOT.STAT. -/
def bootStat (s : State) : Word := (0 : BitVec 48) ++ s.power.bootCode ++ (0 : BitVec 6) ++ s.power.bootSt

def readPower (s : State) (r : Nat) : Word :=
  match r with
  | 0 => s.power.lim.setWidth 64
  | 1 => (0 : BitVec 48) ++ s.power.temp ++ (0 : BitVec 5) ++ s.power.thr
  | _ => bootStat s

def writePower (s : State) (r : Nat) (v : Word) : State :=
  match r with
  | 0 =>
    let lim : BitVec 12 := v.setWidth 12
    { s with power := { s.power with lim := if lim.toNat > s.config.lim.toNat then s.config.lim else lim } }
  | _ => s

def readEp (s : State) (r : Nat) : Word :=
  match r with
  | 0 => BitVec.ofNat 64 s.ep.flow
  | 1 => BitVec.ofNat 64 s.ep.win
  | _ => BitVec.ofNat 64 (s.ep.sap + s.ep.sapLsz)

def writeEp (s : State) (r : Nat) (v : Word) : State :=
  match r with
  | 0 => { s with ep := { s.ep with flow := keepBits v 51 12 } }
  | 1 => { s with ep := { s.ep with win := keepBits v 51 12 } }
  | _ => { s with ep := { s.ep with sap := keepBits v 51 12, sapLsz := min 23 (keepBits v 4 0) } }

def writeTtab (s : State) (v : Word) : State :=
  { s with table := { s.table with base := keepBits v 51 12, lsz := min 20 (keepBits v 4 0) } }

/-- An ASID root entry holds V and ROOT alone (R381). -/
def writeRoot (s : State) (a : Nat) (v : Word) : State := { s with roots := tabSet s.roots a (v &&& 0x800FFFFFFFFFF000) }

/-! ### Inspection windows (R382) -/

/-- The scull, slot and offset of an inspection address. -/
def inspected (off : Nat) : ScullId × Slot × Nat :=
  let o := off - 0x40000000
  (BitVec.ofNat 11 (o / 0x40000), BitVec.ofNat 6 (o / 0x1000), o % 0x1000)

/-- Whether something lies at an offset of a window. -/
def inspectable (o : Nat) : Bool := o < 0x430 || (0x440 ≤ o && o < 0x4C0) || (0x800 ≤ o && o < 0x870)

def presenceWord (c : Ctx) : Word :=
  (0 : BitVec 60) ++ b1 (linkOf c 3).present ++ b1 (linkOf c 2).present ++ b1 (linkOf c 1).present ++ b1 (linkOf c 0).present

/-- Half of a capability image. -/
def capHalf (c : Ctx) (n : Nat) : Word := (capOf c.caps (n / 2) >>> (64 * (n % 2))).setWidth 64

def inspect (s : State) (sc : ScullId) (slot : Slot) (o : Nat) : Word :=
  let c := ctxOf s sc slot
  if !isFrozen c then 0
  else if o < 0x400 then (if regInLimit c (BitVec.ofNat 7 (o / 8)) then readReg c (BitVec.ofNat 7 (o / 8)) else 0)
  else if o < 0x420 then (linkOf c (BitVec.ofNat 2 (o / 8))).value
  else if o = 0x420 then presenceWord c
  else if o = 0x428 then c.pc
  else if o < 0x4C0 then capHalf c ((o - 0x440) / 8)
  else ctxRegister s sc slot c ((o - 0x800) / 8)

/-- A capability register with one half of its image written. -/
def putCapHalf (c : Ctx) (n : Nat) (v : Word) : Ctx :=
  { c with caps := tabSet c.caps (n / 2) (capWithHalf (capOf c.caps (n / 2)) n v) }

def inspectPut (s : State) (sc : ScullId) (slot : Slot) (c : Ctx) (o : Nat) (v : Word) : Ctx :=
  if o < 0x400 then (if regInLimit c (BitVec.ofNat 7 (o / 8)) then writeReg c (BitVec.ofNat 7 (o / 8)) v else c)
  else if o < 0x420 then
    let k : BitVec 2 := BitVec.ofNat 2 (o / 8)
    setLink c k { linkOf c k with value := v }
  else if o = 0x420 then
    (List.range 4).foldl (fun c i => setLink c (BitVec.ofNat 2 i) { linkOf c (BitVec.ofNat 2 i) with present := v.getLsbD i }) c
  else if o = 0x428 then { c with pc := v &&& ~~~7 }
  else if o < 0x4C0 then putCapHalf c ((o - 0x440) / 8) v
  else
    let n := (o - 0x800) / 8
    let rw_ := rwMask true n
    putCtxRegister c n ((ctxRegister s sc slot c n &&& ~~~rw_) ||| (v &&& rw_))

def inspectWrite (s : State) (sc : ScullId) (slot : Slot) (o : Nat) (v : Word) : State :=
  let c := ctxOf s sc slot
  if isFrozen c then setCtx s sc slot (inspectPut s sc slot c o v) else s

/-! ### The range by offset (R379) -/

/-- What lies at an aligned offset of the register range. -/
inductive RegPlace where
  | queue (q : QueueId) (r : Nat)
  | window (q : QueueId)
  | fs (r : Nat)
  | mc (r : Nat)
  | ttab
  | hs (r : Nat)
  | gtc (r : Nat)
  | power (r : Nat)
  | ep (r : Nat)
  | root (a : Nat)
  | inspection (sc : ScullId) (slot : Slot) (o : Nat)
  | aperture (o : Nat)
  | nothing
  deriving DecidableEq, Repr

def regPlace (off : Nat) : RegPlace :=
  if off < 0x40000 then .queue (BitVec.ofNat 12 (off / 64)) (off % 64 / 8)
  else if 0x100000 ≤ off ∧ off < 0x140000 then .window (BitVec.ofNat 12 ((off - 0x100000) / 64))
  else if 0x200000 ≤ off ∧ off < 0x200030 then .fs ((off - 0x200000) / 8)
  else if 0x200040 ≤ off ∧ off < 0x200078 then .mc ((off - 0x200040) / 8)
  else if off = 0x200080 then .ttab
  else if 0x200100 ≤ off ∧ off < 0x200120 then .hs ((off - 0x200100) / 8)
  else if 0x200200 ≤ off ∧ off < 0x200220 then .gtc ((off - 0x200200) / 8)
  else if 0x200300 ≤ off ∧ off < 0x200318 then .power ((off - 0x200300) / 8)
  else if 0x200400 ≤ off ∧ off < 0x200418 then .ep ((off - 0x200400) / 8)
  else if 0x300000 ≤ off ∧ off < 0x380000 then .root ((off - 0x300000) / 8)
  else if 0x40000000 ≤ off ∧ off < 0x60000000 then
    let w := inspected off
    if inspectable w.2.2 then .inspection w.1 w.2.1 w.2.2 else .nothing
  else if 0x8000000000 ≤ off then .aperture (off - 0x8000000000)
  else .nothing

/-- An aligned 8-byte read; none outside capacity. -/
def mmioRead (s : State) (off : Nat) : Option Word :=
  if off % 8 ≠ 0 then none
  else match regPlace off with
    | .queue q r => some (readQueue (queueOf s q) r)
    | .fs r => some (readFs s r)
    | .mc r => some (readMc s r)
    | .ttab => some (BitVec.ofNat 64 (s.table.base + s.table.lsz))
    | .hs r => some (readHs s r)
    | .gtc r => some (readGtc s r)
    | .power r => some (readPower s r)
    | .ep r => some (readEp s r)
    | .root a => some (tabGet 0 s.roots a)
    | .inspection sc slot o => some (inspect s sc slot o)
    | .window _ | .aperture _ | .nothing => none

/-- An aligned 8-byte write; none outside capacity. A write of a queue window that is not whole is discarded and counted (R284). -/
def mmioWrite (s : State) (off : Nat) (v : Word) : Option State :=
  if off % 8 ≠ 0 then none
  else match regPlace off with
    | .queue q r => some (writeQueue s q r v)
    | .window q => windowWrite s q false [v]
    | .fs r => some (writeFs s r v)
    | .mc r => some (writeMc s r v)
    | .ttab => some (writeTtab s v)
    | .hs r => some (writeHs s r v)
    | .gtc r => some (writeGtc s r v)
    | .power r => some (writePower s r v)
    | .ep r => some (writeEp s r v)
    | .root a => some (writeRoot s a v)
    | .inspection sc slot o => some (inspectWrite s sc slot o v)
    | .aperture _ | .nothing => none

/-! ### Reads and writes from PCIe function 0 (R379, R380, R390, R394) -/

/-- What a read of PCIe function 0 through BAR0 returns; none where the request is not supported. Before the package is ready only BOOT.STAT is
read; after a boot that failed nothing else answers. -/
def pcieRead (s : State) (off : Nat) : Option Word :=
  if barOpen s || off == 0x200310 then mmioRead s off
  else if s.power.bootSt = 2 then none
  else some 0

/-- REGISTER_WRITE: one outside capacity is not applied (R356); one to a send aperture is function 0's aperture write (R379, R386). -/
def execRegisterWrite (off : Nat) (v : Word) (s : State) : Result :=
  match regPlace off with
  | .aperture o => execApertureWrite (.pcie 0) o [v] s
  | _ => .next (pcieWrite s (.registerWrite off v) fun s => (mmioWrite s off v).getD s)

/-- INSPECTION_WINDOW_WRITE: off counts from the range's base. -/
def execInspectionWindowWrite (off : Nat) (v : Word) (s : State) : Result :=
  .next (pcieWrite s (.inspectionWindowWrite off v) fun s =>
    match regPlace off with
    | .inspection sc slot o => if off % 8 = 0 then inspectWrite s sc slot o v else s
    | _ => s)

def execHsHeadWrite (v : BitVec 32) (s : State) : Result := .next (pcieWrite s (.hsHeadWrite v) fun s => setHostHead s v)
def execGtcStep (v : BitVec 32) (s : State) : Result := .next (pcieWrite s (.gtcStep v) fun s => stepGtc s v)

/-! ### HOST_SIGNAL (R297, R383) -/

def hostSlots (h : HostPort) : Nat := 2 ^ (h.lsz.toNat + 6)
def hostFull (h : HostPort) : Bool := decide (hostSlots h ≤ (h.tail - h.head).toNat)

/-- How a signal is posted. Whether the posting record marks its thread as not running is the host's: a choice (log 2). -/
def deliverSignal (s : State) (g : Signal) : State × Delivered :=
  let s := hubFetch s (s.host.stab + 16 * g.sign.toNat) 16
  let w0 := hubWord s (s.host.stab + 16 * g.sign.toNat)
  let vector : BitVec 11 := w0.setWidth 11
  if !w0.getLsbD 63 then (s, .ringOnly g)
  else if !w0.getLsbD 62 then (s, .msix g vector)
  else
    let d := drawChoice s 2
    (d.2, if d.1 = 0 then .posted g (hubWord s (s.host.stab + 16 * g.sign.toNat + 8)) else .msix g vector)

def hostSignal (s : State) : State :=
  let h := s.host
  match h.held with
  | [] => s
  | g :: rest =>
    if hostFull h then s
    else
      let at_ := h.ring.toNat + 16 * (h.tail.toNat % hostSlots h)
      let w0 : Word := g.user ++ (0 : BitVec 16) ++ g.sign
      let mem := memWriteNat (memWriteNat h.mem at_ 8 w0.toNat) (at_ + 8) 8 (gtcOf s)
      let s := { s with host := { h with mem := mem, tail := h.tail + 1, held := rest } }
      let d := deliverSignal s g
      { d.1 with host := { d.1.host with delivered := d.1.host.delivered ++ [d.2] } }

def execHostSignal (s : State) : Result := .next (hostSignal s)

/-! ### PTP_EVENT_MESSAGE (R388) and SPDM_REQUEST (R393) -/

def execPtpEventMessage (port : BitVec 3) (s : State) : Result :=
  if endpointUp s && s.config.ports.getLsbD port.toNat then .next { s with ep := { s.ep with stamps := s.ep.stamps ++ [(port, gtcOf s)] } }
  else .next s

/-- The measurements: ROM version, digests of table and firmware, boot state (R393). -/
def measurements (s : State) : List Byte :=
  natBytes 8 Config.romVersion.toNat ++ Config.digest s.flash.tableBytes ++ Config.digest s.flash.firmware ++ natBytes 8 (bootStat s).toNat

/-- The identity key's certificate of the alias key (R393). -/
def aliasCertificate (s : State) : List Byte := Config.mldsaSign Config.identityKey (Config.publicKey s.power.aliasKey)

/-- SPDM_REQUEST: the measurements, signed with the alias key, and the alias key's certificate (R393; log 13). -/
def execSpdmRequest (s : State) : Result :=
  let m := measurements s
  .next { s with power := { s.power with spdm := s.power.spdm ++ [m ++ Config.mldsaSign s.power.aliasKey m ++ aliasCertificate s] } }

/-! ### RESET (R390, R391, R395) -/

/-- The configuration table that bytes of flash hold (R391). -/
def tableOf (b : List Byte) : ConfigTable :=
  let v := Config.tableField b
  { fcs := BitVec.ofNat 8 (v 0), colw := v 1, serviceHost := v 2 == 1, s := v 3, ret := BitVec.ofNat 16 (v 4)
    stkmap := (List.range 16).map fun i => v (16 + i)
    lpsz := v 5, ports := BitVec.ofNat 8 (v 6), lim := BitVec.ofNat 12 (v 7)
    windows := (List.range (v 8)).map fun i =>
      { base := v (32 + 8 * i), len := v (33 + 8 * i), rd := v (34 + 8 * i) == 1, w := v (35 + 8 * i) == 1, x := v (36 + 8 * i) == 1 } }

/-- R391's limits, and R395's that the column lies on one die. -/
def tableOk (t : ConfigTable) : Bool :=
  1 ≤ t.colw && t.colw ≤ 16 && t.fcs.toNat / 32 == (t.fcs.toNat + t.colw - 1) / 32 && 1 ≤ t.s && t.s ≤ 16 && t.lpsz ≤ 1024
    && t.lim.toNat ≤ 2400 && t.windows.length ≤ 16

/-- The first step of the boot that fails, as BOOT.STAT codes it. -/
def bootFailure (f : Flash) : Option (BitVec 8) :=
  if !Config.mldsaVerify Config.rootKey (Config.digest f.keyBlock) f.keySig then some 1
  else if !Config.mldsaVerify (Config.ownerKey f.keyBlock) (Config.digest f.tableBytes) f.tableSig || !tableOk (tableOf f.tableBytes) then some 2
  else if !Config.mldsaVerify (Config.ownerKey f.keyBlock) (Config.digest f.firmware) f.firmwareSig then some 3
  else if !f.trains then some 4
  else none

/-- The capacity of a table's stacks (R340, R349). -/
def tableCap (t : ConfigTable) : Nat := hbmBase + t.s * stackBytes

/-- Applies a configuration table (R349, R389, R391). -/
def applyTable (s : State) (t : ConfigTable) : State :=
  { s with
    config := t
    mc := { s.mc with s := t.s, ret := t.ret, stkmap := t.stkmap, lpsz := t.lpsz, memcap := tableCap t, capgov := tableCap t }
    fs := { s.fs with svcHost := t.serviceHost }
    power := { s.power with lim := t.lim } }

/-- The package after reset, before its boot: everything as State.reset has it but the contents of the stacks, LPDDR and flash, and
what is outside the package. -/
def rebooted (s : State) : State :=
  { State.reset with
    agenda := []
    draws := s.draws
    nextId := s.nextId
    memory := s.memory
    linePoison := s.linePoison
    flash := s.flash
    host := { HostPort.reset with mem := s.host.mem, delivered := s.host.delivered }
    ep := { Endpoint.reset with messages := s.ep.messages, stamps := s.ep.stamps } }

/-- The alias key of a boot: from the identity and the digest of ROM version, table and firmware (R393). -/
def bootKey (f : Flash) : List Byte :=
  Config.deriveKey Config.identityKey (Config.digest (natBytes 8 Config.romVersion.toNat ++ f.tableBytes ++ f.firmware))

/-- The shells of the firmware column (R391, R395). -/
def columnShells (t : ConfigTable) : NatSet := (List.range t.colw).map (t.fcs.toNat + ·)

/-- The boot (R390, R394): keys, verification, the table; what fails ends it with its code; else the column's coxes start and ST becomes 1. -/
def boot (s : State) : State :=
  let s := rebooted s
  let s := { s with power := { s.power with aliasKey := bootKey s.flash } }
  match bootFailure s.flash with
  | some code => { s with power := { s.power with bootSt := 2, bootCode := code } }
  | none =>
    let t := tableOf s.flash.tableBytes
    let s := applyTable s t
    { s with power := { s.power with bootSt := 1, bootAt := some s.cycle, firmwareOn := columnShells t } }

def execReset (s : State) : Result := .next (boot s)

end Sys2Proof.Machine
end

