-- ==== Sys2Proof/Machine/Response.lean ====
section
/-! DEFINITION. ACCESS_RESPONSE (R26, R152 to R154): global accesses perform at the shell L2, at a device register or at a send aperture, and
every access's outcome returns to its context, or to the image that was parked with it (R38, R324, R338). -/

namespace Sys2Proof.Machine

/-! ### Performing a global access -/

/-- The access's outcome is there: it returns in the same step that follows. -/
def respond (s : State) (id : Nat) (a : Access) (p : AccessPhase) : State :=
  post (setAccess s id { a with phase := p }) 0 (.item id) .accessResponse

/-- Tries again later. -/
def repost (s : State) (id : Nat) : State := postLater s (.item id) .accessResponse

def outsideCapacity (s : State) (id : Nat) (a : Access) : State := respond s id a (.trapped (capacityTrap 0x03 a.ea))

/-- A context's access to a device register (R379, R380). -/
def registerAccess (s : State) (id : Nat) (a : Access) (off : Nat) : State :=
  if a.size ≠ 8 then outsideCapacity s id a
  else match a.op with
    | .load _ => match mmioRead s off with
      | some v => respond s id a (.value v)
      | none => outsideCapacity s id a
    | .store v => match mmioWrite s off v with
      | some s => respond s id a .accepted
      | none => outsideCapacity s id a
    | .atomic _ _ _ | .word _ => outsideCapacity s id a

/-- A context's store at a send aperture (R386); any other access is outside capacity. -/
def apertureAccess (s : State) (id : Nat) (a : Access) (off : Nat) : State :=
  match a.op with
  | .store v =>
    if a.size ≠ 8 then outsideCapacity s id a
    else match apertureStore s (.context a.sc a.slot) (some a.asid) off [v] with
      | none => outsideCapacity s id a
      | some (true, s) => respond s id a .accepted
      | some (false, _) => repost s id
  | _ => outsideCapacity s id a

/-- A load at the shell L2: a line that is not there is asked for; a poisoned one is consumed (R332). -/
def shellLoad (s : State) (id : Nat) (a : Access) (pa : Nat) : State :=
  let n := shellNode a.sc
  match shellRead s n pa a.size with
  | none => repost (requestLine s n (lineOf pa)) id
  | some v =>
    if shellPoison s n pa then respond s id a (.trapped (poisonTrap 0x02 a.ea))
    else respond s id a (.value (BitVec.ofNat 64 v))

/-- A global access that has left its context performs, after the context's earlier accesses to its bytes (R155). -/
def performGlobal (s : State) (id : Nat) (a : Access) (pa : Nat) : State :=
  if behindEarlier s id a then repost s id
  else if isAperture pa then apertureAccess s id a (pa - apertureBase)
  else if inRegisters pa then registerAccess s id a (pa - regBase)
  else match a.op with
    | .load _ => shellLoad s id a pa
    | .store v => respond (acceptStore s (shellNode a.sc) { pa := pa, size := a.size, value := v }) id a .accepted
    | .atomic _ _ _ | .word _ => s

/-! ### ACCESS_RESPONSE -/

def accessResponse (s : State) (id : Nat) (a : Access) : State :=
  match a.phase, a.place with
  | .inFlight, .global pa => performGlobal s id a pa
  | .inFlight, _ | .atPage, _ | .atWord, _ => s
  | _, _ => deliverAccess s id a

def execAccessResponse (s : State) : Result :=
  match s.actor with
  | .item id => match accessOf s id with
    | some a => .next (accessResponse s id a)
    | none => .next s
  | _ => .next s

end Sys2Proof.Machine
end

