-- ==== Sys2Proof/Machine/Riscv.lean ====
section
/-! DEFINITION. What a tool hart executes beside the hart future instructions (R371, R396): of the RISC-V profiles that R371 names, the
base integer instructions of RV64I, multiplication and division, the atomics with load-reserved and store-conditional, fences, traps and returns,
and the CSR instructions (PRESUMED, log 11). Words of the profiles' other extensions (16-bit words, floating point, bit manipulation, vectors)
are refused by name. -/

namespace Sys2Proof.Machine

/-! ### Fields of a word -/

def rvRd (w : BitVec 32) : BitVec 5 := w.extractLsb' 7 5
def rvRs1 (w : BitVec 32) : BitVec 5 := w.extractLsb' 15 5
def rvRs2 (w : BitVec 32) : BitVec 5 := w.extractLsb' 20 5
def rvFunct3 (w : BitVec 32) : Nat := (w.extractLsb' 12 3 : BitVec 3).toNat
def rvFunct7 (w : BitVec 32) : Nat := (w.extractLsb' 25 7 : BitVec 7).toNat

def rvImmI (w : BitVec 32) : Word := (w.extractLsb' 20 12 : BitVec 12).signExtend 64
def rvImmS (w : BitVec 32) : Word := ((w.extractLsb' 25 7 : BitVec 7) ++ (w.extractLsb' 7 5 : BitVec 5)).signExtend 64
def rvImmU (w : BitVec 32) : Word := ((w.extractLsb' 12 20 : BitVec 20) ++ (0 : BitVec 12)).signExtend 64
def rvImmB (w : BitVec 32) : Word :=
  ((w.extractLsb' 31 1 : BitVec 1) ++ (w.extractLsb' 7 1 : BitVec 1) ++ (w.extractLsb' 25 6 : BitVec 6) ++ (w.extractLsb' 8 4 : BitVec 4)
    ++ (0 : BitVec 1)).signExtend 64
def rvImmJ (w : BitVec 32) : Word :=
  ((w.extractLsb' 31 1 : BitVec 1) ++ (w.extractLsb' 12 8 : BitVec 8) ++ (w.extractLsb' 20 1 : BitVec 1) ++ (w.extractLsb' 21 10 : BitVec 10)
    ++ (0 : BitVec 1)).signExtend 64

/-! ### Integer operations -/

/-- The low 32 bits, sign-extended. -/
def rvWord (v : Word) : Word := (v.setWidth 32).signExtend 64

/-- A 64-bit operation by funct3, with the second meaning that bit 30 selects; none where there is none. -/
def rvAlu (f3 : Nat) (alt : Bool) (a b : Word) : Option Word :=
  match f3, alt with
  | 0, false => some (a + b)
  | 0, true => some (a - b)
  | 1, false => some (a <<< (b.toNat % 64))
  | 2, false => some (if a.slt b then 1 else 0)
  | 3, false => some (if a.ult b then 1 else 0)
  | 4, false => some (a ^^^ b)
  | 5, false => some (a >>> (b.toNat % 64))
  | 5, true => some (a.sshiftRight (b.toNat % 64))
  | 6, false => some (a ||| b)
  | 7, false => some (a &&& b)
  | _, _ => none

/-- A 32-bit operation on the low halves. -/
def rvAluW (f3 : Nat) (alt : Bool) (a b : Word) : Option Word :=
  match f3, alt with
  | 0, false => some (rvWord (a + b))
  | 0, true => some (rvWord (a - b))
  | 1, false => some (rvWord (a <<< (b.toNat % 32)))
  | 5, false => some (((a.setWidth 32 : BitVec 32) >>> (b.toNat % 32)).signExtend 64)
  | 5, true => some (((a.setWidth 32 : BitVec 32).sshiftRight (b.toNat % 32)).signExtend 64)
  | _, _ => none

/-- A quotient and a remainder, with RISC-V's results of a division by zero. -/
def rvDivide (signed rem : Bool) (w : Nat) (a b : BitVec w) : BitVec w :=
  if b = 0 then (if rem then a else BitVec.allOnes w)
  else match signed, rem with
    | true, false => a.sdiv b
    | true, true => a.srem b
    | false, false => a / b
    | false, true => a % b

/-- The M extension by funct3. -/
def rvMul (f3 : Nat) (a b : Word) : Word :=
  let high := fun (x y : Int) => BitVec.ofInt 64 (x * y / 18446744073709551616)
  match f3 with
  | 0 => a * b
  | 1 => high a.toInt b.toInt
  | 2 => high a.toInt b.toNat
  | 3 => high a.toNat b.toNat
  | 4 => rvDivide true false 64 a b
  | 5 => rvDivide false false 64 a b
  | 6 => rvDivide true true 64 a b
  | _ => rvDivide false true 64 a b

/-- Its 32-bit forms. -/
def rvMulW (f3 : Nat) (a b : Word) : Option Word :=
  let d := fun (signed rem : Bool) => some ((rvDivide signed rem 32 (a.setWidth 32) (b.setWidth 32)).signExtend 64)
  match f3 with
  | 0 => some (rvWord (a * b))
  | 4 => d true false
  | 5 => d false false
  | 6 => d true true
  | 7 => d false true
  | _ => none

/-- OP and OP-32: by funct7, the plain operations, the second ones, and M. -/
def rvOp (wide : Bool) (f7 f3 : Nat) (a b : Word) : Option Word :=
  match f7, wide with
  | 0, true => rvAlu f3 false a b
  | 0, false => rvAluW f3 false a b
  | 0x20, true => rvAlu f3 true a b
  | 0x20, false => rvAluW f3 true a b
  | 1, true => some (rvMul f3 a b)
  | 1, false => rvMulW f3 a b
  | _, _ => none

/-- OP-IMM and OP-IMM-32: only a right shift has a second meaning, and a shift's other high bits are zero. -/
def rvOpImm (wide : Bool) (w : BitVec 32) (a : Word) : Option Word :=
  let f3 := rvFunct3 w
  let b := rvImmI w
  let shift := f3 == 1 || f3 == 5
  let alt := shift && w.getLsbD 30
  let high : BitVec 12 := w.extractLsb' 20 12 &&& (if wide then 0xBC0 else 0xBE0)
  if shift && high != 0 then none
  else if wide then rvAlu f3 alt a b
  else if f3 = 0 ∨ shift then rvAluW f3 alt a b
  else none

/-- Whether a branch is taken; none where funct3 names none. -/
def rvTaken (f3 : Nat) (a b : Word) : Option Bool :=
  match f3 with
  | 0 => some (a == b)
  | 1 => some (a != b)
  | 4 => some (a.slt b)
  | 5 => some (!a.slt b)
  | 6 => some (a.ult b)
  | 7 => some (!a.ult b)
  | _ => none

/-! ### Memory -/

/-- The bytes of an access, a page at a time, each with what stops it; the access performs only where all are reached. -/
def rvReach (s : State) (n : HartId) (kind : AccessKind) (va : Word) (size : Nat) : Except State (State × List Nat) :=
  let room := 4096 - va.toNat % 4096
  let run := fun (pa k : Nat) => (List.range k).map (pa + ·)
  match hartReach s n kind va (min size room) with
  | .stop s => .error s
  | .at_ s pa =>
    if size ≤ room then .ok (s, run pa size)
    else match hartReach s n kind (va + BitVec.ofNat 64 room) (size - room) with
      | .stop s => .error s
      | .at_ s pb => .ok (s, run pa room ++ run pb (size - room))

/-- A load's value through the hart L2 (R339). -/
def rvRead (s : State) (l : List Nat) : State × Nat :=
  let s := l.foldl (fun s pa => fetchLine s hartNode (lineOf pa)) s
  (s, bytesNat (l.map fun pa => globalByte s pa))

/-- A store through the hart L2, or at an aperture (R386); other harts' reservations of its lines end. False where a flow is frozen: the store waits. -/
def rvWrite (s : State) (n : HartId) (l : List Nat) (v : Word) : Bool × State :=
  match l with
  | pa :: _ =>
    if isAperture pa then
      match apertureStore s (.hart n) (some (hartOf s n).asid) (pa - apertureBase) [v] with
      | some r => r
      | none => (true, s)
    else
      let bytes := (List.range l.length).zip l
      (true, bytes.foldl (fun s e => agentWrite (dropReserved s (lineOf e.2)) hartNode e.2 1 (v.toNat / 256 ^ e.1 % 256)) s)
  | [] => (true, s)

/-- A load of a width that funct3 names. -/
def rvLoad (s : State) (n : HartId) (w : BitVec 32) : Option State :=
  let f3 := rvFunct3 w
  let size := 2 ^ (f3 % 4)
  let va := readX (hartOf s n) (rvRs1 w) + rvImmI w
  if f3 = 7 then none
  else match rvReach s n .load va size with
    | .error s => some s
    | .ok (s, l) =>
      let r := rvRead s l
      let v : Word := BitVec.ofNat 64 r.2
      some (hartDone r.1 n (hartOf r.1 n) (rvRd w) (if f3 < 4 then extendValue true size v else v))

/-- A store. -/
def rvStore (s : State) (n : HartId) (w : BitVec 32) : Option State :=
  let f3 := rvFunct3 w
  let h := hartOf s n
  if 4 ≤ f3 then none
  else match rvReach s n .store (readX h (rvRs1 w) + rvImmS w) (2 ^ f3) with
    | .error s => some s
    | .ok (s, l) =>
      let r := rvWrite s n l (readX h (rvRs2 w))
      some (if r.1 then hartDone r.2 n (hartOf r.2 n) 0 0 else r.2)

/-- The operation of an AMO by funct5. -/
def rvAmo (f5 : Nat) : Option AtomOp :=
  match f5 with
  | 0x00 => some .add | 0x01 => some .swap | 0x04 => some .xor | 0x08 => some .or | 0x0C => some .and
  | 0x10 => some .min | 0x14 => some .max | 0x18 => some .minu | 0x1C => some .maxu
  | _ => none

/-- An AMO at the home of its line, one order with every other atomic of the location (R176, R396). -/
def rvAtomic (s : State) (n : HartId) (rd : BitVec 5) (op : AtomOp) (pa size : Nat) (x : Word) : State :=
  let s := collapseLine (atHome s hartNode (lineOf pa)) (lineOf pa)
  let old : Word := BitVec.ofNat 64 (globalRead s pa size)
  let s := globalWrite s pa size (atomNew op size old x 0).toNat
  hartDone s n (hartOf s n) rd (extendValue true size old)

/-- LR: the line is in the hart L2 and reserved. -/
def rvReserve (s : State) (n : HartId) (rd : BitVec 5) (pa size : Nat) : State :=
  let s := fetchLine s hartNode (lineOf pa)
  hartDone s n { hartOf s n with resv := some (lineOf pa) } rd (extendValue true size (BitVec.ofNat 64 (globalRead s pa size)))

/-- SC: it stores while the reservation holds, and ends it either way. -/
def rvConditional (s : State) (n : HartId) (rd : BitVec 5) (pa size : Nat) (v : Word) : State :=
  let held := (hartOf s n).resv == some (lineOf pa)
  let s := if held then agentWrite (dropReserved s (lineOf pa)) hartNode pa size (v.toNat % 256 ^ size) else s
  hartDone s n { hartOf s n with resv := none } rd (if held then 0 else 1)

/-- The A extension; aq and rl order at system scope what has already performed (R396). -/
def rvA (s : State) (n : HartId) (w : BitVec 32) : Option State :=
  let f3 := rvFunct3 w
  let f5 := rvFunct7 w / 4
  let h := hartOf s n
  let va := readX h (rvRs1 w)
  let size := 2 ^ f3
  let x := readX h (rvRs2 w)
  let go := fun (kind : AccessKind) (k : State → Nat → State) =>
    if va.toNat % size ≠ 0 then some (hartTrap s n (if kind = .load then 4 else 6) va)
    else match hartReach s n kind va size with
      | .stop s => some s
      | .at_ s pa => some (k s pa)
  if f3 ≠ 2 ∧ f3 ≠ 3 then none
  else if f5 = 2 then (if rvRs2 w = 0 then go .load fun s pa => rvReserve s n (rvRd w) pa size else none)
  else if f5 = 3 then go .store fun s pa => rvConditional s n (rvRd w) pa size x
  else (rvAmo f5).bind fun op => go .atomic fun s pa => rvAtomic s n (rvRd w) op pa size x

/-! ### Fences, traps and returns -/

/-- A return from a trap: the mode and interrupt enable that the trap kept, and the pc. -/
def rvReturn (s : State) (n : HartId) (machine : Bool) : State :=
  let h := hartOf s n
  let m := hartReg h 0x300
  setHart s n (if machine then
    let mode : HartMode := if m.getLsbD 12 then .machine else if m.getLsbD 11 then .supervisor else .user
    { setHartReg h 0x300 (putBit (putBit (putBit (putBit m 3 (m.getLsbD 7)) 7 true) 11 false) 12 false) with
      mode := mode, pc := hartReg h 0x341 }
  else
    { setHartReg h 0x300 (putBit (putBit (putBit m 1 (m.getLsbD 5)) 5 true) 8 false) with
      mode := if m.getLsbD 8 then .supervisor else .user, pc := hartReg h 0x141 })

/-- SYSTEM words that reach no CSR: ECALL, EBREAK, SRET, MRET, WFI, which may end at once, and SFENCE.VMA, which has nothing to invalidate, since a
hart walks for every access. -/
def rvSystem (s : State) (n : HartId) (w : BitVec 32) : Option State :=
  let h := hartOf s n
  let illegal := some (hartTrap s n 2 (w.setWidth 64))
  let next := some (hartDone s n h 0 0)
  if w = 0x00000073 then some (hartTrap s n (8 + h.mode.rank) 0)
  else if w = 0x00100073 then some (hartTrap s n 3 h.pc)
  else if w = 0x10200073 then (if h.mode = .user then illegal else some (rvReturn s n false))
  else if w = 0x30200073 then (if h.mode = .machine then some (rvReturn s n true) else illegal)
  else if w = 0x10500073 then next
  else if rvFunct3 w = 0 ∧ rvFunct7 w = 9 ∧ rvRd w = 0 then (if h.mode = .user then illegal else next)
  else none

/-! ### One word -/

/-- What a word does on a hart; none where it is of an extension that is not modelled. A hart's accesses perform in its own step, so a FENCE has
nothing to wait for (R396). -/
def hartWord (s : State) (n : HartId) (w : BitVec 32) : Option State :=
  let h := hartOf s n
  let a := readX h (rvRs1 w)
  let b := readX h (rvRs2 w)
  let put := fun (v : Word) => hartDone s n h (rvRd w) v
  let jump := fun (pc v : Word) => setHart s n { writeX h (rvRd w) v with pc := pc &&& ~~~1 }
  match (w.extractLsb' 0 7 : BitVec 7).toNat with
  | 0x37 => some (put (rvImmU w))
  | 0x17 => some (put (h.pc + rvImmU w))
  | 0x6F => some (jump (h.pc + rvImmJ w) (h.pc + 4))
  | 0x67 => if rvFunct3 w = 0 then some (jump (a + rvImmI w) (h.pc + 4)) else none
  | 0x63 => (rvTaken (rvFunct3 w) a b).map fun t => setHart s n { h with pc := if t then h.pc + rvImmB w else h.pc + 4 }
  | 0x03 => rvLoad s n w
  | 0x23 => rvStore s n w
  | 0x13 => (rvOpImm true w a).map put
  | 0x1B => (rvOpImm false w a).map put
  | 0x33 => (rvOp true (rvFunct7 w) (rvFunct3 w) a b).map put
  | 0x3B => (rvOp false (rvFunct7 w) (rvFunct3 w) a b).map put
  | 0x0F => if rvFunct3 w ≤ 1 then some (hartDone s n h 0 0) else none
  | 0x2F => rvA s n w
  | 0x73 => (hartCsr s n w).or (rvSystem s n w)
  | _ => none

end Sys2Proof.Machine
end

