-- ==== Sys2Proof/Machine/Issue.lean ====
section
/-! DEFINITION. What a step of the machine does around an instruction (R24, R25, R120, R145, R232, R301, R303, R324, R388; log 1): which
context issues, how its instruction is fetched, and what the passing of a cycle sets going. -/

namespace Sys2Proof.Machine

/-! ### Which context issues (R24, R25) -/

/-- R24. A context made READY in this cycle is eligible from the next (R26); those of a fenced scull do not issue (R305). -/
def eligible (s : State) (c : Ctx) : Bool :=
  c.st == .ready && c.armed && match c.lastIssue with
    | some n => decide (n + 8 ≤ s.cycle)
    | none => true

def eligibleOf (s : State) (sc : ScullId) (cls : Cls) (slot : Slot) : Bool :=
  let c := ctxOf s sc slot
  eligible s c && c.hdr.cls == cls

/-- The slots in round-robin order after one. -/
def slotsAfter (last : Slot) : List Slot := (List.range 64).map fun i => BitVec.ofNat 6 (last.toNat + 1 + i)

/-- The pick of R25: an owner if any is eligible, else a harvest context. -/
def pickSlot (s : State) (sc : ScullId) : Option Slot :=
  let x := scullOf s sc
  if x.fenced then none
  else match (slotsAfter x.ownerLast).find? (eligibleOf s sc .owner) with
    | some t => some t
    | none => (slotsAfter x.harvestLast).find? (eligibleOf s sc .harvest)

/-- The sculls that have contexts, from a number on, in rising order. -/
def scullsFrom (s : State) (n : Nat) : List Nat := ((s.ctxs.map fun e => e.1 / 64).filter fun i => decide (n ≤ i)).eraseDups

/-- The next context to issue in this cycle. -/
def nextIssue (s : State) : Option (ScullId × Slot) :=
  (scullsFrom s s.turn).findSome? fun n => (pickSlot s (BitVec.ofNat 11 n)).map fun t => ((BitVec.ofNat 11 n : ScullId), t)

/-- Marks an issue: the round-robin pointer, the cycle, and the scull's turn of this cycle. -/
def markIssue (s : State) (sc : ScullId) (slot : Slot) : State :=
  let c := ctxOf s sc slot
  let x := scullOf s sc
  let x := match c.hdr.cls with
    | .owner => { x with ownerLast := slot }
    | .harvest => { x with harvestLast := slot }
  let s := setScull s sc x
  { setCtx s sc slot { c with lastIssue := some s.cycle } with turn := sc.toNat + 1, actor := .context sc slot }

/-! ### Fetching (R14, R140, R145, R149, R332) -/

/-- What comes of an issue before the instruction executes: a state in which it does not, or its word. -/
inductive Fetch where
  | done (s : State)
  | run (s : State) (i : Instr)
  deriving DecidableEq

/-- The word at an address: as the shell has it, or one the context has fetched since its last FENCE (R145). -/
def fetchWord (s : State) (sc : ScullId) (c : Ctx) (pa : Nat) : State × Word :=
  let now := agentWord s (shellNode sc) pa
  match tabFind c.fetched pa with
  | some old => if old = now then (s, now) else
      let d := drawChoice s 2
      (d.2, if d.1 = 0 then now else old)
  | none => (s, now)

/-- The word of a cached line, decoded. -/
def fetchDecode (s : State) (sc : ScullId) (slot : Slot) (pa : Nat) : Fetch :=
  let c := ctxOf s sc slot
  if globalPoison s pa then .done (trap s sc slot 0x09 0x04 c.pc)
  else
    let f := fetchWord s sc c pa
    let s := setCtx f.1 sc slot { c with fetched := tabSet c.fetched pa f.2 }
    match decode f.2 with
    | .ok i => .run s i
    | .error _ => .done (trap s sc slot 0x01 0 f.2)

/-- The fetch at pc in the order of R149, then through the instruction cache. -/
def fetchAt (s : State) (sc : ScullId) (slot : Slot) : Fetch :=
  let c := ctxOf s sc slot
  if !canonical c.pc then .done (trap s sc slot 0x06 0x01 c.pc)
  else if !capsGrant c.caps c.asid rightsFetch c.pc.toNat 8 then .done (freezeCap s sc slot .fetch c.pc rightsFetch)
  else match translate s sc slot c c.pc .fetch with
    | .miss s => .done s
    | .hit s pa =>
      if !contextMay s sc pa 8 rightsFetch || inRegisters pa then
        .done (takeTrap s sc slot (capacityTrap 0x03 c.pc) c.pc)
      else if setHas (scullOf s sc).icache (pa / 64) then fetchDecode s sc slot pa
      else .done (postLater (park s sc slot (ctxOf s sc slot) (.reissue (.ifetch pa))) (.context sc slot) .ifetchMissFill)

/-- A deferred trap is the instruction's own (R324). -/
def takeDeferred (s : State) (sc : ScullId) (slot : Slot) (t : Trap) (rest : List Trap) : State :=
  let c := ctxOf s sc slot
  takeTrap (setCtx s sc slot { c with deferred := rest }) sc slot t c.pc

/-- So is a pending engine trap; taking it clears TPND (R232). -/
def takeEngineTrap (s : State) (sc : ScullId) (slot : Slot) (e : EngineId) (t : Trap) (rest : List (EngineId × Trap)) : State :=
  let c := ctxOf s sc slot
  let s := setCtx s sc slot { c with engineTraps := rest }
  let s := if boundBy s sc e slot then setEngine s sc e { engineOf s sc e with tpnd := false } else s
  takeTrap s sc slot t c.pc

/-- Whether a fence or an isolation of this cycle reaches a context of a crew on a scull: it comes before the diversion (R336). -/
def fenceComing (s : State) (sc : ScullId) (crew : CrewId) : Bool :=
  let members := match crewOf s crew with
    | some x => sc :: x.members
    | none => [sc]
  s.agenda.any fun p => decide (p.due ≤ s.cycle) && match p.instr, p.actor with
    | .heartbeatMissed, .scull y => y == sc && beatOverdue (scullOf s y)
    | .coxFailure h, _ | .uncorrectableError (.coxMemory h), _ => members.any (onShell h.toNat)
    | .thermalTrip _, _ => true
    | _, _ => false

/-- An issue up to its instruction: traps that are due come first, but for overlap traps of this very cycle (R322, R324), then a pre-emption's
diversion (R303, R336), then the fetch. -/
def fetchFor (s : State) (sc : ScullId) (slot : Slot) : Fetch :=
  let c := ctxOf s sc slot
  match c.deferred.take (c.deferred.length - c.freshTraps), c.engineTraps with
  | t :: _, _ => .done (takeDeferred s sc slot t (c.deferred.drop 1))
  | [], (e, t) :: rest => .done (takeEngineTrap s sc slot e t rest)
  | [], [] =>
    if c.ppnd then .done (if fenceComing s sc c.crew then s else divert s sc slot) else fetchAt s sc slot

/-- Lines of the 16 KiB instruction cache (R145). -/
def icacheLines : Nat := 256

/-- The line enters the cache; a full one gives up a line of its choice (log 2). -/
def fillCache (s : State) (sc : ScullId) (line : Nat) : State :=
  let x := scullOf s sc
  if setHas x.icache line then s
  else if x.icache.length < icacheLines then setScull s sc { x with icache := setAdd x.icache line }
  else
    let d := drawChoice s icacheLines
    setScull d.2 sc { x with icache := setAdd (x.icache.eraseIdx d.1) line }

/-- IFETCH_MISS_FILL (R145): the missing word's line is in the shell L2 and in the cache, and the context may issue again. -/
def ifetchFill (s : State) (sc : ScullId) (slot : Slot) : State :=
  match waitOf (ctxOf s sc slot) with
  | some (.reissue (.ifetch pa)) =>
    let s := fillCache (fetchLine s (shellNode sc) (lineOf pa)) sc (lineOf pa)
    setCtx s sc slot (awake (ctxOf s sc slot))
  | _ => s

def execIfetchMissFill (s : State) : Result :=
  match s.actor with
  | .context sc slot => .next (ifetchFill s sc slot)
  | _ => .next s

/-! ### Tool harts (R371, R374) -/

/-- The next running hart of this cycle: each has one turn, after the sculls. -/
def nextHart (s : State) : Option HartId :=
  (s.harts.find? fun e => e.2.st == .running && decide (s.turn ≤ 2048 + e.1)).map fun e => BitVec.ofNat 7 e.1

/-- What a hart's fetch comes to: a state without an instruction of the table (a custom-1 word that is none is illegal, RISC-V cause 2; one of
RISC-V's has acted), a hart future instruction, or another word. -/
inductive HartFetch where
  | done (s : State)
  | run (s : State) (i : Instr)
  | other (w : BitVec 32)
  deriving DecidableEq

def hartFetch (s : State) (h : HartId) : HartFetch :=
  let s := { s with turn := 2049 + h.toNat }
  match hartReach s h .fetch (hartOf s h).pc 4 with
  | .stop s => .done s
  | .at_ s pa =>
    let s := fetchLine s hartNode (lineOf pa)
    let w : BitVec 32 := BitVec.ofNat 32 (globalRead s pa 4)
    match decodeHart w with
    | .ok i => .run { s with actor := .hart h } i
    | .error .notCustom1 => match hartWord s h w with
      | some s => .done s
      | none => .other w
    | .error _ => .done (hartTrap s h 2 (w.setWidth 64))

/-! ### The passing of a cycle -/

/-- The sculls with a READY context. -/
def busySculls (s : State) : List Nat := ((s.ctxs.filter fun e => e.2.st == .ready).map fun e => e.1 / 64).eraseDups

/-- SC.HBCNT counts a cycle and saturates (R120). -/
def countBeat (x : Scull) : Scull := { x with hbcnt := if x.hbcnt = 0xFFFFFFFFFF then x.hbcnt else x.hbcnt + 1 }

/-- Counts the heartbeats; SC.HBINT as last written governs from now on. The cycle in which the test holds is one of a miss, ordered after
what the scull issues in it (R103, R120, R336). -/
def tickBeats (s : State) : State :=
  let s := (busySculls s).foldl (fun s n =>
    setScull s (BitVec.ofNat 11 n) (countBeat (scullOf s (BitVec.ofNat 11 n)))) s
  let s := { s with sculls := tabMap (fun _ x => { x with hbgov := x.hbint, hbMissed := x.hbMissed && beatOverdue { x with hbgov := x.hbint } }) s.sculls }
  let due := (s.sculls.filter fun e => beatOverdue e.2 && !e.2.hbMissed).map fun e => (BitVec.ofNat 11 e.1 : ScullId)
  due.foldl (fun s sc => post s 0 (.scull sc) .heartbeatMissed) s

/-- The deadlines GTC has reached (R122, R315, R369). -/
def dueDeadlines (s : State) : List Pending :=
  let now := gtcOf s
  let at_ := fun (a : Actor) (i : Instr) => { due := s.cycle, actor := a, instr := i : Pending }
  let futures := (s.table.live.filter fun e => timeoutDue s e.2).map fun e => at_ (.future (BitVec.ofNat 18 e.1)) .futureTimeout
  let leases := (s.directory.live.filter fun e => e.2.life == .lease && decide (e.2.deadl.toNat ≤ now)).map fun e =>
    at_ (.chamber (BitVec.ofNat 15 e.1)) .chamberLeaseExpiry
  let waits := s.ctxs.filterMap fun e => match waitOf e.2 with
    | some (.time _ d) => if d.toNat ≤ now then some (at_ (.context (keyScull e.1) (keySlot e.1)) .waittDeadline) else none
    | _ => none
  futures ++ leases ++ waits

/-- The sculls whose kept frames' time has passed (R33). -/
def dueKeeps (s : State) : List Pending :=
  (s.sculls.filter fun e => (keptCrews s (BitVec.ofNat 11 e.1)).any fun p => decide (p.2.2 ≤ s.cycle)).map fun e =>
    { due := s.cycle, actor := .scull (BitVec.ofNat 11 e.1), instr := .keepTimeout }

/-- The next cycle: time advances at the rate that governed, MC.MEMCAP and GTC.RATE as last written govern (R121, R350), SC.OCC is as the cycle
before left it (R103), heartbeats are counted, READY contexts become eligible, and what has come due is set going. -/
def tick (s : State) : State :=
  let s := { s with
    cycle := s.cycle + 1
    gtcNum := s.gtcNum + gtcAdvance s
    turn := 0
    power := { s.power with rateGov := s.power.rateOfs, pendingStep := s.power.lateStep, lateStep := 0 }
    mc := { s.mc with capgov := s.mc.memcap }
    ctxs := tabMap (fun _ (c : Ctx) => { c with armed := c.st == CtxState.ready, freshTraps := 0 }) s.ctxs }
  let s := tickBeats { s with sculls := tabMap (fun n x => { x with occ := occupancy s (BitVec.ofNat 11 n) }) s.sculls }
  { s with agenda := dueDeadlines s ++ s.agenda ++ dueKeeps s }

/-! ### The order of a cycle's steps (R27, R103, R128, R187, R292, R336; log 1) -/

/-- The place of a step within its cycle. Launches are decided on the scull as it was before this cycle's writes, a LAUNCH before a
reservation (R103, R292); deadlines act before what is issued in their cycle (R369, R315), and MKILL before the outcome of its context's own
instruction (R336); then contexts issue and accesses reach their banks; then a chunk of a migration enters motion, so that a request that
arrives in that cycle stalls (R353); then comes what wakes a context; then MTHAW, so that what arrives in its cycle finds its master frozen
(R385), kept frames are released (R33) and futures' slots injected (R27); then sculls are fenced (R336); a crew commits after that (R337);
last come revocation and pre-emption (R336). -/
def stepPhase : Instr → Nat
  | .activeMessageArrival => 0
  | .crewCommitArrival .. | .crewReservationRequest | .harvestAdmission | .harvestResume _ | .futureTimeout | .chamberLeaseExpiry | .mkill .. => 1
  | .scratchpadAccessArrival => 2
  | .swapChunk | .compactChunk => 3
  | .mthaw .. | .keepTimeout | .keepRelease | .futureSlotInject => 5
  | .heartbeatMissed | .coxFailure _ | .uncorrectableError _ | .thermalTrip _ => 6
  | .crewCommit | .crewReservationWithdraw => 7
  | .revocation | .preemptPacket _ => 8
  | _ => 4

/-- A requester at a bank: scull, then slot, engines after the slots (R128; log 66). -/
def requesterKey (sc : ScullId) (unit : Nat) : Nat := sc.toNat * 128 + unit

/-- Who requests what in a step that reaches a bank, a link register or an engine's elements (R128, R187); an access that waited for its page or
chamber acts in the order of the waiters, which is that of their steps (R134). -/
def requesterOf (s : State) (p : Pending) : Option Nat :=
  match p.instr, p.actor with
  | .scratchpadAccessArrival, .item id => (accessOf s id).bind fun a =>
    if a.phase = .atPage then none else some (requesterKey a.sc a.slot.toNat)
  | .sendDelivery, .item id => (sendOf s id).map fun m => requesterKey m.sc m.slot.toNat
  | .commandStart, _ | .commandComplete, _ => none
  | _, .engine sc e => some (requesterKey sc (64 + engineIndex e))
  | _, _ => none

/-- The cycle's requesters lie between the phases 1 and 3. -/
def phaseKey (n : Nat) : Nat := n * 1048576

/-- Offsets of GTC.RATE and GTC.STEP (R379). -/
def gtcRateOff : Nat := 0x200208
def gtcStepOff : Nat := 0x200210

/-- Whether a step writes GTC.RATE or GTC.STEP: it acts before the issues of its cycle, since an RDGTC issued in it returns the stepped value (R121,
R388). -/
def stepsGtc (s : State) (p : Pending) : Bool :=
  match p.instr, p.actor with
  | .gtcStep _, _ => true
  | .registerWrite off _, _ => off == gtcStepOff || off == gtcRateOff
  | .accessResponse, .item id => match accessOf s id with
    | some a => a.phase == .inFlight && (a.place == .global (regBase + gtcStepOff) || a.place == .global (regBase + gtcRateOff))
    | none => false
  | _, _ => false

/-- A step's key: steps of one cycle are taken in rising order of their keys, those of one key in the order they were posted. -/
def stepKey (s : State) (p : Pending) : Nat :=
  match requesterOf s p with
  | some k => phaseKey 2 + k
  | none => if stepsGtc s p then phaseKey 1 else phaseKey (stepPhase p.instr)

/-- The key of the next issue. -/
def issueKey (s : State) : Nat :=
  match nextIssue s with
  | some (sc, slot) => phaseKey 2 + requesterKey sc slot.toNat
  | none => phaseKey 16

/-- Takes the due entry of the least key from a list, the first of equals. -/
def takeFirst (s : State) : List Pending → Option (Pending × List Pending)
  | [] => none
  | p :: t =>
    match takeFirst s t with
    | none => if p.due ≤ s.cycle then some (p, t) else none
    | some (q, rest) =>
      if p.due ≤ s.cycle ∧ stepKey s p ≤ stepKey s q then some (p, t) else some (q, p :: rest)

/-- The next step of the agenda, with the state that has taken it and names its actor; none while an issue comes first. -/
def takeDue (s : State) : Option (Instr × State) :=
  match takeFirst s s.agenda with
  | some (p, rest) => if stepKey s p ≤ issueKey s then some (p.instr, { s with agenda := rest, actor := p.actor }) else none
  | none => none

end Sys2Proof.Machine
end

