-- ==== Sys2Proof/Machine/Dispatch.lean ====
section
/-! DEFINITION. One arm for each row of spec/opcode_table.json, calling its meaning. -/

namespace Sys2Proof.Machine

def exec (i : Instr) (s : State) : Host.Outcome State Fault Refusal :=
  match i with
  | .add d a b => Sys2Proof.Machine.execAdd d a b s
  | .sub d a b => Sys2Proof.Machine.execSub d a b s
  | .addw d a b => Sys2Proof.Machine.execAddw d a b s
  | .subw d a b => Sys2Proof.Machine.execSubw d a b s
  | .min d a b => Sys2Proof.Machine.execMin d a b s
  | .max d a b => Sys2Proof.Machine.execMax d a b s
  | .minu d a b => Sys2Proof.Machine.execMinu d a b s
  | .maxu d a b => Sys2Proof.Machine.execMaxu d a b s
  | .abs d a => Sys2Proof.Machine.execAbs d a s
  | .adds d a b => Sys2Proof.Machine.execAdds d a b s
  | .subs d a b => Sys2Proof.Machine.execSubs d a b s
  | .addi d a imm => Sys2Proof.Machine.execAddi d a imm s
  | .addwi d a imm => Sys2Proof.Machine.execAddwi d a imm s
  | .andi d a imm => Sys2Proof.Machine.execAndi d a imm s
  | .ori d a imm => Sys2Proof.Machine.execOri d a imm s
  | .xori d a imm => Sys2Proof.Machine.execXori d a imm s
  | .mul d a b => Sys2Proof.Machine.execMul d a b s
  | .mulh d a b => Sys2Proof.Machine.execMulh d a b s
  | .mulhu d a b => Sys2Proof.Machine.execMulhu d a b s
  | .mulhsu d a b => Sys2Proof.Machine.execMulhsu d a b s
  | .mulw d a b => Sys2Proof.Machine.execMulw d a b s
  | .div d a b => Sys2Proof.Machine.execDiv d a b s
  | .divu d a b => Sys2Proof.Machine.execDivu d a b s
  | .rem d a b => Sys2Proof.Machine.execRem d a b s
  | .remu d a b => Sys2Proof.Machine.execRemu d a b s
  | .divw d a b => Sys2Proof.Machine.execDivw d a b s
  | .divuw d a b => Sys2Proof.Machine.execDivuw d a b s
  | .and d a b => Sys2Proof.Machine.execAnd d a b s
  | .or d a b => Sys2Proof.Machine.execOr d a b s
  | .xor d a b => Sys2Proof.Machine.execXor d a b s
  | .andn d a b => Sys2Proof.Machine.execAndn d a b s
  | .orn d a b => Sys2Proof.Machine.execOrn d a b s
  | .xnor d a b => Sys2Proof.Machine.execXnor d a b s
  | .sll d a b => Sys2Proof.Machine.execSll d a b s
  | .srl d a b => Sys2Proof.Machine.execSrl d a b s
  | .sra d a b => Sys2Proof.Machine.execSra d a b s
  | .rol d a b => Sys2Proof.Machine.execRol d a b s
  | .ror d a b => Sys2Proof.Machine.execRor d a b s
  | .slli d a count => Sys2Proof.Machine.execSlli d a count s
  | .srli d a count => Sys2Proof.Machine.execSrli d a count s
  | .srai d a count => Sys2Proof.Machine.execSrai d a count s
  | .rori d a count => Sys2Proof.Machine.execRori d a count s
  | .clz d a => Sys2Proof.Machine.execClz d a s
  | .ctz d a => Sys2Proof.Machine.execCtz d a s
  | .popc d a => Sys2Proof.Machine.execPopc d a s
  | .brev d a => Sys2Proof.Machine.execBrev d a s
  | .bswap d a => Sys2Proof.Machine.execBswap d a s
  | .sextb d a => Sys2Proof.Machine.execSextb d a s
  | .sextq d a => Sys2Proof.Machine.execSextq d a s
  | .sexth d a => Sys2Proof.Machine.execSexth d a s
  | .zextb d a => Sys2Proof.Machine.execZextb d a s
  | .zextq d a => Sys2Proof.Machine.execZextq d a s
  | .zexth d a => Sys2Proof.Machine.execZexth d a s
  | .bfx d a pos widthM1 => Sys2Proof.Machine.execBfx d a pos widthM1 s
  | .bfxu d a pos widthM1 => Sys2Proof.Machine.execBfxu d a pos widthM1 s
  | .bfi d a pos widthM1 => Sys2Proof.Machine.execBfi d a pos widthM1 s
  | .movi d imm => Sys2Proof.Machine.execMovi d imm s
  | .movhi d imm => Sys2Proof.Machine.execMovhi d imm s
  | .addpc d imm => Sys2Proof.Machine.execAddpc d imm s
  | .mkcore d a b => Sys2Proof.Machine.execMkcore d a b s
  | .fadd d a b p rm => Sys2Proof.Machine.execFadd d a b p rm s
  | .fsub d a b p rm => Sys2Proof.Machine.execFsub d a b p rm s
  | .fmul d a b p rm => Sys2Proof.Machine.execFmul d a b p rm s
  | .fdiv d a b p rm => Sys2Proof.Machine.execFdiv d a b p rm s
  | .fsqrt d a p rm => Sys2Proof.Machine.execFsqrt d a p rm s
  | .fmin d a b p => Sys2Proof.Machine.execFmin d a b p s
  | .fmax d a b p => Sys2Proof.Machine.execFmax d a b p s
  | .fabs d a p => Sys2Proof.Machine.execFabs d a p s
  | .fneg d a p => Sys2Proof.Machine.execFneg d a p s
  | .fma d a b c p rm => Sys2Proof.Machine.execFma d a b c p rm s
  | .fms d a b c p rm => Sys2Proof.Machine.execFms d a b c p rm s
  | .fnma d a b c p rm => Sys2Proof.Machine.execFnma d a b c p rm s
  | .fnms d a b c p rm => Sys2Proof.Machine.execFnms d a b c p rm s
  | .fcvtff d a p rm => Sys2Proof.Machine.execFcvtff d a p rm s
  | .fcvtfi d a p rm => Sys2Proof.Machine.execFcvtfi d a p rm s
  | .fcvtfu d a p rm => Sys2Proof.Machine.execFcvtfu d a p rm s
  | .fcvtif d a p rm => Sys2Proof.Machine.execFcvtif d a p rm s
  | .fcvtuf d a p rm => Sys2Proof.Machine.execFcvtuf d a p rm s
  | .fclass d a p => Sys2Proof.Machine.execFclass d a p s
  | .feq d a b p => Sys2Proof.Machine.execFeq d a b p s
  | .flt d a b p => Sys2Proof.Machine.execFlt d a b p s
  | .fle d a b p => Sys2Proof.Machine.execFle d a b p s
  | .b cond a b off => Sys2Proof.Machine.execB cond a b off s
  | .slt d a b => Sys2Proof.Machine.execSlt d a b s
  | .sltu d a b => Sys2Proof.Machine.execSltu d a b s
  | .seq d a b => Sys2Proof.Machine.execSeq d a b s
  | .sne d a b => Sys2Proof.Machine.execSne d a b s
  | .slti d a imm => Sys2Proof.Machine.execSlti d a imm s
  | .sltui d a imm => Sys2Proof.Machine.execSltui d a imm s
  | .seqi d a imm => Sys2Proof.Machine.execSeqi d a imm s
  | .jl d imm => Sys2Proof.Machine.execJl d imm s
  | .jlr d a imm => Sys2Proof.Machine.execJlr d a imm s
  | .sel d a b c => Sys2Proof.Machine.execSel d a b c s
  | .ld d m size fe ov => Sys2Proof.Machine.execLd d m size fe ov s
  | .lds d m size fe ov => Sys2Proof.Machine.execLds d m size fe ov s
  | .ldAq d m size scope => Sys2Proof.Machine.execLdAq d m size scope s
  | .ldsAq d m size scope => Sys2Proof.Machine.execLdsAq d m size scope s
  | .st d m size fe ov => Sys2Proof.Machine.execSt d m size fe ov s
  | .stRl d m size scope => Sys2Proof.Machine.execStRl d m size scope s
  | .fbrd d m => Sys2Proof.Machine.execFbrd d m s
  | .fbset m => Sys2Proof.Machine.execFbset m s
  | .fbclr m => Sys2Proof.Machine.execFbclr m s
  | .aqr d m => Sys2Proof.Machine.execAqr d m s
  | .arl d m => Sys2Proof.Machine.execArl d m s
  | .arc m => Sys2Proof.Machine.execArc m s
  | .aadd d a b off size scope => Sys2Proof.Machine.execAadd d a b off size scope s
  | .aand d a b off size scope => Sys2Proof.Machine.execAand d a b off size scope s
  | .aor d a b off size scope => Sys2Proof.Machine.execAor d a b off size scope s
  | .axor d a b off size scope => Sys2Proof.Machine.execAxor d a b off size scope s
  | .amin d a b off size scope => Sys2Proof.Machine.execAmin d a b off size scope s
  | .amax d a b off size scope => Sys2Proof.Machine.execAmax d a b off size scope s
  | .aminu d a b off size scope => Sys2Proof.Machine.execAminu d a b off size scope s
  | .amaxu d a b off size scope => Sys2Proof.Machine.execAmaxu d a b off size scope s
  | .aswp d a b off size scope => Sys2Proof.Machine.execAswp d a b off size scope s
  | .acas d a b off size scope => Sys2Proof.Machine.execAcas d a b off size scope s
  | .depAdd d m => Sys2Proof.Machine.execDepAdd d m s
  | .depFadds d m => Sys2Proof.Machine.execDepFadds d m s
  | .depFaddd d m => Sys2Proof.Machine.execDepFaddd d m s
  | .depMin d m => Sys2Proof.Machine.execDepMin d m s
  | .depMax d m => Sys2Proof.Machine.execDepMax d m s
  | .depOr d m => Sys2Proof.Machine.execDepOr d m s
  | .fence scope => Sys2Proof.Machine.execFence scope s
  | .fenceProbe sc slot target => Sys2Proof.Machine.execFenceProbe sc slot target s
  | .fenceEcho sc slot target => Sys2Proof.Machine.execFenceEcho sc slot target s
  | .sipw d m => Sys2Proof.Machine.execSipw d m s
  | .sipp d m => Sys2Proof.Machine.execSipp d m s
  | .sipr d m => Sys2Proof.Machine.execSipr d m s
  | .sipf m => Sys2Proof.Machine.execSipf m s
  | .sipi d m => Sys2Proof.Machine.execSipi d m s
  | .send k a b => Sys2Proof.Machine.execSend k a b s
  | .krd d k => Sys2Proof.Machine.execKrd d k s
  | .ktst d k => Sys2Proof.Machine.execKtst d k s
  | .launch d a b c e => Sys2Proof.Machine.execLaunch d a b c e s
  | .claunch d a => Sys2Proof.Machine.execClaunch d a s
  | .lwait a => Sys2Proof.Machine.execLwait a s
  | .bar level settle => Sys2Proof.Machine.execBar level settle s
  | .barrierSettle crew level group => Sys2Proof.Machine.execBarrierSettle crew level group s
  | .barrierComplete crew level group => Sys2Proof.Machine.execBarrierComplete crew level group s
  | .semp n => Sys2Proof.Machine.execSemp n s
  | .semv n => Sys2Proof.Machine.execSemv n s
  | .semrd d n => Sys2Proof.Machine.execSemrd d n s
  | .semset n a => Sys2Proof.Machine.execSemset n a s
  | .ebind e => Sys2Proof.Machine.execEbind e s
  | .efree e => Sys2Proof.Machine.execEfree e s
  | .mpost a off => Sys2Proof.Machine.execMpost a off s
  | .vpost a off => Sys2Proof.Machine.execVpost a off s
  | .cpost d a off => Sys2Proof.Machine.execCpost d a off s
  | .esync mask => Sys2Proof.Machine.execEsync mask s
  | .esaveM a off => Sys2Proof.Machine.execEsaveM a off s
  | .esaveV a off => Sys2Proof.Machine.execEsaveV a off s
  | .esaveC a off => Sys2Proof.Machine.execEsaveC a off s
  | .erestoreM a off => Sys2Proof.Machine.execErestoreM a off s
  | .erestoreV a off => Sys2Proof.Machine.execErestoreV a off s
  | .erestoreC a off => Sys2Proof.Machine.execErestoreC a off s
  | .fabricWritePacket flow window offset data poisoned => Sys2Proof.Machine.execFabricWritePacket flow window offset data poisoned s
  | .apertureWrite m offset data => Sys2Proof.Machine.execApertureWrite m offset data s
  | .cmake d a b => Sys2Proof.Machine.execCmake d a b s
  | .catt d a b => Sys2Proof.Machine.execCatt d a b s
  | .cdet a b => Sys2Proof.Machine.execCdet a b s
  | .cdrop a => Sys2Proof.Machine.execCdrop a s
  | .cqry d a => Sys2Proof.Machine.execCqry d a s
  | .cevt a => Sys2Proof.Machine.execCevt a s
  | .falloc d a => Sys2Proof.Machine.execFalloc d a s
  | .fcall a b c => Sys2Proof.Machine.execFcall a b c s
  | .fwait d a evict => Sys2Proof.Machine.execFwait d a evict s
  | .fpoll d a => Sys2Proof.Machine.execFpoll d a s
  | .fput d a b => Sys2Proof.Machine.execFput d a b s
  | .fcan d a => Sys2Proof.Machine.execFcan d a s
  | .hfutTake rd rs1 => Sys2Proof.Machine.execHfutTake rd rs1 s
  | .hfutPut rd rs1 rs2 => Sys2Proof.Machine.execHfutPut rd rs1 rs2 s
  | .hfutPoll rd rs1 => Sys2Proof.Machine.execHfutPoll rd rs1 s
  | .hfutFail rd rs1 rs2 => Sys2Proof.Machine.execHfutFail rd rs1 rs2 s
  | .remoteCallMessage flow handle deadline rtool arg => Sys2Proof.Machine.execRemoteCallMessage flow handle deadline rtool arg s
  | .remoteReplyMessage flow handle reply => Sys2Proof.Machine.execRemoteReplyMessage flow handle reply s
  | .remoteFailMessage flow handle reason => Sys2Proof.Machine.execRemoteFailMessage flow handle reason s
  | .remoteCancelMessage flow handle => Sys2Proof.Machine.execRemoteCancelMessage flow handle s
  | .ctlr d n => Sys2Proof.Machine.execCtlr d n s
  | .ctlw a n => Sys2Proof.Machine.execCtlw a n s
  | .ctls d a n => Sys2Proof.Machine.execCtls d a n s
  | .ctlc d a n => Sys2Proof.Machine.execCtlc d a n s
  | .trap code => Sys2Proof.Machine.execTrap code s
  | .haltKeep a => Sys2Proof.Machine.execHaltKeep a s
  | .heartbeatLostMessage sc crew => Sys2Proof.Machine.execHeartbeatLostMessage sc crew s
  | .rdgtc d => Sys2Proof.Machine.execRdgtc d s
  | .waitt d a => Sys2Proof.Machine.execWaitt d a s
  | .tlbi a => Sys2Proof.Machine.execTlbi a s
  | .tlbiasid a => Sys2Proof.Machine.execTlbiasid a s
  | .tlbInvalidateReport sc slot agent => Sys2Proof.Machine.execTlbInvalidateReport sc slot agent s
  | .capld cap a => Sys2Proof.Machine.execCapld cap a s
  | .capst cap a => Sys2Proof.Machine.execCapst cap a s
  | .capclr cap => Sys2Proof.Machine.execCapclr cap s
  | .mthaw d a => Sys2Proof.Machine.execMthaw d a s
  | .mkill d a => Sys2Proof.Machine.execMkill d a s
  | .fsHeadWrite v => Sys2Proof.Machine.execFsHeadWrite v s
  | .verdictRetry seq => Sys2Proof.Machine.execVerdictRetry seq s
  | .verdictFail seq reason => Sys2Proof.Machine.execVerdictFail seq reason s
  | .pageUnpin sc crew page => Sys2Proof.Machine.execPageUnpin sc crew page s
  | .pageParked sc crew page => Sys2Proof.Machine.execPageParked sc crew page s
  | .pageRefillComplete sc crew page => Sys2Proof.Machine.execPageRefillComplete sc crew page s
  | .harvestResume shell => Sys2Proof.Machine.execHarvestResume shell s
  | .queueWindowWrite q data => Sys2Proof.Machine.execQueueWindowWrite q data s
  | .queueDisable q => Sys2Proof.Machine.execQueueDisable q s
  | .queueEnable q => Sys2Proof.Machine.execQueueEnable q s
  | .crewCommitArrival crew sc => Sys2Proof.Machine.execCrewCommitArrival crew sc s
  | .markerPacket q => Sys2Proof.Machine.execMarkerPacket q s
  | .taskComplete crew => Sys2Proof.Machine.execTaskComplete crew s
  | .hsHeadWrite v => Sys2Proof.Machine.execHsHeadWrite v s
  | .preemptPacket q => Sys2Proof.Machine.execPreemptPacket q s
  | .crewDrainComplete crew => Sys2Proof.Machine.execCrewDrainComplete crew s
  | .resumePacket q => Sys2Proof.Machine.execResumePacket q s
  | .coxFailure shell => Sys2Proof.Machine.execCoxFailure shell s
  | .shellReturnToService shell => Sys2Proof.Machine.execShellReturnToService shell s
  | .uncorrectableError site => Sys2Proof.Machine.execUncorrectableError site s
  | .correctableError die => Sys2Proof.Machine.execCorrectableError die s
  | .cohRead node line inc => Sys2Proof.Machine.execCohRead node line inc s
  | .cohWrite node line inc => Sys2Proof.Machine.execCohWrite node line inc s
  | .cohForward node req line write => Sys2Proof.Machine.execCohForward node req line write s
  | .cohInvalidateHop node req line => Sys2Proof.Machine.execCohInvalidateHop node req line s
  | .cohInvalidateAck req line sender inc => Sys2Proof.Machine.execCohInvalidateAck req line sender inc s
  | .cohCompletionReport node line inc => Sys2Proof.Machine.execCohCompletionReport node line inc s
  | .cohEvict node line => Sys2Proof.Machine.execCohEvict node line s
  | .cohUnlink dst line sender inc side link => Sys2Proof.Machine.execCohUnlink dst line sender inc side link s
  | .cohWriteback node line inc => Sys2Proof.Machine.execCohWriteback node line inc s
  | .cohWritebackAck node line => Sys2Proof.Machine.execCohWritebackAck node line s
  | .agentDeathSweep node => Sys2Proof.Machine.execAgentDeathSweep node s
  | .agentRetire node => Sys2Proof.Machine.execAgentRetire node s
  | .memcapWrite v => Sys2Proof.Machine.execMemcapWrite v s
  | .retire f => Sys2Proof.Machine.execRetire f s
  | .hbmRequestReplay pa phase chunk => Sys2Proof.Machine.execHbmRequestReplay pa phase chunk s
  | .gtcStep v => Sys2Proof.Machine.execGtcStep v s
  | .powerThrottle watts temps => Sys2Proof.Machine.execPowerThrottle watts temps s
  | .thermalTrip die => Sys2Proof.Machine.execThermalTrip die s
  | .inspectionWindowWrite off v => Sys2Proof.Machine.execInspectionWindowWrite off v s
  | .registerWrite off v => Sys2Proof.Machine.execRegisterWrite off v s
  | .hartInterrupt h => Sys2Proof.Machine.execHartInterrupt h s
  | .hartAccess h kind va size => Sys2Proof.Machine.execHartAccess h kind va size s
  | .supervisorFreezeMessage crew copy slot sc => Sys2Proof.Machine.execSupervisorFreezeMessage crew copy slot sc s
  | .ptpEventMessage port => Sys2Proof.Machine.execPtpEventMessage port s
  | .divideComplete => Sys2Proof.Machine.execDivideComplete s
  | .atomicAtHome => Sys2Proof.Machine.execAtomicAtHome s
  | .depositSpill => Sys2Proof.Machine.execDepositSpill s
  | .scratchpadAccessArrival => Sys2Proof.Machine.execScratchpadAccessArrival s
  | .accessResponse => Sys2Proof.Machine.execAccessResponse s
  | .sendDelivery => Sys2Proof.Machine.execSendDelivery s
  | .sendReport => Sys2Proof.Machine.execSendReport s
  | .activeMessageArrival => Sys2Proof.Machine.execActiveMessageArrival s
  | .launchStatusReturn => Sys2Proof.Machine.execLaunchStatusReturn s
  | .contextStart => Sys2Proof.Machine.execContextStart s
  | .scrubComplete => Sys2Proof.Machine.execScrubComplete s
  | .commandStart => Sys2Proof.Machine.execCommandStart s
  | .sequencerUnitIssue => Sys2Proof.Machine.execSequencerUnitIssue s
  | .commandComplete => Sys2Proof.Machine.execCommandComplete s
  | .vadd => Sys2Proof.Machine.execVadd s
  | .vsub => Sys2Proof.Machine.execVsub s
  | .vmul => Sys2Proof.Machine.execVmul s
  | .vdiv => Sys2Proof.Machine.execVdiv s
  | .vfma => Sys2Proof.Machine.execVfma s
  | .vmin => Sys2Proof.Machine.execVmin s
  | .vmax => Sys2Proof.Machine.execVmax s
  | .vabs => Sys2Proof.Machine.execVabs s
  | .vneg => Sys2Proof.Machine.execVneg s
  | .vsqrt => Sys2Proof.Machine.execVsqrt s
  | .vrcp => Sys2Proof.Machine.execVrcp s
  | .vscalb => Sys2Proof.Machine.execVscalb s
  | .vrint => Sys2Proof.Machine.execVrint s
  | .vand => Sys2Proof.Machine.execVand s
  | .vor => Sys2Proof.Machine.execVor s
  | .vxor => Sys2Proof.Machine.execVxor s
  | .vandn => Sys2Proof.Machine.execVandn s
  | .vshl => Sys2Proof.Machine.execVshl s
  | .vshr => Sys2Proof.Machine.execVshr s
  | .vsra => Sys2Proof.Machine.execVsra s
  | .vcnt => Sys2Proof.Machine.execVcnt s
  | .vceq => Sys2Proof.Machine.execVceq s
  | .vclt => Sys2Proof.Machine.execVclt s
  | .vcle => Sys2Proof.Machine.execVcle s
  | .vsel => Sys2Proof.Machine.execVsel s
  | .vcvt => Sys2Proof.Machine.execVcvt s
  | .vexp => Sys2Proof.Machine.execVexp s
  | .vexp2 => Sys2Proof.Machine.execVexp2 s
  | .vlog => Sys2Proof.Machine.execVlog s
  | .vlog2 => Sys2Proof.Machine.execVlog2 s
  | .vsin => Sys2Proof.Machine.execVsin s
  | .vcos => Sys2Proof.Machine.execVcos s
  | .vtanh => Sys2Proof.Machine.execVtanh s
  | .vrsqrt => Sys2Proof.Machine.execVrsqrt s
  | .vsigm => Sys2Proof.Machine.execVsigm s
  | .vrsum => Sys2Proof.Machine.execVrsum s
  | .vrmin => Sys2Proof.Machine.execVrmin s
  | .vrmax => Sys2Proof.Machine.execVrmax s
  | .vrand => Sys2Proof.Machine.execVrand s
  | .vror => Sys2Proof.Machine.execVror s
  | .vrxor => Sys2Proof.Machine.execVrxor s
  | .vbfly => Sys2Proof.Machine.execVbfly s
  | .vtwid => Sys2Proof.Machine.execVtwid s
  | .vcmul => Sys2Proof.Machine.execVcmul s
  | .vunp3 => Sys2Proof.Machine.execVunp3 s
  | .viota => Sys2Proof.Machine.execViota s
  | .ccopy => Sys2Proof.Machine.execCcopy s
  | .cgath => Sys2Proof.Machine.execCgath s
  | .cscat => Sys2Proof.Machine.execCscat s
  | .cclr => Sys2Proof.Machine.execCclr s
  | .csetf => Sys2Proof.Machine.execCsetf s
  | .csipw => Sys2Proof.Machine.execCsipw s
  | .csipr => Sys2Proof.Machine.execCsipr s
  | .cpref => Sys2Proof.Machine.execCpref s
  | .mmul => Sys2Proof.Machine.execMmul s
  | .mmuln => Sys2Proof.Machine.execMmuln s
  | .mlda => Sys2Proof.Machine.execMlda s
  | .mdrn => Sys2Proof.Machine.execMdrn s
  | .mdrnBypass => Sys2Proof.Machine.execMdrnBypass s
  | .madda => Sys2Proof.Machine.execMadda s
  | .mclr => Sys2Proof.Machine.execMclr s
  | .fabricWrite => Sys2Proof.Machine.execFabricWrite s
  | .fabricWriteAck => Sys2Proof.Machine.execFabricWriteAck s
  | .aperturePacketTimeout => Sys2Proof.Machine.execAperturePacketTimeout s
  | .chamberEvictComplete => Sys2Proof.Machine.execChamberEvictComplete s
  | .chamberRefillComplete => Sys2Proof.Machine.execChamberRefillComplete s
  | .chamberLeaseExpiry => Sys2Proof.Machine.execChamberLeaseExpiry s
  | .futureTimeout => Sys2Proof.Machine.execFutureTimeout s
  | .futureSlotInject => Sys2Proof.Machine.execFutureSlotInject s
  | .fwaitEvictResume => Sys2Proof.Machine.execFwaitEvictResume s
  | .futureEntryError => Sys2Proof.Machine.execFutureEntryError s
  | .keepRelease => Sys2Proof.Machine.execKeepRelease s
  | .keepTimeout => Sys2Proof.Machine.execKeepTimeout s
  | .rte => Sys2Proof.Machine.execRte s
  | .halt => Sys2Proof.Machine.execHalt s
  | .beat => Sys2Proof.Machine.execBeat s
  | .heartbeatMissed => Sys2Proof.Machine.execHeartbeatMissed s
  | .waittDeadline => Sys2Proof.Machine.execWaittDeadline s
  | .tlbWalkComplete => Sys2Proof.Machine.execTlbWalkComplete s
  | .ifetchMissFill => Sys2Proof.Machine.execIfetchMissFill s
  | .faultRecordWrite => Sys2Proof.Machine.execFaultRecordWrite s
  | .revocation => Sys2Proof.Machine.execRevocation s
  | .revocationGrant => Sys2Proof.Machine.execRevocationGrant s
  | .harvestImageMove => Sys2Proof.Machine.execHarvestImageMove s
  | .harvestAdmission => Sys2Proof.Machine.execHarvestAdmission s
  | .launchUnitStart => Sys2Proof.Machine.execLaunchUnitStart s
  | .crewReservationRequest => Sys2Proof.Machine.execCrewReservationRequest s
  | .crewCommit => Sys2Proof.Machine.execCrewCommit s
  | .crewReservationWithdraw => Sys2Proof.Machine.execCrewReservationWithdraw s
  | .hostSignal => Sys2Proof.Machine.execHostSignal s
  | .preemptDiversion => Sys2Proof.Machine.execPreemptDiversion s
  | .vack => Sys2Proof.Machine.execVack s
  | .vacateComplete => Sys2Proof.Machine.execVacateComplete s
  | .swapChunk => Sys2Proof.Machine.execSwapChunk s
  | .compactChunk => Sys2Proof.Machine.execCompactChunk s
  | .reset => Sys2Proof.Machine.execReset s
  | .spdmRequest => Sys2Proof.Machine.execSpdmRequest s
  | .scullUnfence => Sys2Proof.Machine.execScullUnfence s
  | .futureTableRequest => Sys2Proof.Machine.execFutureTableRequest s
  | .chamberDirectoryRequest => Sys2Proof.Machine.execChamberDirectoryRequest s

end Sys2Proof.Machine
end

