-- ==== Sys2Proof/Machine/Step.lean ====
section
/-! DEFINITION. One step of the machine (log 1): a step that has come due, else the next context's issue in this cycle (R24, R25), else a
running tool hart's instruction (R374), else the next cycle. And how a word is placed where step fetches it. -/

namespace Sys2Proof.Machine

/-- The issue of a context: its fetch, then the instruction it fetched. -/
def issueStep (s : State) (sc : ScullId) (slot : Slot) : Result :=
  match fetchFor (markIssue s sc slot) sc slot with
  | .done s => .next s
  | .run s i => exec i s

/-- A tool hart's fetch, then the hart future instruction it fetched; a word that the spec gives no meaning is refused (R371). -/
def hartStep (s : State) (h : HartId) : Result :=
  match hartFetch s h with
  | .done s => .next s
  | .run s i => exec i s
  | .other w => .refused (.hartInstruction w)

/-- One step. After the fatal coherence error of R347 there is none. -/
def step (s : State) : Host.Outcome State Fault Refusal :=
  if s.fatal then .fault .fatalCoherence
  else match takeDue s with
    | some (i, s) => exec i s
    | none => match nextIssue s with
      | some (sc, slot) => issueStep s sc slot
      | none => match nextHart s with
        | some h => hartStep s h
        | none => .next (tick s)

/-! ### Placing a word (log 1) -/

/-- Where the word is placed: an LPDDR address. -/
def wordPlace : Nat := 0x100000

/-- A capability of domain 0 that grants fetches from the page of the word (R43). -/
def fetchCap : BitVec 128 := (0x1000 : BitVec 64) ++ (0x8004000000100000 : BitVec 64)

/-- A READY context in slot 0 of scull 64, alone in crew 1, with every register and engine, its pc at the word. -/
def wordContext : Ctx :=
  { Ctx.absent with
    st := .ready
    size := 128
    hdr := { frm := 0, rgn := 16, cls := .owner, em := true, ev := true, ec := true }
    crew := 1
    pc := BitVec.ofNat 64 wordPlace
    caps := [(0, fetchCap)]
    prv := true
    armed := true }

/-- The page of the word, mapped to itself. -/
def wordPage : TlbEntry :=
  { vpn := wordPlace / 4096, level := 0, ppn := wordPlace / 4096, r := true, w := true, x := true, u := true, glob := true, dirty := true,
    asid := 0, slot := 0, used := 0 }

/-- A 64-bit word placed for a context's fetch: the context and its crew, its page in the TLB, its line in the cache, no accepted store over it, its
turn. -/
def State.withContextWord (s : State) (w : Nat) : State :=
  let a := agentOf s (shellNode 64)
  let s := globalWrite (setAgent s (shellNode 64) { a with stores := a.stores.filter fun t => lineOf t.pa != lineOf wordPlace }) wordPlace 8 w
  let x := { scullOf s 64 with
    fenced := false
    ownerLast := 63
    tlb := tabSet (scullOf s 64).tlb 0 wordPage
    icache := setAdd (scullOf s 64).icache (wordPlace / 64) }
  let s := setCrew (setCtx (setScull s 64 x) 64 0 wordContext) 1 { Crew.none with members := [64] }
  { s with agenda := [], turn := 64, fatal := false }

/-- A 32-bit word placed for hart 0's fetch. -/
def State.withHartWord (s : State) (w : Nat) : State :=
  let s := globalWrite s wordPlace 4 w
  let s := setHart s 0 { Hart.reset with pc := BitVec.ofNat 64 wordPlace, caps := [(0, fetchCap)], st := .running }
  { s with agenda := [], turn := 2048, fatal := false }

/-- s with an instruction where step fetches next: a word of 32 bits for a tool hart, of 64 for a context. -/
def State.withFetchWord (s : State) (nbits w : Nat) : State :=
  if nbits ≤ 32 then s.withHartWord w else s.withContextWord w

end Sys2Proof.Machine
end

