-- ==== Sys2Proof/Safety.lean ====
section
/-! DEFINITION. The terms claims are made in: when an instruction issues with nothing in its way, what a step may leave unchanged, and the
invariant of the machine's memory. -/

namespace Sys2Proof.Machine

/-- The instruction of a context passes the checks of R56 steps 2 and 3 and of R154 and R332 that come before its own: its registers lie
within the limit, the view permits it, no outstanding overlap load holds one of its registers, and no source is poisoned. -/
def Issues (s : State) (sc : ScullId) (slot : Slot) (reads writes : List Reg) (privileged : Bool) : Prop :=
  s.actor = .context sc slot
  ∧ (reads ++ writes).all (regInLimit (ctxOf s sc slot)) = true
  ∧ (privileged = true → (ctxOf s sc slot).prv = true)
  ∧ mustWaitOverlap s (ctxOf s sc slot) (reads ++ writes) = false
  ∧ poisonedReg (ctxOf s sc slot) reads = none

/-- The instruction completes with a value in gd of which P holds, pc at the next word (R24), and nothing else changed. -/
def Gives (s : State) (sc : ScullId) (slot : Slot) (i : Instr) (d : Reg) (P : Word → Prop) : Prop :=
  ∃ v, exec i s = .next (finishReg s sc slot (ctxOf s sc slot) d v) ∧ P v

/-- A scalar floating-point instruction ends as R100 says, with a result and a set of flags of which P holds: the flags stick, and an
enabled one takes the FP trap with gd not written. -/
def FpEnds (s : State) (sc : ScullId) (slot : Slot) (i : Instr) (d : Reg) (P : Word → BitVec 5 → Prop) : Prop :=
  let c := ctxOf s sc slot
  ∃ v e, P v e ∧
    let c' := { c with fflags := c.fflags ||| e.setWidth 6 }
    (e &&& c.fen = 0 → exec i s = .next (finishReg s sc slot c' d v))
    ∧ (e &&& c.fen ≠ 0 →
      exec i s = .next (takeTrap (setCtx s sc slot c') sc slot { code := 0x05, aux := 0, tval := e.setWidth 64 } c.pc))

/-! The instructions that read and write registers alone, by how many they name: gd, ga and gb; gd and ga; gd, ga, gb and gc. -/

def threeRegisters (d a b : Reg) (p : Prec) (rm : Rounding) : List Instr :=
  [.add d a b, .sub d a b, .adds d a b, .subs d a b, .addw d a b, .subw d a b, .min d a b, .max d a b, .minu d a b, .maxu d a b,
    .mul d a b, .mulh d a b, .mulhu d a b, .mulhsu d a b, .mulw d a b, .div d a b, .divu d a b, .rem d a b, .remu d a b, .divw d a b,
    .divuw d a b, .and d a b, .or d a b, .xor d a b, .andn d a b, .orn d a b, .xnor d a b, .sll d a b, .srl d a b, .sra d a b,
    .rol d a b, .ror d a b, .mkcore d a b, .slt d a b, .sltu d a b, .seq d a b, .sne d a b, .fadd d a b p rm, .fsub d a b p rm,
    .fmul d a b p rm, .fdiv d a b p rm, .fmin d a b p, .fmax d a b p, .feq d a b p, .flt d a b p, .fle d a b p]

def twoRegisters (d a : Reg) (p : Prec) (rm : Rounding) (k : BitVec 36) (n : BitVec 6) : List Instr :=
  [.addi d a k, .addwi d a k, .andi d a k, .ori d a k, .xori d a k, .slti d a k, .sltui d a k, .seqi d a k, .slli d a n, .srli d a n,
    .srai d a n, .rori d a n, .abs d a, .clz d a, .ctz d a, .popc d a, .brev d a, .bswap d a, .sextb d a, .sextq d a, .sexth d a,
    .zextb d a, .zextq d a, .zexth d a, .jlr d a k, .waitt d a, .fsqrt d a p rm, .fabs d a p, .fneg d a p, .fclass d a p,
    .fcvtff d a p rm, .fcvtfi d a p rm, .fcvtfu d a p rm, .fcvtif d a p rm, .fcvtuf d a p rm]

def fourRegisters (d a b g : Reg) (p : Prec) (rm : Rounding) : List Instr :=
  [.sel d a b g, .fma d a b g p rm, .fms d a b g p rm, .fnma d a b g p rm, .fnms d a b g p rm]

/-- The state with the context of a slot replaced: what an instruction that changes its own context alone leaves. -/
def OnlyContext (s t : State) (sc : ScullId) (slot : Slot) : Prop := t = setCtx s sc slot (ctxOf t sc slot)

/-- Every check of R149 of an access of n bytes passes, and it goes on at place p from state u (a translation may have used the TLB). -/
def Passes (s u : State) (sc : ScullId) (slot : Slot) (m : MemRef) (n : Nat) (kind : AccessKind) (need : Rights) (p : Place) : Prop :=
  ∀ k, checkAccess s sc slot (ctxOf s sc slot) m (effAddr (ctxOf s sc slot) m n) n n kind need k = k u p

/-- An access leaves its context: it is outstanding under a new number, the context waits for it, its mask of touched banks takes the place
in, and it is on its way to its bank or to the shell L2. -/
def accessLeft (u : State) (a : Access) : State :=
  let c := touch u a.sc (ctxOf u a.sc a.slot) a.place
  postOut (park (addItem u (.access a)) a.sc a.slot c (.access u.nextId)) u.nextId a

/-- The same for an overlap access: the instruction completes, and its context goes on with one more access outstanding. -/
def overlapLeft (u : State) (a : Access) : State :=
  let c := touch u a.sc (ctxOf u a.sc a.slot) a.place
  postOut (finish (addItem u (.access a)) a.sc a.slot { c with overlap := c.overlap ++ [u.nextId] }) u.nextId a

/-- An instruction has acted at its word and left state t: its context waits for the answer, which is on its way (R164). -/
def wordAnswered (u t : State) (sc : ScullId) (slot : Slot) (w : WordOp) (p : Place) (ea : Word) (d : Reg) (phase : AccessPhase) : State :=
  answerLater t sc slot (newAccess u sc slot (ctxOf u sc slot) (.word w) p ea 8 .plain false d .plain) phase

/-- The canonical form of the memory behind the caches. -/
def Canonical (s : State) : Prop := Memory.wf s.memory = true

/-- The 64-bit words of a request block are read by loads of 8 bytes that all pass their checks (R149, R399), and the state goes on as u. -/
def ReadsBlock (s u : State) (sc : ScullId) (slot : Slot) (a : Word) (n : Nat) (l : List Word) : Prop :=
  ∀ k, readBlock sc slot a n [] k s = k u l

/-- The word before an entry is fetched through every check of R15, and the state goes on as u. -/
def ReadsHeader (s u : State) (sc : ScullId) (slot : Slot) (entry w : Word) : Prop :=
  ∀ k, withHeader s sc slot (ctxOf s sc slot) entry k = k u w

/-- The one element that an operation's engine has in flight, d, with its accesses' places: nothing is waited for or owed. -/
def OneElement (s : State) (sc : ScullId) (slot : Slot) (e : EngineId) (op : Instr) (work : Engine → Command → Work) (cmd : Command)
    (d : Ready) : Prop :=
  engineHead s e op = some (sc, slot, cmd) ∧ aheadElems (engineOf s sc e) = []
    ∧ prepareFlight s sc e (ctxOf s sc slot) cmd (work (engineOf s sc e) cmd) = { s := s, ready := [d], stalled := [], snag := none }

/-- The engine as an element performs on it: the indices that the element has read are kept. -/
def elementEngine (s : State) (sc : ScullId) (e : EngineId) (d : Ready) : Engine := keepIndices (engineOf s sc e) s sc [d]

/-- The state after the element has performed and left t: it leaves its unit, its F events follow, and the rest of the work is posted. -/
def elementLeft (s t : State) (sc : ScullId) (slot : Slot) (e : EngineId) (op : Instr) (work : Engine → Command → Work) (cmd : Command)
    (d : Ready) : State :=
  afterElements t sc e op (ctxOf s sc slot) cmd (work (engineOf t sc e) cmd) [d]

/-- The state after the element: the engine is x and the values have reached the element's destinations. -/
def elementDone (s : State) (sc : ScullId) (slot : Slot) (e : EngineId) (op : Instr) (work : Engine → Command → Work) (cmd : Command)
    (d : Ready) (x : Engine) (values : List Nat) : State :=
  elementLeft s (writeAll sc (setEngine s sc e x) (d.parts.filter fun p => p.1.write) values) sc slot e op work cmd d

/-- The values an element's sources hold, in order. -/
def sourceValues (s : State) (sc : ScullId) (d : Ready) : List Nat :=
  (d.parts.filter fun p => !p.1.write).map fun p => readReach s sc p.2 p.1.size

/-- What a vector operation writes and the engine after it, for an element's number and sources. -/
def VectorGives (s : State) (op : Instr) (f : Command → Engine → Nat → List Nat → Engine × List Nat) : Prop :=
  ∀ sc slot cmd d, OneElement s sc slot .vector op vectorWork cmd d → (engineOf s sc .vector).widePoison = [] →
    let r := f cmd (elementEngine s sc .vector d) d.n (sourceValues s sc d)
    exec op s = .next (elementDone s sc slot .vector op vectorWork cmd d r.1 r.2)

/-- A step is on the agenda. -/
def Posted (s : State) (a : Actor) (i : Instr) : Prop := ∃ e ∈ s.agenda, e.actor = a ∧ e.instr = i

/-- Writes of PCIe function 0 go on: the package has booted, none is held, the function is not frozen (R330, R390, R394). -/
def HostOpen (s : State) : Prop := barOpen s = true ∧ s.host.requests = [] ∧ setHas s.host.frozen 0 = false

end Sys2Proof.Machine
end

