-- ==== Sys2Proof/Certificates/Slice0/Obligations.lean ====
section
/-! DEFINITION. The statements for the provers, listed in OBLIGATIONS.json. A statement of several parts is their conjunction; its parts are the
Props of Sys2Proof.Parts, each with the rules it is about. -/

open Sys2Proof Sys2Proof.Machine

/-! ### Integer instructions (R78 to R90) -/

/-- R78, with R42 for g0: the three-register integer instructions write their table's result to gd and complete. -/
def Sys2Proof.Parts.IntegerResults : Prop :=
  ∀ (s : State) (sc : ScullId) (slot : Slot) (d a b : Reg), Issues s sc slot [a, b] [d] false →
    let x := readReg (ctxOf s sc slot) a
    let y := readReg (ctxOf s sc slot) b
    Gives s sc slot (.add d a b) d (fun v => v.toNat = (x.toNat + y.toNat) % 2 ^ 64)
    ∧ Gives s sc slot (.sub d a b) d (fun v => v = x - y)
    ∧ Gives s sc slot (.addw d a b) d (fun v => v = ((x + y).setWidth 32).signExtend 64)
    ∧ Gives s sc slot (.subw d a b) d (fun v => v = ((x - y).setWidth 32).signExtend 64)
    ∧ Gives s sc slot (.min d a b) d (fun v => v.toInt = Min.min x.toInt y.toInt)
    ∧ Gives s sc slot (.max d a b) d (fun v => v.toInt = Max.max x.toInt y.toInt)
    ∧ Gives s sc slot (.minu d a b) d (fun v => v.toNat = Min.min x.toNat y.toNat)
    ∧ Gives s sc slot (.maxu d a b) d (fun v => v.toNat = Max.max x.toNat y.toNat)
    ∧ Gives s sc slot (.mul d a b) d (fun v => v.toNat = x.toNat * y.toNat % 2 ^ 64)
    ∧ Gives s sc slot (.mulh d a b) d (fun v => v.toInt = x.toInt * y.toInt / 2 ^ 64)
    ∧ Gives s sc slot (.mulhu d a b) d (fun v => v.toNat = x.toNat * y.toNat / 2 ^ 64)
    ∧ Gives s sc slot (.mulhsu d a b) d (fun v => v.toInt = x.toInt * (y.toNat : Int) / 2 ^ 64)
    ∧ Gives s sc slot (.mulw d a b) d (fun v => v = (x.setWidth 32 * y.setWidth 32).signExtend 64)
    ∧ Gives s sc slot (.and d a b) d (fun v => ∀ i, v.getLsbD i = (x.getLsbD i && y.getLsbD i))
    ∧ Gives s sc slot (.or d a b) d (fun v => ∀ i, v.getLsbD i = (x.getLsbD i || y.getLsbD i))
    ∧ Gives s sc slot (.xor d a b) d (fun v => ∀ i, v.getLsbD i = (x.getLsbD i != y.getLsbD i))
    ∧ Gives s sc slot (.andn d a b) d (fun v => ∀ i < 64, v.getLsbD i = (x.getLsbD i && !y.getLsbD i))
    ∧ Gives s sc slot (.orn d a b) d (fun v => ∀ i < 64, v.getLsbD i = (x.getLsbD i || !y.getLsbD i))
    ∧ Gives s sc slot (.xnor d a b) d (fun v => ∀ i < 64, v.getLsbD i = (x.getLsbD i == y.getLsbD i))

/-- R79: ADDS and SUBS write the exact signed result, or the nearer bound with CTX.FFLAGS.SAT (bit 5) set; SAT is sticky. -/
def Sys2Proof.Parts.SaturatingSums : Prop :=
  ∀ (s : State) (sc : ScullId) (slot : Slot) (d a b : Reg), Issues s sc slot [a, b] [d] false →
    let c := ctxOf s sc slot
    let clamp := fun (z : Int) => Max.max (-(2 ^ 63)) (Min.min z (2 ^ 63 - 1))
    let ends := fun (i : Instr) (z : Int) => ∃ v : Word, v.toInt = clamp z
      ∧ exec i s = .next (finishReg s sc slot (if clamp z = z then c else { c with fflags := c.fflags ||| 0x20 }) d v)
    ends (.adds d a b) ((readReg c a).toInt + (readReg c b).toInt) ∧ ends (.subs d a b) ((readReg c a).toInt - (readReg c b).toInt)

/-- The three-register integer instructions write their results, ADDS and SUBS the nearer bound with SAT. -/
def Obligations.IntegerArithmetic : Prop :=
  Sys2Proof.Parts.IntegerResults ∧ Sys2Proof.Parts.SaturatingSums

/-- R80, R83: a shift or rotate uses the six low bits of its count, from gb or from the immediate. -/
def Sys2Proof.Parts.ShiftResults : Prop :=
  ∀ (s : State) (sc : ScullId) (slot : Slot) (d a b : Reg) (n : BitVec 6),
    (Issues s sc slot [a, b] [d] false →
      let x := readReg (ctxOf s sc slot) a
      let k := (readReg (ctxOf s sc slot) b).toNat % 64
      Gives s sc slot (.sll d a b) d (fun v => v.toNat = x.toNat * 2 ^ k % 2 ^ 64)
      ∧ Gives s sc slot (.srl d a b) d (fun v => v.toNat = x.toNat / 2 ^ k)
      ∧ Gives s sc slot (.sra d a b) d (fun v => v.toInt = x.toInt / 2 ^ k)
      ∧ Gives s sc slot (.rol d a b) d (fun v => ∀ i < 64, v.getLsbD ((i + k) % 64) = x.getLsbD i)
      ∧ Gives s sc slot (.ror d a b) d (fun v => ∀ i < 64, v.getLsbD i = x.getLsbD ((i + k) % 64)))
    ∧ (Issues s sc slot [a] [d] false →
      let x := readReg (ctxOf s sc slot) a
      Gives s sc slot (.slli d a n) d (fun v => v.toNat = x.toNat * 2 ^ n.toNat % 2 ^ 64)
      ∧ Gives s sc slot (.srli d a n) d (fun v => v.toNat = x.toNat / 2 ^ n.toNat)
      ∧ Gives s sc slot (.srai d a n) d (fun v => v.toInt = x.toInt / 2 ^ n.toNat)
      ∧ Gives s sc slot (.rori d a n) d (fun v => ∀ i < 64, v.getLsbD i = x.getLsbD ((i + n.toNat) % 64)))

/-- R83, R85, R86, R88: immediates, constants, ADDPC and MKCORE. -/
def Sys2Proof.Parts.ImmediateResults : Prop :=
  ∀ (s : State) (sc : ScullId) (slot : Slot) (d a b : Reg) (k : BitVec 36) (l : BitVec 43) (h : BitVec 21),
    let c := ctxOf s sc slot
    let x := readReg c a
    (Issues s sc slot [a] [d] false →
      Gives s sc slot (.addi d a k) d (fun v => v = BitVec.ofInt 64 (x.toInt + k.toInt))
      ∧ Gives s sc slot (.addwi d a k) d (fun v => v = (BitVec.ofInt 32 (x.toInt + k.toInt)).signExtend 64)
      ∧ Gives s sc slot (.andi d a k) d (fun v => v = x &&& k.signExtend 64)
      ∧ Gives s sc slot (.ori d a k) d (fun v => v = x ||| k.signExtend 64)
      ∧ Gives s sc slot (.xori d a k) d (fun v => v = x ^^^ k.signExtend 64))
    ∧ (Issues s sc slot [] [d] false →
      Gives s sc slot (.movi d l) d (fun v => v.toInt = l.toInt)
      ∧ Gives s sc slot (.addpc d l) d (fun v => v = BitVec.ofInt 64 (c.pc.toInt + l.toInt)))
    ∧ (Issues s sc slot [d] [d] false →
      Gives s sc slot (.movhi d h) d (fun v => v.extractLsb' 43 21 = h ∧ v.setWidth 43 = (readReg c d).setWidth 43))
    ∧ (Issues s sc slot [a, b] [d] false →
      Gives s sc slot (.mkcore d a b) d (fun v => v.toNat = x.toNat % 2 ^ 11 * 2 ^ 40 + (readReg c b).toNat % 2 ^ 40))

/-- R84, R87: bit fields, and the unary bit instructions with ABS (R78). -/
def Sys2Proof.Parts.BitResults : Prop :=
  ∀ (s : State) (sc : ScullId) (slot : Slot) (d a : Reg) (p w : BitVec 6), p.toNat + w.toNat + 1 ≤ 64 →
    let c := ctxOf s sc slot
    let x := readReg c a
    (Issues s sc slot [a] [d] false →
      Gives s sc slot (.bfxu d a p w) d (fun v => ∀ i < 64, v.getLsbD i = (decide (i ≤ w.toNat) && x.getLsbD (p.toNat + i)))
      ∧ Gives s sc slot (.bfx d a p w) d (fun v => ∀ i < 64, v.getLsbD i = x.getLsbD (p.toNat + Min.min i w.toNat))
      ∧ Gives s sc slot (.abs d a) d (fun v => v.toNat = x.toInt.natAbs)
      ∧ Gives s sc slot (.clz d a) d (fun v => v.toNat ≤ 64 ∧ (∀ i < 64, 64 - v.toNat ≤ i → x.getLsbD i = false)
          ∧ (v.toNat < 64 → x.getLsbD (63 - v.toNat) = true))
      ∧ Gives s sc slot (.ctz d a) d (fun v => v.toNat ≤ 64 ∧ (∀ i < v.toNat, x.getLsbD i = false)
          ∧ (v.toNat < 64 → x.getLsbD v.toNat = true))
      ∧ Gives s sc slot (.popc d a) d (fun v => v.toNat = (List.range 64).countP fun i => x.getLsbD i)
      ∧ Gives s sc slot (.brev d a) d (fun v => ∀ i < 64, v.getLsbD i = x.getLsbD (63 - i))
      ∧ Gives s sc slot (.bswap d a) d (fun v => ∀ i < 8, v.extractLsb' (8 * i) 8 = x.extractLsb' (56 - 8 * i) 8)
      ∧ Gives s sc slot (.sextb d a) d (fun v => v = (x.setWidth 8).signExtend 64)
      ∧ Gives s sc slot (.sextq d a) d (fun v => v = (x.setWidth 16).signExtend 64)
      ∧ Gives s sc slot (.sexth d a) d (fun v => v = (x.setWidth 32).signExtend 64)
      ∧ Gives s sc slot (.zextb d a) d (fun v => v.toNat = x.toNat % 2 ^ 8)
      ∧ Gives s sc slot (.zextq d a) d (fun v => v.toNat = x.toNat % 2 ^ 16)
      ∧ Gives s sc slot (.zexth d a) d (fun v => v.toNat = x.toNat % 2 ^ 32))
    ∧ (Issues s sc slot [d, a] [d] false →
      Gives s sc slot (.bfi d a p w) d (fun v => ∀ i < 64, v.getLsbD i =
        if p.toNat ≤ i ∧ i ≤ p.toNat + w.toNat then x.getLsbD (i - p.toNat) else (readReg c d).getLsbD i))

/-- Shifts use six bits of the count; immediates, constants, bit fields and MKCORE write their results. -/
def Obligations.ShiftsBitsAndConstants : Prop :=
  Sys2Proof.Parts.ShiftResults ∧ Sys2Proof.Parts.ImmediateResults ∧ Sys2Proof.Parts.BitResults

/-- R81, R82: a division leaves its context WAITING with the result of R81, to be written 10 to 40 cycles later; the event of that time
writes it and makes the context READY. -/
def Sys2Proof.Parts.Divisions : Prop :=
  ∀ (s : State) (sc : ScullId) (slot : Slot) (d a b : Reg),
    let c := ctxOf s sc slot
    let x := readReg c a
    let y := readReg c b
    let starts := fun (i : Instr) (P : Word → Prop) => ∃ v n, P v ∧ 10 ≤ n ∧ n ≤ 40
      ∧ exec i s = .next (post (park s sc slot c (.divide d v)) n (.context sc slot) .divideComplete)
    let word := fun (z : BitVec 32) => z.signExtend 64
    (Issues s sc slot [a, b] [d] false →
      starts (.div d a b) (fun v => if y = 0 then v = -1 else v = BitVec.ofInt 64 (x.toInt.tdiv y.toInt))
      ∧ starts (.divu d a b) (fun v => if y = 0 then v = -1 else v.toNat = x.toNat / y.toNat)
      ∧ starts (.rem d a b) (fun v => if y = 0 then v = x else v = BitVec.ofInt 64 (x.toInt.tmod y.toInt))
      ∧ starts (.remu d a b) (fun v => if y = 0 then v = x else v.toNat = x.toNat % y.toNat)
      ∧ starts (.divw d a b) (fun v => if y.setWidth 32 = (0 : BitVec 32) then v = -1
          else v = word (BitVec.ofInt 32 ((x.setWidth 32).toInt.tdiv (y.setWidth 32).toInt)))
      ∧ starts (.divuw d a b) (fun v => if y.setWidth 32 = (0 : BitVec 32) then v = -1
          else v = word (BitVec.ofNat 32 ((x.setWidth 32).toNat / (y.setWidth 32).toNat))))
    ∧ (∀ v, s.actor = .context sc slot → c.st = .waiting (.divide d v) → c.back = none →
      exec .divideComplete s = .next (setCtx s sc slot { retire (writeReg c d v) with st := .ready }))

/-- R89, R90: the comparisons write 1 or 0, and SEL chooses by gc. -/
def Sys2Proof.Parts.CompareResults : Prop :=
  ∀ (s : State) (sc : ScullId) (slot : Slot) (d a b g : Reg) (k : BitVec 36),
    let c := ctxOf s sc slot
    let x := readReg c a
    let y := readReg c b
    let tells := fun (p : Prop) (v : Word) => (p → v = 1) ∧ (¬p → v = 0)
    (Issues s sc slot [a, b] [d] false →
      Gives s sc slot (.slt d a b) d (tells (x.toInt < y.toInt))
      ∧ Gives s sc slot (.sltu d a b) d (tells (x.toNat < y.toNat))
      ∧ Gives s sc slot (.seq d a b) d (tells (x = y))
      ∧ Gives s sc slot (.sne d a b) d (tells (x ≠ y)))
    ∧ (Issues s sc slot [a] [d] false →
      Gives s sc slot (.slti d a k) d (tells (x.toInt < k.toInt))
      ∧ Gives s sc slot (.sltui d a k) d (tells (x.toNat < (k.signExtend 64).toNat))
      ∧ Gives s sc slot (.seqi d a k) d (tells (x.toInt = k.toInt)))
    ∧ (Issues s sc slot [a, b, g] [d] false →
      Gives s sc slot (.sel d a b g) d (fun v => (readReg c g ≠ 0 → v = x) ∧ (readReg c g = 0 → v = y)))

/-- Divisions wait and write quotient or remainder; comparisons write 1 or 0; SEL chooses by gc. -/
def Obligations.DivisionsAndComparisons : Prop :=
  Sys2Proof.Parts.Divisions ∧ Sys2Proof.Parts.CompareResults

/-- R42, R331: what a completed register write leaves. The context advances to the next word, gd holds the value with its poison clear, g0
reads as zero whatever was written, and every other register, flag, special register and context, the engines, the scratchpads and every
byte of memory are as before. -/
def Obligations.RegisterWriteFrame : Prop :=
  ∀ (s : State) (sc : ScullId) (slot : Slot) (d : Reg) (v : Word),
    let c := ctxOf s sc slot
    let t := finishReg s sc slot c d v
    let c' := ctxOf t sc slot
    (∀ r, readReg c' r = if r = 0 then 0 else if r = d then v else readReg c r)
    ∧ (∀ r, r ≠ 0 → setHas c'.gPoison r.toNat = if r = d then false else setHas c.gPoison r.toNat)
    ∧ c' = { c with g := c'.g, gPoison := c'.gPoison, pc := c.pc + 8, icnt := c.icnt + 1 }
    ∧ OnlyContext s t sc slot
    ∧ (∀ sc' slot', ¬(sc' = sc ∧ slot' = slot) → ctxOf t sc' slot' = ctxOf s sc' slot')
    ∧ (∀ sc' x, memRead (scullOf t sc').data x = memRead (scullOf s sc').data x)
    ∧ (∀ pa, globalByte t pa = globalByte s pa)

/-! ### Transfer of control (R91, R92) -/

/-- R49, R91: B goes to its target when the condition holds, else to the next word; only pc changes, and the instruction is counted. -/
def Sys2Proof.Parts.Branches : Prop :=
  ∀ (s : State) (sc : ScullId) (slot : Slot) (cond : Cond) (a b : Reg) (off : BitVec 29), Issues s sc slot [a, b] [] false →
    let c := ctxOf s sc slot
    let x := readReg c a
    let y := readReg c b
    let taken := match cond with
      | .eq => x = y | .ne => x ≠ y | .lt => x.toInt < y.toInt | .ge => y.toInt ≤ x.toInt
      | .ltu => x.toNat < y.toNat | .geu => y.toNat ≤ x.toNat
    ∃ pc, exec (.b cond a b off) s = .next (setCtx s sc slot { c with pc := pc, icnt := c.icnt + 1 })
      ∧ (taken → pc = c.pc + off.signExtend 64 * 8) ∧ (¬taken → pc = c.pc + 8)

/-- R92: JL and JLR link and jump, from values read at issue; a JLR to an address that is no multiple of 8 takes the misaligned trap with
gd unchanged. -/
def Sys2Proof.Parts.Jumps : Prop :=
  ∀ (s : State) (sc : ScullId) (slot : Slot) (d a : Reg) (l : BitVec 43) (k : BitVec 36),
    let c := ctxOf s sc slot
    let target := readReg c a + k.signExtend 64
    let jumps := fun (i : Instr) (pc : Word) =>
      exec i s = .next (setCtx s sc slot { writeReg c d (c.pc + 8) with pc := pc, icnt := c.icnt + 1 })
    (Issues s sc slot [] [d] false → jumps (.jl d l) (c.pc + l.signExtend 64 * 8))
    ∧ (Issues s sc slot [a] [d] false →
      (target.toNat % 8 = 0 → jumps (.jlr d a k) target)
      ∧ (target.toNat % 8 ≠ 0 →
        exec (.jlr d a k) s = .next (takeTrap s sc slot { code := 0x03, aux := 0, tval := target } c.pc)))


/-- B, JL and JLR set pc and link from the values read at issue. -/
def Obligations.BranchesAndJumps : Prop :=
  Sys2Proof.Parts.Branches ∧ Sys2Proof.Parts.Jumps

/-! ### Scalar floating point (R94 to R100) -/

/-- R95, R100: the arithmetic instructions round the exact result once and end as R100 says. -/
def Sys2Proof.Parts.FloatArithmetic : Prop :=
  ∀ (s : State) (sc : ScullId) (slot : Slot) (d a b g : Reg) (p : Prec) (rm : Rounding),
    let x := fpOperand p (readReg (ctxOf s sc slot) a)
    let y := fpOperand p (readReg (ctxOf s sc slot) b)
    let z := fpOperand p (readReg (ctxOf s sc slot) g)
    let rounds := fun (i : Instr) (o : FOut) => FpEnds s sc slot i d fun v e => (v, e) = delivered p rm o
    (Issues s sc slot [a, b] [d] false →
      rounds (.fadd d a b p rm) (fpAdd rm x y) ∧ rounds (.fsub d a b p rm) (fpAdd rm x y.flip)
      ∧ rounds (.fmul d a b p rm) (fpMul x y) ∧ rounds (.fdiv d a b p rm) (fpDiv x y))
    ∧ (Issues s sc slot [a] [d] false → rounds (.fsqrt d a p rm) (fpSqrt x))
    ∧ (Issues s sc slot [a, b, g] [d] false →
      rounds (.fma d a b g p rm) (fpFma rm x y z) ∧ rounds (.fms d a b g p rm) (fpFma rm x y z.flip)
      ∧ rounds (.fnma d a b g p rm) (fpFma rm x.flip y z.flip) ∧ rounds (.fnms d a b g p rm) (fpFma rm x.flip y z))

/-- R95, R94: a finite nonzero value divided by zero gives an infinity of the right sign and DZ; an infinity times zero gives the canonical
NaN and NV, in FMUL and in FMA whatever the addend. -/
def Sys2Proof.Parts.FloatSpecialCases : Prop :=
  ∀ (s : State) (sc : ScullId) (slot : Slot) (d a b g : Reg) (p : Prec) (rm : Rounding) (n m w : Bool) (k : Nat) (e f : Int),
    let x := fpOperand p (readReg (ctxOf s sc slot) a)
    let y := fpOperand p (readReg (ctxOf s sc slot) b)
    let nan : Word := match p with | .d => 0x7FF8000000000000 | .s => 0x7FC00000
    let infinity : Bool → Word := fun neg => match p, neg with
      | .d, false => 0x7FF0000000000000 | .d, true => 0xFFF0000000000000 | .s, false => 0x7F800000 | .s, true => 0xFF800000
    (Issues s sc slot [a, b] [d] false →
      (x = .fin n k e → k ≠ 0 → y = .fin m 0 f →
        FpEnds s sc slot (.fdiv d a b p rm) d fun v fl => v = infinity (n != m) ∧ fl = 0x08)
      ∧ (x = .inf w → y = .fin m 0 f → FpEnds s sc slot (.fmul d a b p rm) d fun v fl => v = nan ∧ fl = 0x10))
    ∧ (Issues s sc slot [a, b, g] [d] false → x = .inf w → y = .fin m 0 f →
      FpEnds s sc slot (.fma d a b g p rm) d fun v fl => v = nan ∧ fl = 0x10)

/-- Scalar floating-point arithmetic rounds once and ends as its flags and traps say. -/
def Obligations.FloatingPointArithmetic : Prop :=
  Sys2Proof.Parts.FloatArithmetic ∧ Sys2Proof.Parts.FloatSpecialCases

/-- R96, R98, R99: minimum and maximum, with −0 below +0, the sign moves, the ten bits of the class mask, and the relations. -/
def Sys2Proof.Parts.FloatSelections : Prop :=
  ∀ (s : State) (sc : ScullId) (slot : Slot) (d a b : Reg) (p : Prec),
    let u := readReg (ctxOf s sc slot) a
    let w := readReg (ctxOf s sc slot) b
    let x := fpOperand p u
    let y := fpOperand p w
    let own : Word → Word := fun z => match p with | .d => z | .s => (z.setWidth 32).setWidth 64
    let sign : Word := match p with | .d => 0x8000000000000000 | .s => 0x80000000
    let nan : Word := match p with | .d => 0x7FF8000000000000 | .s => 0x7FC00000
    let nv : Bool → BitVec 5 := fun q => if q then 0x10 else 0
    let half : Nat := match p with | .d => 2 ^ 52 | .s => 2 ^ 23
    let picks := fun (i : Instr) (least : Bool) => FpEnds s sc slot i d fun v e => e = nv (x.isSnan || y.isSnan)
      ∧ (x.isNan = true → y.isNan = true → v = nan) ∧ (x.isNan = true → y.isNan = false → v = own w)
      ∧ (x.isNan = false → y.isNan = true → v = own u)
      ∧ (x.isNan = false → y.isNan = false → fpLt x y = true → v = if least then own u else own w)
      ∧ (x.isNan = false → y.isNan = false → fpLt y x = true → v = if least then own w else own u)
      ∧ (fpEq x y = true → x.isZero = false → v = own u ∨ v = own w)
      ∧ (x.isZero = true → y.isZero = true → v = if (if least then x.sign || y.sign else x.sign && y.sign) then sign else 0)
    let relates := fun (i : Instr) (holds quiet : Bool) => FpEnds s sc slot i d fun v e =>
      v = (if holds then 1 else 0) ∧ e = nv (x.isSnan || y.isSnan || (quiet && (x.isNan || y.isNan)))
    (Issues s sc slot [a, b] [d] false →
      picks (.fmin d a b p) true ∧ picks (.fmax d a b p) false
      ∧ relates (.feq d a b p) (fpEq x y) false ∧ relates (.flt d a b p) (fpLt x y) true ∧ relates (.fle d a b p) (fpLe x y) true)
    ∧ (Issues s sc slot [a] [d] false →
      Gives s sc slot (.fabs d a p) d (fun v => v = own u &&& ~~~sign)
      ∧ Gives s sc slot (.fneg d a p) d (fun v => v = own u ^^^ sign)
      ∧ FpEnds s sc slot (.fclass d a p) d fun v e => e = 0 ∧ ∃ k < 10, v = BitVec.ofNat 64 (2 ^ k)
        ∧ (k = 0 ↔ x = .inf true) ∧ (k = 1 ↔ ∃ m e, x = .fin true m e ∧ half ≤ m)
        ∧ (k = 2 ↔ ∃ m e, x = .fin true m e ∧ 0 < m ∧ m < half) ∧ (k = 3 ↔ ∃ e, x = .fin true 0 e) ∧ (k = 4 ↔ ∃ e, x = .fin false 0 e)
        ∧ (k = 5 ↔ ∃ m e, x = .fin false m e ∧ 0 < m ∧ m < half) ∧ (k = 6 ↔ ∃ m e, x = .fin false m e ∧ half ≤ m)
        ∧ (k = 7 ↔ x = .inf false) ∧ (k = 8 ↔ x = .nan true) ∧ (k = 9 ↔ x = .nan false))

/-- R97: the conversions. One to an integer rounds a finite value m × 2^e under its mode, raises NX where that is inexact, and saturates with
NV and no NX; a NaN gives the largest value with NV. -/
def Sys2Proof.Parts.FloatConversions : Prop :=
  ∀ (s : State) (sc : ScullId) (slot : Slot) (d a : Reg) (p : Prec) (rm : Rounding), Issues s sc slot [a] [d] false →
    let u := readReg (ctxOf s sc slot) a
    let x := fpOperand p u
    let rounds : Int → Int → Int → Prop := fun n k z => match rm with
      | .rne => 2 * (n - z * k).natAbs ≤ k.natAbs ∧ (2 * (n - z * k).natAbs = k.natAbs → z % 2 = 0)
      | .rtz => z = n.tdiv k
      | .rdn => z * k ≤ n ∧ n < (z + 1) * k
      | .rup => n ≤ z * k ∧ (z - 1) * k < n
    let saturates := fun (lo hi : Int) (out : Int) (e : BitVec 5) => ∀ neg m q, x = .fin neg m q → ∃ z,
      rounds (signedMan neg m * 2 ^ q.toNat) (2 ^ (-q).toNat) z
      ∧ (z < lo → out = lo ∧ e = 0x10) ∧ (hi < z → out = hi ∧ e = 0x10)
      ∧ (lo ≤ z → z ≤ hi → out = z ∧ e = if z * 2 ^ (-q).toNat = signedMan neg m * 2 ^ q.toNat then 0 else 1)
    FpEnds s sc slot (.fcvtff d a p rm) d (fun v e =>
      let from_ : Prec := match p with | .d => .s | .s => .d
      let y := fpOperand from_ u
      (v, e) = delivered p rm { v := y, sticky := false, flags := if y.isSnan then 0x10 else 0 })
    ∧ FpEnds s sc slot (.fcvtfi d a p rm) d (fun v e =>
      (x.isNan = true → v = 0x7FFFFFFFFFFFFFFF ∧ e = 0x10) ∧ (x = .inf false → v = 0x7FFFFFFFFFFFFFFF ∧ e = 0x10)
      ∧ (x = .inf true → v = 0x8000000000000000 ∧ e = 0x10)
      ∧ saturates (-(2 ^ 63)) (2 ^ 63 - 1) v.toInt e)
    ∧ FpEnds s sc slot (.fcvtfu d a p rm) d (fun v e =>
      (x.isNan = true → v = -1 ∧ e = 0x10) ∧ (x = .inf false → v = -1 ∧ e = 0x10) ∧ (x = .inf true → v = 0 ∧ e = 0x10)
      ∧ saturates 0 (2 ^ 64 - 1) v.toNat e)
    ∧ FpEnds s sc slot (.fcvtif d a p rm) d (fun v e => (v, e) = delivered p rm (exactly (.fin (decide (u.toInt < 0)) u.toInt.natAbs 0)))
    ∧ FpEnds s sc slot (.fcvtuf d a p rm) d (fun v e => (v, e) = delivered p rm (exactly (.fin false u.toNat 0)))

/-- Minimum, maximum, signs, class, relations and conversions. -/
def Obligations.FloatingPointSelections : Prop :=
  Sys2Proof.Parts.FloatSelections ∧ Sys2Proof.Parts.FloatConversions

/-- R56, R94 to R100: while CTX.FEN enables no trap, every scalar floating-point instruction whose registers pass completes: gd takes a result,
CTX.FFLAGS gathers its flags, and nothing else changes but pc and the count. -/
def Obligations.FloatingPointCompletions : Prop :=
  ∀ (s : State) (sc : ScullId) (slot : Slot) (d a b g : Reg) (p : Prec) (rm : Rounding),
    let c := ctxOf s sc slot
    let completes := fun (i : Instr) => ∃ (v : Word) (e : BitVec 5),
      exec i s = .next (finishReg s sc slot { c with fflags := c.fflags ||| e.setWidth 6 } d v)
    c.fen = 0 →
      (Issues s sc slot [a, b] [d] false → ∀ i ∈ [Instr.fadd d a b p rm, .fsub d a b p rm, .fmul d a b p rm, .fdiv d a b p rm,
        .fmin d a b p, .fmax d a b p, .feq d a b p, .flt d a b p, .fle d a b p], completes i)
      ∧ (Issues s sc slot [a] [d] false → ∀ i ∈ [Instr.fsqrt d a p rm, .fabs d a p, .fneg d a p, .fclass d a p, .fcvtff d a p rm,
        .fcvtfi d a p rm, .fcvtfu d a p rm, .fcvtif d a p rm, .fcvtuf d a p rm], completes i)
      ∧ (Issues s sc slot [a, b, g] [d] false → ∀ i ∈ [Instr.fma d a b g p rm, .fms d a b g p rm, .fnma d a b g p rm, .fnms d a b g p rm],
        completes i)

/-! ### Control registers, traps and time (R101 to R124) -/

/-- R101, R104 to R114: CTLR reads a per-context register; of CTX.CREW and CTX.ENG each field is given, their reserved bits being zero. -/
def Sys2Proof.Parts.ContextRegisterReads : Prop :=
  ∀ (s : State) (sc : ScullId) (slot : Slot) (d : Reg) (n : BitVec 16),
    let c := ctxOf s sc slot
    let reads := fun (v : Word) => Gives s sc slot (.ctlr d n) d (fun x => x = v)
    Issues s sc slot [] [d] (n == 0x0B) →
      (n = 0x00 → reads (BitVec.ofNat 64 (sc.toNat * 2 ^ 16 + slot.toNat)))
      ∧ (n = 0x01 → Gives s sc slot (.ctlr d n) d fun v => v.toNat =
          c.crew.toNat * 2 ^ 32 + (if c.hdr.cls = .harvest then 2 ^ 31 else 0) + c.csz.toNat * 2 ^ 12 + c.cidx.toNat)
      ∧ (n = 0x02 → Gives s sc slot (.ctlr d n) d fun v =>
          v.getLsbD 0 = c.prv ∧ v.getLsbD 1 = c.hnd ∧ v.getLsbD 2 = c.ppnd ∧ v.toNat < 8)
      ∧ (n = 0x03 → reads c.tvec) ∧ (n = 0x04 → reads c.tpc) ∧ (n = 0x05 → reads c.cause) ∧ (n = 0x06 → reads c.tval)
      ∧ (n = 0x07 → reads c.tsave) ∧ (n = 0x08 → reads (c.fflags.setWidth 64)) ∧ (n = 0x09 → reads (c.fen.setWidth 64))
      ∧ (n = 0x0A → reads (c.asid.setWidth 64)) ∧ (n = 0x0B → reads c.ptroot)
      ∧ (n = 0x0C → Gives s sc slot (.ctlr d n) d fun v =>
          v.getLsbD 0 = boundBy s sc .matrix slot ∧ v.getLsbD 1 = boundBy s sc .vector slot ∧ v.getLsbD 2 = boundBy s sc .copy slot ∧ v.toNat < 8)
      ∧ (n = 0x0D → reads c.icnt)

/-- R102, R107 to R114: CTLW, CTLS and CTLC of a per-context register other than CTX.ICNT write its RW bits and nothing else; CTLS and CTLC
give its old value. The masks are those of its fields in the issuing view. A write of CTX.ICNT, which only the runtime view makes, is
counted after it. -/
def Sys2Proof.Parts.ContextRegisterWrites : Prop :=
  ∀ (s : State) (sc : ScullId) (slot : Slot) (d a : Reg) (n : BitVec 16), n.toNat ≤ 0x0C →
    let c := ctxOf s sc slot
    let old := readControl s sc slot c n.toNat
    let v := readReg c a
    let rw_ : Word := match n.toNat with
      | 0x2 => 0x2 | 0x3 | 0x4 => 0xFFFFFFFFFFFFFFF8 | 0x5 => 0xFF3F | 0x6 | 0x7 => 0xFFFFFFFFFFFFFFFF
      | 0x8 => 0x3F | 0x9 => 0x1F | 0xA => if c.prv then 0xFFFF else 0 | 0xB => if c.prv then 0xFFFFFFFFFF000 else 0 | _ => 0
    let writes := fun (i : Instr) (gd : Reg) (new : Word) => ∃ t, exec i s = .next t
      ∧ OnlyContext s t sc slot
      ∧ readControl t sc slot (ctxOf t sc slot) n.toNat = new
      ∧ (∀ k, k < 0x0D → k ≠ n.toNat → readControl t sc slot (ctxOf t sc slot) k = readControl s sc slot c k)
      ∧ (ctxOf t sc slot).pc = c.pc + 8 ∧ (ctxOf t sc slot).icnt = c.icnt + 1
      ∧ (∀ r, readReg (ctxOf t sc slot) r = if r = 0 then 0 else if r = gd then old else readReg c r)
    (Issues s sc slot [a] [] (n == 0x0B) → writes (.ctlw a n) 0 ((old &&& ~~~rw_) ||| (v &&& rw_)))
    ∧ (Issues s sc slot [a] [d] (n == 0x0B) →
      writes (.ctls d a n) d (old ||| (v &&& rw_)) ∧ writes (.ctlc d a n) d (old &&& ~~~(v &&& rw_)))
    ∧ (let counts := fun (i : Instr) (gd : Reg) (new : Word) =>
        exec i s = .next (finishReg s sc slot { c with icnt := if c.prv then new else c.icnt } gd c.icnt)
      (Issues s sc slot [a] [] false → counts (.ctlw a 0x0D) 0 v)
      ∧ (Issues s sc slot [a] [d] false → counts (.ctls d a 0x0D) d (c.icnt ||| v) ∧ counts (.ctlc d a 0x0D) d (c.icnt &&& ~~~v)))

/-- R34, R36, R102, R103, R115: CTLR, CTLW, CTLS and CTLC of the scull registers. SC.HBUD above 512 reads back as 512 and SC.HBINT from 1 to
1,023 as 1,024; SC.HBCNT and SC.OCC are not written; a one in SC.KEEP.REL releases the kept frames after what reached the scull in the cycle.
SC.OCC reads the occupancy that the cycle began with, and an interval of 0 stops the test of its own cycle (log 90). -/
def Sys2Proof.Parts.ScullRegisters : Prop :=
  ∀ (s : State) (sc : ScullId) (slot : Slot) (d a : Reg) (n : BitVec 16), 0x100 ≤ n.toNat → n.toNat ≤ 0x105 →
    let c := ctxOf s sc slot
    let x := scullOf s sc
    let v := readReg c a
    let old : Word := match n.toNat with
      | 0x100 => x.keepto.setWidth 64 | 0x101 => x.hbud.setWidth 64 | 0x102 => x.hbint.setWidth 64 | 0x103 => x.hbcnt.setWidth 64
      | 0x104 => if x.probe then 1 else 0 | _ => x.occ
    let rw_ : Word := match n.toNat with
      | 0x100 => 0xFFFFFFFF | 0x101 => 0x3F8 | 0x102 => 0xFFFFFFFFFF | 0x104 => 1 | _ => 0
    let after : Word → Scull := fun w => match n.toNat with
      | 0x100 => { x with keepto := w.setWidth 32 }
      | 0x101 => { x with hbud := if 512 < w.toNat then 512 else w.setWidth 10 }
      | 0x102 => { x with hbint := if 1 ≤ w.toNat ∧ w.toNat < 1024 then 1024 else w.setWidth 40, hbgov := if w = 0 then 0 else x.hbgov }
      | 0x104 => { x with probe := w.getLsbD 0 }
      | _ => x
    let released : State → State := fun t => if n = 0x100 ∧ v.getLsbD 63 = true then post t 0 (.scull sc) .keepRelease else t
    (Issues s sc slot [] [d] true → Gives s sc slot (.ctlr d n) d fun w => w = old)
    ∧ (Issues s sc slot [a] [] true →
      exec (.ctlw a n) s = .next (released (finish (setScull s sc (after ((old &&& ~~~rw_) ||| (v &&& rw_)))) sc slot c)))
    ∧ (Issues s sc slot [a] [d] true →
      exec (.ctls d a n) s = .next (released (finishReg (setScull s sc (after (old ||| (v &&& rw_)))) sc slot c d old))
      ∧ exec (.ctlc d a n) s = .next (finishReg (setScull s sc (after (old &&& ~~~(v &&& rw_)))) sc slot c d old))

/-- R102, R228 to R231: CTLR, CTLW, CTLS and CTLC of the engine registers. A context of the crew view that does not bind the engine takes an
engine fault with AUX 0x01. CTLW sets BADCNT, BTE and FEN and clears BAD and FLAGS where ga has ones, CTLS sets bits of the former and clears
the latter, CTLC clears bits of the former alone; TPND, QN and CP.STAT are not written. -/
def Sys2Proof.Parts.EngineRegisters : Prop :=
  ∀ (s : State) (sc : ScullId) (slot : Slot) (d a : Reg) (n : BitVec 16) (e : EngineId),
    ((n, e) = (0x200, .matrix) ∨ (n, e) = (0x201, .matrix) ∨ (n, e) = (0x210, .vector) ∨ (n, e) = (0x211, .vector) ∨ (n, e) = (0x220, .copy)) →
    let c := ctxOf s sc slot
    let x := engineOf s sc e
    let v := readReg c a
    let bit := fun (k : Nat) (b : Bool) => if b then 2 ^ k else 0
    let qn := x.queue.length % 4 * 2 ^ 6 + bit 8 x.tpnd
    let old : Word := BitVec.ofNat 64 (if n = 0x220 then x.fwcnt.toNat * 2 ^ 32 + bit 9 x.frz + qn
      else if n.toNat % 16 = 0 then x.badcnt.toNat * 2 ^ 16 + bit 9 x.bad + qn + x.flags.toNat
      else bit 5 x.bte + x.fen.toNat)
    let cnt : BitVec 16 := v.extractLsb' 16 16
    let low : BitVec 5 := v.setWidth 5
    let after := fun (stat ctl : Engine) => if n = 0x220 then s else setEngine s sc e (if n.toNat % 16 = 0 then stat else ctl)
    let cleared := { x with bad := x.bad && !v.getLsbD 9, flags := x.flags &&& ~~~low }
    (c.prv = false → boundBy s sc e slot = false →
      let t := takeTrap s sc slot { code := 0x0D, aux := 0x01, tval := 0 } c.pc
      (Issues s sc slot [] [d] false → exec (.ctlr d n) s = .next t) ∧ (Issues s sc slot [a] [] false → exec (.ctlw a n) s = .next t)
      ∧ (Issues s sc slot [a] [d] false → exec (.ctls d a n) s = .next t ∧ exec (.ctlc d a n) s = .next t))
    ∧ (c.prv = true ∨ boundBy s sc e slot = true →
      (Issues s sc slot [] [d] false → Gives s sc slot (.ctlr d n) d fun w => w = old)
      ∧ (Issues s sc slot [a] [] false → exec (.ctlw a n) s =
        .next (finish (after { cleared with badcnt := cnt } { x with bte := v.getLsbD 5, fen := low }) sc slot c))
      ∧ (Issues s sc slot [a] [d] false →
        exec (.ctls d a n) s = .next (finishReg (after { cleared with badcnt := x.badcnt ||| cnt }
          { x with bte := x.bte || v.getLsbD 5, fen := x.fen ||| low }) sc slot c d old)
        ∧ exec (.ctlc d a n) s = .next (finishReg (after { x with badcnt := x.badcnt &&& ~~~cnt }
          { x with bte := x.bte && !v.getLsbD 5, fen := x.fen &&& ~~~low }) sc slot c d old)))

/-- CTLR reads, and CTLW, CTLS and CTLC write, the context, scull and engine registers (log 90 for SC.OCC and a zero SC.HBINT). -/
def Obligations.ControlRegisters : Prop :=
  Sys2Proof.Parts.ContextRegisterReads ∧ Sys2Proof.Parts.ContextRegisterWrites ∧ Sys2Proof.Parts.ScullRegisters ∧ Sys2Proof.Parts.EngineRegisters

/-- R116: a trap with a handler, outside one, enters it: CTX.TPC, CTX.CAUSE, CTX.TVAL and CTX.STAT.HND take their values, pc goes to
CTX.TVEC, and nothing else of the machine changes. -/
def Sys2Proof.Parts.TrapEntry : Prop :=
  ∀ (s : State) (sc : ScullId) (slot : Slot) (t : Trap) (ret : Word),
    let c := ctxOf s sc slot
    c.hnd = false → c.tvec ≠ 0 →
      let u := takeTrap s sc slot t ret
      OnlyContext s u sc slot
      ∧ ctxOf u sc slot = { c with
          st := .ready, tpc := ret, cause := BitVec.ofNat 64 (t.aux.toNat * 2 ^ 8 + t.code.toNat), tval := t.tval, hnd := true, pc := c.tvec }

/-- R116, R325, R329: a trap in a handler, or with no handler, freezes the context with pc at the trapping instruction, CTX.TPC and HND
unchanged, CTX.CAUSE and CTX.TVAL written; one record of TYPE 0x03 is sent with the address of the instruction, CTX.CAUSE in DETAIL 15:0 and
in bit 16 whether CTX.TVEC was 0. -/
def Sys2Proof.Parts.TrapFreeze : Prop :=
  ∀ (s : State) (sc : ScullId) (slot : Slot) (t : Trap) (ret : Word),
    let c := ctxOf s sc slot
    c.hnd = true ∨ c.tvec = 0 →
      let u := takeTrap s sc slot t ret
      ctxOf u sc slot = { c with
        st := .frozen .ready, cause := BitVec.ofNat 64 (t.aux.toNat * 2 ^ 8 + t.code.toNat), tval := t.tval }
      ∧ ∃ r, u.fs.held = s.fs.held ++ [r] ∧ r.type = 0x03 ∧ r.pc = c.pc ∧ r.addr = t.tval ∧ r.asid = c.asid
        ∧ r.seq = s.fs.nextSeq ∧ r.detail.toNat = t.aux.toNat * 2 ^ 8 + t.code.toNat + if c.tvec = 0 then 2 ^ 16 else 0

/-- R117, R118: TRAP takes cause 0x0C with its code as the value and CTX.TPC at the next word; RTE goes back to CTX.TPC and clears HND, and
outside a handler it is an illegal instruction. -/
def Sys2Proof.Parts.TrapAndReturn : Prop :=
  ∀ (s : State) (sc : ScullId) (slot : Slot) (code : BitVec 16), Issues s sc slot [] [] false →
    let c := ctxOf s sc slot
    exec (.trap code) s = .next (takeTrap s sc slot { code := 0x0C, aux := 0, tval := code.setWidth 64 } (c.pc + 8))
    ∧ (c.hnd = true → exec .rte s = .next (setCtx s sc slot { c with pc := c.tpc, hnd := false, icnt := c.icnt + 1 }))
    ∧ (c.hnd = false → exec .rte s = .next (takeTrap s sc slot { code := 0x01, aux := 0, tval := 0x8104000000000000 } c.pc))

/-- A trap enters the handler or freezes the context; TRAP raises one and RTE returns. -/
def Obligations.TrapsAndReturn : Prop :=
  Sys2Proof.Parts.TrapEntry ∧ Sys2Proof.Parts.TrapFreeze ∧ Sys2Proof.Parts.TrapAndReturn

/-- R56: a register beyond the context's limit is an illegal instruction, and a privileged instruction traps in the crew view; either takes
the word as its value and nothing else happens. The instructions of three registers, of two, and of four are named, with CMAKE and FPUT. -/
def Sys2Proof.Parts.IllegalAndPrivileged : Prop :=
  ∀ (s : State) (sc : ScullId) (slot : Slot) (d a b g : Reg) (n : BitVec 3) (p : Prec) (rm : Rounding) (k : BitVec 36) (h : BitVec 6),
    s.actor = .context sc slot →
    let c := ctxOf s sc slot
    let traps := fun (code : BitVec 6) (i : Instr) =>
      ∃ w, encode i = some w ∧ exec i s = .next (takeTrap s sc slot { code := code, aux := 0, tval := w } c.pc)
    let out := fun (r : Reg) => 8 * c.hdr.rgn ≤ r.toNat
    (out d ∨ out a ∨ out b → ∀ i ∈ threeRegisters d a b p rm ++ [.cmake d a b, .fput d a b], traps 0x01 i)
    ∧ (out d ∨ out a → ∀ i ∈ twoRegisters d a p rm k h, traps 0x01 i)
    ∧ (out d ∨ out a ∨ out b ∨ out g → ∀ i ∈ fourRegisters d a b g p rm, traps 0x01 i)
    ∧ (c.prv = false → ¬out d → ¬out a → ∀ i ∈ [Instr.mthaw d a, .mkill d a, .tlbi a, .tlbiasid a, .capld n a, .capclr n, .ctlr d 0x100,
        .ctlw a 0x0B], traps 0x02 i)

/-- R332: a poisoned source register traps with AUX 0x05 and its number, the first one named; R154: an instruction that names the destination
of an outstanding overlap load waits. So for the instructions of three registers, of two, and of four. -/
def Sys2Proof.Parts.PoisonAndOverlap : Prop :=
  ∀ (s : State) (sc : ScullId) (slot : Slot) (d a b g : Reg) (p : Prec) (rm : Rounding) (k : BitVec 36) (h : BitVec 6),
    s.actor = .context sc slot →
    let c := ctxOf s sc slot
    let bad := fun (r : Reg) => r ≠ 0 ∧ setHas c.gPoison r.toNat = true
    let poisoned := fun (r : Reg) (i : Instr) => exec i s = .next (takeTrap s sc slot { code := 0x09, aux := 0x05, tval := r.setWidth 64 } c.pc)
    let waits := fun (i : Instr) => exec i s = .next (park s sc slot c (.reissue .overlap))
    regInLimit c d = true → regInLimit c a = true →
      (∀ i ∈ twoRegisters d a p rm k h,
        (mustWaitOverlap s c [a, d] = true → waits i) ∧ (mustWaitOverlap s c [a, d] = false → bad a → poisoned a i))
      ∧ (regInLimit c b = true →
        (∀ i ∈ threeRegisters d a b p rm, (mustWaitOverlap s c [a, b, d] = true → waits i)
          ∧ (mustWaitOverlap s c [a, b, d] = false → (bad a → poisoned a i) ∧ (¬bad a → bad b → poisoned b i)))
        ∧ (regInLimit c g = true → ∀ i ∈ fourRegisters d a b g p rm, (mustWaitOverlap s c [a, b, g, d] = true → waits i)
          ∧ (mustWaitOverlap s c [a, b, g, d] = false →
            (bad a → poisoned a i) ∧ (¬bad a → bad b → poisoned b i) ∧ (¬bad a → ¬bad b → bad g → poisoned g i))))

/-- Register instructions trap beyond the limit and on poison and wait on overlap loads; privileged ones trap in the crew view. -/
def Obligations.IllegalPrivilegedAndPoisoned : Prop :=
  Sys2Proof.Parts.IllegalAndPrivileged ∧ Sys2Proof.Parts.PoisonAndOverlap

/-- R120 to R122: BEAT clears the heartbeat count, RDGTC reads the GTC of the next cycle, WAITT ends at once at a deadline reached and waits
otherwise; the event of its time writes the GTC it finds. -/
def Sys2Proof.Parts.TimeInstructions : Prop :=
  ∀ (s : State) (sc : ScullId) (slot : Slot) (d a : Reg),
    let c := ctxOf s sc slot
    let now : Word := BitVec.ofNat 64 (gtcOf s)
    (Issues s sc slot [] [] false →
      exec .beat s = .next (finish (setScull s sc { scullOf s sc with hbcnt := 0, hbMissed := false }) sc slot c))
    ∧ (Issues s sc slot [] [d] false → Gives s sc slot (.rdgtc d) d fun v => v = gtcNext s)
    ∧ (Issues s sc slot [a] [d] false →
      ((readReg c a).toNat ≤ now.toNat → Gives s sc slot (.waitt d a) d fun v => v = now)
      ∧ (now.toNat < (readReg c a).toNat → exec (.waitt d a) s = .next (park s sc slot c (.time d (readReg c a)))))
    ∧ (∀ dl, s.actor = .context sc slot → c.st = .waiting (.time d dl) → c.back = none → dl.toNat ≤ gtcOf s →
      exec .waittDeadline s = .next (setCtx s sc slot { retire (writeReg c d now) with st := .ready }))

/-- R124: CAPLD loads the image at ga with bits 62:53 zero, CAPST stores it there, CAPCLR clears; an address that is no multiple of 16 is
misaligned. -/
def Sys2Proof.Parts.CapabilityInstructions : Prop :=
  ∀ (s : State) (sc : ScullId) (slot : Slot) (n : BitVec 3) (a : Reg),
    let c := ctxOf s sc slot
    let ea := readReg c a
    let place := ownByte s sc c ea.toNat
    let touched := touch s sc c (.page sc c.crew ea.toNat)
    let reserved : BitVec 128 := ~~~(0x3FF#128 <<< 53)
    (Issues s sc slot [] [] true → exec (.capclr n) s = .next (finish s sc slot { c with caps := tabSet c.caps n.toNat 0 }))
    ∧ (ea.toNat % 16 = 0 → ownRange s sc c ea 16 = .at_ →
      (Issues s sc slot [a] [] true →
        setHas (scullOf s sc).poison (place / 8) = false → setHas (scullOf s sc).poison (place / 8 + 1) = false →
        exec (.capld n a) s = .next (finish s sc slot { touched with
          caps := tabSet c.caps n.toNat (BitVec.ofNat 128 (memReadNat (scullOf s sc).data place 16) &&& reserved) }))
      ∧ (Issues s sc slot [a] [] false → ∃ x, exec (.capst n a) s = .next (finish (setScull s sc x) sc slot touched)
        ∧ BitVec.ofNat 128 (memReadNat x.data place 16) = tabGet 0 c.caps n.toNat &&& reserved
        ∧ (∀ b, b < place ∨ place + 16 ≤ b → memRead x.data b = memRead (scullOf s sc).data b)
        ∧ x.full = (scullOf s sc).full))
    ∧ (ea.toNat % 16 ≠ 0 →
      (Issues s sc slot [a] [] true → exec (.capld n a) s = .next (takeTrap s sc slot { code := 0x03, aux := 0, tval := ea } c.pc))
      ∧ (Issues s sc slot [a] [] false → exec (.capst n a) s = .next (takeTrap s sc slot { code := 0x03, aux := 0, tval := ea } c.pc)))


/-- BEAT, RDGTC, WAITT, and the capability instructions. -/
def Obligations.TimeAndCapabilities : Prop :=
  Sys2Proof.Parts.TimeInstructions ∧ Sys2Proof.Parts.CapabilityInstructions

/-! ### Loads and stores (R136, R152, R153, R162 to R165) -/

/-- R137, R162 to R164: a plain load or store of the own scratchpad at an aligned offset of an allocated, pinned page completes and its
context stays in rotation. A load writes the bytes at the offset, extended as its mnemonic says; a store changes those bytes and no other,
leaves every F bit, and a store of a whole word clears the word's poison. -/
def Sys2Proof.Parts.LocalAccesses : Prop :=
  ∀ (s : State) (sc : ScullId) (slot : Slot) (d : Reg) (m : MemRef) (z : Size) (f : Nat),
    let c := ctxOf s sc slot
    let n := sizeBytes z
    let ea := readReg c m.a + readReg c m.b * BitVec.ofNat 64 n + m.off.signExtend 64
    let x := scullOf s sc
    let b := f * 4096 + ea.toNat % 4096
    m.mode = .loc → ea.toNat % n = 0 → ea.toNat < 393216 → pageState s sc c.crew (ea.toNat / 4096) = some (.pinned f) →
    x.fenced = false →
      let c' := touch s sc c (.page sc c.crew ea.toNat)
      let v := memReadNat x.data b n
      (Issues s sc slot [m.a, m.b] [d] false → setHas x.poison (b / 8) = false →
        exec (.ld d m z .plain false) s = .next (finishReg s sc slot c' d (BitVec.ofNat 64 v))
        ∧ exec (.lds d m z .plain false) s = .next (finishReg s sc slot c' d
            (BitVec.ofInt 64 (if v < 2 ^ (8 * n - 1) then (v : Int) else (v : Int) - 2 ^ (8 * n)))))
      ∧ (Issues s sc slot [d, m.a, m.b] [] false → ∃ y,
        exec (.st d m z .plain false) s = .next (finish (setScull s sc y) sc slot c')
        ∧ memReadNat y.data b n = (readReg c d).toNat % 2 ^ (8 * n)
        ∧ (∀ k, k < b ∨ b + n ≤ k → memRead y.data k = memRead x.data k)
        ∧ y = { x with data := y.data, poison := if n = 8 then setDel x.poison (b / 8) else x.poison })

/-- R51, R139, R165: an access that reaches its bank. It proceeds, data and F changing together, when its full/empty code lets it: a sync or
take load only with F full, a sync store only with F empty. A take load leaves F empty and a full/empty store leaves it full. What may not
proceed joins the word's queue with nothing changed. An access of its own context also adds its bank to that context's mask (R158), and its answer is
on its way back. -/
def Sys2Proof.Parts.BankAccesses : Prop :=
  ∀ (s : State) (id : Nat) (a : Access) (sc : ScullId) (b : Nat),
    s.actor = .item id → accessOf s id = some a → a.phase = .inFlight → locateFor (some a.sc) s a.place a.ea = .at_ sc b →
    let x := scullOf s sc
    let u := touchArrived s id a sc b
    let w := b / 8
    let full := setHas x.full w
    tabGet [] x.wordQueues w = [] →
      let comes := fun (y : Scull) (ph : AccessPhase) => exec .scratchpadAccessArrival s =
        .next (postBack (setAccess (setScull u sc y) id { a with phase := ph }) id a)
      let waits := exec .scratchpadAccessArrival s = .next
        (setAccess (setScull u sc { x with wordQueues := tabSet x.wordQueues w [id] }) id { a with phase := .atWord })
      let value := AccessPhase.value (BitVec.ofNat 64 (memReadNat x.data b a.size))
      (∀ v, a.op = .store v →
        (a.fe = .sync → full = true → waits)
        ∧ ((a.fe = .sync → full = false) → ∃ y, comes y .accepted
          ∧ memReadNat y.data b a.size = v.toNat % 256 ^ a.size
          ∧ (∀ k, k < b ∨ b + a.size ≤ k → memRead y.data k = memRead x.data k)
          ∧ (∀ k, setHas y.full k = if k = w ∧ a.fe ≠ .plain then true else setHas x.full k)))
      ∧ (∀ sg, a.op = .load sg →
        (a.fe ≠ .plain → full = false → waits)
        ∧ ((a.fe ≠ .plain → full = true) → setHas x.poison w = false →
          ∃ y, comes y value ∧ y.data = x.data ∧ (∀ k, setHas y.full k = if k = w ∧ a.fe = .take then false else setHas x.full k)))

/-- Loads and stores of the own scratchpad, and every access at its bank with its full/empty code. -/
def Obligations.ScratchpadAccesses : Prop :=
  Sys2Proof.Parts.LocalAccesses ∧ Sys2Proof.Parts.BankAccesses

/-- R136: a load or store whose address is no multiple of its size takes the misaligned trap with the address as its value, in every mode but
chm, where the offset is tested. -/
def Obligations.MisalignedAccesses : Prop :=
  ∀ (s : State) (sc : ScullId) (slot : Slot) (d : Reg) (m : MemRef) (z : Size) (fe : FullEmpty) (ov : Bool),
    let c := ctxOf s sc slot
    let n := sizeBytes z
    let ea := readReg c m.a + readReg c m.b * BitVec.ofNat 64 n + m.off.signExtend 64
    let tested := if m.mode = .chm then (ea - readReg c m.a).toNat else ea.toNat
    tested % n ≠ 0 →
      let t := takeTrap s sc slot { code := 0x03, aux := 0, tval := ea } c.pc
      (Issues s sc slot [m.a, m.b] [d] false → exec (.ld d m z fe ov) s = .next t ∧ exec (.lds d m z fe ov) s = .next t)
      ∧ (Issues s sc slot [d, m.a, m.b] [] false → exec (.st d m z fe ov) s = .next t)

/-- R26, R152, R153, R162, R163: any other load or store that passes its checks leaves its context, which waits for it; an overlap form
completes instead and stays outstanding, while fewer than eight are and none touches the same bytes. -/
def Sys2Proof.Parts.AccessesLeave : Prop :=
  ∀ (s u : State) (sc : ScullId) (slot : Slot) (d : Reg) (m : MemRef) (z : Size) (fe : FullEmpty) (ov : Bool) (p : Place),
    let c := ctxOf s sc slot
    let n := sizeBytes z
    let rights := { rightsRead with f := fe != .plain }
    let wrights := { rightsWrite with f := fe != .plain }
    let made : AccessOp → Access := fun op =>
      { sc := sc, slot := slot, op := op, place := p, ea := effAddr c m n, size := n, fe := fe, ov := ov, d := d, scope := .plain,
        asid := c.asid, crew := c.crew, sent := u.cycle, phase := .inFlight }
    let leaves := fun (i : Instr) (op : AccessOp) => exec i s = .next (if ov then overlapLeft u (made op) else accessLeft u (made op))
    (m.mode ≠ .loc ∨ fe ≠ .plain ∨ ov = true ∨ ∀ x b, locate u p (effAddr c m n) ≠ .at_ x b) →
    (ov = true → (ctxOf u sc slot).overlap.length < 8 ∧ overlapsEarlier u (touch u sc (ctxOf u sc slot) p) p n = false) →
      (Issues s sc slot [m.a, m.b] [d] false → Passes s u sc slot m n .load rights p →
        leaves (.ld d m z fe ov) (.load false) ∧ leaves (.lds d m z fe ov) (.load true))
      ∧ (Issues s sc slot [d, m.a, m.b] [] false → Passes s u sc slot m n .store wrights p →
        leaves (.st d m z fe ov) (.store (readReg c d)))

/-- R156: an acquire load that does not stay in rotation leaves its context as a load does, which waits for it; a release store leaves once
every earlier access of the context has performed at its scope, and until then the context waits to reissue it. -/
def Sys2Proof.Parts.OrderedAccesses : Prop :=
  ∀ (s u : State) (sc : ScullId) (slot : Slot) (d : Reg) (m : MemRef) (z : Size) (scope : Scope) (p : Place),
    let c := ctxOf s sc slot
    let n := sizeBytes z
    let made : AccessOp → Access := fun op =>
      { sc := sc, slot := slot, op := op, place := p, ea := effAddr c m n, size := n, fe := .plain, ov := false, d := d, scope := scope,
        asid := c.asid, crew := c.crew, sent := u.cycle, phase := .inFlight }
    (m.mode ≠ .loc ∨ ∀ x b, locate u p (effAddr c m n) ≠ .at_ x b) →
      (Issues s sc slot [m.a, m.b] [d] false → Passes s u sc slot m n .load { rightsRead with f := false } p →
        exec (.ldAq d m z scope) s = .next (accessLeft u (made (.load false)))
        ∧ exec (.ldsAq d m z scope) s = .next (accessLeft u (made (.load true))))
      ∧ (Issues s sc slot [d, m.a, m.b] [] false →
        (drained s sc slot c scope = true → Passes s u sc slot m n .store { rightsWrite with f := false } p →
          exec (.stRl d m z scope) s = .next (accessLeft u (made (.store (readReg c d)))))
        ∧ (drained s sc slot c scope = false → exec (.stRl d m z scope) s = .next (park s sc slot c (.reissue .drain))))

/-- R26, R152, R162, R175: the answer of an access that has performed reaches its context: a load's value, extended, or that of an atomic or of an
instruction at a word is written to gd, the instruction completes and the context is READY; an acceptance completes it; a trap is taken at
the instruction. -/
def Sys2Proof.Parts.AccessAnswers : Prop :=
  ∀ (s : State) (id : Nat) (a : Access),
    s.actor = .item id → accessOf s id = some a → a.ov = false →
    let k := ctxKey a.sc a.slot
    let c := ctxOf s a.sc a.slot
    c.st = .waiting (.access id) → c.back = none →
      let u := dropItem s id
      (∀ v, a.phase = .value v →
        let gives := fun (v : Word) => exec .accessResponse s = .next (setCtx u a.sc a.slot { retire (writeReg c a.d v) with st := .ready })
        (∀ sg, a.op = .load sg → gives (extendValue sg a.size v)) ∧ ((∀ sg, a.op ≠ .load sg) → gives v))
      ∧ (a.phase = .accepted → exec .accessResponse s = .next (setCtxAt u k { retire c with st := .ready }))
      ∧ (∀ t, a.phase = .trapped t → exec .accessResponse s = .next (takeTrap u a.sc a.slot t c.pc))

/-- Other accesses leave, acquire and release ones in order, and their answers complete the instruction. -/
def Obligations.AccessesInFlight : Prop :=
  Sys2Proof.Parts.AccessesLeave ∧ Sys2Proof.Parts.OrderedAccesses ∧ Sys2Proof.Parts.AccessAnswers

/-! ### The F bit (R167), reservations (R168 to R171), atomics (R174 to R176), deposits (R177 to R179) -/

/-- R164, R167: FBRD reads a word's F bit; FBSET and FBCLR leave it full or empty, with no wait for it and with the data unchanged. The context
waits for the answer, which is on its way. -/
def Obligations.FullBitInstructions : Prop :=
  ∀ (s u : State) (sc : ScullId) (slot : Slot) (d : Reg) (m : MemRef) (p : Place) (x : ScullId) (b : Nat),
    locate u p (effAddr (ctxOf s sc slot) m 8) = .at_ x b →
    let c' := touch u sc (ctxOf u sc slot) p
    let y := scullOf u x
    (Issues s sc slot [m.a, m.b] [d] false → Passes s u sc slot m 8 .fullEmpty rightsRead p → setHas y.poison (b / 8) = false →
      exec (.fbrd d m) s = .next (wordAnswered u (setCtx u sc slot c') sc slot .fbrd p (effAddr (ctxOf s sc slot) m 8) d
        (.value (if setHas y.full (b / 8) then 1 else 0))))
    ∧ (Issues s sc slot [m.a, m.b] [] false → Passes s u sc slot m 8 .fullEmpty rightsWrite p → tabGet [] y.wordQueues (b / 8) = [] →
      let sets := fun (i : Instr) (v : Bool) => ∃ t, exec i s = .next t ∧ ctxOf t sc slot = { c' with st := .waiting (.access u.nextId) }
        ∧ (accessOf t u.nextId).map (·.phase) = some .accepted
        ∧ scullOf t x = { y with full := (scullOf t x).full }
        ∧ (∀ k, setHas (scullOf t x).full k = if k = b / 8 then v else setHas y.full k)
      sets (.fbset m) true ∧ sets (.fbclr m) false)

/-- R164, R168, R169, R332: AQR of a word nobody has reserved, in a bank with fewer than eight reserved words and none waiting for one, holds it
and reads it, and the context waits for the answer; where eight words of the bank are reserved it waits for an entry; of a word another holds
it waits behind the others, whether or not the word is poisoned. -/
def Sys2Proof.Parts.Reserving : Prop :=
  ∀ (s u : State) (sc : ScullId) (slot : Slot) (d : Reg) (m : MemRef) (p : Place) (x : ScullId) (b : Nat),
    let c := ctxOf s sc slot
    let ea := effAddr c m 8
    let w := b / 8
    let y := scullOf u x
    let c' := touch u sc (ctxOf u sc slot) p
    let mine : Bool → Option Reservation := fun held => some { sc := x, word := w, held := held, pc := c'.pc, ea := ea }
    Issues s sc slot [m.a, m.b] [d] false → Passes s u sc slot m 8 .atomic rightsAtomic p → c.resv = none → locate u p ea = .at_ x b →
      let reserved := (y.resvs.filter fun r => r.word % 96 == w % 96).length
      ((∀ r ∈ y.resvs, r.word ≠ w) →
        (reserved < 8 → (∀ e ∈ y.resvOverflow, e.2 % 96 ≠ w % 96) → setHas y.poison w = false →
          exec (.aqr d m) s = .next (wordAnswered u (setScull (setCtx u sc slot { c' with resv := mine true }) x
              { y with resvs := y.resvs ++ [{ word := w, holder := some (ctxKey sc slot), queue := [] }] })
            sc slot .aqr p ea d (.value (BitVec.ofNat 64 (memReadNat y.data b 8)))))
        ∧ (8 ≤ reserved → exec (.aqr d m) s = .next (park (setScull u x { y with resvOverflow := y.resvOverflow ++ [(ctxKey sc slot, w)] })
            sc slot { c' with resv := mine false } (.reservation d))))
      ∧ (∀ r k before after, y.resvs = before ++ r :: after → (∀ q ∈ before ++ after, q.word ≠ w) → r.word = w → r.holder = some k →
        (∀ e ∈ y.resvOverflow, e.2 % 96 ≠ w % 96) →
        exec (.aqr d m) s = .next (park (setScull u x { y with
            resvs := before ++ { r with queue := r.queue ++ [ctxKey sc slot] } :: after })
          sc slot { c' with resv := mine false } (.reservation d)))

/-- R164, R169, R171, R173: with no overlap access outstanding at the word's bank, ARL writes the word it holds and hands it on, ARC hands it on
unchanged, and the context waits for the answer. With nobody waiting the reservation ends; a waiter k that comes first holds the word from
then on, has read it as it was left, and is READY again. By a context that does not hold the word either is an illegal instruction with AUX
0x02. -/
def Sys2Proof.Parts.Releasing : Prop :=
  ∀ (s u : State) (sc : ScullId) (slot : Slot) (d : Reg) (m : MemRef) (p : Place) (x : ScullId) (b : Nat) (r : Reservation)
    (before after : List ResvWord),
    let c := ctxOf s sc slot
    let ea := effAddr c m 8
    let y := scullOf u x
    let w := b / 8
    let cu := ctxOf u sc slot
    let c' := touch u sc cu p
    let me := ctxKey sc slot
    Passes s u sc slot m 8 .atomic rightsAtomic p → releasePlace u p ea = .at_ x b → cu.resv = c.resv → bankOutstanding u c x b = false →
      (c.resv = some r → r.held = true → r.sc = x → r.word = w → (∀ q ∈ before ++ after, q.word ≠ w) →
        (∀ e ∈ y.resvOverflow, e.1 ≠ me ∧ e.2 % 96 ≠ w % 96) →
        let written := { y with data := memWriteNat y.data b 8 (readReg c' d).toNat, poison := setDel y.poison w }
        let ends := fun (i : Instr) (z : Scull) (left : List ResvWord) (P : State → Prop) => ∃ t, exec i s = .next t
          ∧ scullOf t x = { z with resvs := before ++ left ++ after }
          ∧ ctxOf t sc slot = { c' with resv := none, st := .waiting (.access u.nextId) }
          ∧ (accessOf t u.nextId).map (·.phase) = some .accepted ∧ P t
        (y.resvs = before ++ { word := w, holder := some me, queue := [] } :: after →
          (Issues s sc slot [d, m.a, m.b] [] false → ends (.arl d m) written [] fun _ => True)
          ∧ (Issues s sc slot [m.a, m.b] [] false → ends (.arc m) y [] fun _ => True))
        ∧ (∀ k rest d' q, y.resvs = before ++ { word := w, holder := some me, queue := k :: rest } :: after →
          k ≠ me → k ∉ rest → me ∉ rest → b % 8 = 0 →
          (ctxAt u k).st = .waiting (.reservation d') → (ctxAt u k).back = none → (ctxAt u k).resv = some q →
          let left := [{ word := w, holder := some k, queue := rest }]
          let gets := fun (v : Word) (t : State) =>
            ctxAt t k = { retire (writeReg { ctxAt u k with resv := some { q with held := true } } d' v) with st := .ready }
          (Issues s sc slot [d, m.a, m.b] [] false → ends (.arl d m) written left (gets (readReg c' d)))
          ∧ (Issues s sc slot [m.a, m.b] [] false → setHas y.poison w = false →
            ends (.arc m) y left (gets (BitVec.ofNat 64 (memReadNat y.data b 8))))))
      ∧ (c.resv = none →
        let t := takeTrap (setCtx u sc slot c') sc slot { code := 0x01, aux := 0x02, tval := ea } cu.pc
        (Issues s sc slot [d, m.a, m.b] [] false → exec (.arl d m) s = .next t)
        ∧ (Issues s sc slot [m.a, m.b] [] false → exec (.arc m) s = .next t))

/-- AQR holds a word or waits; ARL and ARC hand it on to the first waiter or end the reservation. -/
def Obligations.QueuedReservations : Prop :=
  Sys2Proof.Parts.Reserving ∧ Sys2Proof.Parts.Releasing

/-- R174 to R176: a global atomic that passes its checks, its scope's release done, leaves for the home with its operand; at the home old
value and new are one event: the old value goes back, and the location's bytes take the new one. -/
def Sys2Proof.Parts.AtomicsIssue : Prop :=
  ∀ (s u : State) (sc : ScullId) (slot : Slot) (d a b : Reg) (off : BitVec 18) (z : AtomSize) (scope : Scope) (pa : Nat),
    let c := ctxOf s sc slot
    let n := atomBytes z
    let leaves := fun (i : Instr) (op : AtomOp) (ix : Reg) (new : Word) =>
      let m : MemRef := { mode := .glb, a := a, b := ix, off := off }
      Passes s u sc slot m n .atomic rightsAtomic (.global pa) →
        let acc : Access := {
          sc := sc, slot := slot, op := .atomic op (readReg c d) new, place := .global pa, ea := effAddr c m n,
          size := n, fe := .plain, ov := false, d := d, scope := scope, asid := c.asid, crew := c.crew, sent := u.cycle, phase := .inFlight }
        exec i s = .next (postLater (park (addItem u (.access acc)) sc slot (touch u sc (ctxOf u sc slot) (.global pa)) (.access u.nextId))
          (.item u.nextId) .atomicAtHome)
    Issues s sc slot [d, a, b] [d] false → inRegisters pa = false → (scope ≠ .plain → drained s sc slot c scope = true) →
      leaves (.aadd d a b off z scope) .add b 0 ∧ leaves (.aand d a b off z scope) .and b 0 ∧ leaves (.aor d a b off z scope) .or b 0
      ∧ leaves (.axor d a b off z scope) .xor b 0 ∧ leaves (.amin d a b off z scope) .min b 0 ∧ leaves (.amax d a b off z scope) .max b 0
      ∧ leaves (.aminu d a b off z scope) .minu b 0 ∧ leaves (.amaxu d a b off z scope) .maxu b 0
      ∧ leaves (.aswp d a b off z scope) .swap b 0 ∧ leaves (.acas d a b off z scope) .cas 0 (readReg c b)

/-- R155, R174, R175: the atomic at its home, on 8 bytes, with nothing of its context to come before it: what each operation leaves in memory, and the old value on its way back. -/
def Sys2Proof.Parts.AtomicsAtHome : Prop :=
  ∀ (s : State) (id : Nat) (a : Access) (op : AtomOp) (x new : Word) (pa : Nat),
    s.actor = .item id → accessOf s id = some a → a.phase = .inFlight → a.place = .global pa → a.op = .atomic op x new → a.size = 8 →
    globalPoison s pa = false → behindEarlier s id a = false → (∀ t ∈ (agentOf s (shellNode a.sc)).stores, t.pa / 64 ≠ pa / 64) →
      let old := globalWord s pa
      ∃ v : Word, exec .atomicAtHome s =
          .next (postLater (setAccess (globalWrite s pa 8 v.toNat) id { a with phase := .value old }) (.item id) .accessResponse)
        ∧ (op = .add → v = old + x) ∧ (op = .and → v = old &&& x) ∧ (op = .or → v = old ||| x) ∧ (op = .xor → v = old ^^^ x)
        ∧ (op = .min → v.toInt = Min.min old.toInt x.toInt) ∧ (op = .max → v.toInt = Max.max old.toInt x.toInt)
        ∧ (op = .minu → v.toNat = Min.min old.toNat x.toNat) ∧ (op = .maxu → v.toNat = Max.max old.toNat x.toNat)
        ∧ (op = .swap → v = x) ∧ (op = .cas → v = if old = x then new else old)

/-- A global atomic leaves for its home, where old value and new are one event. -/
def Obligations.GlobalAtomics : Prop :=
  Sys2Proof.Parts.AtomicsIssue ∧ Sys2Proof.Parts.AtomicsAtHome

/-- R164, R177 to R179: a deposit whose checks pass, into a page of a scull or into a chamber, is appended to the log of the scull that holds its
destination with its operation, value and sequence number; the context waits for the answer and the destination itself is not changed. -/
def Sys2Proof.Parts.Deposits : Prop :=
  ∀ (s u : State) (sc : ScullId) (slot : Slot) (d : Reg) (m : MemRef) (n : Nat) (x : ScullId) (o b : Nat) (y : Crew) (p : Place)
    (ch : Option (ChamberSlot × BitVec 15)),
    let c := ctxOf s sc slot
    let cu := ctxOf u sc slot
    let logs := fun (i : Instr) (op : DepOp) (size : Nat) =>
      Passes s u sc slot m size .atomic rightsAtomic p →
      (ch = none ∧ p = .page x c.crew o ∨ ∃ e, ch = some e ∧ p = .chamber e.1 e.2 o ∧ locate u p (effAddr c m size) = .at_ x b) → ∃ t,
        exec i s = .next t
        ∧ (scullOf t x).deposits = (scullOf u x).deposits ++ [{
          crew := cu.crew, chamber := ch, off := o, op := op, value := readReg c d, cidx := cu.cidx, slot := slot, seq := n, image := [] }]
        ∧ (scullOf t x).data = (scullOf u x).data ∧ (scullOf t x).full = (scullOf u x).full
        ∧ ctxOf t sc slot = { touch u sc cu p with st := .waiting (.access u.nextId) }
        ∧ (accessOf t u.nextId).map (·.phase) = some .accepted
    Issues s sc slot [d, m.a, m.b] [] false → (scullOf u x).fenced = false → (scullOf u x).deposits.length < 2048 →
    crewOf u cu.crew = some y → tabGet 0 y.depSeq (cu.cidx.toNat * 64 + slot.toNat) = n →
      logs (.depAdd d m) .add 8 ∧ logs (.depFadds d m) .fadds 4 ∧ logs (.depFaddd d m) .faddd 8 ∧ logs (.depMin d m) .min 8
      ∧ logs (.depMax d m) .max 8 ∧ logs (.depOr d m) .or 8

/-- R179, R288: above 1,536 entries a spill moves the 64 oldest entries to their crew's region; here all entries are of one crew with room. The
words that the cox writes for an entry are free values, and fewer entries move only where the region cannot be written, which faults the
crew's task (log 32). Either way no entry is lost. -/
def Sys2Proof.Parts.DepositSpills : Prop :=
  ∀ (s : State) (sc : ScullId) (crew : CrewId) (x : Crew) (i : Nat),
    let l := (scullOf s sc).deposits
    s.actor = .scull sc → 1536 < l.length → (∀ e ∈ l, e.crew = crew) → crewOf s crew = some x → memberIndex s crew sc = some i →
    (tabGet [] x.spills i).length + 64 ≤ 2048 →
      ∃ t y n, exec .depositSpill s = .next t ∧ n ≤ 64 ∧ (scullOf t sc).deposits = l.drop n ∧ crewOf t crew = some y
        ∧ (tabGet [] y.spills i).map (fun e => { e with image := [] }) = (tabGet [] x.spills i ++ l.take n).map (fun e => { e with image := [] }) ∧ (y.faulted = false → n = 64)


/-- A deposit is logged at its destination; above the threshold the oldest entries are spilled (log 32 where the region cannot be written). -/
def Obligations.DepositLog : Prop :=
  Sys2Proof.Parts.Deposits ∧ Sys2Proof.Parts.DepositSpills

/-! ### Fences, siphons, links, barriers and semaphores (R158, R183 to R202) -/

/-- R145, R158, R386: a FENCE of a context that has touched nothing completes at once and discards the words it has fetched, but at system scope
a pending aperture write is waited for. One with a mask or an overlap access outstanding waits, with a probe to each scull of the mask (one
for each scull: log 82); a probe with no access of the context before it echoes; the last echo, with the drain done, completes the fence. -/
def Obligations.Fences : Prop :=
  ∀ (s : State) (sc : ScullId) (slot : Slot) (scope : Scope) (target : ScullId),
    let c := ctxOf s sc slot
    let done := { c with touched := .none, fetched := [] }
    (Issues s sc slot [] [] false →
      (c.touched = .none → c.overlap = [] → scope ≠ .system ∨ aperturePending s sc slot = false → exec (.fence scope) s = .next (finish s sc slot done))
      ∧ (c.touched = .none → c.overlap = [] → aperturePending s sc slot = true → exec (.fence .system) s =
        .next (postLater (park s sc slot c (.fence .system [])) (.context sc slot) (.fenceEcho sc slot sc)))
      ∧ (c.touched ≠ .none ∨ c.overlap ≠ [] → ∃ t, exec (.fence scope) s = .next t
        ∧ ctxOf t sc slot = { c with st := .waiting (.fence scope (probeTargets sc c.touched)) }
        ∧ ∀ y ∈ probeTargets sc c.touched, ∃ e ∈ t.agenda, e.instr = .fenceProbe sc slot y ∧ e.actor = .context sc slot))
    ∧ (c.overlap = [] → exec (.fenceProbe sc slot target) s = .next (postLater s (.context sc slot) (.fenceEcho sc slot target)))
    ∧ (∀ l, c.st = .waiting (.fence scope l) → l.erase target = [] → c.back = none → drained s sc slot c scope = true →
      exec (.fenceEcho sc slot target) s = .next (setCtx s sc slot { retire done with st := .ready }))

/-- R164, R184: the five siphon operations on a siphon that nobody waits at, its header words CFG, FREE, FILLED, WPOS and RPOS in this order, of N
slots of B bytes: SIPW takes a free slot and gives its address, SIPP publishes the next slot in order, SIPR takes the oldest filled one, SIPF
frees one, SIPI makes the header, and the context waits for the answer; a SIPW with no slot free waits for one. -/
def Obligations.Siphons : Prop :=
  ∀ (s u : State) (sc : ScullId) (slot : Slot) (d : Reg) (m : MemRef) (p : Place) (x : ScullId) (b : Nat),
    let c := ctxOf s sc slot
    let h := effAddr c m 8
    let c' := touch u sc (ctxOf u sc slot) p
    let y := scullOf u x
    let word := fun (z : Scull) (i : Nat) => spadRead z (b + 8 * i) 8
    let n := ((word y 0).setWidth 16 : BitVec 16).toNat
    let size := 8 * ((word y 0).extractLsb' 16 10 : BitVec 10).toNat
    let passes := fun (need : Rights) => ∀ k, checkAccess s sc slot c m h 8 64 .siphon need k = k u p
    let ends := fun (i : Instr) (answer : AccessPhase) (header : List Word) => ∃ t, exec i s = .next t
      ∧ ctxOf t sc slot = { c' with st := .waiting (.access u.nextId) } ∧ (accessOf t u.nextId).map (fun a => (a.phase, a.d)) =
        some (answer, match answer with | .value _ => d | _ => 0)
      ∧ (List.range 5).map (word (scullOf t x)) = header
    m.mode ≠ .shl → m.mode ≠ .crw → alignAddr c m h % 64 = 0 → locate u p h = .at_ x b → (∀ i < 5, setHas y.poison (b / 8 + i) = false) →
    y.sipWaiters = [] → (∀ i < 5, tabGet [] y.wordQueues (b / 8 + i) = []) →
      (Issues s sc slot [m.a, m.b] [d] false → passes rightsWrite → siphonCfgOk (word y 0) = true →
        (word y 1 ≠ 0 → ends (.sipw d m) (.value (h + 64 + word y 3 * BitVec.ofNat 64 size))
          [word y 0, word y 1 - 1, word y 2, BitVec.ofNat 64 ((word y 3 + 1).toNat % n), word y 4])
        ∧ (word y 1 = 0 → ∃ t, exec (.sipw d m) s = .next t ∧ ctxOf t sc slot = { c' with st := .waiting .siphon }
          ∧ (List.range 5).map (word (scullOf t x)) = (List.range 5).map (word y)))
      ∧ (Issues s sc slot [m.a, m.b] [d] false → passes rightsRead → siphonCfgOk (word y 0) = true → word y 2 ≠ 0 →
        ends (.sipr d m) (.value (h + 64 + word y 4 * BitVec.ofNat 64 size))
          [word y 0, word y 1, word y 2 - 1, word y 3, BitVec.ofNat 64 ((word y 4 + 1).toNat % n)])
      ∧ (Issues s sc slot [m.a, m.b] [] false → passes rightsRead → siphonCfgOk (word y 0) = true →
        ends (.sipf m) .accepted [word y 0, word y 1 + 1, word y 2, word y 3, word y 4])
      ∧ (Issues s sc slot [d, m.a, m.b] [] false → passes rightsWrite →
        (scratchOutstanding s c = false → siphonCfgOk (word y 0) = true →
          (readReg c d).toNat = h.toNat + 64 + size * ((word y 4 + word y 2).toNat % n) →
          ends (.sipp d m) .accepted [word y 0, word y 1, word y 2 + 1, word y 3, word y 4])
        ∧ (siphonCfgOk (readReg c d) = true →
          ends (.sipi d m) .accepted [readReg c d, ((readReg c d).setWidth 16 : BitVec 16).setWidth 64, 0, 0, 0]))

/-- R186 to R189: SEND leaves with the value and its sender waits; a delivery to a context of the crew whose link register is empty fills
it and reports; the report ends the sender's wait. KRD takes a present value and empties the register, and waits for one that is not;
KTST tells. -/
def Obligations.LinkRegisters : Prop :=
  ∀ (s : State) (sc : ScullId) (slot : Slot) (k : BitVec 2) (d a b : Reg),
    let c := ctxOf s sc slot
    let l := linkOf c k
    let ga := readReg c a
    let i : BitVec 11 := ga.extractLsb' 16 11
    (Issues s sc slot [a, b] [] false → i.toNat ≤ c.csz.toNat → scratchOutstanding s c = false →
      let msg : SendMsg := {
        sc := sc, slot := slot, target := memberOf s c.crew sc i.toNat, targetSlot := ga.setWidth 6, crew := c.crew, k := k,
        value := readReg c b, ga := ga, arrived := none, held := none, report := none }
      exec (.send k a b) s =
        .next (postLater (park (addItem s (.send msg)) sc slot c (.send s.nextId)) (.item s.nextId) .sendDelivery))
    ∧ (∀ id (m : SendMsg), s.actor = .item id → s.items = [(id, .send m)] → m.arrived = none → m.held = none → m.report = none →
      let t := ctxOf s m.target m.targetSlot
      t.st = .ready → t.crew = m.crew → (scullOf s m.target).fenced = false → (linkOf t m.k).present = false →
      isFrozen (ctxOf s m.sc m.slot) = false →
        ∃ u, exec .sendDelivery s = .next u ∧ linkOf (ctxOf u m.target m.targetSlot) m.k = { value := m.value, present := true }
          ∧ ∃ e ∈ u.agenda, e.actor = .item id ∧ e.instr = .sendReport)
    ∧ (∀ id (m : SendMsg), s.actor = .item id → itemOf s id = some (.send m) → m.report = some none → m.sc = sc → m.slot = slot →
      c.st = .waiting (.send id) → c.back = none → exec .sendReport s = .next (setCtx (dropItem s id) sc slot { retire c with st := .ready }))
    ∧ (Issues s sc slot [] [d] false →
      (l.present = true → s.items = [] →
        exec (.krd d k) s = .next (finishReg s sc slot (setLink c k { l with present := false }) d l.value))
      ∧ (l.present = false → exec (.krd d k) s = .next (park s sc slot c (.krd d k)))
      ∧ Gives s sc slot (.ktst d k) d fun v => v = if l.present then 1 else 0)

/-- R196 to R198: BAR arrives once the context's accesses have performed at its level's scope, and waits. -/
def Sys2Proof.Parts.BarrierArrival : Prop :=
  ∀ (s : State) (sc : ScullId) (slot : Slot) (level : BarLevel) (settle : Bool) (x : Crew),
    let c := ctxOf s sc slot
    let group := match level with | .cgrp => sc.toNat | .sgrp => sc.toNat / 8 | .crew => 0
    let scope := match level with | .cgrp => Scope.core | .sgrp => .shell | .crew => .package
    Issues s sc slot [] [] false → (∀ e ∈ c.barrier, e.1 ≠ level) → crewOf s c.crew = some x → drained s sc slot c scope = true →
      ∃ t y b, exec (.bar level settle) s = .next t
        ∧ ctxOf t sc slot = { c with barrier := c.barrier ++ [(level, false)], st := .waiting (.barrier level group) }
        ∧ crewOf t c.crew = some y ∧ barrierOf y level group = some b ∧ ctxKey sc slot ∈ b.arrived ∧ (settle = true → b.settle = true)

/-- R197: a BAR whose arrival at the level already counts is not counted again: it waits on, or completes where its instance has completed
meanwhile. Arrivals at other levels stay as they are. -/
def Sys2Proof.Parts.BarrierReissue : Prop :=
  ∀ (s : State) (sc : ScullId) (slot : Slot) (level : BarLevel) (settle done : Bool) (before after : List (BarLevel × Bool)),
    let c := ctxOf s sc slot
    let group := match level with | .cgrp => sc.toNat | .sgrp => sc.toNat / 8 | .crew => 0
    Issues s sc slot [] [] false → c.barrier = before ++ (level, done) :: after → (∀ e ∈ before ++ after, e.1 ≠ level) →
      (done = true → exec (.bar level settle) s = .next (finish s sc slot { c with barrier := before ++ after }))
      ∧ (done = false → ∃ t, exec (.bar level settle) s = .next t ∧ ctxOf t sc slot = { c with st := .waiting (.barrier level group) }
        ∧ ∀ k, (crewOf t k).map (·.barriers) = (crewOf s k).map (·.barriers))

/-- R198: a barrier whose members have all arrived completes them all in one step, and its instance is over. -/
def Sys2Proof.Parts.BarrierCompletion : Prop :=
  ∀ (s : State) (crew : CrewId) (level : BarLevel) (group : Nat) (x : Crew) (b : Barrier),
    crewOf s crew = some x → barrierOf x level group = some b → allArrived s crew x b = true → (b.settle = true → b.settled = true) →
    b.away = [] → b.arrived.Nodup → (∀ k ∈ b.arrived, (ctxAt s k).st = .waiting (.barrier level group) ∧ (ctxAt s k).back = none) →
      ∃ t, exec (.barrierComplete crew level group) s = .next t
        ∧ (∀ k ∈ b.arrived, ctxAt t k = { retire (ctxAt s k) with barrier := (ctxAt s k).barrier.filter (·.1 != level), st := .ready })
        ∧ (∀ k, k ∉ b.arrived → ctxAt t k = ctxAt s k)
        ∧ ∃ y, crewOf t crew = some y ∧ barrierOf y level group = none

/-- R180, R198: the settle of a barrier applies the logged entries; here one addition, at a page that is pinned: the word takes the sum, its F
bit is full, the log is empty, and the instance is settled. -/
def Sys2Proof.Parts.BarrierSettle : Prop :=
  ∀ (s : State) (crew : CrewId) (level : BarLevel) (group : Nat) (x : Crew) (b : Barrier) (sc : ScullId) (e : Deposit) (f : Nat),
    let y := scullOf s sc
    let place := f * 4096 + e.off % 4096
    crewOf s crew = some x → barrierOf x level group = some b → allArrived s crew x b = true → b.settle = true → b.settled = false →
    x.spills = [] → unitDeposits s crew = [(sc, e)] → e.crew = crew → e.chamber = none → e.op = .add → y.fenced = false →
    pageState s sc crew (e.off / 4096) = some (.pinned f) → tabGet [] y.wordQueues (place / 8) = [] →
      ∃ t z q, exec (.barrierSettle crew level group) s = .next t
        ∧ spadRead (scullOf t sc) place 8 = spadRead y place 8 + e.value
        ∧ (∀ k, k < place ∨ place + 8 ≤ k → memRead (scullOf t sc).data k = memRead y.data k)
        ∧ setHas (scullOf t sc).full (place / 8) = true
        ∧ unitDeposits t crew = [] ∧ crewOf t crew = some z ∧ barrierOf z level group = some q ∧ q.settled = true

/-- BAR arrives, settles logged deposits, and completes for all its members at once. -/
def Obligations.Barriers : Prop :=
  Sys2Proof.Parts.BarrierArrival ∧ Sys2Proof.Parts.BarrierReissue ∧ Sys2Proof.Parts.BarrierCompletion ∧ Sys2Proof.Parts.BarrierSettle

/-- R200 to R202, R397: SEMP takes a unit that no waiter before it can take, or waits, SEMV gives one unless the count is full, SEMRD reads and SEMSET sets the count. -/
def Obligations.Semaphores : Prop :=
  ∀ (s : State) (sc : ScullId) (slot : Slot) (n : BitVec 5) (d a : Reg),
    let c := ctxOf s sc slot
    let x := scullOf s sc
    let count := tabGet 0 x.sems n.toNat
    let waiting := tabGet [] x.semQueues n.toNat
    let leaves := fun (i : Instr) (v : BitVec 32) => exec i s =
      .next (setScull (finish s sc slot c) sc { x with sems := tabSet x.sems n.toNat v })
    (Issues s sc slot [] [] false →
      (count ≠ 0 → (∀ k ∈ waiting, isFrozen (ctxAt s k) = true) → exec (.semp n) s = .next (finish (setScull s sc { x with sems := tabSet x.sems n.toNat (count - 1) }) sc slot c))
      ∧ (count = 0 → exec (.semp n) s = .next
        (park (setScull s sc { x with semQueues := tabSet x.semQueues n.toNat (waiting ++ [ctxKey sc slot]) }) sc slot c (.semaphore n)))
      ∧ (waiting = [] → scratchOutstanding s c = false →
        (count ≠ 0xFFFFFFFF → leaves (.semv n) (count + 1)) ∧ (count = 0xFFFFFFFF → exec (.semv n) s = .next (finish s sc slot c))))
    ∧ (Issues s sc slot [] [d] false → Gives s sc slot (.semrd d n) d fun v => v.toNat = count.toNat)
    ∧ (Issues s sc slot [a] [] false → waiting = [] → leaves (.semset n a) ((readReg c a).setWidth 32))


/-! ### Launches and the end of a context (R20 to R33, R190 to R195) -/

/-- R20, R21, R190 to R195: LAUNCH to a scull of the crew sends its message and waits; CLAUNCH hands its packet to the launch unit and waits;
LWAIT completes when its status names nothing to wait for, and else leaves rotation; at its party it completes where the count differs; a
message that its scull accepts makes a context in STARTING, whose registers are zero but g1 and g2, and answers 0; it becomes READY with a
clean window; the status word ends the sender's wait. -/
def Obligations.Launches : Prop :=
  ∀ (s u : State) (sc : ScullId) (slot : Slot) (d a b x y : Reg),
    let c := ctxOf s sc slot
    let ga := readReg c a
    let i : BitVec 11 := ga.extractLsb' 0 11
    (∀ w, Issues s sc slot [a, b, x, y] [d] false → ga.toNat = i.toNat → i.toNat ≤ c.csz.toNat → (readReg c b).toNat % 8 = 0 →
      drained s sc slot c .package = true → ReadsHeader s u sc slot (readReg c b) w →
      let k := ctxOf u sc slot
      let target := memberOf s c.crew sc i.toNat
      exec (.launch d a b x y) s = .next (sendLaunch u sc slot k d ga {
        sender := none, target := target, crew := k.crew, entry := readReg c b, g1 := readReg k x, g2 := readReg k y,
        header := if inColumn u target && !inColumn u sc then none else readHeader w,
        caps := k.caps, asid := k.asid, ptroot := k.ptroot, prv := k.prv, accepted := false }))
    ∧ (∀ l, Issues s sc slot [a] [d] false → ga.toNat % 64 = 0 → drained s sc slot c .package = true → ReadsBlock s u sc slot ga 8 l →
      ∃ t st, exec (.claunch d a) s = .next t ∧ ctxOf t sc slot = { ctxOf u sc slot with st := .waiting (.status d u.nextId) }
        ∧ tabFind t.unit.starts (u.nextId + 1) = some st ∧ st.packet = l ∧ st.sender = some u.nextId ∧ st.judged = false
        ∧ st.caps = (ctxOf u sc slot).caps ∧ st.asid = (ctxOf u sc slot).asid ∧ st.ptroot = (ctxOf u sc slot).ptroot
        ∧ ∃ e ∈ t.agenda, e.instr = .launchUnitStart)
    ∧ (Issues s sc slot [a] [] false → c.st = .ready →
      let status : BitVec 2 := ga.extractLsb' 0 2
      let far : BitVec 11 := ga.extractLsb' 16 11
      let named := status ≠ 0 ∧ status ≠ 2 ∧ (ga.getLsbD 31 = true ∨ far.toNat ≤ c.csz.toNat)
      (¬named → exec (.lwait a) s = .next (finish s sc slot c))
      ∧ (named → exec (.lwait a) s = .next (postLater
          (park s sc slot c (.notice (ga.getLsbD 31) (memberOf s c.crew sc far.toNat) (ga.extractLsb' 32 32))) (.context sc slot) (.lwait a))))
    ∧ (∀ unit party n, s.actor = .context sc slot → c.st = .waiting (.notice unit party n) → c.back = none →
      let count := if unit then s.unit.notice else (scullOf s party).notice
      (count = n → exec (.lwait a) s = .next s)
      ∧ (count ≠ n → exec (.lwait a) s = .next (setCtx s sc slot { retire c with st := .ready })))
    ∧ (∀ id m h q st k, s.actor = .item id → itemOf s id = some (.launch m) → m.accepted = false → m.header = some h → h.cls = .owner →
      setHas s.isolated (m.target.toNat / 8) = false → (scullOf s m.target).fenced = false →
      (groupOf s m.target m.crew).bind (·.kept) = none → takesLaunches s m.crew = true → roomFor s m.target m.crew h 1 = true →
      freeSlot s m.target = some k → (scullOf s m.target).revokes = [] → startsFrozen s m.target m.crew = false → m.sender = some q → q ≠ id → statusOf s q = some st →
      ∃ t, exec .activeMessageArrival s = .next t
        ∧ (let n := ctxOf t m.target k
          n.st = .starting ∧ n.pc = m.entry ∧ n.hdr = h ∧ n.crew = m.crew ∧ n.caps = m.caps ∧ n.asid = m.asid ∧ n.prv = m.prv
          ∧ ∀ r, readReg n r = if r = 1 then m.g1 else if r = 2 then m.g2 else 0)
        ∧ (∃ e ∈ t.agenda, e.instr = .contextStart ∧ e.actor = .context m.target k ∧ e.due = s.cycle + 27)
        ∧ ∃ st', statusOf t q = some st' ∧ st'.trap = none ∧ st'.value.extractLsb' 0 2 = (0 : BitVec 2)
          ∧ st'.value.extractLsb' 32 32 = (scullOf s m.target).notice)
    ∧ (∀ w, s.actor = .context sc slot → c.st = .starting → c.size = 0 → freshLeft s sc c.crew = false →
      cleanWindow s sc (8 * c.hdr.rgn) = some w →
      exec .contextStart s = .next (setCtx s sc slot { c with base := w, size := 8 * c.hdr.rgn, st := .ready }))
    ∧ (∀ id m, s.actor = .item id → statusOf s id = some m → m.trap = none → m.sc = sc → m.slot = slot → c.st = .waiting (.status m.d id) → c.back = none →
      exec .launchStatusReturn s = .next (setCtx (dropItem s id) sc slot { retire (writeReg c m.d m.value) with st := .ready }))

/-- R31, R33, R34, R129: HALT and HALT.KEEP of a context with no access outstanding and no engine bound, of a crew that is being pre-empted
by nothing and has another context on the scull, free the slot, leave the window dirty and give the notice; HALT.KEEP traps on an entry that
is no multiple of 8. A scrub returns a dirty window clean, or a dirty frame with every word zero, empty and not poisoned. Kept frames whose
time has passed, or that are released, are no more the group's. Of a context that is the crew's last one on the scull HALT.KEEP keeps the
frames, with their data and F bits, for its entry until SC.KEEP.KEEPTO has passed; after HALT the group is gone. -/
def Obligations.ContextEnds : Prop :=
  ∀ (s : State) (sc : ScullId) (slot : Slot) (a : Reg),
    let c := ctxOf s sc slot
    let x := scullOf s sc
    (c.overlap = [] → boundEngines s sc slot = [] → c.resv = none → c.size ≠ 0 →
      (∀ y, crewOf s c.crew = some y → y.state = .running ∧ y.barriers = []) → (∀ e ∈ s.items, ∀ m, e.2 ≠ .send m) →
      (∀ e ∈ s.agenda, ∀ q, e.instr ≠ .preemptPacket q) →
      (∃ other, other ≠ slot ∧ (ctxOf s sc other).crew = c.crew ∧ (ctxOf s sc other).st ≠ .free) →
      let ends := fun (i : Instr) => ∃ t, exec i s = .next t ∧ ctxOf t sc slot = .absent
        ∧ (scullOf t sc).dirtyWindows = x.dirtyWindows ++ [(c.base, c.size)] ∧ (scullOf t sc).notice = x.notice + 1
        ∧ (scullOf t sc).frames = x.frames
      (Issues s sc slot [] [] false → ends .halt)
      ∧ (Issues s sc slot [a] [] false → (readReg c a).toNat % 8 = 0 → ends (.haltKeep a)))
    ∧ (∀ g, c.overlap = [] → boundEngines s sc slot = [] → c.resv = none → c.size ≠ 0 →
      (∀ y, crewOf s c.crew = some y → y.state = .running ∧ y.barriers = []) → s.items = [] →
      (∀ e ∈ s.agenda, ∀ q, e.instr ≠ .preemptPacket q) →
      (∀ e ∈ s.ctxs, e.1 / 64 = sc.toNat → e.1 ≠ ctxKey sc slot → e.2.crew = c.crew → e.2.st = .free) →
      groupOf s sc c.crew = some g → x.keepto ≠ 0 →
      (Issues s sc slot [] [] false → ∃ t, exec .halt s = .next t ∧ ctxOf t sc slot = .absent ∧ groupOf t sc c.crew = none)
      ∧ (Issues s sc slot [a] [] false → (readReg c a).toNat % 8 = 0 → ∃ t, exec (.haltKeep a) s = .next t ∧ ctxOf t sc slot = .absent
        ∧ groupOf t sc c.crew = some { g with kept := some (readReg c a, s.cycle + x.keepto.toNat) }
        ∧ (scullOf t sc).frames = x.frames ∧ (scullOf t sc).data = x.data ∧ (scullOf t sc).full = x.full
        ∧ ∃ e ∈ t.agenda, e.instr = .keepTimeout ∧ e.actor = .scull sc ∧ e.due = s.cycle + x.keepto.toNat))
    ∧ (Issues s sc slot [a] [] false → (readReg c a).toNat % 8 ≠ 0 →
      exec (.haltKeep a) s = .next (takeTrap s sc slot { code := 0x03, aux := 0, tval := readReg c a } c.pc))
    ∧ (s.actor = .scull sc →
      (∀ w, x.dirtyWindows = [w] → x.dirtyFrames = [] → ∃ t, exec .scrubComplete s = .next t ∧ (scullOf t sc).dirtyWindows = []
        ∧ (scullOf t sc).data = x.data ∧ (scullOf t sc).notice = x.notice + 1)
      ∧ (∀ f, x.dirtyWindows = [] → x.dirtyFrames = [f] → ∃ t, exec .scrubComplete s = .next t ∧ (scullOf t sc).dirtyFrames = []
        ∧ (∀ k, memRead (scullOf t sc).data k = if k / 4096 = f then 0 else memRead x.data k)
        ∧ ∀ w, w / 512 = f → setHas (scullOf t sc).full w = false ∧ setHas (scullOf t sc).poison w = false)
      ∧ (∀ crew g e t, x.groups = [(crew, g)] → crew < 4294967296 → g.kept = some (e, t) →
        (∃ u, exec .keepRelease s = .next u ∧ (scullOf u sc).groups = [])
        ∧ (t ≤ s.cycle → ∃ u, exec .keepTimeout s = .next u ∧ (scullOf u sc).groups = [])
        ∧ (s.cycle < t → exec .keepTimeout s = .next s)))

/-! ### Binding, posting and synchronising with an engine (R218 to R227) -/

/-- R219, R220, R222, R223, R225: EBIND of a free engine that no earlier context waits for binds it with its registers reset, where one waits that one has it and the newcomer
waits behind the others, one that the header does not permit is illegal, and one that is bound elsewhere in the same class is waited for; EFREE frees an idle engine; a post whose record passes every check is
accepted into a queue with room and waits for room otherwise; ESYNC waits until the named engines' queues are empty. -/
def Sys2Proof.Parts.EngineBinding : Prop :=
  ∀ (s : State) (sc : ScullId) (slot : Slot) (e : EngineId) (d a : Reg) (off : BitVec 18) (mask : BitVec 3),
    let c := ctxOf s sc slot
    let x := engineOf s sc e
    let may := match e with | .matrix => c.hdr.em | .vector => c.hdr.ev | .copy => c.hdr.ec
    let reset := { Engine.reset with bindQueue := x.bindQueue, fwcnt := x.fwcnt }
    let ra := readReg c a + off.signExtend 64
    let unbound : Trap := { code := 0x0D, aux := 0x01, tval := 0 }
    let record := Record.ofBits (BitVec.ofNat 512 (memReadNat (scullOf s sc).data (ownByte s sc c ra.toNat) 64))
    let posts := fun (i : Instr) (g : Word) => ra.toNat % 64 = 0 → ownRange s sc c ra 64 = .at_ → x.bound = some slot →
      (∀ k < 8, setHas (scullOf s sc).poison (ownByte s sc c ra.toNat / 8 + k) = false) → recordLegal e record g = true →
      postOutstanding s c = false →
      let ct := touchOwn s sc c ra 64
      (x.queue.length < 2 → ∃ t, exec i s = .next t ∧ ctxOf t sc slot = retire ct
        ∧ (engineOf t sc e).queue = x.queue ++ [{ id := s.nextId, record := record, g := g, caps := c.caps, addr := ra }])
      ∧ (2 ≤ x.queue.length → exec i s = .next
        (park s sc slot ct (.posted e { id := 0, record := record, g := g, caps := [], addr := ra })))
    (Issues s sc slot [] [] false →
      (may = false → exec (.ebind e) s = .next (trapIllegal s sc slot (.ebind e)))
      ∧ (may = true → x.bound = none → shadowTaken s sc e = false → bindWanted s sc e = false →
        exec (.ebind e) s = .next (finish (setEngine s sc e { reset with bound := some slot }) sc slot c))
      ∧ (∀ k rest, may = true → x.bound = none → shadowTaken s sc e = false → x.bindQueue = k :: rest → k ≠ slot → k ∉ rest →
        (ctxOf s sc k).st = .waiting (.bind e) → (ctxOf s sc k).back = none → (ctxOf s sc k).hdr.cls = .owner →
        ∃ t, exec (.ebind e) s = .next t ∧ (engineOf t sc e).bound = some k ∧ (engineOf t sc e).bindQueue = rest ++ [slot]
          ∧ ctxOf t sc k = { retire (ctxOf s sc k) with st := .ready } ∧ ctxOf t sc slot = { c with st := .waiting (.bind e) })
      ∧ (may = true → x.bound = some slot → exec (.ebind e) s = .next (finish s sc slot c))
      ∧ (∀ other, may = true → x.bound = some other → other ≠ slot → (ctxOf s sc other).hdr.cls = c.hdr.cls → exec (.ebind e) s = .next
        (park (setEngine s sc e { x with bindQueue := x.bindQueue ++ [slot] }) sc slot c (.bind e)))
      ∧ (x.bound = some slot → x.queue = [] → x.bindQueue = [] → exec (.efree e) s = .next (setEngine (finish s sc slot c) sc e reset))
      ∧ (x.bound = some slot → x.queue ≠ [] →
        exec (.efree e) s = .next (park s sc slot c (.reissue (.engine ((1 : BitVec 3) <<< engineIndex e)))))
      ∧ (x.bound ≠ some slot → exec (.efree e) s = .next (takeTrap s sc slot unbound c.pc))
      ∧ (let named := fun (y : EngineId) => mask.getLsbD (engineIndex y) = true
        ((∀ y, named y → (engineOf s sc y).bound = some slot ∧ (engineOf s sc y).queue = []) →
          exec (.esync mask) s = .next (finish s sc slot c))
        ∧ ((∃ y, named y ∧ (engineOf s sc y).bound ≠ some slot) → exec (.esync mask) s = .next (takeTrap s sc slot unbound c.pc))
        ∧ ((∀ y, named y → (engineOf s sc y).bound = some slot) → (∃ y, named y ∧ (engineOf s sc y).queue ≠ []) →
          exec (.esync mask) s = .next (park s sc slot c (.reissue (.engine mask))))))
    ∧ (Issues s sc slot [a] [] false → (e = .matrix → posts (.mpost a off) 0) ∧ (e = .vector → posts (.vpost a off) 0))
    ∧ (Issues s sc slot [d, a] [] false → e = .copy → posts (.cpost d a off) (readReg c d))

/-- R226, R227, R229, R230, R280: an image of an idle engine that is bound: ESAVE writes the signature, STAT, CTL, for the matrix engine LST
and the accumulators, as whole words with F full; ERESTORE of an image with the engine's signature loads BADCNT, BAD, the flags and CTL, for
the matrix engine the accumulators, with LV cleared; ERESTORE.C changes nothing. -/
def Sys2Proof.Parts.EngineImages : Prop :=
  ∀ (s : State) (sc : ScullId) (slot : Slot) (a : Reg) (off : BitVec 18),
    let c := ctxOf s sc slot
    let ia := readReg c a + off.signExtend 64
    let ready := fun (e : EngineId) (n : Nat) => ia.toNat % 64 = 0 ∧ ownRange s sc c ia n = .at_ ∧ (engineOf s sc e).bound = some slot
      ∧ (engineOf s sc e).queue = []
    let sign : EngineId → Word := fun e => 0x4B39E000 + BitVec.ofNat 64 (engineIndex e)
    let ct := fun (n : Nat) => touchOwn s sc c ia n
    let saves := fun (e : EngineId) (n : Nat) (i : Instr) (w2 w3 : Word) (rest : List (Word × Bool)) => exec i s = .next (finish
      (engineWords (setCtx s sc slot (ct n)) sc (ct n) ia.toNat ([sign e, engineStat e (engineOf s sc e), w2, w3, 0, 0, 0, 0].map (·, false) ++ rest)) sc slot (ct n))
    let at_ := fun (n : Nat) => spadRead (scullOf s sc) (ownByte s sc c (ia.toNat + n)) 8
    let holds := fun (e : EngineId) => at_ 0 = sign e ∧ ∀ i < 3, setHas (scullOf s sc).poison (ownByte s sc c (ia.toNat + 8 * i) / 8) = false
    let loaded := fun (x : Engine) => { x with badcnt := (at_ 8).extractLsb' 16 16, bad := (at_ 8).getLsbD 9, flags := (at_ 8).extractLsb' 0 5,
                                               bte := (at_ 16).getLsbD 5, fen := (at_ 16).extractLsb' 0 5 }
    let m := engineOf s sc .matrix
    let v := engineOf s sc .vector
    Issues s sc slot [a] [] false →
      (ready .matrix 16448 →
        saves .matrix 16448 (.esaveM a off) (engineCtl .matrix m) (latchWord m.lst)
          ((List.range 2048).map fun i => (BitVec.ofNat 64 (memReadNat m.acc (8 * i) 8), setHas m.accPoison (i / 512)))
        ∧ (holds .matrix → exec (.erestoreM a off) s = .next (finish (setEngine (setCtx s sc slot (ct 16448)) sc .matrix
          { loaded m with acc := (loadAcc s sc c (ia.toNat + 64)).1, accPoison := (loadAcc s sc c (ia.toNat + 64)).2,
                          lst := { m.lst with lv := false } }) sc slot (ct 16448))))
      ∧ (ready .vector 64 →
        saves .vector 64 (.esaveV a off) (engineCtl .vector v) 0 []
        ∧ (holds .vector → exec (.erestoreV a off) s = .next (finish (setEngine (setCtx s sc slot (ct 64)) sc .vector (loaded v)) sc slot (ct 64))))
      ∧ (ready .copy 64 → saves .copy 64 (.esaveC a off) 0 0 []
        ∧ (holds .copy → exec (.erestoreC a off) s = .next (finish s sc slot (ct 64))))

/-- Binding, posting, synchronising, saving and restoring engines. -/
def Obligations.EnginesBoundAndSaved : Prop :=
  Sys2Proof.Parts.EngineBinding ∧ Sys2Proof.Parts.EngineImages

/-- R41, R224, R234, R232: the head of a bound engine's queue starts, with the vector engine's wide registers zero; the sequencer issues the next unit while fewer than four are in flight; a
command whose units have all performed leaves the queue, signals its semaphore, and the next one starts in the cycle after. -/
def Obligations.CommandRun : Prop :=
  ∀ (s : State) (sc : ScullId) (e : EngineId) (slot : Slot) (cmd : Command) (rest : List Command),
    let x := engineOf s sc e
    let p := x.prog
    let w := workOf e x cmd
    s.actor = .engine sc e → x.queue = cmd :: rest → x.bound = some slot → (scullOf s sc).fenced = false →
      (x.started = false → e = .copy → exec .commandStart s = .next
        (postOnce (setEngine s sc e { x with started := true, prog := .none, dropped := none }) (.engine sc e) .sequencerUnitIssue))
      ∧ (x.started = false → e = .vector → exec .commandStart s = .next
        (postOnce (setEngine s sc e { x with started := true, prog := .none, dropped := none, wide := [], widePoison := [] })
          (.engine sc e) .sequencerUnitIssue))
      ∧ (x.started = false → e = .matrix → (isProduct cmd.record && latchUnfit x cmd.record) = false → exec .commandStart s = .next
        (postOnce (setEngine s sc e (startMatrix { x with started := true, prog := .none, dropped := none } cmd.record)) (.engine sc e)
          .sequencerUnitIssue))
      ∧ (x.started = true → x.frz = false → x.dropped = none → p.next < w.total → p.inflight.length < 4 →
        let count := max 1 (min (w.unit p.next) (w.total - p.next))
        ∃ t y, exec .sequencerUnitIssue s = .next t ∧ engineOf t sc e = { y with
            prog := { p with next := p.next + count, inflight := p.inflight ++ [{ first := p.next, count := count, mask := [] }] } }
          ∧ y = { x with wide := y.wide, widePoison := y.widePoison } ∧ (e ≠ .vector → y = x))
      ∧ (x.started = true → x.frz = false → p.inflight = [] → p.owed = [] → p.next = w.total → completionTrap e x = none →
        (ctxOf s sc slot).st = .ready → (scullOf s sc).semQueues = [] →
        ∃ t, exec .commandComplete s = .next t ∧ engineOf t sc e = { x with queue := rest, started := false, prog := .none }
          ∧ (∀ n, tabGet 0 (scullOf t sc).sems n = if cmd.record.semen = 1 ∧ n = cmd.record.semn.toNat ∧ tabGet 0 (scullOf s sc).sems n ≠ 0xFFFFFFFF
            then tabGet 0 (scullOf s sc).sems n + 1 else tabGet 0 (scullOf s sc).sems n)
          ∧ (rest ≠ [] → ∃ q ∈ t.agenda, q.instr = .commandStart ∧ q.actor = .engine sc e ∧ q.due = s.cycle + 1))


/-! ### Records (R239 to R252, R260 to R279) -/

/-- R240 to R242, R249: what one element of an elementwise, comparison, selection or index record writes, from its sources in the order of
D1, D2, D3; an FP result is rounded to FMTD, an integer result wraps or is clamped, and flags accumulate (0 / 0 and infinity / infinity: log
85). -/
def Sys2Proof.Parts.VectorElements : Prop :=
  ∀ (s : State),
    let at1 := fun (op : Instr) (h : Record → Nat → Nat × BitVec 5) =>
      VectorGives s op fun cmd x _ l => let v := h cmd.record (l.getD 0 0); (addFlags x v.2, [v.1])
    let at2 := fun (op : Instr) (h : Record → Nat → Nat → Nat × BitVec 5) =>
      VectorGives s op fun cmd x _ l => let v := h cmd.record (l.getD 0 0) (l.getD 1 0); (addFlags x v.2, [v.1])
    let at3 := fun (op : Instr) (h : Record → Nat → Nat → Nat → Nat × BitVec 5) =>
      VectorGives s op fun cmd x _ l => let v := h cmd.record (l.getD 0 0) (l.getD 1 0) (l.getD 2 0); (addFlags x v.2, [v.1])
    let bits2 := fun (op : Instr) (h : Nat → Nat → Nat → Nat) =>
      at2 op fun r a b => let w := 8 * fmtBytes r.fmta; (h w a b % 2 ^ w, 0)
    let compares := fun (op : Instr) (quiet : Bool) (fp : FVal → FVal → Bool) (int : Int → Int → Bool) => at2 op fun r a b =>
      match fmtKind r.fmta with
      | .fp f => (if fp (f.read a) (f.read b) then 1 else 0,
          if (if quiet then (f.read a).isSnan || (f.read b).isSnan else (f.read a).isNan || (f.read b).isNan) then flagNV else 0)
      | .int w sg => (if int (laneInt w sg a) (laneInt w sg b) then 1 else 0, 0)
      | _ => (0, 0)
    at2 .vadd (fun r a b => arith r (fun f => fpAdd (recRnd r) (f.read a) (f.read b)) fun w g => laneInt w g a + laneInt w g b)
    ∧ at2 .vsub (fun r a b => arith r (fun f => fpSub (recRnd r) (f.read a) (f.read b)) fun w g => laneInt w g a - laneInt w g b)
    ∧ at2 .vmul (fun r a b => arith r (fun f => fpMul (f.read a) (f.read b)) fun w g => laneInt w g a * laneInt w g b)
    ∧ at2 .vdiv (fun r a b => arith r (fun f => fpDiv (f.read a) (f.read b)) fun _ _ => 0)
    ∧ at3 .vfma (fun r a b c => arith r (fun f => fpFma (recRnd r) (f.read a) (f.read b) (f.read c))
        fun w g => laneInt w g a * laneInt w g b + laneInt w g c)
    ∧ at2 .vmin (fun r => minLane (fmtKind r.fmtd)) ∧ at2 .vmax (fun r => maxLane (fmtKind r.fmtd))
    ∧ at1 .vabs (fun r a => arith r (fun f => signLane (fun _ => false) (f.read a)) fun w g => (laneInt w g a).natAbs)
    ∧ at1 .vneg (fun r a => arith r (fun f => signLane (!·) (f.read a)) fun w g => -laneInt w g a)
    ∧ at1 .vsqrt (fun r a => arith r (fun f => fpSqrt (f.read a)) fun w g => laneInt w g a)
    ∧ at1 .vrcp (fun r a => arith r (fun f => fpDiv (.fin false 1 0) (f.read a)) fun w g => laneInt w g a)
    ∧ at2 .vscalb scaleLane
    ∧ at1 .vrint (fun r a => arith r (fun f => fpRint (recRnd r) (f.read a)) fun _ _ => 0)
    ∧ bits2 .vand (fun _ a b => a &&& b) ∧ bits2 .vor (fun _ a b => a ||| b) ∧ bits2 .vxor (fun _ a b => a ^^^ b)
    ∧ bits2 .vandn (fun w a b => a &&& (2 ^ w - 1 - b))
    ∧ bits2 .vshl (fun w a b => a * 2 ^ (b % w)) ∧ bits2 .vshr (fun w a b => a / 2 ^ (b % w))
    ∧ bits2 .vsra (fun w a b => (laneInt w true a / 2 ^ (b % w) % 2 ^ w).toNat)
    ∧ at1 .vcnt (fun r a => (onesBelow a (8 * fmtBytes r.fmta), 0))
    ∧ compares .vceq true fpEq (fun a b => decide (a = b)) ∧ compares .vclt false fpLt (fun a b => decide (a < b))
    ∧ compares .vcle false fpLe (fun a b => decide (a ≤ b))
    ∧ at3 .vsel (fun _ a b c => (if c ≠ 0 then a else b, 0))
    ∧ at1 .vcvt (fun r a => convertLane (fmtKind r.fmta) (fmtKind r.fmtd) (recRnd r) (recSat r) a)
    ∧ VectorGives s .viota fun cmd x n _ =>
        let v := intIn (fmtKind cmd.record.fmtd) (recRnd cmd.record) (recSat cmd.record) n
        (addFlags x v.2, [v.1])

/-- R244 to R248: what one element of a transcendental (UF of its FP32 step counts: log 85), reduction, complex or ternary record writes. A reduction keeps its converted
elements, and the last of each row writes the tree's result; a complex product rounds each component once; VUNP3 writes the five trits of a
byte, and five zeros for an illegal one, which is counted. -/
def Sys2Proof.Parts.VectorFunctions : Prop :=
  ∀ (s : State),
    let at1 := fun (op : Instr) (t : FVal → TOut) =>
      VectorGives s op fun cmd x _ l => let v := transLane t cmd.record (l.getD 0 0); (addFlags x v.2, [v.1])
    let reduces := fun (op : Instr) (h : Record → Nat → Nat → Nat × BitVec 5) =>
      VectorGives s op fun cmd x n l =>
        let r := cmd.record
        let i := n % r.t0.toNat
        let row := n / r.t0.toNat * r.t0.toNat
        let v := convertLane (fmtKind r.fmta) (fmtKind r.fmtd) (recRnd r) (recSat r) (l.getD 0 0)
        let kept := tabSet x.prog.lanes n (BitVec.ofNat 64 v.1)
        let y := treeReduce (h r) r.t0.toNat ((List.range r.t0.toNat).map fun j => (tabGet 0 kept (row + j)).toNat)
        if i + 1 = r.t0.toNat then
          ({ x with flags := x.flags ||| v.2 ||| y.2, prog := { x.prog with
            flags := x.prog.flags ||| v.2 ||| y.2, lanes := kept.filter fun e => !(row ≤ e.1 && e.1 ≤ n) } }, [y.1])
        else ({ x with flags := x.flags ||| v.2, prog := { x.prog with flags := x.prog.flags ||| v.2, lanes := kept } }, [])
    let bits := fun (h : Nat → Nat → Nat) (r : Record) (a b : Nat) => (h a b % 2 ^ (8 * fmtBytes r.fmta), (0 : BitVec 5))
    at1 .vexp tExp ∧ at1 .vexp2 tExp2 ∧ at1 .vlog (tLogBy lnNear) ∧ at1 .vlog2 (tLogBy log2Near) ∧ at1 .vsin tSin ∧ at1 .vcos tCos
    ∧ at1 .vtanh tTanh ∧ at1 .vrsqrt tRsqrt ∧ at1 .vsigm tSigm
    ∧ reduces .vrsum (fun r a b => arith r (fun f => fpAdd (recRnd r) (f.read a) (f.read b)) fun w g => laneInt w g a + laneInt w g b)
    ∧ reduces .vrmin (fun r => minLane (fmtKind r.fmtd)) ∧ reduces .vrmax (fun r => maxLane (fmtKind r.fmtd))
    ∧ reduces .vrand (bits (· &&& ·)) ∧ reduces .vror (bits (· ||| ·)) ∧ reduces .vrxor (bits (· ^^^ ·))
    ∧ VectorGives s .vbfly (fun cmd x _ l =>
        let r := cmd.record
        let v := fun k => laneVal r (l.getD k 0)
        let o := [fpAdd (recRnd r) (v 0) (v 2), fpAdd (recRnd r) (v 1) (v 3), fpSub (recRnd r) (v 0) (v 2),
          fpSub (recRnd r) (v 1) (v 3)].map (roundLane r)
        (o.foldl (fun x o => addFlags x o.2) x, o.map Prod.fst))
    ∧ VectorGives s .vcmul (fun cmd x _ l =>
        let v := fun k => laneVal cmd.record (l.getD k 0)
        let p := complexProduct cmd.record (v 0) (v 1) (v 2) (v 3)
        (addFlags (addFlags x p.1.2) p.2.2, [p.1.1, p.2.1]))
    ∧ VectorGives s .vtwid (fun cmd x n l =>
        let r := cmd.record
        let size : Nat := 2 ^ (r.opx.setWidth 5 : BitVec 5).toNat
        let k := (((r.d3.base.toNat : Int) + elemOffset r.d3 (elemIndex r n)) % (size : Int)).toNat
        let root := twiddle (k * (65536 / size))
        let p := complexProduct r (laneVal r (l.getD 0 0)) (laneVal r (l.getD 1 0)) (fp32.read root.1) (fp32.read root.2)
        (addFlags (addFlags x p.1.2) p.2.2, [p.1.1, p.2.1]))
    ∧ VectorGives s .vunp3 (fun cmd x n l =>
        let r := cmd.record
        let v := l.getD 0 0
        let trit := fun (j : Nat) => match v / 3 ^ j % 3 with | 0 => (0 : Int) | 1 => 1 | _ => -1
        if 242 < v then
          ({ x with bad := true, badcnt := BitVec.ofNat 16 (min (x.badcnt.toNat + 1) 0xFFFF),
                    prog := { x.prog with badAt := some (match x.prog.badAt with
                      | some (k, first) => if k ≤ n then (k, first) else (n, addrWord (elemAddr r cmd.g 1 n 1))
                      | none => (n, addrWord (elemAddr r cmd.g 1 n 1))) } }, [0, 0, 0, 0, 0])
        else (x, (List.range 5).map fun j => (intIn (fmtKind r.fmtd) .rne false (trit j)).1))

/-- What one element of each vector operation writes, and its flags. -/
def Obligations.VectorRecords : Prop :=
  Sys2Proof.Parts.VectorElements ∧ Sys2Proof.Parts.VectorFunctions

/-- R250 to R252: one element of a copy, gather or scatter outside the register range writes its source's bytes at its destination; CCLR
leaves a word zero and empty, CSETF leaves it full with its data once no later element names it; CPREF asks the shell L2 for a line it does not hold. A siphon command claims
a slot of a header that is there, CSIPW a free one and CSIPR a filled one, and keeps its address; once the slot's elements can all move it
moves them, and CSIPW publishes the slot and CSIPR frees it. -/
def Obligations.CopyRecords : Prop :=
  ∀ (s : State) (sc : ScullId) (slot : Slot) (cmd : Command) (d : Ready),
    let x := engineOf s sc .copy
    let w := copyWork x cmd
    let y := scullOf s sc
    let one := fun (op : Instr) => OneElement s sc slot .copy op copyWork cmd d
    let outside := fun (p : Reach) (n : Nat) => match p with | .mem pa => inRegisters pa = false ∧ pa % 64 + n ≤ 64 | _ => True
    let copies := fun (op : Instr) => ∀ a b p q, one op → d.parts = [(a, p), (b, q)] → a.write = false → b.write = true → outside q b.size →
      let v := readReach s sc p a.size
      let t := match q with | .mem pa => agentWrite s (shellNode sc) pa b.size (v % 256 ^ b.size) | _ => writeReach s sc q b.size v
      exec op s = .next (elementLeft s (setEngine t sc .copy (keepIndices (engineOf t sc .copy) s sc [d])) sc slot .copy op copyWork cmd d)
    let clears := fun (op : Instr) (full : Bool) => ∀ a z b, one op → d.parts = [(a, .spad z b)] → a.write = true → x.prog.owed = [] →
      (scullOf s z).wordQueues = [] →
      (full = true → wordWanted w (leftElems { x with prog := { x.prog with inflight := markDone x.prog.inflight [d.n] } } w) a.k (compWord a) = false) →
      ∃ t, exec op s = .next t ∧ spadRead (scullOf t z) b 8 = (if full then spadRead (scullOf s z) b 8 else 0)
        ∧ (∀ k, k < b ∨ b + 8 ≤ k → memRead (scullOf t z).data k = memRead (scullOf s z).data k)
        ∧ (∀ k, setHas (scullOf t z).full k = if k = b / 8 then full else setHas (scullOf s z).full k)
    let moves := fun (op : Instr) (writes : Bool) => ∀ (b : Nat) (h : Word) (u : SeqUnit) (rest : List SeqUnit),
      engineHead s .copy op = some (sc, slot, cmd) → x.prog.inflight = u :: rest → cmd.record.op = (if writes then 0x0205 else 0x0206) →
      (recDesc cmd.record (if writes then 0 else 1)).base.toNat = h.toNat → h.toNat + 64 ≤ 393216 →
      pageState s sc (ctxOf s sc slot).crew (h.toNat / 4096) = some (.pinned b) →
      let f := b * 4096 + h.toNat % 4096
      let word := fun (z : Scull) (i : Nat) => spadRead z (f + 8 * i) 8
      let size := 8 * ((word y 0).extractLsb' 16 10 : BitVec 10).toNat
      let slots := ((word y 0).setWidth 16 : BitVec 16).toNat
      siphonCfgOk (word y 0) = true → y.sipWaiters = [] → y.wordQueues = [] →
        let becomes := fun (header : List Word) (P : State → Prop) =>
          ∃ t, exec op s = .next t ∧ (List.range 5).map (word (scullOf t sc)) = header ∧ P t
        (x.prog.claim = none → u.count * copyBytes cmd.record ≤ size → (∀ i < 5, setHas y.poison (f / 8 + i) = false) →
          let claims := fun (at_ : Word) (t : State) =>
            (engineOf t sc .copy).prog.claim = some (h + 64 + at_ * BitVec.ofNat 64 size)
          (writes = true → word y 1 ≠ 0 → becomes
            [word y 0, word y 1 - 1, word y 2, BitVec.ofNat 64 ((word y 3 + 1).toNat % slots), word y 4] (claims (word y 3)))
          ∧ (writes = false → word y 2 ≠ 0 → becomes
            [word y 0, word y 1, word y 2 - 1, word y 3, BitVec.ofNat 64 ((word y 4 + 1).toNat % slots)] (claims (word y 4))))
        ∧ (∀ (n : Nat) (ready : List Ready), x.prog.claim = some (BitVec.ofNat 64 (h.toNat + 64 + size * n)) → n < slots →
          (writes = true → (word y 4 + word y 2).toNat % slots = n) →
          prepare s sc (ctxOf s sc slot) cmd w (wordWritten x w) (openElems [u]) [] [] =
            { s := s, ready := ready, stalled := [], snag := none } →
          aheadElems x = [] → (∀ e ∈ ready, ∃ r q, e.parts = [r, q] ∧ r.1.write = false ∧ q.1.write = true ∧ outside q.2 q.1.size
            ∧ ∀ z o, q.2 = .spad z o → z = sc → o + q.1.size ≤ f ∨ f + 40 ≤ o) →
          becomes (if writes then [word y 0, word y 1, word y 2 + 1, word y 3, word y 4]
            else [word y 0, word y 1 + 1, word y 2, word y 3, word y 4]) fun t => (engineOf t sc .copy).prog.claim = none)
    copies .ccopy ∧ copies .cgath ∧ copies .cscat ∧ clears .cclr false ∧ clears .csetf true
      ∧ (∀ a pa, one .cpref → d.parts = [(a, .mem pa)] → copyOf s (shellNode sc) (lineOf pa) = none →
        exec .cpref s = .next (elementLeft s (requestLine s (shellNode sc) (lineOf pa)) sc slot .copy .cpref copyWork cmd d))
      ∧ moves .csipw true ∧ moves .csipr false

/-- R260, R264 to R271, R274 to R278: one element of each matrix operation. MMUL adds a group's products to every entry of the tile, and
MMULN subtracts them; MLDA loads a row of converted elements; MDRN writes a row of converted entries, or keeps it in the A latch, whose state
the last row sets; MADDA adds an accumulator's entries to another's; MCLR zeroes the accumulators it names. The other accumulators do not
change. -/
def Obligations.MatrixRecords : Prop :=
  ∀ (s : State) (sc : ScullId) (slot : Slot) (cmd : Command) (d : Ready),
    let x := elementEngine s sc .matrix d
    let r := cmd.record
    let l := sourceValues s sc d
    let acc := recAcc r
    let rows := r.t1.toNat
    let cols := if r.op = 0x0100 ∨ r.op = 0x0101 then r.t2.toNat else r.t0.toNat
    let side := tileSide (if r.op = 0x0109 then r.fmta else r.fmtd)
    let others := fun (y : Engine) => ∀ k, k / 4096 ≠ acc → memRead y.acc k = memRead x.acc k
    let done := fun (op : Instr) (y : Engine) (values : List Nat) => exec op s = .next (elementDone s sc slot .matrix op matrixWork cmd d y values)
    let conv := fun (v : Nat) => convertLane (fmtKind r.fmta) (fmtKind r.fmtd) (recRnd r) (recSat r) v
    let drained := (List.range r.t0.toNat).map fun n => conv (accRead x r.fmta acc d.n n)
    let multiplies := fun (op : Instr) (neg : Bool) =>
      OneElement s sc slot .matrix op matrixWork cmd d → elementFault x r d.n l = none →
      (r.op = 0x0100 ∨ r.op = 0x0101) → rows ≤ side → cols ≤ side →
      let z := stageElement x r d.n (productReads x r d.n) l
      let sum := fun (m n : Nat) => ((groupTerms z r d.n n).map fun p => matInt r.fmta (unitA z r m p.1) p.1
        * (p.2.map fun j => matInt r.fmtb (unitB z r n j) j).foldl (· + ·) (0 : Int)).foldl (· + ·) (0 : Int)
      ∃ y, done op y [] ∧ others y ∧ ∀ m n, m < rows → n < cols →
        accRead y r.fmtd acc m n = (accumulateEntry z r neg d.n m n).1 % 256 ^ entryBytes r.fmtd
        ∧ ∀ b sg, fmtKind r.fmtd = .int b sg → (accumulateEntry z r neg d.n m n).1 =
          intLane b sg (recSat r) (laneInt b sg (accRead x r.fmtd acc m n) + if neg then -sum m n else sum m n)
    multiplies .mmul false ∧ multiplies .mmuln true
      ∧ (OneElement s sc slot .matrix .mlda matrixWork cmd d → rows ≤ side → cols ≤ side → d.n < rows → r.op = 0x0108 →
        l.length = cols →
        ∃ y, done .mlda y [] ∧ others y ∧ ∀ n, n < cols → accRead y r.fmtd acc d.n n =
          (conv (l.getD n 0)).1 % 256 ^ entryBytes r.fmtd)
      ∧ (OneElement s sc slot .matrix .mdrn matrixWork cmd d → setHas x.accPoison acc = false → r.op = 0x0109 →
        ∃ y, done .mdrn y (drained.map Prod.fst) ∧ others y
          ∧ (d.n + 1 ≠ rows ∨ recClr r = false → y.acc = x.acc)
          ∧ (d.n + 1 = rows → recClr r = true → ∀ k, k / 4096 = acc → memRead y.acc k = 0))
      ∧ (OneElement s sc slot .matrix .mdrnBypass matrixWork cmd d → setHas x.accPoison acc = false → r.op = 0x0109 → cols ≤ 32 →
        fmtBytes r.fmtd ≤ 2 →
        ∃ y, done .mdrnBypass y [] ∧ others y ∧ (∀ n, n < cols → memReadNat y.latch (64 * d.n + 2 * n) (fmtBytes r.fmtd)
            = (conv (accRead x r.fmta acc d.n n)).1 % 256 ^ fmtBytes r.fmtd)
          ∧ (d.n + 1 = rows → y.lst =
            { lv := true, lm := BitVec.ofNat 6 (rows - 1), lk := BitVec.ofNat 6 (r.t0.toNat - 1), lfmt := r.fmtd }))
      ∧ (OneElement s sc slot .matrix .madda matrixWork cmd d → elementFault x r d.n l = none →
        ∃ y, done .madda y [] ∧ others y ∧ ∀ b sg m n, fmtKind r.fmtd = .int b sg → m < side → n < side →
          accRead y r.fmtd acc m n = intLane b sg (recSat r) (laneInt b sg (accRead x r.fmtd acc m n)
            + laneInt b sg (accRead x r.fmtd ((r.opx.extractLsb' 2 2 : BitVec 2).toNat) m n)) % 256 ^ entryBytes r.fmtd)
      ∧ (OneElement s sc slot .matrix .mclr matrixWork cmd d → elementFault x r d.n l = none →
        ∃ y, done .mclr y [] ∧ ∀ k, k < 16384 → memRead y.acc k = if r.opx.getLsbD (k / 4096) then 0 else memRead x.acc k)


/-! ### Chambers (R308 to R322) -/

/-- R309 to R311, R314, R317 to R320: CMAKE of a valid block whose name is new, whose frames are there and for which a directory slot is free
makes a RESIDENT chamber and gives its handle, at once or when the directory takes the request up again; a name in use gives 1. While older
requests wait at the directory, an instruction waits behind them (log 41). CATT counts an attachment and gives the handle, CDET takes one away, CDROP ends the chamber, CQRY gives the status word, CEVT of an EVICTED chamber completes
and of a RESIDENT one starts its eviction and waits. -/
def Sys2Proof.Parts.Chambers : Prop :=
  ∀ (s : State) (sc : ScullId) (slot : Slot) (d a b : Reg) (n : ChamberSlot) (x : Chamber),
    let c := ctxOf s sc slot
    let ga := readReg c a
    let quiet := fun (v : State) => v.directory.requests.any (requestAwake v) = false
    let named := fun (s : State) => namedChamber s c.asid ga = some (n, x) ∧ chamberOf s n = some x
    let opened := openChamber s c.asid ga = some x ∧ n = ga.extractLsb' 0 15
    let fits := fun (v : State) (w : List Word) (l : List (ScullId × Nat)) =>
      blockInvalid v (ctxOf v sc slot) (w.take 8) = false ∧ (makeList (w.getD 1 0) = true → listInvalid v (w.drop 8) = false)
      ∧ namedChamber v (ctxOf v sc slot).asid (w.getD 0 0) = none ∧ freeChamberSlot v = some n ∧ placeFrames v [] (makeWant w) = some l
      ∧ (∀ e ∈ l, tabFind (scullOf v e.1).frames e.2 = none)
    let made := fun (v t : State) (w : List Word) (l : List (ScullId × Nat)) =>
      ctxOf t sc slot = { retire (writeReg (ctxOf v sc slot) d (chamberHandle (generation v n) n)) with st := .ready }
      ∧ ∃ y, chamberOf t n = some y ∧ y.state = .resident ∧ y.holders = l ∧ y.owner = (ctxOf v sc slot).asid ∧ y.name = w.getD 0 0
        ∧ y.backr = w.getD 4 0 ∧ y.deadl = w.getD 3 0 ∧ y.creator = (ctxOf v sc slot).crew ∧ y.atc = 0
    (∀ u v w l, Issues s sc slot [a, b] [d] false → (readReg c b).toNat % 64 = 0 → ReadsBlock s u sc slot (readReg c b) 8 (w.take 8) →
      (makeList (w.getD 1 0) = false ∧ v = u ∧ w.take 8 = w
        ∨ makeList (w.getD 1 0) = true ∧ (w.take 8).getD 1 0 = w.getD 1 0 ∧ (w.take 8).getD 2 0 = w.getD 2 0
          ∧ blockInvalid u (ctxOf u sc slot) (w.take 8) = false
          ∧ ∀ k, readEntries sc slot (w.getD 2 0) (((w.getD 1 0).extractLsb' 16 16 : BitVec 16).toNat + 1) 0 [] k u = k v (w.drop 8)) →
      (ctxOf v sc slot).st = .ready → (ctxOf v sc slot).back = none → quiet v →
      (fits v w l → ∃ t, exec (.cmake d a b) s = .next t ∧ made v t w l)
      ∧ ((namedChamber v (ctxOf v sc slot).asid (w.getD 0 0)).isSome = true → blockInvalid v (ctxOf v sc slot) (w.take 8) = false →
        (makeList (w.getD 1 0) = true → listInvalid v (w.drop 8) = false) →
        exec (.cmake d a b) s = .next (setCtx v sc slot { retire (writeReg (ctxOf v sc slot) d 1) with st := .ready })))
    ∧ (∀ u w, Issues s sc slot [a, b] [d] false → (ctxOf u sc slot).st = .ready → ¬quiet u →
      (∀ r ∈ u.directory.requests, r.actor ≠ .context sc slot) →
      let waits := fun (i : Instr) (w : List Word) => ∃ t, exec i s = .next t ∧ ctxOf t sc slot = { ctxOf u sc slot with st := .waiting .directory }
        ∧ t.directory.requests = u.directory.requests
          ++ [{ arrived := u.cycle, actor := .context sc slot, instr := i, words := w, victims := [] }]
      ((readReg c b).toNat % 64 = 0 → ReadsBlock s u sc slot (readReg c b) 8 w → makeList (w.getD 1 0) = false → waits (.cmake d a b) w)
      ∧ (u = s → ∀ i ∈ [Instr.catt d a b, .cdet a b, .cdrop a, .cqry d a, .cevt a], waits i []))
    ∧ (∀ r rest l, s.directory.requests = r :: rest → (∀ q ∈ rest, q.actor ≠ r.actor) → r.actor = .context sc slot →
      r.instr = .cmake d a b → c.st = .waiting .directory → c.back = none →
      (∀ m ∈ r.victims, ∀ y, chamberOf s m = some y → y.state ≠ .evicting) → fits s r.words l →
      ∃ t, exec .chamberDirectoryRequest s = .next t ∧ t.directory.requests = rest ∧ made s t r.words l)
    ∧ (∀ scope y, Issues s sc slot [a, b] [d] false → c.st = .ready → c.back = none → quiet s → scopeOperand (readReg c b) 3 = some scope →
      (named s → crewOf s c.crew = some y → y.attach.length < 16 → x.state = .resident →
        ∃ t z, exec (.catt d a b) s = .next t ∧ ctxOf t sc slot = retire (writeReg c d (chamberHandle (generation s n) n))
          ∧ chamberOf t n = some { x with atc := x.atc + 1, lastAttach := gtcOf s } ∧ crewOf t c.crew = some z
          ∧ z.attach = addAttach y.attach n (generation s n))
      ∧ (named s → crewOf s c.crew = some y → y.attach.length < 16 → x.state ≠ .resident → x.faultOnMiss = true →
        (readReg c b).getLsbD 3 = false →
        exec (.catt d a b) s = .next (takeTrap s sc slot { code := 0x07, aux := 0x01, tval := ga } c.pc))
      ∧ (namedChamber s c.asid ga = none → exec (.catt d a b) s = .next (setCtx s sc slot (retire (writeReg c d 5)))))
    ∧ (∀ scope, Issues s sc slot [a, b] [] false → quiet s → scopeOperand (readReg c b) 2 = some scope → opened → crewAttached s c.crew ga = true →
      drained s sc slot c scope = true →
      ∃ t, exec (.cdet a b) s = .next t ∧ ctxOf t sc slot = retire c ∧ chamberOf t n = some { x with atc := x.atc - 1 })
    ∧ (Issues s sc slot [a] [] false → quiet s → opened →
      (∃ t, exec (.cdrop a) s = .next t ∧ chamberOf t n = none ∧ generation t n = generation s n + 1)
      ∧ (x.state = .evicted → exec (.cevt a) s = .next (finish s sc slot c))
      ∧ (x.state = .resident → ∃ t, exec (.cevt a) s = .next t ∧ ctxOf t sc slot = { c with st := .waiting (.evict n) }
        ∧ chamberOf t n = some { x with state := .evicting } ∧ ∃ e ∈ t.agenda, e.actor = .chamber n ∧ e.instr = .chamberEvictComplete))
    ∧ (Issues s sc slot [a] [d] false → quiet s →
      (named s → Gives s sc slot (.cqry d a) d fun v =>
        v.extractLsb' 61 3 = (match x.state with | .resident => 1 | .evicting => 2 | .evicted => 3 | .refilling => (4 : BitVec 3))
        ∧ v.extractLsb' 59 2 = (match x.life with | .kernel => 0 | .job => 1 | .lease => 2 | .pinned => (3 : BitVec 2))
        ∧ v.getLsbD 58 = !x.writeback ∧ v.getLsbD 57 = x.faultOnMiss ∧ v.extractLsb' 54 3 = x.prio
        ∧ v.extractLsb' 39 15 = generation s n ∧ v.extractLsb' 24 15 = n ∧ (v.extractLsb' 16 8 : BitVec 8).toNat = min x.atc 255
        ∧ v.extractLsb' 0 16 = BitVec.ofNat 16 (x.nfr - 1))
      ∧ (namedChamber s c.asid ga = none → Gives s sc slot (.cqry d a) d (· = 0)))

/-- R135, R313 to R315, R322: an eviction with no reservation in the chamber's frames ends in EVICTED once the images are stored, or ends a
chamber with no backing; a refill whose frames are there ends in RESIDENT, its images read back unless it is new; a lease that has run out
ends its chamber. -/
def Sys2Proof.Parts.ChamberStates : Prop :=
  ∀ (s u : State) (n : ChamberSlot) (x : Chamber),
    let free := ∀ e ∈ x.holders, frameReserved (scullOf s e.1) e.2 = false
    let ends := fun (i : Instr) => ∃ t, exec i s = .next t ∧ chamberOf t n = none ∧ generation t n = generation s n + 1
    s.actor = .chamber n → chamberOf s n = some x →
      (x.state = .evicting → free → x.writeback = false → ends .chamberEvictComplete)
      ∧ (x.state = .evicting → free → x.writeback = true → storeImages s x (numbered x.holders) = some u → x.waiters = [] → x.wanted = false →
        chamberOf u n = some x → (∀ e ∈ u.ctxs, ∀ d scope, waitOf e.2 ≠ some (.attach n d scope)) →
        ∃ t y, exec .chamberEvictComplete s = .next t ∧ chamberOf t n = some y ∧ y.state = .evicted ∧ y.holders = [])
      ∧ (x.state = .refilling → x.chosen ≠ [] → chosenReady s x = true →
        (x.blank = true ∧ u = s ∨ x.blank = false ∧ loadImages s x (numbered x.chosen) = some u) →
        (∀ e ∈ u.ctxs, waitOf e.2 ≠ some (.evict n)) →
        ∃ t y, exec .chamberRefillComplete s = .next t ∧ chamberOf t n = some y ∧ y.state = .resident ∧ y.holders = x.chosen)
      ∧ (x.life = .lease → x.deadl.toNat ≤ gtcOf s → ends .chamberLeaseExpiry)

/-- CMAKE, CATT, CDET, CQRY, CEVT and CDROP, and the states a chamber moves through (log 41 for the order of requests). -/
def Obligations.Chambers : Prop :=
  Sys2Proof.Parts.Chambers ∧ Sys2Proof.Parts.ChamberStates

/-! ### Futures (R357 to R370, R376) -/

/-- R357, R359, R362, R363 to R368 (the deadline word of a call that is sent away is a free value: log 47): a future instruction that the table serves at once. FALLOC makes an entry; FCALL arms it, and queues the
call in its pool or sends it to the far package; FWAIT gives the state word of a settled entry, and else waits, or leaves its slot; FPOLL gives
the state word; FPUT commits a reply; FCAN cancels an open call and frees any other entry. A stale handle traps. -/
def Sys2Proof.Parts.Futures : Prop :=
  ∀ (s : State) (sc : ScullId) (slot : Slot) (d a b e : Reg) (f : Future),
    let c := ctxOf s sc slot
    let h := readReg c a
    let i : FutureIndex := h.extractLsb' 0 18
    let t := tableBusy s
    let opened := openFuture s c.asid h = some f
    let word : Future → Word := fun f => f.reason ++ (0 : BitVec 16) ++ BitVec.ofNat 16 (min f.slots 0xFFFF) ++ (0 : BitVec 9)
      ++ (if f.committed then 1#1 else 0#1) ++ (if f.slost then 1#1 else 0#1) ++ (if f.fail then 1#1 else 0#1) ++ (0 : BitVec 1)
      ++ (match f.state with
          | .idle => 0 | .armed => 1 | .pending => 2 | .fulfilled => 3 | .timedOut => 4 | .cancelled => (5 : BitVec 3))
    let settled := f.committed = false ∧ (f.state = .fulfilled ∨ f.state = .timedOut ∨ f.state = .cancelled)
    let can := f.committed = false ∧ (f.state = .armed ∨ f.state = .pending)
    let stale := fun (j : Instr) => openFuture s c.asid h = none →
      exec j s = .next (takeTrap t sc slot { code := 0x0A, aux := 0x01, tval := h } c.pc)
    tableFree s (.context sc slot) = true → c.st = .ready →
      (Issues s sc slot [a] [d] false →
        stale (.fwait d a false) ∧ stale (.fpoll d a) ∧ stale (.fcan d a)
        ∧ (∀ j, h = 0 → freeFutureIndex s = some j → exec (.falloc d a) s = .next
          (finishReg (setFuture t j { freshFuture c.asid with crew := some c.crew }) sc slot c d (futureHandle (futureGen s j) j)))
        ∧ (∀ j x, h ≠ 0 → openChamber s c.asid h = some x → freeFutureIndex s = some j → exec (.falloc d a) s = .next
          (finishReg (setFuture t j { freshFuture c.asid with chamber := some (h.extractLsb' 0 15, h.extractLsb' 48 15) }) sc slot c d
            (futureHandle (futureGen s j) j)))
        ∧ (h = 0 → freeFutureIndex s = none → exec (.falloc d a) s = .next (finishReg t sc slot c d 0))
        ∧ (opened → exec (.fpoll d a) s = .next (finishReg t sc slot c d (word f)))
        ∧ (opened → f.committed = true → exec (.fcan d a) s = .next (finishReg t sc slot c d 2))
        ∧ (opened → can → ∃ u g, exec (.fcan d a) s = .next u ∧ ctxOf u sc slot = retire (writeReg c d 0)
          ∧ futureOf u i = some g ∧ g.state = .cancelled)
        ∧ (opened → f.committed = false → ¬can → ∃ u, exec (.fcan d a) s = .next u ∧ ctxOf u sc slot = retire (writeReg c d 1)
          ∧ futureOf u i = none ∧ futureGen u i = futureGen s i + 1)
        ∧ (∀ ev, opened → settled → exec (.fwait d a ev) s = .next (finishReg t sc slot c d (word f)))
        ∧ (opened → ¬settled → f.waiters.length + f.evicted.length < 16 → exec (.fwait d a false) s = .next
          (park (setFuture t i { f with waiters := f.waiters ++ [ctxKey sc slot] }) sc slot c (.future i d)))
        ∧ (opened → ¬settled → f.waiters.length + f.evicted.length < 16 → mayEvict t sc slot c = true →
          ∀ place, freeImage t c.crew c.cidx = some place →
          ∃ u p, exec (.fwait d a true) s = .next u ∧ ctxOf u sc slot = .absent ∧ itemOf u s.nextId = some (.parked p)
            ∧ p.ctx = c ∧ p.sc = sc ∧ p.slot = slot ∧ p.future = some (i, d) ∧ p.image = some place ∧ p.ready = false))
      ∧ (Issues s sc slot [a, b] [d] false →
        (opened → f.committed = true ∨ settled → exec (.fput d a b) s = .next (finishReg t sc slot c d 1))
        ∧ (∀ u r, opened → can → f.flow = none → (readReg c b).toNat % 8 = 0 → drained t sc slot c .system = true →
          readAs t sc c.asid c.ptroot c.prv c.caps (readReg c b) = (u, some r) →
          (r.toNat % 8 = 0 → r.toNat ≤ 65536 →
            ∃ v g, exec (.fput d a b) s = .next v ∧ ctxOf v sc slot = retire (writeReg c d 0) ∧ futureOf v i = some g ∧ g.committed = true
              ∧ g.settleAs = .fulfilled ∧ g.payload = some (.buffer sc (readReg c b) r.toNat c.asid c.ptroot c.prv c.caps)
              ∧ ∃ q ∈ v.agenda, q.actor = .future i ∧ q.instr = .futureSlotInject)
          ∧ (r.toNat % 8 ≠ 0 ∨ 65536 < r.toNat → exec (.fput d a b) s = .next (finishReg u sc slot c d 3))))
      ∧ (∀ v w x tool, Issues s sc slot [a, b, e] [] false → opened → f.state = .idle → (readReg c e).toNat % 64 = 0 →
        ReadsBlock t v sc slot (readReg c e) 8 w → descriptorBad w = false →
        let u := fetchTool v (w.getD 0 0).toNat
        let k := ctxOf v sc slot
        toolOf u (w.getD 0 0).toNat = some tool →
        tool.asid = k.asid → openChamber u k.asid (readReg c b) = some x → (w.getD 3 0).toNat + 64 ≤ x.nfr * 4096 →
        drained u sc slot k .system = true → u.table.takers = [] →
        ∃ v g, exec (.fcall a b e) s = .next v ∧ ctxOf v sc slot = retire k ∧ futureOf v i = some g
          ∧ g.state = (if tool.remote then .pending else .armed) ∧ g.token = w.getD 5 0 ∧ g.tool = (w.getD 0 0).toNat
          ∧ g.argBase = w.getD 1 0 ∧ g.argLen = w.getD 2 0
          ∧ g.siphon = some ((readReg c b).extractLsb' 0 15, (readReg c b).extractLsb' 48 15, (w.getD 3 0).toNat)
          ∧ g.deadline = (if (w.getD 4 0).toNat = 0 then none else some (gtcOf u + (w.getD 4 0).toNat))
          ∧ (tool.remote = false → tabGet [] v.table.pools tool.pool.toNat = tabGet [] u.table.pools tool.pool.toNat ++ [i])
          ∧ (tool.remote = true → ∃ bytes, v.ep.messages = u.ep.messages
            ++ [.call tool.flow (futureHandle (futureGen v i) i) (deadlineWord g) (tool.rtool.setWidth 64) bytes]))

/-- R364, R365, R369, R370, R376: a deadline that is reached commits the timeout; a committed entry whose last slot is published settles, and
one whose siphon is gone settles with SLOST; the settlement's waiters wake with its state word in the next cycle; an injection joins the
waiters of a full siphon (log 46); an evicted waiter comes back with it, and with its registers whatever became of its image (logs 32 and 52);
an entry with an error is retired; and the table serves the request it kept. -/
def Sys2Proof.Parts.FutureEvents : Prop :=
  ∀ (s : State) (i : FutureIndex) (f : Future),
    (s.actor = .future i → futureOf s i = some f →
      (∀ when_, openToSettle f = true → f.flow = none → f.deadline = some when_ → when_ ≤ gtcOf s →
        ∃ t g, exec .futureTimeout s = .next t ∧ futureOf t i = some g ∧ g.committed = true ∧ g.settleAs = .timedOut
          ∧ g.payload = some (.timeout f.token))
      ∧ (∀ p, f.committed = true → f.payload = some p →
        let settles := fun (P : Future → Prop) => ∃ t g, exec .futureSlotInject s = .next t ∧ futureOf t i = some g ∧ g.state = f.settleAs
          ∧ g.committed = false ∧ g.waiters = [] ∧ g.evicted = [] ∧ P g ∧ ∃ w ∈ t.table.wakes, w =
            { index := i, due := s.cycle + 1, word := futureWord g, waiters := f.waiters, evicted := f.evicted }
        (f.siphon = none → settles fun g => g.slost = true)
        ∧ (∀ n gen o x sc b, f.siphon = some (n, gen, o) → chamberOf s n = some x → generation s n = gen → x.state = .resident →
          locate s (.chamber n gen o) 0 = .at_ sc b → f.checked = true → (scullOf s sc).sipWaiters = [] → (scullOf s sc).wordQueues = [] →
          dueWakes s i = [] →
          (∀ v l r, f.claim = some v → f.filled = true → siphonAt (scullOf s sc) b (BitVec.ofNat 64 o) (.publish v) = .done l r →
            payloadBytes p ≤ (f.slots + 1) * slotPayload (scullOf s sc) b → settles fun g => g.slost = false ∧ g.slots = f.slots + 1)
          ∧ (f.claim = none → f.filled = false → siphonAt (scullOf s sc) b (BitVec.ofNat 64 o) .claimWrite = .wait →
            ∃ t, exec .futureSlotInject s = .next t ∧ (scullOf t sc).sipWaiters =
              [{ who := .future i, op := .claimWrite, d := 0, place := .chamber n gen o, ea := BitVec.ofNat 64 o }])))
      ∧ (∀ w sc slot d, f.committed = false → dueWakes s i = [w] → w.waiters = [ctxKey sc slot] → w.evicted = [] →
        (ctxOf s sc slot).st = .waiting (.future i d) → (ctxOf s sc slot).back = none →
        ∃ t, exec .futureSlotInject s = .next t
          ∧ ctxOf t sc slot = { retire (writeReg (ctxOf s sc slot) d w.word) with st := .ready }
          ∧ dueWakes t i = [] ∧ futureOf t i = some f)
      ∧ (∃ t, exec .futureEntryError s = .next t ∧ futureOf t i = none ∧ setHas t.table.retired i.toNat = true))
    ∧ (∀ id p d k, s.actor = .item id → itemOf s id = some (.parked p) → p.future = some (i, d) → p.ready = true → p.trap = none →
      p.ctx.st = .ready → crewRunning s p.ctx.crew = true → (scullOf s p.sc).fenced = false → setHas s.isolated (p.sc.toNat / 8) = false →
      roomFor s p.sc p.ctx.crew p.ctx.hdr 1 = true → freeSlot s p.sc = some k → (scullOf s p.sc).revokes = [] →
      startsFrozen (loadImage (dropHold s p.sc id) p).1 p.sc p.ctx.crew = false →
      ∃ t, exec .fwaitEvictResume s = .next t ∧ itemOf t id = none
        ∧ (let n := ctxOf t p.sc k
          n.st = .starting ∧ n.pc = p.ctx.pc + 8 ∧ n.g = (writeReg p.ctx d p.result).g ∧ n.crew = p.ctx.crew))
    ∧ (∀ r sc slot d a, s.table.requests = [r] → s.table.busyAt ≠ some s.cycle → r.actor = .context sc slot → r.instr = .fpoll d a →
      (ctxOf s sc slot).st = .waiting .table → (ctxOf s sc slot).back = none → openFuture s (ctxOf s sc slot).asid (readReg (ctxOf s sc slot) a) = some f →
      ∃ t, exec .futureTableRequest s = .next t ∧ t.table.requests = []
        ∧ ctxOf t sc slot = { retire (writeReg (ctxOf s sc slot) d (futureWord f)) with st := .ready })

/-- The future instructions at the table, and what its deadlines, slots and settlements do (logs 32, 46, 47 and 52). -/
def Obligations.FutureTable : Prop :=
  Sys2Proof.Parts.Futures ∧ Sys2Proof.Parts.FutureEvents

/-! ### Tool harts and remote calls (R371 to R375, R385, R387) -/

/-- R372 to R374: hfut.take gives a running hart the oldest call of its pools, with the record written and hcap7 covering the argument, or
makes it wait; hfut.put and hfut.fail commit the reply of the call it holds; hfut.poll gives the state word; an interrupt ends a wait, and
else stays pending; an access of a hart's own that no capability grants freezes it, and one that is granted fetches its lines and moves no
data (log 49). What is RISC-V's stands on log 11: a CSR write (CSRRW) of hfpool keeps bits 15:0, and from U-mode it is an illegal instruction,
cause 2; a trap that is not delegated enters machine mode with pc, cause and value kept; ADDI adds its immediate. -/
def Obligations.HartInstructions : Prop :=
  ∀ (s : State) (n : HartId) (rd r1 r2 : BitVec 5) (f : Future),
    let h := hartOf s n
    let t := tableBusy s
    let w := readX h r1
    let i : FutureIndex := w.extractLsb' 0 18
    let held := h.call = some w ∧ liveFuture s w = some f ∧ openToSettle f = true ∧ f.flow = none
    let commits := fun (j : Instr) (p : Payload) => ∃ u g, exec j s = .next u ∧ futureOf u i = some g ∧ g.committed = true
      ∧ g.settleAs = .fulfilled ∧ g.payload = some p ∧ (hartOf u n).call = none ∧ capOf (hartOf u n).caps 7 = 0
      ∧ readX (hartOf u n) rd = 0 ∧ (hartOf u n).pc = h.pc + 4 ∧ (hartOf u n).st = .running
    (s.actor = .hart n → h.st = .running → tableFree s (.hart n) = true →
      (∀ j u pa, h.call = none → w.toNat % 64 = 0 → oldestCall s h.hfpool = some (j, f) →
        hartReach (setHart t n h) n .store w 64 = .at_ u pa →
        ∃ v, exec (.hfutTake rd r1) s = .next v ∧ futureOf v j = some { f with state := .pending }
          ∧ (∀ k, globalByte v k = globalByte (agentWriteWords u hartNode pa (callRecord (futureHandle (futureGen u j) j) f)) k)
          ∧ (hartOf v n).call = some (futureHandle (futureGen u j) j) ∧ capOf (hartOf v n).caps 7 = callCap f
          ∧ readX (hartOf v n) rd = (if rd = 0 then 0 else futureHandle (futureGen u j) j) ∧ (hartOf v n).st = .running)
      ∧ (h.call = none → w.toNat % 64 = 0 → oldestCall s h.hfpool = none → h.irq = false →
        ∃ v, exec (.hfutTake rd r1) s = .next v ∧ (hartOf v n) = { h with st := .waitTake rd w }
          ∧ v.table.takers = s.table.takers ++ [(n, rd, w)])
      ∧ (h.call.isSome = true → exec (.hfutTake rd r1) s = .next (hartDone t n h rd 0))
      ∧ (∀ u pa v l, held → (readX h r2).toNat % 8 = 0 → hartReach t n .load (readX h r2) 8 = .at_ u pa →
        replyLengthOk (globalWord u pa).toNat = true →
        hartWords (fetchLine u hartNode (lineOf pa)) n (readX h r2 + 8) ((globalWord u pa).toNat / 8) [] = .ok (v, l) →
        hartOf v n = h → commits (.hfutPut rd r1 r2) (.bytes (wordsBytes l)))
      ∧ (held → commits (.hfutFail rd r1 r2) (.failure (((readX h r2).setWidth 16 : BitVec 16).setWidth 64)))
      ∧ (h.call ≠ some w → exec (.hfutPut rd r1 r2) s = .next (hartDone t n h rd 2)
        ∧ exec (.hfutFail rd r1 r2) s = .next (hartDone t n h rd 2))
      ∧ exec (.hfutPoll rd r1) s = .next (hartDone t n h rd (match liveFuture s w with | some f => futureWord f | none => 7)))
    ∧ (∀ q rec_, h.st = .waitTake q rec_ → ∃ u, exec (.hartInterrupt n) s = .next u ∧ (hartOf u n).st = .running
        ∧ readX (hartOf u n) q = 0 ∧ (hartOf u n).pc = h.pc + 4 ∧ ∀ e ∈ u.table.takers, e.1 ≠ n)
    ∧ ((∀ q rec_, h.st ≠ .waitTake q rec_) → exec (.hartInterrupt n) s = .next (setHart s n { h with irq := true }))
    ∧ (∀ kind va size, h.st = .running →
      (∀ u pa, hartReach s n kind va size = .at_ u pa → exec (.hartAccess n kind va size) s =
        .next (if kind = .store ∨ inRegisters pa = true then u else fetchRange u hartNode pa size))
      ∧ (capsGrant h.caps h.asid (hartRights kind) va.toNat size = false → ∃ u, exec (.hartAccess n kind va size) s = .next u
        ∧ hartOf u n = { h with st := .frozen, access := some (kind, va, size) } ∧ u.fs.nextSeq = s.fs.nextSeq + 1))
    ∧ (let csrrw : BitVec 32 := (0x5D0 : BitVec 12) ++ r1 ++ (1 : BitVec 3) ++ rd ++ (0x73 : BitVec 7);
      (h.mode ≠ .user → hartCsr s n csrrw = some (hartDone s n { h with hfpool := w.setWidth 16 } rd (h.hfpool.setWidth 64)))
      ∧ (h.mode = .user → hartCsr s n csrrw = some (hartTrap s n 2 (csrrw.setWidth 64))))
    ∧ (∀ cause tval, h.mode = .machine ∨ (hartReg h 0x302).getLsbD cause = false →
      let k := hartOf (hartTrap s n cause tval) n
      k.st = .running ∧ k.mode = .machine ∧ k.pc = hartReg h 0x305 &&& ~~~3 ∧ hartReg k 0x341 = h.pc
        ∧ hartReg k 0x342 = BitVec.ofNat 64 cause ∧ hartReg k 0x343 = tval ∧ k.x = h.x)
    ∧ (∀ imm : BitVec 12, hartWord s n (imm ++ r1 ++ (0 : BitVec 3) ++ rd ++ (0x13 : BitVec 7)) =
      some (hartDone s n h rd (w + imm.signExtend 64)))

/-- R356, R375, R385, R387: a message on an open flow of its kind goes to the table, and on any other flow is answered by a nack; one whose flow's
entry lies outside capacity freezes the flow, and after a failed boot the endpoint answers nothing (log 90). Served, a call makes a proxy entry
in its tool's pool, or is answered by a fail, 0xFFFE when no entry is free and 0xFFFF when no valid tool of the flow's domain is there; a reply
and a fail commit the entry they name; a cancel cancels the proxy. -/
def Obligations.RemoteCalls : Prop :=
  ∀ (s : State) (flow : BitVec 24) (handle deadline rtool : Word) (bytes : List Byte) (reason : BitVec 16) (f : Future),
    let messages : List (Instr × BitVec 2) := [(.remoteCallMessage flow handle deadline rtool bytes, 2),
      (.remoteReplyMessage flow handle bytes, 1), (.remoteFailMessage flow handle reason, 1), (.remoteCancelMessage flow handle, 2)]
    let served := fun (i : Instr) (P : State → Prop) => ∀ r, s.table.requests = [r] → s.table.busyAt ≠ some s.cycle → r.actor = .none →
      r.instr = i → ∃ t, exec .futureTableRequest s = .next t ∧ P t
    let commits := fun (i : Instr) (p : Payload) => openFuture s (flowAsid s flow) handle = some f → openToSettle f = true → f.flow = none →
      served i fun t => ∃ g, futureOf t (handle.extractLsb' 0 18) = some g ∧ g.committed = true ∧ g.settleAs = .fulfilled
        ∧ g.payload = some p
    (∀ m ∈ messages,
      (endpointUp s = false → exec m.1 s = .next s)
      ∧ (endpointUp s = true →
        (flowState s flow = .open_ → flowOutside s flow = false → flowKind s flow = m.2 → ∃ t, exec m.1 s = .next t ∧
          ∃ r ∈ t.table.requests, r.actor = .none ∧ r.instr = m.1 ∧ r.arrived = s.cycle)
        ∧ (flowState s flow = .open_ → flowOutside s flow = true → exec m.1 s = .next (freezeOutside s flow))
        ∧ (flowState s flow ≠ .open_ ∨ flowOutside s flow = false ∧ flowKind s flow ≠ m.2 → exec m.1 s = .next (sendRemote s (.nack flow)))))
    ∧ (∀ i tool, freeFutureIndex s = some i → toolOf (fetchTool s rtool.toNat) rtool.toNat = some tool → tool.asid = flowAsid s flow → s.table.takers = [] →
      served (.remoteCallMessage flow handle deadline rtool bytes) fun t => ∃ g, futureOf t i = some g ∧ g.state = .armed
        ∧ g.owner = flowAsid s flow ∧ g.flow = some (flow, handle) ∧ g.tool = rtool.toNat ∧ g.arg = bytes
        ∧ tabGet [] t.table.pools tool.pool.toNat = tabGet [] s.table.pools tool.pool.toNat ++ [i])
    ∧ (freeFutureIndex s = none → served (.remoteCallMessage flow handle deadline rtool bytes) fun t =>
      t.ep.messages = s.ep.messages ++ [.fail flow handle 0xFFFE])
    ∧ (freeFutureIndex s ≠ none →
      (toolOf (fetchTool s rtool.toNat) rtool.toNat = none
        ∨ ∃ tool, toolOf (fetchTool s rtool.toNat) rtool.toNat = some tool ∧ tool.asid ≠ flowAsid s flow) →
      served (.remoteCallMessage flow handle deadline rtool bytes) fun t => t.ep.messages = s.ep.messages ++ [.fail flow handle 0xFFFF])
    ∧ (bytes.length % 8 = 0 → bytes.length ≤ 65536 → commits (.remoteReplyMessage flow handle bytes) (.bytes bytes))
    ∧ commits (.remoteFailMessage flow handle reason) (.failure (reason.setWidth 64))
    ∧ (∀ i, proxyOf s flow handle = some (i, f) → futureOf s i = some f → openToSettle f = true →
      served (.remoteCancelMessage flow handle) fun t => ∃ g, futureOf t i = some g ∧ g.state = .cancelled)


/-! ### Fabric writes, send apertures and queues (R253 to R255, R283 to R285, R385, R386) -/

/-- R253 to R255, R330, R356, R385, R390: a fabric-write packet of an open flow of kind 0, its window valid, joins the fabric writes of the
window's scull, and one of any other flow is answered by a refusal, the endpoint's tables read through the hub L2; a flow whose own entry lies
outside capacity freezes (log 78); and after a boot failure none is answered. The oldest fabric write of a scull, to a pinned page, writes its words in order with F set,
counts in FWCNT, signals its semaphore and answers its flow. -/
def Sys2Proof.Parts.FabricWrites : Prop :=
  ∀ (s : State) (f : BitVec 24) (i : BitVec 16) (o : Nat) (data : List Word) (poisoned : Bool),
    let u := fetchWindow s f ((flowWindows s f).1 + i.toNat)
    (endpointUp s = false → exec (.fabricWritePacket f i o data poisoned) s = .next s)
    ∧ (endpointUp s = true → flowState u f = .open_ → flowOutside u f = true →
      exec (.fabricWritePacket f i o data poisoned) s = .next (freezeOutside u f))
    ∧ (endpointUp s = true → flowState u f ≠ .open_ ∨ (flowOutside u f = false ∧ flowKind u f ≠ 0) →
      exec (.fabricWritePacket f i o data poisoned) s = .next { u with ep := { u.ep with messages := u.ep.messages ++ [.nack f] } })
    ∧ (∀ w0 w1, endpointUp s = true → flowState u f = .open_ → flowOutside u f = false → flowKind u f = 0 → windowEntry u ((flowWindows u f).1 + i.toNat) = some (w0, w1) →
      i.toNat < (flowWindows u f).2 → w0.getLsbD 0 = true → o + 8 * data.length ≤ (w1.setWidth 32 : BitVec 32).toNat →
      let place := (w1.extractLsb' 32 32 : BitVec 32).toNat + o
      let sc : ScullId := w0.extractLsb' 16 11
      fabricRange place (8 * data.length) = true →
      ∃ t, exec (.fabricWritePacket f i o data false) s = .next t ∧ Posted t (.scull sc) .fabricWrite
        ∧ (scullOf t sc).fabric = (scullOf s sc).fabric ++ [{
          crew := w0.extractLsb' 32 32, off := place, data := data,
          sem := if w0.getLsbD 15 then some (w0.extractLsb' 8 5) else none, flow := some f }])
    ∧ (∀ sc w p, s.actor = .scull sc → (scullOf s sc).fabric = [w] → (scullOf s sc).fenced = false →
      pageState s sc w.crew (w.off / 4096) = some (.pinned p) →
      let b := p * 4096 + w.off % 4096
      (∀ k < w.data.length, tabGet [] (scullOf s sc).wordQueues ((b + 8 * k) / 8) = []) →
      (∀ n, w.sem = some n → tabGet [] (scullOf s sc).semQueues n.toNat = [] ∧ tabGet 0 (scullOf s sc).sems n.toNat ≠ 0xFFFFFFFF) →
      ∃ t, exec .fabricWrite s = .next t ∧ (scullOf t sc).fabric = []
        ∧ (∀ k < w.data.length, spadRead (scullOf t sc) (b + 8 * k) 8 = w.data.getD k 0 ∧ setHas (scullOf t sc).full ((b + 8 * k) / 8) = true)
        ∧ (∀ a, a < b ∨ b + 8 * w.data.length ≤ a → memRead (scullOf t sc).data a = memRead (scullOf s sc).data a)
        ∧ (engineOf t sc .copy).fwcnt = (engineOf s sc .copy).fwcnt + 1
        ∧ (∀ n, tabGet 0 (scullOf t sc).sems n = tabGet 0 (scullOf s sc).sems n + if w.sem.map (·.toNat) = some n then 1 else 0)
        ∧ t.ep.messages = s.ep.messages ++ (match w.flow with | some g => [RemoteMsg.ack g] | none => []))

/-- R339, R386: a write that its aperture takes, the aperture's entry and its flow's read through the hub L2, starts the master's packet or
continues the open one, which closes at the end of its page; a packet closes after 64 cycles without a write; and its acknowledgement, posted
as the packet closes (log 36), with no earlier packet of its flow behind, ends it and the waits of the contexts that drain. -/
def Sys2Proof.Parts.SendApertures : Prop :=
  ∀ (s : State) (m : Master) (o : Nat) (data : List Word) (f : BitVec 24) (win : BitVec 16) (id : Nat) (p : OutPacket),
    let n := o / 65536
    let at_ := o % 65536
    let s' := fetchAperture s n
    let full := fun (q : OutPacket) => (q.off + 8 * q.data.length) % 4096 == 0
    let form := match m with
      | .context _ _ | .hart _ => data.length = 1 ∧ o % 8 = 0
      | .engine _ _ => data.length = 8 ∧ o % 64 = 0
      | _ => False
    (form → apertureSay s' (masterDomain s m) n = .take f win →
      (openPacket s' m = none → ∃ t, exec (.apertureWrite m o data) s = .next t ∧ itemOf t s'.nextId = some (.packet {
        master := m, flow := f, win := win, aperture := n, off := at_, data := data, opened := s'.cycle,
        closed := (at_ + 8 * data.length) % 4096 == 0, crew := masterCrew s' m, held := none })
        ∧ Posted t (.item s'.nextId) .aperturePacketTimeout)
      ∧ (openPacket s' m = some (id, p) → continues p f win n at_ = true → ∃ t, exec (.apertureWrite m o data) s = .next t ∧
        (let q := { p with data := p.data ++ data, opened := s'.cycle }
        itemOf t id = some (.packet { q with closed := full q }) ∧ (full q = true → Posted t (.item id) .fabricWriteAck))))
    ∧ (s.actor = .item id → itemOf s id = some (.packet p) →
      (p.closed = false → p.opened + 64 ≤ s.cycle → ∃ t, exec .aperturePacketTimeout s = .next t
        ∧ itemOf t id = some (.packet { p with closed := true }) ∧ Posted t (.item id) .fabricWriteAck)
      ∧ (p.closed = true → packetBehind s id p = false → ∃ t, exec .fabricWriteAck s = .next t ∧ itemOf t id = none
        ∧ (∀ k, (ctxAt s k).st = .waiting (.reissue .drain) → ctxAt t k = { ctxAt s k with st := .ready })))

/-- Fabric writes arrive and perform in order; send apertures form packets (logs 34, 36 and 78). -/
def Obligations.FabricWrites : Prop :=
  Sys2Proof.Parts.FabricWrites ∧ Sys2Proof.Parts.SendApertures

/-- R283, R284, R394: once the boot is done, a packet of eight words written to the window of a queue that is not DISABLED and whose ring has room is enqueued at TAIL; one that
is not whole, or to a DISABLED queue, is discarded and counted in DROP; one to a full ring is held. DISABLED takes HEAD to TAIL and withdraws
the starts not yet committed; ENABLED lets the launch unit choose again. -/
def Obligations.QueueWrites : Prop :=
  ∀ (s : State) (q : QueueId) (data : List Word),
    let x := queueOf s q
    HostOpen s →
      (data.length = 8 → x.state ≠ .disabled → ringFull x = false → x.ring % 64 = 0 → hubInside s (ringEntry x x.tail) 64 = true →
        ∃ t, exec (.queueWindowWrite q data) s = .next t ∧ queueOf t q = { x with tail := x.tail + 1 }
          ∧ globalWords t (ringEntry x x.tail) 8 = data ∧ Posted t .none .launchUnitStart)
      ∧ (data.length ≠ 8 ∨ x.state = .disabled → exec (.queueWindowWrite q data) s = .next (setQueue s q { x with drop := x.drop + 1 }))
      ∧ (data.length = 8 → x.state ≠ .disabled → ringFull x = true → exec (.queueWindowWrite q data) s =
        .next { s with host := { s.host with requests := [.queueWindowWrite q data] } })
      ∧ (∃ t, exec (.queueDisable q) s = .next t ∧ queueOf t q = { x with state := .disabled, head := x.tail, wait := none }
        ∧ ∀ e ∈ s.unit.starts, e.2.queue = some q → e.2.committed = false → Posted t (.item e.1) .crewReservationWithdraw)
      ∧ (∃ t, exec (.queueEnable q) s = .next t ∧ queueOf t q = { x with state := .enabled } ∧ Posted t .none .launchUnitStart)

/-! ### The launch unit, crews and tasks (R285 to R295) -/

/-- R285, R286, R290 to R292, R294, R295: the launch unit takes the head of the queue that it chooses: a marker goes on, and a crew packet that
passes its checks is reserved for. A member that agrees reserves its slots and entries, and the last one leads to the commit; one that does
not leads to the withdrawal, which frees what was reserved and leaves the queue waiting for a notice of the launch unit or of a member, its
count that of the withdrawal (log 89). A marker counts as done. -/
def Obligations.LaunchUnitSteps : Prop :=
  ∀ (s u : State) (q : QueueId) (id : Nat) (st : Start) (sc : ScullId),
    let x := queueOf s q
    let pa := ringEntry x x.head
    let s₀ := { s with unit := { s.unit with scan := some q } }
    let s' := hubFetch (hubFetch s₀ pa 64) (x.capt + 128 * ((hubWord s₀ pa).extractLsb' 40 8 : BitVec 8).toNat) 128
    let w := hubWords s' pa 8
    ((∀ e ∈ s.unit.starts, e.2.judged = true) → unitBusy s = false → chooseQueue s = some q → globalPoison s₀ pa = false →
      (judge s' { blankStart with queue := some q } w x.asid = (u, .marker) → ∃ t, exec .launchUnitStart s = .next t
        ∧ Posted t .none (.markerPacket q))
      ∧ (judge s' { blankStart with queue := some q } w x.asid = (u, .crew st) → ∃ t, exec .launchUnitStart s = .next t
        ∧ startOf t u.nextId = some st
        ∧ Posted t (.item u.nextId) (if st.header.cls = .harvest then .harvestAdmission else .crewReservationRequest)))
    ∧ (openStart s = some (id, st) →
      (st.members[st.agreed]? = some sc → (∀ y ∈ st.members, setHas s.isolated (y.toNat / 8) = false) →
        let need := startNeeds s st st.agreed
        let step := if st.header.cls = .harvest then Instr.harvestAdmission else .crewReservationRequest
        (memberAgrees s st st.agreed sc = true → ∃ t, exec step s = .next t ∧ startOf t id = some { st with agreed := st.agreed + 1 }
          ∧ { id := id, slots := need.1, entries := need.2.1 : Hold } ∈ (scullOf t sc).holds
          ∧ Posted t (.item id) (if st.agreed + 1 = st.members.length then .crewCommit else step))
        ∧ (memberAgrees s st st.agreed sc = false → ∃ t, exec step s = .next t ∧ Posted t (.item id) .crewReservationWithdraw))
      ∧ (st.queue = some q → (queueOf s q).state = .enabled → st.isolated = false →
        (∀ y ∈ st.members, setHas s.isolated (y.toNat / 8) = false) → ∃ t, exec .crewReservationWithdraw s = .next t
        ∧ startOf t id = none ∧ (∀ y ∈ st.members, ∀ h ∈ (scullOf t y).holds, h.id ≠ id)
        ∧ (queueOf t q).wait = some {
          unit := s.unit.notice + 1, sculls := st.members.map fun y => (y, (scullOf s y).notice), chamber := none }))
    ∧ (let v := hubWords s pa 8
      x.state = .enabled → x.head ≠ x.tail → packetType v = 0x02 → packetWord v 5 = 0 → ∃ t, exec (.markerPacket q) s = .next t
        ∧ (queueOf t q).head = x.head + 1 ∧ (queueOf t q).out = x.out ∧ (s.host.held = [] → packetBit v 11 = true → packetBit v 10 = false →
          t.host.held = [{ sign := (packetWord v 6).extractLsb' 0 16, user := (packetWord v 6).extractLsb' 32 32 }]))

/-- R17, R21, R287, R290, R292, R295: the commit of a start whose members have all agreed makes a crew under a number that no live crew holds,
pops its packet and counts it in OUT, and tells the members; at a member of enough free slots the contexts of its index start, in its lowest
slots; and a crew that is running, with no context, image or message left and its accesses performed, completes: it is no more, and the
launch unit gives its notice. -/
def Obligations.CrewLaunch : Prop :=
  ∀ (s : State) (id : Nat) (st : Start) (q : QueueId) (crew : CrewId) (x : Crew) (sc : ScullId),
    (s.crews.length < 4294967294 → freshCrew s ≠ 0 ∧ crewOf s (freshCrew s) = none)
    ∧ (openStart s = some (id, st) → st.kind = .crew → st.queue = some q → (queueOf s q).state = .enabled → st.agreed = st.members.length →
      (∀ y ∈ st.members, setHas s.isolated (y.toNat / 8) = false) →
      let new := freshCrew s
      ∃ t y, exec .crewCommit s = .next t ∧ crewOf t new = some y ∧ y.members = st.members ∧ y.caps = st.caps ∧ y.asid = st.asid
        ∧ y.ptroot = st.ptroot ∧ y.packet = st.packet ∧ y.queue = some q ∧ y.state = .running ∧ y.settling = st.members
        ∧ (queueOf t q).head = (queueOf s q).head + 1 ∧ (queueOf t q).out = (queueOf s q).out + 1
        ∧ startOf t id = some { st with committed := true, crew := new } ∧ ∀ y ∈ st.members, Posted t .none (.crewCommitArrival new y))
    ∧ (s.unit.starts = [(id, st)] → st.committed = true → st.crew = crew → st.kind = .crew → crewOf s crew = some x → x.members = [sc] →
      x.settling = [sc] → x.state = .running → packetNctx st.packet ≤ (freeSlots s sc).length → (scullOf s sc).fenced = false →
      setHas s.isolated (sc.toNat / 8) = false → (scullOf s sc).revokes = [] → ∃ t y, exec (.crewCommitArrival crew sc) s = .next t ∧ crewOf t crew = some y ∧ y.settling = []
        ∧ ∀ j < packetNctx st.packet, let slot := (freeSlots s sc).getD j 0
          let c := ctxOf t sc slot
          c.st = .starting ∧ c.crew = crew ∧ c.cidx = 0 ∧ c.csz = 0 ∧ c.pc = packetWord st.packet 1 ∧ c.hdr = st.header ∧ c.caps = x.caps
            ∧ c.asid = x.asid ∧ c.ptroot = x.ptroot ∧ readReg c 1 = BitVec.ofNat 64 j
            ∧ readReg c 2 = (if packetBit st.packet 15 then st.args.getD j 0 else packetWord st.packet 3)
            ∧ Posted t (.context sc slot) .contextStart)
    ∧ (crewOf s crew = some x → x.state = .running → x.settling = [] → crewKeys s crew = [] → parkedOf s crew = [] →
      launchesFor s crew = false → crewDrained s crew x = true → s.directory.live = [] → s.table.live = [] → packetWord x.packet 5 = 0 →
      ∃ t, exec (.taskComplete crew) s = .next t ∧ crewOf t crew = none ∧ t.unit.notice = s.unit.notice + 1)

/-! ### Pre-emption, revocation and pages (R32 to R40, R130 to R135, R299 to R304) -/

/-- R299 to R304: PREEMPT of a running owner crew that has a handler sets PPND in its contexts and the crew is SIGNALLED; the diversion of a
context writes its record into the save page and goes to the handler; a DRAINING crew whose pages are all parked is PREEMPTED, its deposits
spilled (as far as the backing area takes them: logs 32 and 52) and the packet's task done; and RESUME of a PREEMPTED crew on as many sculls as it had reserves for it. -/
def Obligations.Preemption : Prop :=
  ∀ (s u v : State) (q : QueueId) (crew : CrewId) (x : Crew) (sc : ScullId) (slot : Slot) (r : Reader) (l : List ScullId)
    (restarts : List (BitVec 11 × Slot × Word × Header)),
    let w := hubWords s (ringEntry (queueOf s q) (queueOf s q).head) 8
    let head := fun (type : BitVec 8) =>
      (queueOf s q).state = .enabled ∧ (queueOf s q).head ≠ (queueOf s q).tail ∧ packetType w = type ∧ (packetWord w 1).setWidth 32 = crew
    let c := ctxOf s sc slot
    (head 0x10 → crewOf s crew = some x → x.cls = .owner → packetPreh x.packet ≠ 0 → x.state = .running →
      memberStopped s crew x = false → (∀ e ∈ s.crews, e.2.ending = []) → (∀ k ∈ crewKeys s crew, (ctxAt s k).st = .ready ∧ (ctxAt s k).crew = crew) → crewKeys s crew ≠ [] →
      ∃ t y, exec (.preemptPacket q) s = .next t ∧ crewOf t crew = some y ∧ y.state = .signalled ∧ y.preemptStatus = some (w, some q, (queueOf s q).head)
        ∧ (∀ k ∈ crewKeys s crew, (ctxAt t k).ppnd = true) ∧ (queueOf t q).head = (queueOf s q).head + 1)
    ∧ (∀ f, s.actor = .context sc slot → c.ppnd = true → c.resv = none → crewOf s c.crew = some x →
      pageState s sc c.crew (packetSave x.packet) = some (.pinned f) →
      let b := f * 4096 + slot.toNat * 64
      ∃ t, exec .preemptDiversion s = .next t
        ∧ ctxOf t sc slot = { c with hnd := true, ppnd := false, pc := packetPreh x.packet }
        ∧ (List.range 8).map (fun i => spadRead (scullOf t sc) (b + 8 * i) 8) =
          [c.pc, c.tpc, c.cause, c.tval, ctxStat c, c.fflags.setWidth 64, c.fen.setWidth 64, c.tsave]
        ∧ ∀ a, a < b ∨ b + 64 ≤ a → memRead (scullOf t sc).data a = memRead (scullOf s sc).data a)
    ∧ (∀ p j, crewOf s crew = some x → x.cls = .owner → x.state = .draining → crewParked s crew = true → x.preemptStatus = some (p, some q, j) →
      packetWord p 5 = 0 → ∃ t y, exec (.crewDrainComplete crew) s = .next t ∧ crewOf t crew = some y ∧ y.state = .preempted
        ∧ (queueOf t q).out = (queueOf s q).out - 1 ∧ ∀ z, ∀ d ∈ (scullOf t z).deposits, d.crew ≠ crew)
    ∧ (head 0x11 → plainReader s q w = some r → placement s r false w = (u, .sculls l) → (queueOf u q).priv = true →
      crewOf u crew = some x → x.state = .preempted → l.length = x.members.length →
      (∀ y ∈ l, (scullOf u y).fenced = false) → restartHeaders u x x.acks = (v, some restarts) →
      ∃ t st, exec (.resumePacket q) s = .next t ∧ startOf t v.nextId = some st ∧ st.kind = .resume crew ∧ st.queue = some q ∧ st.members = l
        ∧ st.restarts = restarts ∧ Posted t (.item v.nextId) .crewReservationRequest)

/-- R32, R37 to R39: a revocation of a READY harvest context that binds no engine takes it into the reserve banks, its slot FREE and its window
dirty, and is granted; the grant of an engine binds it for its requester; an image with no load outstanding, its resource handed on, moves to
the backing area, and one that may resume on its scull, which is tried first (log 63), starts again in a free slot, whatever its backing
area says (log 32). -/
def Obligations.Revocations : Prop :=
  ∀ (s : State) (sc : ScullId) (slot : Slot) (e : EngineId) (id : Nat) (p : Parked),
    let c := ctxOf s sc slot
    let x := scullOf s sc
    (s.actor = .scull sc → x.granting = none → x.revokes = [.preempt slot] → c.st = .ready → c.hdr.cls = .harvest → c.size ≠ 0 →
      boundEngines s sc slot = [] → c.resv = none → reserveRoom s sc c = true →
      classKeys s sc .harvest = [ctxKey sc slot] →
      ∃ t y, exec .revocation s = .next t ∧ ctxOf t sc slot = .absent ∧ itemOf t s.nextId = some (.parked y) ∧ y.ctx = c ∧ y.sc = sc
        ∧ y.moved = false ∧ (scullOf t sc).reserve = x.reserve ++ [s.nextId]
        ∧ (scullOf t sc).dirtyWindows = x.dirtyWindows ++ [(c.base, c.size)] ∧ (scullOf t sc).notice = x.notice + 1
        ∧ (scullOf t sc).granting = some (.preempt slot, s.nextId) ∧ Posted t (.scull sc) .revocationGrant
        ∧ Posted t (.item s.nextId) .harvestImageMove)
    ∧ (s.actor = .scull sc → x.granting = some (.engine e slot, id) → c.st = .waiting (.bind e) → c.back = none → (engineOf s sc e).bound = none →
      ∃ t, exec .revocationGrant s = .next t ∧ (engineOf t sc e).bound = some slot ∧ ctxOf t sc slot = { retire c with st := .ready }
        ∧ (scullOf t sc).granting = none ∧ RevokeFor.engine e slot ∉ (scullOf t sc).revokes)
    ∧ (∀ place, s.actor = .item id → itemOf s id = some (.parked p) → p.moved = false → imageBusy s p.ctx = false →
      (∀ r, (scullOf s p.sc).granting ≠ some (r, id)) → freeImage s p.ctx.crew p.ctx.cidx = some place → ∃ t, exec .harvestImageMove s = .next t ∧ id ∉ (scullOf t p.sc).reserve ∧ (∀ z ∈ t.shadows, z.2.parked ≠ id)
        ∧ itemOf t id = some (.parked { p with
          moved := true, engines := (s.shadows.filter fun z => z.2.parked == id).map fun z => (z.2.e, z.2.state), image := some place })
        ∧ Posted t .none (.harvestResume (shellOf p.sc)))
    ∧ (∀ n, s.items = [(id, .parked p)] → p.future = none → p.moved = true → p.engines = [] → p.trap = none → isFrozen p.ctx = false →
      mayResume s id p p.sc = true → freeSlot s p.sc = some n → startsFrozen (loadImage s p).1 p.sc p.ctx.crew = false →
      ∃ t, exec (.harvestResume (shellOf p.sc)) s = .next t ∧ itemOf t id = none
        ∧ ctxOf t p.sc n = { (loadImage s p).2.ctx with st := .starting, base := 0, size := 0, lastIssue := none }
        ∧ Posted t (.context p.sc n) .contextStart)

/-- R131, R132, R134, R135, R288: a pinned page that no reservation names starts to unpin once its own scull's plain accesses have arrived; then it is PARKED, whether or not its image could be written (log 40), and its frame waits for scrubbing; a page
that is wanted reserves a frame (the lowest: log 39), and once the frame is clear takes its image back, data and F bits, and is pinned. -/
def Obligations.PageMoves : Prop :=
  ∀ (s u : State) (sc : ScullId) (crew : CrewId) (v f : Nat) (g : Group) (va : Word) (asid : BitVec 16) (root : Word),
    let x := scullOf s sc
    groupOf s sc crew = some g → v < g.frm →
      (tabFind g.pages v = some (.pinned f) → frameReserved x f = false → plainOutstanding s sc crew v = true →
          exec (.pageUnpin sc crew v) s = .next (postOnce s .none (.pageUnpin sc crew v)))
      ∧ (tabFind g.pages v = some (.pinned f) → frameReserved x f = false → plainOutstanding s sc crew v = false →
          ∃ t, exec (.pageUnpin sc crew v) s = .next t
        ∧ pageState t sc crew v = some (.unpinning f) ∧ (scullOf t sc).data = x.data ∧ Posted t .none (.pageParked sc crew v))
      ∧ (tabFind g.pages v = some (.pinned f) → frameReserved x f = true → exec (.pageUnpin sc crew v) s = .next s)
      ∧ (tabFind g.pages v = some (.unpinning f) → x.wordQueues = [] → x.sipWaiters = [] → pageWanted s sc crew v = false → ∃ t, exec (.pageParked sc crew v) s = .next t
          ∧ pageState t sc crew v = some .parked ∧ tabFind (scullOf t sc).frames f = none ∧ setHas (scullOf t sc).dirtyFrames f = true
          ∧ (scullOf t sc).notice = x.notice + 1 ∧ Posted t (.scull sc) .scrubComplete)
      ∧ (tabFind g.pages v = some (.refilling none) → promisedTo x (.page crew v) = [] → (openFrames x).head? = some f →
        ∃ t, exec (.pageRefillComplete sc crew v) s = .next t ∧ pageState t sc crew v = some (.refilling (some f))
          ∧ tabFind (scullOf t sc).promised f = some (.page crew v) ∧ Posted t .none (.pageRefillComplete sc crew v))
      ∧ (∀ beats, tabFind g.pages v = some (.refilling (some f)) → frameClear x f = true → pageImage s crew sc v = some (va, asid, root) →
        coxLoad s sc asid root va 65 = some (u, beats) → (∀ l, tabFind g.images v = some l → l = beats.map Prod.fst) → ∃ t, exec (.pageRefillComplete sc crew v) s = .next t
          ∧ pageState t sc crew v = some (.pinned f) ∧ tabFind (scullOf t sc).frames f = some (.page crew v)
          ∧ (∀ i < 64, memReadNat (scullOf t sc).data (f * 4096 + 64 * i) 64 = (beats.getD i (0, false)).1 % 256 ^ 64)
          ∧ ∀ i < 512, setHas (scullOf t sc).full (f * 512 + i) = ((beats.getD 64 (0, false)).1 / 2 ^ i % 2 == 1))


/-! ### The fault service, fences and errors (R120, R126, R305, R306, R325 to R334, R389) -/

/-- R144, R325 to R330: the oldest record goes into the log while it has room, and TAIL counts it; a write of HEAD lets held ones go on; RETRY
lets the context that waits for the verdict issue again, FAIL traps it with its reason, and a verdict that no record awaits, or a FAIL of a
reason below 2, is counted in BADV; the messages of a freeze and of a fence reach the supervisor's k3. -/
def Obligations.FaultService : Prop :=
  ∀ (s : State) (r : FaultRec) (rest : List FaultRec) (v seq : BitVec 32) (reason : BitVec 8) (sc y : ScullId) (slot t : Slot) (ea : Word)
    (crew : CrewId) (copy : Bool) (k : Nat),
    let c := ctxOf s sc slot
    let ends := fun (i : Instr) (post : State → Prop) => ∃ t, exec i s = .next t ∧ post t
    (s.fs.held = r :: rest → logFull s.fs = false → s.fs.logBase % 64 = 0 →
      hubInside s (s.fs.logBase + 64 * (s.fs.tail.toNat % logSlots s.fs)) 64 = true → ends .faultRecordWrite fun u =>
      u.fs.tail = s.fs.tail + 1 ∧ u.fs.held = rest ∧ (s.fs.svcHost = true → u.host.held.length = s.host.held.length + 1)
      ∧ globalWords u (s.fs.logBase + 64 * (s.fs.tail.toNat % logSlots s.fs)) 8 =
        [r.type ++ r.kind ++ r.asid ++ r.seq, r.master, r.addr, r.pc, r.detail, r.who, r.gtc, 0])
    ∧ (HostOpen s →
      (ends (.fsHeadWrite v) fun u => u.fs.head = v ∧ (s.fs.held ≠ [] → Posted u .none .faultRecordWrite))
      ∧ (s.fs.awaiting = [(seq, .context sc slot)] → c.st = .waiting (.reissue (.dropped seq ea)) →
        (ends (.verdictRetry seq) fun u => ctxOf u sc slot = { c with st := .ready } ∧ u.fs.awaiting = [])
        ∧ (2 ≤ reason.toNat → exec (.verdictFail seq reason) s = .next (takeTrap { s with fs := { s.fs with awaiting := [] } } sc slot
          { code := 0x06, aux := reason, tval := ea } c.pc)))
      ∧ (s.fs.awaiting = [] → ends (.verdictRetry seq) fun u => u.fs.badv = s.fs.badv + 1)
      ∧ (s.fs.awaiting = [] ∨ reason.toNat < 2 → ends (.verdictFail seq reason) fun u => u.fs.badv = s.fs.badv + 1))
    ∧ ((ctxAt s k).st = .ready → (linkOf (ctxAt s k) 3).present = false →
      (supervisorOf s crew (fun c => !isFrozen c) = some k → ends (.supervisorFreezeMessage crew copy t y) fun u =>
        linkOf (ctxAt u k) 3 = { value := freezeMessage copy t (indexIn s crew y) y, present := true })
      ∧ (supervisorOf s crew (fun _ => true) = some k → ends (.heartbeatLostMessage y crew) fun u =>
        linkOf (ctxAt u k) 3 = { value := (1 : BitVec 16) ++ (0 : BitVec 21) ++ indexIn s crew y ++ (0 : BitVec 5) ++ y, present := true }))

/-- R76, R125, R126, R330: MTHAW and MKILL leave rotation with the master that their operand names until the change is complete. MTHAW of a
FROZEN context, copy engine or hart, of the frozen PCIe function or of a frozen flow lets it go on and answers 0. MKILL of a FROZEN context
frees its slot, its accesses going on; of a frozen copy engine, and of a matrix or vector engine that is bound, discards the commands, unbinds
the engine and leaves its binder an engine fault; of the PCIe function discards what it held; of a flow closes it; and answers 0. Both answer 1
for a context, copy engine, hart, function or flow that is not FROZEN, MTHAW also for any matrix or vector engine and MKILL for one that is
not bound; 2 for an operand that names nothing and a slot that is FREE (log 69), and MTHAW for a master of an isolated shell. -/
def Obligations.MastersThawedAndKilled : Prop :=
  ∀ (s : State) (sc y : ScullId) (slot t b : Slot) (d e a : Reg) (p : Prior) (h : HartId) (fn : BitVec 8) (flow : BitVec 24) (g : EngineId),
    let c := ctxOf s sc slot
    let o := ctxOf s y t
    let operand := readReg c a
    let completes := fun (u : State) (v : Word) => ctxOf u sc slot = { retire (writeReg c d v) with st := .ready }
    let gives := fun (i : Instr) (v : Word) => ∃ u, exec i s = .next u ∧ completes u v
    let acts := fun (m : Option Master) => s.actor = .context sc slot ∧ c.st = .waiting (.master d m) ∧ c.back = none
    let apart := setHas s.isolated (y.toNat / 8)
    let x := engineOf s y g
    (Issues s sc slot [a] [d] true → c.st = .ready → ∀ i ∈ [Instr.mthaw d a, .mkill d a],
      let names := fun (m : Option Master) => ∃ u, exec i s = .next u ∧ Posted u (.context sc slot) i
        ∧ ctxOf u sc slot = { c with st := .waiting (.master d m) }
      (operand = (0 : BitVec 37) ++ y ++ (0 : BitVec 10) ++ t → names (some (.context y t)))
      ∧ (operand = (1 : BitVec 4) ++ (0 : BitVec 33) ++ y ++ (0 : BitVec 14) ++ (0 : BitVec 2) → names (some (.engine y .matrix)))
      ∧ (operand = (1 : BitVec 4) ++ (0 : BitVec 33) ++ y ++ (0 : BitVec 14) ++ (1 : BitVec 2) → names (some (.engine y .vector)))
      ∧ (operand = (1 : BitVec 4) ++ (0 : BitVec 33) ++ y ++ (0 : BitVec 14) ++ (2 : BitVec 2) → names (some (.engine y .copy)))
      ∧ (operand = (2 : BitVec 4) ++ (0 : BitVec 53) ++ h → names (some (.hart h)))
      ∧ (operand = (3 : BitVec 4) ++ (0 : BitVec 52) ++ fn → names (some (.pcie fn)))
      ∧ (operand = (4 : BitVec 4) ++ (0 : BitVec 36) ++ flow → names (some (.flow flow)))
      ∧ (5 ≤ (operand.extractLsb' 60 4 : BitVec 4).toNat → names none))
    ∧ (acts (some (.context y t)) →
      (o.st = .frozen p → apart = false → ∃ u, exec (.mthaw e a) s = .next u ∧ completes u 0
        ∧ ctxOf u y t = { o with st := match p with | .starting => .starting | .ready => .ready | .waiting w => .waiting w })
      ∧ (o.st = .frozen p → o.resv = none → boundEngines s y t = [] → (∀ z, crewOf s o.crew = some z → z.barriers = []) →
        (∃ k ∈ crewKeys s o.crew, k ≠ ctxKey y t ∧ k / 64 = y.toNat) →
        ((p = .starting ∨ p = .ready) ∧ (∀ e ∈ s.items, ∃ w, e.2 = .access w)) ∨ (s.items = [] ∧ ∀ r, p ≠ .waiting (.reservation r)) →
        ∃ u, exec (.mkill e a) s = .next u ∧ completes u 0 ∧ ctxOf u y t = .absent ∧ u.items = s.items
          ∧ (o.size ≠ 0 → (scullOf u y).dirtyWindows = (scullOf s y).dirtyWindows ++ [(o.base, o.size)]))
      ∧ (isFrozen o = false → o.st ≠ .free → (apart = false → gives (.mthaw e a) 1) ∧ gives (.mkill e a) 1)
      ∧ (o.st = .free → gives (.mthaw e a) 2 ∧ gives (.mkill e a) 2)
      ∧ (apart = true → gives (.mthaw e a) 2))
    ∧ (acts (some (.engine y g)) →
      (apart = false → g = .copy → x.frz = true → ∃ u, exec (.mthaw e a) s = .next u ∧ (engineOf u y g).frz = false ∧ completes u 0)
      ∧ (apart = false → g ≠ .copy ∨ x.frz = false → gives (.mthaw e a) 1)
      ∧ (apart = true → gives (.mthaw e a) 2)
      ∧ (x.bound = some b → (g = .copy → x.frz = true) → x.started = false → x.bindQueue = [] → ctxKey y b ≠ ctxKey sc slot →
        (ctxOf s y b).engineTraps = [] → waitsEngine (ctxOf s y b) g = false → ∃ u, exec (.mkill e a) s = .next u ∧ completes u 0
          ∧ engineOf u y g = { Engine.reset with fwcnt := x.fwcnt }
          ∧ (ctxOf u y b).engineTraps = [(g, { code := 0x0D, aux := 0x09, tval := 0 })])
      ∧ ((if g = .copy then x.frz = false else x.bound = none) → gives (.mkill e a) 1))
    ∧ (acts (some (.pcie fn)) →
      (fn ≠ 0 → gives (.mthaw e a) 2 ∧ gives (.mkill e a) 2)
      ∧ (fn = 0 → setHas s.host.frozen 0 = false → gives (.mthaw e a) 1 ∧ gives (.mkill e a) 1)
      ∧ (fn = 0 → setHas s.host.frozen 0 = true →
        (∃ u, exec (.mthaw e a) s = .next u ∧ completes u 0 ∧ u.host.frozen = [] ∧ u.host.requests = []
          ∧ ∀ i ∈ s.host.requests, Posted u .none i)
        ∧ (∃ u, exec (.mkill e a) s = .next u ∧ completes u 0 ∧ u.host = { s.host with frozen := [], requests := [] } ∧ u.agenda = s.agenda)))
    ∧ (acts (some (.flow flow)) →
      (flowState s flow ≠ .frozen → gives (.mthaw e a) 1 ∧ gives (.mkill e a) 1)
      ∧ (∀ at_, flowState s flow = .frozen → flowEntry s flow = some at_ → at_ % 8 = 0 → s.mc.moving = false →
        (∃ u, exec (.mthaw e a) s = .next u ∧ completes u 0 ∧ flowState u flow = .open_)
        ∧ (s.table.live = [] → ∃ u, exec (.mkill e a) s = .next u ∧ completes u 0 ∧ flowState u flow = .closed)))
    ∧ (acts (some (.hart h)) →
      ((hartOf s h).st = .frozen → (hartOf s h).call = none →
        (∃ u, exec (.mthaw e a) s = .next u ∧ (hartOf u h).st = .running ∧ completes u 0)
        ∧ (∃ u, exec (.mkill e a) s = .next u ∧ (hartOf u h).st = .idle ∧ completes u 0))
      ∧ ((hartOf s h).st ≠ .frozen → gives (.mthaw e a) 1 ∧ gives (.mkill e a) 1))
    ∧ (acts none → gives (.mthaw e a) 2 ∧ gives (.mkill e a) 2)

/-- R120, R298, R305, R306, R334, R337: a heartbeat that is missed fences its scull: its contexts are FROZEN, an access of another scull that waits
there ends in a poison trap, a record of type 5 is sent (its master the scull's slot 0: log 53), the supervisor of each crew with a context
there is told, and the tasks of the owner crews that have the scull as a member are faulted (log 80); SCULL_UNFENCE opens it again, its
contexts still FROZEN. A cox that fails isolates its shell: its sculls are fenced, its agent is dead, the crews with a member there are
faulted and FROZEN, and the partner, unless it has failed too, sends a record of type 6 (log 53) and kills the contexts on the shell; once no
context is left there, the shell returns with its sculls and engines as after reset. -/
def Obligations.FencesAndIsolation : Prop :=
  ∀ (s : State) (sc : ScullId) (shell : ShellId),
    let x := scullOf s sc
    (s.actor = .scull sc →
      (x.hbgov ≠ 0 → x.hbgov.toNat ≤ x.hbcnt.toNat → x.hbMissed = false → x.fenced = false →
        (∀ w ∈ x.sipWaiters, ∃ k, w.who = .context k ∧ k / 64 = sc.toNat) →
        (∀ e ∈ s.items, ∀ m, e.2 = .send m → m.target ≠ sc ∨ m.sc = sc) → (∀ e ∈ s.ctxs, ∀ r, e.2.resv = some r → r.sc ≠ sc) →
        let ends := fun (post : State → Prop) => ∃ t, exec .heartbeatMissed s = .next t ∧ (scullOf t sc).fenced = true
          ∧ (∀ k ∈ scullKeys s sc, (ctxAt s k).st ≠ .free →
            isFrozen (ctxAt t k) = true ∧ Posted t .none (.heartbeatLostMessage sc (ctxAt s k).crew))
          ∧ (∀ crew y, crewOf s crew = some y → y.cls = .owner → y.state ≠ .preempted → sc ∈ y.members →
            (crewOf t crew).map (·.faulted) = some true)
          ∧ (∃ r ∈ t.fs.held, r.type = 0x05 ∧ r.master = (0 : BitVec 37) ++ sc ++ (0 : BitVec 16)) ∧ post t
        (foreignWaiters s sc = [] → ends fun _ => True)
        ∧ (∀ id a, foreignWaiters s sc = [id] → accessOf s id = some a → a.ov = false →
          let z := ctxOf s a.sc a.slot
          z.st = .waiting (.access id) → z.hnd = false → z.tvec ≠ 0 → ends fun t => accessOf t id = none
            ∧ (ctxOf t a.sc a.slot).pc = z.tvec ∧ (ctxOf t a.sc a.slot).tval = a.ea
            ∧ (ctxOf t a.sc a.slot).cause = causeWord { code := 0x09, aux := 0x03, tval := a.ea }))
      ∧ (x.fenced = true → setHas s.isolated (sc.toNat / 8) = false → ∃ t, exec .scullUnfence s = .next t ∧ (scullOf t sc).fenced = false
        ∧ t.unit.notice = s.unit.notice + 1 ∧ ∀ k, isFrozen (ctxAt t k) = isFrozen (ctxAt s k)))
    ∧ (setHas s.isolated shell.toNat = false → s.items = [] → s.directory.live = [] → (∀ e ∈ s.ctxs, e.2.resv = none) →
      (∀ e ∈ s.crews, e.2.barriers = []) → (∀ e ∈ s.engines, e.2.bound = none) → (∀ e ∈ s.sculls, e.2.sipWaiters = []) →
      ∃ t, exec (.coxFailure shell) s = .next t
        ∧ setHas t.isolated shell.toNat = true ∧ (∀ y, y.toNat / 8 = shell.toNat → (scullOf t y).fenced = true)
        ∧ (agentOf t (shell.setWidth 9)).dead = true ∧ (agentOf t (shell.setWidth 9)).inc = (agentOf s (shell.setWidth 9)).inc + 1
        ∧ Posted t .none (.agentDeathSweep (shell.setWidth 9))
        ∧ (∀ crew y, crewOf s crew = some y → (∃ z ∈ y.members, z.toNat / 8 = shell.toNat) →
          (crewOf t crew).map (·.faulted) = some true ∧ ∀ k ∈ crewKeys s crew, k / 512 ≠ shell.toNat → (ctxAt s k).st ≠ .free → isFrozen (ctxAt t k) = true)
        ∧ (if setHas s.coxFailed (shell.toNat ^^^ 1) then ∀ k, k / 512 = shell.toNat → (ctxAt s k).st ≠ .free → isFrozen (ctxAt t k) = true
          else (∀ k, k / 512 = shell.toNat → (ctxAt t k).st = .free)
            ∧ ∃ r ∈ t.fs.held, r.type = 0x06 ∧ r.master = (0 : BitVec 37) ++ shell ++ (0 : BitVec 19)))
    ∧ (setHas s.isolated shell.toNat = true → (∀ y, y.toNat / 8 = shell.toNat → scullKeys s y = []) →
      ∃ t, exec (.shellReturnToService shell) s = .next t ∧ setHas t.isolated shell.toNat = false
        ∧ (∀ y, y.toNat / 8 = shell.toNat → scullOf t y = { Scull.reset with notice := (scullOf s y).notice + 1 }
          ∧ ∀ e, engineOf t y e = .reset)
        ∧ (agentOf t (shell.setWidth 9)).dead = false ∧ (agentOf t (shell.setWidth 9)).lines = [])

/-- R331, R333, R347, R389: an uncorrectable error poisons the word, the line, the register or the accumulator that it strikes and is
recorded with type 7; it takes a TLB entry away and is counted; at a tag it is fatal. A correctable one is counted for its die. At 115 °C the harts halt and
the alarm is raised. A limit exceeded throttles the matrix engines, and the vector engines too where the matrix engines already were; THR
counts to 7; with both limits met nothing is throttled. -/
def Obligations.ErrorsAndPower : Prop :=
  ∀ (s : State) (sc : ScullId) (slot : Slot) (w i : Nat) (r : Reg) (n : BitVec 2) (node : Node) (die : BitVec 4) (d : BitVec 3) (watts : Nat)
    (temps : List Nat),
    let strikes := fun (site : ErrorSite) (post : State → Prop) => ∃ t, exec (.uncorrectableError site) s = .next t ∧ post t
      ∧ ∃ e ∈ t.fs.held, e.type = 0x07
    let hot := temps.foldl max 0
    let excess := s.power.lim.toNat < watts ∨ 105 < hot
    strikes (.spadWord sc w) (fun t => setHas (scullOf t sc).poison w = true ∧ (scullOf t sc).data = (scullOf s sc).data)
    ∧ strikes (.memLine w) (fun t => memoryPoison t (w / 64) = true ∧ t.memory = s.memory)
    ∧ ((ctxOf s sc slot).st ≠ .free → strikes (.register sc slot r) fun t => setHas (ctxOf t sc slot).gPoison r.toNat = true)
    ∧ strikes (.accumulator sc n) (fun t => setHas (engineOf t sc .matrix).accPoison n.toNat = true)
    ∧ strikes (.tagEntry node i) (fun t => t.fatal = true)
    ∧ (∀ q : BitVec 5, strikes (.wideRegister sc q) fun t => setHas (engineOf t sc .vector).widePoison q.toNat = true)
    ∧ strikes (.latchTile sc) (fun t => (engineOf t sc .matrix).latchPoison = true)
    ∧ (∃ t, exec (.uncorrectableError (.tlbEntry sc i)) s = .next t ∧ tabFind (scullOf t sc).tlb i = none
      ∧ tabGet 0 t.power.corrected (dieOf sc) = tabGet 0 s.power.corrected (dieOf sc) + 1)
    ∧ (∃ t, exec (.correctableError die) s = .next t ∧ tabGet 0 t.power.corrected die.toNat = tabGet 0 s.power.corrected die.toNat + 1)
    ∧ (∃ t, exec (.thermalTrip d) s = .next t ∧ t.power.alarm = true ∧ ∀ h, (hartOf t h).st = .halted)
    ∧ (∃ t, exec (.powerThrottle watts temps) s = .next t ∧ t.power.temp = BitVec.ofNat 8 hot
      ∧ (excess → t.power.matrixThrottled = true ∧ t.power.vectorThrottled = s.power.matrixThrottled
        ∧ t.power.thr.toNat = min 7 (s.power.thr.toNat + 1))
      ∧ (¬ excess → t.power.matrixThrottled = false ∧ t.power.vectorThrottled = false ∧ t.power.thr = 0))

/-! ### Translation and coherence (R123, R141 to R145, R335, R339 to R347) -/

/-- R123, R141 to R145, R325, R335: TLBI and TLBIASID take the entries that match out of every TLB of the package, and no other entry, and wait; the
last report completes them (the entries leave in the instruction's own step, one with G for any ASID: log 56). A walk's leaf fills the TLB with an entry that translates as the leaf does and the instruction issues again; a
walk that ends in a fault drops the access: a record of type 1, and the context waits for its verdict. The missing line of a fetch enters the shell
L2 and the instruction cache. -/
def Obligations.TlbMaintenance : Prop :=
  ∀ (s u : State) (sc : ScullId) (slot : Slot) (a : Reg) (asid : BitVec 16) (page : Option Nat) (va : Word) (kind : AccessKind)
    (at_ level n pa : Nat) (pte : Word) (why : WalkWhy),
    let c := ctxOf s sc slot
    let v := readReg c a
    let clears := fun (i : Instr) (asid : BitVec 16) (page : Option Nat) => ∃ t l, exec i s = .next t
      ∧ ctxOf t sc slot = { c with st := .waiting (.tlb asid page l) }
      ∧ (∀ y, (scullOf t y).tlb = (scullOf s y).tlb.filter fun e => !entryMatches e.2 asid page)
      ∧ ∀ m ∈ l, Posted t .none (.tlbInvalidateReport sc slot m)
    (Issues s sc slot [a] [] true →
      clears (.tlbi a) (v.extractLsb' 48 16) (some (v.extractLsb' 12 36 : BitVec 36).toNat)
      ∧ clears (.tlbiasid a) (v.setWidth 16) none)
    ∧ (c.st = .waiting (.tlb asid page [n]) → c.back = none → agentBusy s page n = false →
      exec (.tlbInvalidateReport sc slot n) s = .next (setCtx s sc slot { retire c with st := .ready }))
    ∧ (s.actor = .context sc slot → c.st = .waiting (.reissue (.walk va kind)) →
      (shellWalk s (shellOf sc) c.asid c.ptroot va kind (!c.prv) = (u, .leaf at_ pte level) → ∃ t, exec .tlbWalkComplete s = .next t
        ∧ ctxOf t sc slot = { c with st := .ready }
        ∧ ∃ e ∈ (scullOf t sc).tlb, tlbCovers e.2 va c.asid = true ∧ tlbAddr e.2 va = leafAddr pte level va)
      ∧ (shellWalk s (shellOf sc) c.asid c.ptroot va kind (!c.prv) = (u, .fault level why) → ∃ t, exec .tlbWalkComplete s = .next t
        ∧ ctxOf t sc slot = { c with st := .waiting (.reissue (.dropped s.fs.nextSeq va)) }
        ∧ (∀ e ∈ (scullOf t sc).tlb, tlbCovers e.2 va c.asid = false)
        ∧ (s.fs.nextSeq, Master.context sc slot) ∈ t.fs.awaiting
        ∧ ∃ r ∈ t.fs.held, r.type = 0x01 ∧ r.kind = kindCode kind ∧ r.addr = va ∧ r.seq = s.fs.nextSeq ∧ r.detail = walkDetail level why))
    ∧ (s.actor = .context sc slot → c.st = .waiting (.reissue (.ifetch pa)) → ∃ t, exec .ifetchMissFill s = .next t
      ∧ ctxOf t sc slot = { c with st := .ready } ∧ setHas (scullOf t sc).icache (pa / 64) = true
      ∧ ((agentOf s (shellNode sc)).dead = false → (copyOf t (shellNode sc) (pa / 64)).isSome = true))

/-- R341, R342, R344, R353, R354: a line that no agent holds and that no transaction has open goes from memory to the reader in E, or to the
writer in M, as the head of its list, and its transaction stays open until the completion is reported; with a head it is forwarded there, and
HEAD names a writer from then on; while its chunk is in motion it stalls, and behind an open transaction it is queued. A request stamped with
progress under which its granule lay elsewhere is replayed. A message of an older incarnation is discarded and counted. -/
def Obligations.CoherenceRequests : Prop :=
  ∀ (s : State) (n o : Node) (line : Nat) (inc : BitVec 8) (stamp : Stamp),
    let h := homeOf s line
    let fresh := fun (st : Moesi) => Line.mk st none none (memoryLine s line) (memoryPoison s line)
    let ends := fun (i : Instr) (post : State → Prop) => ∃ t, exec i s = .next t ∧ post t
    let requests : List (Instr × HomeReq × Bool) :=
      [(.cohRead n line inc, .read n inc, false), (.cohWrite n line inc, .write n inc, true)]
    let opened := fun (r : HomeReq) => { HomeLine.reset with head := some n, tx := some r }
    let granule := (line * 64 - hbmBase) / 1024
    ((agentOf s n).inc = inc → (agentOf s n).dead = false → copyOf s n line = none →
      (h = .reset → inMotion s line = false →
        (ends (.cohRead n line inc) fun t => copyOf t n line = some (fresh .e) ∧ homeOf t line = opened (.read n inc)
          ∧ Posted t .none (.cohCompletionReport n line inc))
        ∧ (ends (.cohWrite n line inc) fun t => copyOf t n line = some (fresh .m) ∧ homeOf t line = opened (.write n inc)
          ∧ Posted t .none (.cohInvalidateAck n line n inc)))
      ∧ ∀ q ∈ requests,
        (h.head = some o → h.tx = none → inMotion s line = false → ends q.1 fun t =>
          homeOf t line = { h with tx := some q.2.1, head := some (if q.2.2 then n else o), prior := if q.2.2 then some o else h.prior }
          ∧ Posted t (.agent n inc) (.cohForward o n line q.2.2))
        ∧ (inMotion s line = true → ends q.1 fun t => homeOf t line = { h with stalled := h.stalled ++ [q.2.1] })
        ∧ (h.tx ≠ none → inMotion s line = false → ends q.1 fun t => homeOf t line = { h with queue := h.queue ++ [q.2.1] }))
    ∧ ((agentOf s n).inc = inc → hbmBase ≤ line * 64 → s.actor = .request stamp →
      granulePlace (stampMc s.mc stamp) granule ≠ granulePlace s.mc granule →
      ∀ i ∈ [Instr.cohRead n line inc, .cohWrite n line inc, .cohWriteback n line inc],
        ends i fun t => Posted t (.request stamp) (.hbmRequestReplay (line * 64) stamp.phase stamp.chunk))
    ∧ ((agentOf s n).inc = inc → (h.tx = some (.read n inc) ∨ h.tx = some (.write n inc)) → h.queue = [] →
      ends (.cohCompletionReport n line inc) fun t => (homeOf t line).tx = none ∧ (homeOf t line).head = h.head)
    ∧ ((agentOf s n).inc ≠ inc →
      let discards := fun (i : Instr) => ends i fun t => t.mc.stale = s.mc.stale + 1 ∧ t.homes = s.homes ∧ t.agents = s.agents
      (∀ i ∈ [Instr.cohRead n line inc, .cohWrite n line inc, .cohCompletionReport n line inc, .cohWriteback n line inc,
        .cohInvalidateAck o line n inc, .cohUnlink (some o) line n inc true none], discards i)
      ∧ (s.actor = .agent n inc →
        ∀ i ∈ [Instr.cohForward o n line false, .cohForward o n line true, .cohInvalidateHop o o line], discards i))

/-- R342, R345: the head of a list serves a forwarded read: it goes from M to O and from E to S, and the reader follows it in S with its data; the
old head serves a forwarded write: the writer holds the line in M and heads the list, the old head owns it no more, and the invalidation walk
starts there. A member that the walk reaches loses its copy and passes it on, and the last one acknowledges; the acknowledgement leads the writer to
report. -/
def Sys2Proof.Parts.CoherenceForwards : Prop :=
  ∀ (s : State) (n req sender : Node) (line : Nat) (inc : BitVec 8) (l : Line),
    let ends := fun (i : Instr) (post : State → Prop) => ∃ t, exec i s = .next t ∧ post t
    (copyOf s n line = some l →
      (n ≠ req → copyOf s req line = none → s.actor = .agent req inc → (agentOf s req).inc = inc → (agentOf s req).dead = false →
        ((homeOf s line).head = some n → l.next = none → ends (.cohForward n req line false) fun t =>
          copyOf t n line = some { l with st := match l.st with | .m => .o | .e => .s | z => z, next := some req }
          ∧ copyOf t req line = some { st := .s, prev := some n, next := none, data := l.data, poison := l.poison }
          ∧ (homeOf t line).head = some n ∧ Posted t .none (.cohCompletionReport req line inc))
        ∧ ((homeOf s line).prior = some n → ends (.cohForward n req line true) fun t =>
          copyOf t req line = some { st := .m, prev := none, next := none, data := l.data, poison := l.poison }
          ∧ copyOf t n line = some { l with st := .s }
          ∧ (homeOf t line).head = some req ∧ (homeOf t line).prior = none ∧ Posted t (.agent req inc) (.cohInvalidateHop n req line)))
      ∧ (n ≠ req → s.actor = .agent sender inc → (agentOf s sender).inc = inc → ends (.cohInvalidateHop n req line) fun t => copyOf t n line = none
        ∧ (∀ m, m ≠ n → copyOf t m line = copyOf s m line)
        ∧ (∀ y : ScullId, y.toNat / 8 = n.toNat → setHas (scullOf t y).icache line = false)
        ∧ match l.next with
          | some q => Posted t (.agent n (sentInc s n)) (.cohInvalidateHop q req line)
          | none => Posted t .none (.cohInvalidateAck req line n (sentInc s n))))
    ∧ ((agentOf s n).inc = inc → (agentOf s req).stores = [] → ends (.cohInvalidateAck req line n inc) fun t => t.agents = s.agents
      ∧ Posted t .none (.cohCompletionReport req line (sentInc s req)))

/-- R343, R345 to R347: a line in M or O that is evicted moves to the leaving buffer and writes back, and memory takes its data; any other copy
leaves the list at once; the write-back that is acknowledged to the agent whose home has it open leaves the buffer; the home takes the link of a departed head; a neighbour takes the
link that it is sent; the last unlink closes the departure. Retiring an agent raises its incarnation, and the sweep takes its lines, a
modified one poisoned in memory. -/
def Sys2Proof.Parts.CoherenceDepartures : Prop :=
  ∀ (s : State) (n p : Node) (line : Nat) (inc : BitVec 8) (l : Line) (link : Option Node),
    let a := agentOf s n
    let h := homeOf s line
    let ends := fun (i : Instr) (post : State → Prop) => ∃ t, exec i s = .next t ∧ post t
    let unlinks := fun (t : State) => copyOf t n line = none ∧ Posted t .none (.cohUnlink l.prev line n (sentInc s n) false l.next)
      ∧ (∀ q, l.next = some q → Posted t .none (.cohUnlink (some q) line n (sentInc s n) true l.prev))
      ∧ (homeOf t line).unlinks = if l.next.isSome then 2 else 1
    (tabFind a.lines line = some l →
      ((l.st = .m ∨ l.st = .o) → a.leaving.length < 8 → a.stores = [] → ends (.cohEvict n line) fun t =>
        tabFind (agentOf t n).lines line = none ∧ tabFind (agentOf t n).leaving line = some l
          ∧ ∃ st, Posted t (.request st) (.cohWriteback n line (sentInc s n)))
      ∧ (l.st = .e ∨ l.st = .s → h.tx = none → ends (.cohEvict n line) fun t =>
        (homeOf t line).tx = some (.writeback n a.inc) ∧ unlinks t))
    ∧ (tabFind a.leaving line = some l →
      (a.inc = inc → h.tx = none → inMotion s line = false → l.st = .m ∨ l.st = .o → ends (.cohWriteback n line inc) fun t =>
        memoryLine t line = l.data ∧ memoryPoison t line = l.poison ∧ (homeOf t line).tx = some (.writeback n inc)
        ∧ Posted t .none (.cohWritebackAck n line))
      ∧ (∀ i, h.tx = some (.writeback n i) → ends (.cohWritebackAck n line) unlinks)
      ∧ ((∀ i, h.tx ≠ some (.writeback n i)) → exec (.cohWritebackAck n line) s = .next s))
    ∧ (a.inc = inc → (ends (.cohUnlink none line n inc false link) fun t => (homeOf t line).unlinks = h.unlinks - 1
      ∧ (h.queue = [] → homeOf t line = { h with head := link, tx := if h.unlinks ≤ 1 then none else h.tx, unlinks := h.unlinks - 1 })))
    ∧ (a.inc = inc → copyOf s p line = some l → h.queue = [] → ends (.cohUnlink (some p) line n inc true link) fun t =>
      copyOf t p line = some { l with prev := link })
    ∧ (a.dead = false → ends (.agentRetire n) fun t => (agentOf t n).inc = a.inc + 1 ∧ (agentOf t n).dead = true
      ∧ Posted t .none (.agentDeathSweep n))
    ∧ (a.dead = true → s.homes = [] → a.lines = [(line, l)] → a.leaving = [] → l.prev = none → l.next = none →
      (∀ p ∈ s.agenda, lineMessage line p.instr = false) → ends (.agentDeathSweep n) fun t => (agentOf t n).lines = [] ∧ (agentOf t n).leaving = []
        ∧ memoryPoison t line = (memoryPoison s line || l.st == .m || l.st == .o) ∧ t.memory = s.memory)

/-- Forwarded reads and writes, evictions, write-backs and agents that die. -/
def Obligations.CoherenceMoves : Prop :=
  Sys2Proof.Parts.CoherenceForwards ∧ Sys2Proof.Parts.CoherenceDepartures

/-! ### Retiring a memory stack (R349 to R354) -/

/-- R349 to R352, R354, R394: of what PCIe writes once the boot is done, MEMCAP takes only the lowered value and the one that cancels it, and only while the migration is stable; VACK starts the
vacating, whose end sets VACD; RETIRE is refused with its reason in REF, and nothing else, while the stack is not vacated, and else sets BUSY
and begins SWAP; each chunk waits in motion for what its homes accepted, and counts; the last one of COMPACT retires the stack; and a request stamped with progress under which its granule lay
elsewhere is replayed and counted. -/
def Obligations.MemoryStacks : Prop :=
  ∀ (s : State) (v : Word) (f : BitVec 4) (pa : Nat) (phase chunk : BitVec 32),
    let m := s.mc
    let cap := (v.extractLsb' 0 52 : BitVec 52).toNat
    let phaseIs := fun (n : Nat) => m.mphase.toNat % 4 = n
    let ends := fun (i : Instr) (post : State → Prop) => ∃ t, exec i s = .next t ∧ post t
    (barOpen s = false → ∀ i ∈ [Instr.memcapWrite v, .vack, .retire f], exec i s = .next s)
    ∧ (HostOpen s →
      (phaseIs 0 → cap = hbmBase + (m.s - 1) * stackBytes ∨ cap = hbmBase + m.s * stackBytes →
        exec (.memcapWrite v) s = .next { s with mc := { m with memcap := cap, vacd := false } })
      ∧ (¬ phaseIs 0 ∨ (cap ≠ hbmBase + (m.s - 1) * stackBytes ∧ cap ≠ hbmBase + m.s * stackBytes) → exec (.memcapWrite v) s = .next s)
      ∧ (ends .vack fun t => t.mc = { m with vacd := false, vacating := true } ∧ Posted t .none .vacateComplete)
      ∧ (∀ r, retireRefusal m f = some r → exec (.retire f) s = .next { s with mc := { m with ref := r } })
      ∧ (phaseIs 0 → m.vacd = true → m.memcap = hbmBase + (m.s - 1) * stackBytes → f.toNat + 1 < m.s → ends (.retire f) fun t =>
        t.mc = { m with busy := true, fail := f, chunk := 0, mphase := m.mphase + 1 } ∧ Posted t .none .swapChunk))
    ∧ (m.vacating = true → aboveCapPending s = false → ends .vacateComplete fun t => t.mc = { m with vacd := true, vacating := false }
      ∧ ∀ n line, m.memcap ≤ line * 64 → tabFind s.homes line ≠ none → copyOf t n line = none)
    ∧ (retireRefusal m f = some 2 ↔ phaseIs 0 ∧ m.vacd = false)
    ∧ (m.moving = false ∨ chunkQuiet s = false →
      (phaseIs 1 → ends .swapChunk fun t => t.mc = { m with moving := true } ∧ t.memory = s.memory ∧ Posted t .none .swapChunk)
      ∧ (phaseIs 3 → ends .compactChunk fun t => t.mc = { m with moving := true } ∧ t.memory = s.memory ∧ Posted t .none .compactChunk))
    ∧ (m.moving = true → chunkQuiet s = true →
      (phaseIs 1 → m.chunk.toNat < 3071 → ends .swapChunk fun t => t.mc = { m with chunk := m.chunk + 1, moving := false }
        ∧ Posted t .none .swapChunk)
      ∧ (phaseIs 3 → m.chunk ≠ 0 → ends .compactChunk fun t => t.mc = { m with chunk := m.chunk - 1, moving := false }
        ∧ Posted t .none .compactChunk)
      ∧ (phaseIs 3 → m.chunk = 0 → ends .compactChunk fun t => t.mc = { m with
        s := m.s - 1, ret := m.ret ||| (1 <<< m.stkmap.getD (m.s - 1) 0), mphase := m.mphase + 1, busy := false, moving := false }))
    ∧ (let moved := hbmBase ≤ pa / 64 * 64 ∧ granulePlace (stampMc m { stampHere s with phase := phase, chunk := chunk })
        ((pa / 64 * 64 - hbmBase) / 1024) ≠ granulePlace m ((pa / 64 * 64 - hbmBase) / 1024)
      (moved → exec (.hbmRequestReplay pa phase chunk) s = .next { s with mc := { m with rply := m.rply + 1 } })
      ∧ (¬ moved → exec (.hbmRequestReplay pa phase chunk) s = .next s))

/-- R351 to R353: while a chunk of SWAP or of COMPACT moves, every address of the stacks that remain reads as before, where the map names
each logical stack's physical stack once and no request that stalled for the chunk follows it. -/
def Obligations.MigrationKeepsContents : Prop :=
  ∀ (s t : State) (pa : Nat),
    let m := s.mc
    let inMap := m.s ≤ 16 ∧ 2 ≤ m.s ∧ m.stkmap.length = 16 ∧ m.stkmap.Nodup ∧ m.fail.toNat + 1 < m.s
    Canonical s → inMap → (∀ e ∈ s.homes, e.2.stalled = []) → hbmBase ≤ pa → pa < hbmBase + (m.s - 1) * stackBytes →
      (m.mphase.toNat % 4 = 1 → m.chunk.toNat < 3071 → exec .swapChunk s = .next t →
        memRead t.memory (byteLoc t pa) = memRead s.memory (byteLoc s pa))
      ∧ (m.mphase.toNat % 4 = 3 → m.chunk ≠ 0 → m.chunk.toNat < (m.s - 1) * 3072 → exec .compactChunk s = .next t →
        memRead t.memory (byteLoc t pa) = memRead s.memory (byteLoc s pa))

/-! ### The device (R283, R297, R360, R379 to R383, R388, R390, R391, R393, R394) -/

/-- R297, R383, R394: a signal goes into the host's ring while it has room, its two words written at TAIL, and is delivered once; a write of HEAD lets
held ones go on. R121, R388: a STEP takes effect in the next cycle, and the offset of the rate is clamped; either written
after the cycle's first issue governs one cycle later (log 90); R389: the power limit is at most the
configured one; R360, R381, R384: the table base, a domain's root and the endpoint's tables read back the bits they hold. -/
def Obligations.DeviceRegisters : Prop :=
  ∀ (s : State) (g : Signal) (rest : List Signal) (v : BitVec 32) (w : Word) (a : Nat),
    let h := s.host
    let ends := fun (i : Instr) (post : State → Prop) => ∃ t, exec i s = .next t ∧ post t
    let written := fun (off : Nat) (back : Word) => ends (.registerWrite off w) fun t => mmioRead t off = some back
    (h.held = g :: rest → hostFull h = false → h.ring.toNat % 4096 = 0 → ends .hostSignal fun t =>
      let at_ := h.ring.toNat + 16 * (h.tail.toNat % hostSlots h)
      t.host.tail = h.tail + 1 ∧ t.host.held = rest ∧ t.host.delivered.length = h.delivered.length + 1
        ∧ memReadNat t.host.mem at_ 8 = (g.user ++ (0 : BitVec 16) ++ g.sign : Word).toNat
        ∧ memReadNat t.host.mem (at_ + 8) 8 = gtcOf s % 256 ^ 8)
    ∧ (HostOpen s →
      (ends (.hsHeadWrite v) fun t => t.host.head = v ∧ t.host.tail = h.tail ∧ (h.held ≠ [] → Posted t .none .hostSignal))
      ∧ (ends (.gtcStep v) fun t => t.gtcNum = s.gtcNum
        ∧ t.power.pendingStep = (if s.turn = 0 then s.power.pendingStep + v.toNat else s.power.pendingStep)
        ∧ t.power.lateStep = if s.turn = 0 then s.power.lateStep else s.power.lateStep + v.toNat)
      ∧ written 0x200080 ((w &&& 0xFFFFFFFFFF000) ||| BitVec.ofNat 64 (min 20 (w.toNat % 32)))
      ∧ written 0x200118 (w &&& 0xFFFFFFFFFF000)
      ∧ (ends (.registerWrite 0x200208 w) fun t => t.power.rateOfs.toInt = max (-0x100000) (min 0x100000 (w.setWidth 32 : BitVec 32).toInt)
        ∧ t.power.rateGov = if s.turn = 0 then t.power.rateOfs else s.power.rateGov)
      ∧ (ends (.registerWrite 0x200300 w) fun t => t.power.lim.toNat = min (w.toNat % 4096) s.config.lim.toNat)
      ∧ written 0x200400 (w &&& 0xFFFFFFFFFF000) ∧ written 0x200408 (w &&& 0xFFFFFFFFFF000)
      ∧ (a < 65536 → written (0x300000 + 8 * a) (w &&& 0x800FFFFFFFFFF000))
      ∧ (a < 4096 → (queueOf s (BitVec.ofNat 12 a)).state = .disabled → written (64 * a + 8) (w &&& 0xFFFFFFFFFFFC0)))

/-- R382: an inspection window writes a register of a context that is FROZEN, and of no other, pc with bits 2:0 clear (log 57). R388, R390: a time
message at a port that the configuration enables is stamped with GTC, but not after a boot failure. R393: a measurement request is answered
by the measurements, signed with the alias key of the boot, and that key's certificate (log 13). R390, R391: a boot whose signatures and table
are good ends READY with the table applied, the coxes of the firmware column started, no context alive, and the memory of the stacks kept
(log 14); one that fails ends with its code. -/
def Obligations.BootAndManagement : Prop :=
  ∀ (s : State) (sc : ScullId) (slot : Slot) (r : Reg) (v : Word) (port : BitVec 3),
    let c := ctxOf s sc slot
    let off := 0x40000000 + sc.toNat * 0x40000 + slot.toNat * 0x1000
    let ends := fun (i : Instr) (post : State → Prop) => ∃ t, exec i s = .next t ∧ post t
    (HostOpen s →
      (isFrozen c = true → regInLimit c r = true → ends (.inspectionWindowWrite (off + 8 * r.toNat) v) fun t => ctxOf t sc slot = writeReg c r v)
      ∧ (isFrozen c = true → ends (.inspectionWindowWrite (off + 0x428) v) fun t => ctxOf t sc slot = { c with pc := v &&& ~~~7 })
      ∧ (isFrozen c = false → ends (.inspectionWindowWrite (off + 0x428) v) fun t => t = s))
    ∧ (endpointUp s = true → s.config.ports.getLsbD port.toNat = true → ends (.ptpEventMessage port) fun t => t.ep.stamps = s.ep.stamps ++ [(port, gtcOf s)])
    ∧ (endpointUp s = false ∨ s.config.ports.getLsbD port.toNat = false → exec (.ptpEventMessage port) s = .next s)
    ∧ (ends .spdmRequest fun t => t.power.spdm = s.power.spdm ++ [measurements s ++ Config.mldsaSign s.power.aliasKey (measurements s) ++
      Config.mldsaSign Config.identityKey (Config.publicKey s.power.aliasKey)])
    ∧ (bootFailure s.flash = none → ends .reset fun t => t.power.bootSt = 1 ∧ t.power.bootAt = some t.cycle ∧ t.config = tableOf s.flash.tableBytes
      ∧ (∀ n, setHas t.power.firmwareOn n = (decide (t.config.fcs.toNat ≤ n) && decide (n < t.config.fcs.toNat + t.config.colw)))
      ∧ t.power.aliasKey = bootKey s.flash ∧ t.mc.s = t.config.s ∧ t.mc.memcap = hbmBase + t.config.s * stackBytes ∧ t.memory = s.memory ∧ t.ctxs = [] ∧ t.crews = [] ∧ t.queues = []
      ∧ t.gtcNum = 0 ∧ t.host.ring = 0 ∧ t.ep.flow = 0)
    ∧ (∀ code, bootFailure s.flash = some code → ends .reset fun t => t.power.bootSt = 2 ∧ t.power.bootCode = code ∧ t.ctxs = []
      ∧ t.memory = s.memory)


/-! ### Encodings, reset and the step (R45 to R56, R374, R390) -/

/-- R45 to R55, R374: words written out from the encodings of the manual decode to the instructions they stand for. -/
def Obligations.DecodeWords : Prop :=
  decode 0x01001840A0000000 = .ok (.add 3 4 5)
  ∧ decode 0x0200382000000064 = .ok (.addi 7 2 100)
  ∧ decode 0x0A000D6789ABCDEF = .ok (.movi 1 0x56789ABCDEF)
  ∧ decode 0x2100409142C00009 = .ok (.fma 8 9 10 11 .s .rtz)
  ∧ decode 0x300008401FFFFFFD = .ok (.b .ne 4 0 (-3))
  ∧ decode 0x35002050C1C00000 = .ok (.sel 4 5 6 7)
  ∧ decode 0x4000585000700000 = .ok (.ld 11 { mode := .loc, a := 5, b := 0, off := 0 } .w .take false)
  ∧ decode 0x4104386012600000 = .ok (.stRl 7 { mode := .glb, a := 6, b := 0, off := 0 } .w .package)
  ∧ decode 0x4300284004600000 = .ok (.aqr 5 { mode := .core, a := 4, b := 0, off := 0 })
  ∧ decode 0x44241840B2600010 = .ok (.acas 3 4 5 16 .w .package)
  ∧ decode 0x45043040AC400000 = .ok (.depFadds 6 { mode := .crw, a := 4, b := 5, off := 0 })
  ∧ decode 0x61001840A1838000 = .ok (.launch 3 4 5 6 7)
  ∧ decode 0x7C08487000000001 = .ok (.fwait 9 7 true)
  ∧ decode 0x810000000000002A = .ok (.trap 0x2A)
  ∧ decodeHart 0x0205A52B = .error .illegalCode ∧ decodeHart 0x0005852B = .ok (.hfutTake 10 11)

/-- R45 to R55, R374: decoding what a well-formed instruction encodes to gives the instruction back, every operand at every value. -/
def Obligations.DecodeEncodeRoundTrip : Prop :=
  (∀ (i : Instr) (w : Word), i.wellFormed = true → encode i = some w → decode w = .ok i)
  ∧ (∀ (i : Instr) (w : BitVec 32), encodeHart i = some w → decodeHart w = .ok i)
  ∧ ∀ r : Record, Record.ofBits r.bits = r

/-- R45 to R55: what decodes is well-formed and encodes to the word that it came from, so no word has two readings and no field of a word that
decodes is ignored. -/
def Obligations.DecodedIsWellFormed : Prop :=
  ∀ (w : Word) (i : Instr), decode w = .ok i → i.wellFormed = true ∧ encode i = some w

/-- R24, R25, R301, R371, R374: a step takes what is due first; with nothing due, the next context issues, and where its fetch passes and the
word decodes, the step is that instruction, executed by that context with the word noted as fetched; a running hart's word likewise, while
one of custom-1 that is no hart future instruction is illegal (cause 2), a word of RISC-V's base integer, M, A and CSR instructions acts, and
any other word is refused (log 11 for all that is RISC-V's); and with nobody to issue the next cycle begins. -/
def Obligations.StepRunsDecoded : Prop :=
  ∀ (s t v : State) (sc : ScullId) (slot : Slot) (h : HartId) (i : Instr) (pa : Nat) (w : BitVec 32),
    let word := fun (v : State) (pa : Nat) => agentWord v (shellNode sc) pa
    (s.fatal = true → step s = .fault .fatalCoherence)
    ∧ (s.fatal = false →
      (takeDue s = some (i, t) → step s = exec i t)
      ∧ (takeDue s = none →
        (nextIssue s = some (sc, slot) →
          let u := markIssue s sc slot
          let c := ctxOf u sc slot
          c.deferred = [] → c.engineTraps = [] → c.ppnd = false → canonical c.pc = true → capsGrant c.caps c.asid rightsFetch c.pc.toNat 8 = true →
          translate u sc slot c c.pc .fetch = .hit v pa → contextMay v sc pa 8 rightsFetch = true → inRegisters pa = false →
          setHas (scullOf v sc).icache (pa / 64) = true → globalPoison v pa = false →
          (∀ old, tabFind (ctxOf v sc slot).fetched pa = some old → old = word v pa) → decode (word v pa) = .ok i →
          let fetched := { ctxOf v sc slot with fetched := tabSet (ctxOf v sc slot).fetched pa (word v pa) }
          step s = exec i (setCtx v sc slot fetched) ∧ (setCtx v sc slot fetched).actor = .context sc slot)
        ∧ (nextIssue s = none →
          (nextHart s = some h → hartReach { s with turn := 2049 + h.toNat } h .fetch (hartOf s h).pc 4 = .at_ t pa →
            v = fetchLine t hartNode (lineOf pa) → w = BitVec.ofNat 32 (globalRead v pa 4) →
            (decodeHart w = .ok i → step s = exec i { v with actor := .hart h })
            ∧ (decodeHart w = .error .notCustom1 → (∀ n, hartWord v h w = some n → step s = .next n)
              ∧ (hartWord v h w = none → step s = .refused (.hartInstruction w)))
            ∧ (∀ e, decodeHart w = .error e → e ≠ .notCustom1 → step s = .next (hartTrap v h 2 (w.setWidth 64))))
          ∧ (nextHart s = none → ∃ n, step s = .next n ∧ n.cycle = s.cycle + 1 ∧ n.gtcNum = s.gtcNum + gtcAdvance s ∧ n.memory = s.memory))))

/-- R34, R36, R102, R115, R229 to R231, R283, R349, R389, R390: what the manual states of the machine right after reset, before its boot: it is
booting, every slot is FREE, the scull, engine, queue and memory registers have their stated values, and the step RESET is due. -/
def Obligations.ResetState : Prop :=
  let s := State.reset
  s.power.bootSt = 0 ∧ s.fatal = false ∧ (∀ sc slot, (ctxOf s sc slot).st = .free)
    ∧ (∀ sc, let x := scullOf s sc
      x.keepto = 0x10000 ∧ x.hbud = 0 ∧ x.hbint = 0x100000 ∧ x.hbcnt = 0 ∧ x.probe = false ∧ x.fenced = false)
    ∧ (∀ sc e, let x := engineOf s sc e
      x.bound = none ∧ x.queue = [] ∧ x.bte = false ∧ x.fen = 0 ∧ x.fwcnt = 0 ∧ x.lst.lv = false)
    ∧ (∀ q, let x := queueOf s q
      x.state = .disabled ∧ x.age = 0x10 ∧ x.lsz = 4 ∧ x.priv = false ∧ x.pri = 0 ∧ x.head = 0 ∧ x.tail = 0 ∧ x.out = 0)
    ∧ s.mc.s = 16 ∧ s.mc.ret = 0 ∧ s.mc.busy = false ∧ s.mc.mphase = 0 ∧ s.power.lim = 2400
    ∧ takeDue s = some (.reset, { s with agenda := [] })

/-- The memory of the machine after reset is in its canonical form. -/
def Obligations.ResetCanonical : Prop := Canonical State.reset

/-- Every step keeps the memory's canonical form: addresses strictly rising, no listed zero. -/
def Obligations.StepKeepsCanonical : Prop :=
  ∀ s t : State, Canonical s → step s = .next t → Canonical t
end

