-- ==== Sys2Proof/Laws/Memory.lean ====
section
/-! SUPPORT. Tables, sets of numbers and memories: a read after a write, and the canonical form every memory operation keeps. -/

namespace Sys2Proof.Machine

/-! ### Tables -/

@[simp] theorem tabFind_nil {β : Type} (n : Nat) : tabFind ([] : Tab β) n = none := rfl

theorem tabFind_tabDrop {β : Type} (t : Tab β) (n k : Nat) : tabFind (tabDrop t n) k = if k = n then none else tabFind t k := by
  induction t with
  | nil => simp [tabDrop, tabFind]
  | cons e t ih =>
    obtain ⟨a, v⟩ := e
    by_cases ha : a = n
    · subst ha
      by_cases hk : k = a
      · subst hk
        simpa [tabDrop] using ih
      · have : ¬ a = k := fun h => hk h.symm
        simp [tabDrop, ih, hk, tabFind, this]
    · by_cases hk : a = k
      · subst hk
        simp [tabDrop, ha, tabFind]
      · simp [tabDrop, ha, tabFind, hk, ih]

theorem tabFind_tabIns {β : Type} (t : Tab β) (n k : Nat) (x : β) (h : tabFind t n = none) :
    tabFind (tabIns t n x) k = if k = n then some x else tabFind t k := by
  induction t with
  | nil => simp [tabIns, tabFind, eq_comm]
  | cons e t ih =>
    obtain ⟨a, v⟩ := e
    have ha : ¬ a = n := by
      intro ha
      simp [tabFind, ha] at h
    have ht : tabFind t n = none := by simpa [tabFind, ha] using h
    by_cases hlt : n < a
    · by_cases hk : k = n
      · simp [tabIns, hlt, tabFind, hk]
      · have : ¬ n = k := fun h => hk h.symm
        simp [tabIns, hlt, tabFind, hk, this]
    · by_cases hk : a = k
      · subst hk
        simp [tabIns, hlt, tabFind, ha]
      · simp [tabIns, hlt, tabFind, hk, ih ht]

theorem tabFind_tabSet {β : Type} (t : Tab β) (n k : Nat) (x : β) :
    tabFind (tabSet t n x) k = if k = n then some x else tabFind t k := by
  unfold tabSet
  rw [tabFind_tabIns _ _ _ _ (by simp [tabFind_tabDrop])]
  by_cases hk : k = n <;> simp [tabFind_tabDrop, hk]

@[simp] theorem tabFind_tabSet_self {β : Type} (t : Tab β) (n : Nat) (x : β) : tabFind (tabSet t n x) n = some x := by
  simp [tabFind_tabSet]

theorem tabFind_tabSet_ne {β : Type} (t : Tab β) {n k : Nat} (x : β) (h : k ≠ n) : tabFind (tabSet t n x) k = tabFind t k := by
  simp [tabFind_tabSet, h]

@[simp] theorem tabGet_tabSet_self {β : Type} (d : β) (t : Tab β) (n : Nat) (x : β) : tabGet d (tabSet t n x) n = x := by
  simp [tabGet]

theorem tabGet_tabSet_ne {β : Type} (d : β) (t : Tab β) {n k : Nat} (x : β) (h : k ≠ n) :
    tabGet d (tabSet t n x) k = tabGet d t k := by
  simp [tabGet, tabFind_tabSet, h]

theorem tabGet_tabDrop {β : Type} (d : β) (t : Tab β) (n k : Nat) : tabGet d (tabDrop t n) k = if k = n then d else tabGet d t k := by
  by_cases h : k = n <;> simp [tabGet, tabFind_tabDrop, h]

theorem tabFind_tabMap {β : Type} (f : Nat → β → β) (t : Tab β) (k : Nat) : tabFind (tabMap f t) k = (tabFind t k).map (f k) := by
  induction t with
  | nil => rfl
  | cons e t ih =>
    obtain ⟨a, v⟩ := e
    by_cases h : a = k
    · subst h
      simp [tabMap, tabFind]
    · simpa [tabMap, tabFind, h] using ih

/-! ### Sets of numbers -/

theorem setHas_setDel (t : NatSet) (n k : Nat) : setHas (setDel t n) k = (setHas t k && !(k == n)) := by
  induction t with
  | nil => rfl
  | cons a t ih =>
    by_cases ha : a = n
    · subst ha
      simp only [setDel, if_true, ih, setHas, BEq.comm (a := a) (b := k)]
      cases (k == a) <;> cases setHas t k <;> rfl
    · by_cases hk : a = k
      · subst hk
        simp [setDel, ha, setHas]
      · have hk' : (a == k) = false := by simpa using hk
        simp [setDel, ha, setHas, hk', ih]

theorem setHas_setIns (t : NatSet) (n k : Nat) : setHas (setIns t n) k = (setHas t k || k == n) := by
  induction t with
  | nil => simp [setIns, setHas, BEq.comm]
  | cons a t ih =>
    by_cases h : n < a
    · simp only [setIns, h, if_true, setHas, BEq.comm (a := n) (b := k)]
      cases (a == k) <;> cases setHas t k <;> cases (k == n) <;> rfl
    · simp only [setIns, h, if_false, setHas, ih, Bool.or_assoc]

/-- Membership after adding a number. -/
theorem setHas_setAdd (t : NatSet) (n k : Nat) : setHas (setAdd t n) k = (setHas t k || k == n) := by
  unfold setAdd
  rw [setHas_setIns, setHas_setDel]
  cases setHas t k <;> cases (k == n) <;> rfl

/-- Membership after setting it. -/
theorem setHas_setPut (t : NatSet) (n k : Nat) (b : Bool) : setHas (setPut t n b) k = if k = n then b else setHas t k := by
  cases b <;> by_cases h : k = n <;> simp [setPut, setHas_setAdd, setHas_setDel, h]

/-! ### Memories: a read after a write -/

@[simp] theorem memRead_memWrite_self (m : Memory) (a : Nat) (b : Byte) : memRead (memWrite m a b) a = b := by
  unfold memRead memWrite
  split
  · simp [tabGet_tabDrop, *]
  · simp

theorem memRead_memWrite_ne (m : Memory) {a k : Nat} (b : Byte) (h : k ≠ a) : memRead (memWrite m a b) k = memRead m k := by
  unfold memRead memWrite
  split
  · simp [tabGet_tabDrop, h]
  · exact tabGet_tabSet_ne _ _ _ h

/-- A write of n bytes leaves every byte outside them alone. -/
theorem memRead_memWriteNat_out (m : Memory) (a n v k : Nat) (h : k < a ∨ a + n ≤ k) : memRead (memWriteNat m a n v) k = memRead m k := by
  induction n generalizing m a v with
  | zero => rfl
  | succ n ih =>
    simp only [memWriteNat]
    rw [ih _ _ _ (by omega), memRead_memWrite_ne _ _ (by omega)]

/-- Byte i of what was written. -/
theorem memRead_memWriteNat (m : Memory) (a n v i : Nat) (h : i < n) :
    memRead (memWriteNat m a n v) (a + i) = BitVec.ofNat 8 (v / 256 ^ i) := by
  induction n generalizing m a v i with
  | zero => omega
  | succ n ih =>
    simp only [memWriteNat]
    cases i with
    | zero => rw [memRead_memWriteNat_out _ _ _ _ _ (by omega)]; simp
    | succ i =>
      have := ih (memWrite m a (BitVec.ofNat 8 v)) (a + 1) (v / 256) i (by omega)
      rw [show a + (i + 1) = a + 1 + i by omega, this, Nat.div_div_eq_div_mul, Nat.pow_succ, Nat.mul_comm]

/-- A read of the bytes just written gives their value. -/
theorem memReadNat_memWriteNat (m : Memory) (a n v : Nat) : memReadNat (memWriteNat m a n v) a n = v % 256 ^ n := by
  induction n generalizing m a v with
  | zero => simp [memReadNat, Nat.mod_one]
  | succ n ih =>
    simp only [memReadNat, memWriteNat]
    rw [memRead_memWriteNat_out _ _ _ _ _ (by omega), ih, memRead_memWrite_self, BitVec.toNat_ofNat, Nat.pow_succ 256 n,
      Nat.mul_comm _ 256, Nat.mod_mul]

/-! ### Memories: the canonical form -/

/-- Every address of a memory is above a bound. -/
def Memory.above (b : Nat) (m : Memory) : Prop := ∀ e ∈ m, b < e.1

theorem Memory.wf_cons (a : Nat) (b : Byte) (t : Memory) :
    Memory.wf ((a, b) :: t) = true ↔ b ≠ 0 ∧ Memory.above a t ∧ Memory.wf t = true := by
  induction t generalizing a b with
  | nil => simp [Memory.wf, Memory.above]
  | cons e t ih =>
    obtain ⟨a', b'⟩ := e
    rw [Memory.wf, ih]
    simp only [Bool.and_eq_true, decide_eq_true_eq, bne_iff_ne, ne_eq, Memory.above, List.mem_cons, forall_eq_or_imp, ih]
    constructor
    · rintro ⟨⟨h1, h2⟩, h3, h4, h5⟩
      exact ⟨h2, ⟨h1, fun e he => lt_trans h1 (h4 e he)⟩, h3, h4, h5⟩
    · rintro ⟨h2, ⟨h1, _⟩, h3, h4, h5⟩
      exact ⟨⟨h1, h2⟩, h3, h4, h5⟩

theorem tabDrop_mem {β : Type} (t : Tab β) (n : Nat) (e : Nat × β) (h : e ∈ tabDrop t n) : e ∈ t ∧ e.1 ≠ n := by
  induction t with
  | nil => simp [tabDrop] at h
  | cons x t ih =>
    obtain ⟨a, v⟩ := x
    by_cases ha : a = n
    · have := ih (by simpa [tabDrop, ha] using h)
      exact ⟨List.mem_cons_of_mem _ this.1, this.2⟩
    · simp only [tabDrop, ha, if_false, List.mem_cons] at h
      rcases h with rfl | h
      · exact ⟨List.mem_cons_self, ha⟩
      · exact ⟨List.mem_cons_of_mem _ (ih h).1, (ih h).2⟩

theorem tabIns_mem {β : Type} (t : Tab β) (n : Nat) (x : β) (e : Nat × β) (h : e ∈ tabIns t n x) : e = (n, x) ∨ e ∈ t := by
  induction t with
  | nil => simpa [tabIns] using h
  | cons y t ih =>
    obtain ⟨a, v⟩ := y
    by_cases ha : n < a
    · simpa [tabIns, ha] using h
    · simp only [tabIns, ha, if_false, List.mem_cons] at h ⊢
      rcases h with rfl | h
      · exact .inr (.inl rfl)
      · rcases ih h with h | h
        · exact .inl h
        · exact .inr (.inr h)

/-- Dropping a cell keeps the canonical form. -/
theorem wf_tabDrop (m : Memory) (n : Nat) (h : Memory.wf m = true) : Memory.wf (tabDrop m n) = true := by
  induction m with
  | nil => rfl
  | cons e t ih =>
    obtain ⟨a, b⟩ := e
    rw [Memory.wf_cons] at h
    by_cases ha : a = n
    · simpa [tabDrop, ha] using ih h.2.2
    · rw [tabDrop, if_neg ha, Memory.wf_cons]
      exact ⟨h.1, fun e he => h.2.1 e (tabDrop_mem _ _ _ he).1, ih h.2.2⟩

/-- Inserting a cell that is not zero keeps the canonical form, where no cell of that address is listed. -/
theorem wf_tabIns (m : Memory) (n : Nat) (x : Byte) (h : Memory.wf m = true) (hx : x ≠ 0) (hn : ∀ e ∈ m, e.1 ≠ n) :
    Memory.wf (tabIns m n x) = true := by
  induction m with
  | nil => simpa [tabIns, Memory.wf] using hx
  | cons e t ih =>
    obtain ⟨a, b⟩ := e
    have hne : a ≠ n := hn _ List.mem_cons_self
    rw [Memory.wf_cons] at h
    by_cases hlt : n < a
    · rw [tabIns, if_pos hlt, Memory.wf_cons, Memory.wf_cons]
      refine ⟨hx, fun e he => ?_, h⟩
      rcases List.mem_cons.mp he with rfl | he
      · exact hlt
      · exact lt_trans hlt (h.2.1 e he)
    · rw [tabIns, if_neg hlt, Memory.wf_cons]
      refine ⟨h.1, fun e he => ?_, ih h.2.2 fun e he => hn e (List.mem_cons_of_mem _ he)⟩
      rcases tabIns_mem _ _ _ _ he with rfl | he
      · exact lt_of_le_of_ne (not_lt.mp hlt) hne
      · exact h.2.1 e he

/-- A write keeps the canonical form. -/
theorem wf_memWrite (m : Memory) (a : Nat) (b : Byte) (h : Memory.wf m = true) : Memory.wf (memWrite m a b) = true := by
  unfold memWrite
  split
  · exact wf_tabDrop m a h
  · exact wf_tabIns _ _ _ (wf_tabDrop m a h) (by assumption) fun e he => (tabDrop_mem _ _ _ he).2

/-- So does a write of several bytes as a number, -/
theorem wf_memWriteNat (m : Memory) (a n v : Nat) (h : Memory.wf m = true) : Memory.wf (memWriteNat m a n v) = true := by
  induction n generalizing m a v with
  | zero => exact h
  | succ n ih => exact ih _ _ _ (wf_memWrite m a _ h)

/-- and a write of a list of bytes. -/
theorem wf_memWriteBytes (m : Memory) (a : Nat) (l : List Byte) (h : Memory.wf m = true) : Memory.wf (memWriteBytes m a l) = true := by
  induction l generalizing m a with
  | nil => exact h
  | cons b t ih => exact ih _ _ (wf_memWrite m a b h)

end Sys2Proof.Machine
end

