-- ==== Sys2Proof/Laws/State.lean ====
section
/-! SUPPORT. What each update of the state leaves of each of its pieces: one lemma per piece per update, so that no proof unfolds a
record update; and what is read back after an update of the same kind. -/

namespace Sys2Proof.Machine

/-! ### setCtxAt -/

@[simp] theorem setCtxAt_cycle (s : State) (k : Nat) (c : Ctx) : (setCtxAt s k c).cycle = s.cycle := rfl
@[simp] theorem setCtxAt_gtcNum (s : State) (k : Nat) (c : Ctx) : (setCtxAt s k c).gtcNum = s.gtcNum := rfl
@[simp] theorem setCtxAt_agenda (s : State) (k : Nat) (c : Ctx) : (setCtxAt s k c).agenda = s.agenda := rfl
@[simp] theorem setCtxAt_turn (s : State) (k : Nat) (c : Ctx) : (setCtxAt s k c).turn = s.turn := rfl
@[simp] theorem setCtxAt_actor (s : State) (k : Nat) (c : Ctx) : (setCtxAt s k c).actor = s.actor := rfl
@[simp] theorem setCtxAt_draws (s : State) (k : Nat) (c : Ctx) : (setCtxAt s k c).draws = s.draws := rfl
@[simp] theorem setCtxAt_nextId (s : State) (k : Nat) (c : Ctx) : (setCtxAt s k c).nextId = s.nextId := rfl
@[simp] theorem setCtxAt_fatal (s : State) (k : Nat) (c : Ctx) : (setCtxAt s k c).fatal = s.fatal := rfl
@[simp] theorem setCtxAt_ctxs (s : State) (k : Nat) (c : Ctx) : (setCtxAt s k c).ctxs = tabSet s.ctxs k c := rfl
@[simp] theorem setCtxAt_sculls (s : State) (k : Nat) (c : Ctx) : (setCtxAt s k c).sculls = s.sculls := rfl
@[simp] theorem setCtxAt_engines (s : State) (k : Nat) (c : Ctx) : (setCtxAt s k c).engines = s.engines := rfl
@[simp] theorem setCtxAt_shadows (s : State) (k : Nat) (c : Ctx) : (setCtxAt s k c).shadows = s.shadows := rfl
@[simp] theorem setCtxAt_items (s : State) (k : Nat) (c : Ctx) : (setCtxAt s k c).items = s.items := rfl
@[simp] theorem setCtxAt_walkers (s : State) (k : Nat) (c : Ctx) : (setCtxAt s k c).walkers = s.walkers := rfl
@[simp] theorem setCtxAt_isolated (s : State) (k : Nat) (c : Ctx) : (setCtxAt s k c).isolated = s.isolated := rfl
@[simp] theorem setCtxAt_coxFailed (s : State) (k : Nat) (c : Ctx) : (setCtxAt s k c).coxFailed = s.coxFailed := rfl
@[simp] theorem setCtxAt_agents (s : State) (k : Nat) (c : Ctx) : (setCtxAt s k c).agents = s.agents := rfl
@[simp] theorem setCtxAt_homes (s : State) (k : Nat) (c : Ctx) : (setCtxAt s k c).homes = s.homes := rfl
@[simp] theorem setCtxAt_memory (s : State) (k : Nat) (c : Ctx) : (setCtxAt s k c).memory = s.memory := rfl
@[simp] theorem setCtxAt_linePoison (s : State) (k : Nat) (c : Ctx) : (setCtxAt s k c).linePoison = s.linePoison := rfl
@[simp] theorem setCtxAt_mc (s : State) (k : Nat) (c : Ctx) : (setCtxAt s k c).mc = s.mc := rfl
@[simp] theorem setCtxAt_queues (s : State) (k : Nat) (c : Ctx) : (setCtxAt s k c).queues = s.queues := rfl
@[simp] theorem setCtxAt_unit (s : State) (k : Nat) (c : Ctx) : (setCtxAt s k c).unit = s.unit := rfl
@[simp] theorem setCtxAt_crews (s : State) (k : Nat) (c : Ctx) : (setCtxAt s k c).crews = s.crews := rfl
@[simp] theorem setCtxAt_roots (s : State) (k : Nat) (c : Ctx) : (setCtxAt s k c).roots = s.roots := rfl
@[simp] theorem setCtxAt_directory (s : State) (k : Nat) (c : Ctx) : (setCtxAt s k c).directory = s.directory := rfl
@[simp] theorem setCtxAt_table (s : State) (k : Nat) (c : Ctx) : (setCtxAt s k c).table = s.table := rfl
@[simp] theorem setCtxAt_harts (s : State) (k : Nat) (c : Ctx) : (setCtxAt s k c).harts = s.harts := rfl
@[simp] theorem setCtxAt_fs (s : State) (k : Nat) (c : Ctx) : (setCtxAt s k c).fs = s.fs := rfl
@[simp] theorem setCtxAt_host (s : State) (k : Nat) (c : Ctx) : (setCtxAt s k c).host = s.host := rfl
@[simp] theorem setCtxAt_ep (s : State) (k : Nat) (c : Ctx) : (setCtxAt s k c).ep = s.ep := rfl
@[simp] theorem setCtxAt_power (s : State) (k : Nat) (c : Ctx) : (setCtxAt s k c).power = s.power := rfl
@[simp] theorem setCtxAt_config (s : State) (k : Nat) (c : Ctx) : (setCtxAt s k c).config = s.config := rfl
@[simp] theorem setCtxAt_flash (s : State) (k : Nat) (c : Ctx) : (setCtxAt s k c).flash = s.flash := rfl
@[simp] theorem setCtxAt_scullOf (s : State) (k : Nat) (c : Ctx) (sc' : ScullId) : scullOf (setCtxAt s k c) sc' = scullOf s sc' := rfl
@[simp] theorem setCtxAt_engineOf (s : State) (k : Nat) (c : Ctx) (sc' : ScullId) (e' : EngineId) : engineOf (setCtxAt s k c) sc' e' = engineOf s sc' e' := rfl
@[simp] theorem setCtxAt_crewOf (s : State) (k : Nat) (c : Ctx) (c' : CrewId) : crewOf (setCtxAt s k c) c' = crewOf s c' := rfl
@[simp] theorem setCtxAt_queueOf (s : State) (k : Nat) (c : Ctx) (q' : QueueId) : queueOf (setCtxAt s k c) q' = queueOf s q' := rfl
@[simp] theorem setCtxAt_agentOf (s : State) (k : Nat) (c : Ctx) (n' : Node) : agentOf (setCtxAt s k c) n' = agentOf s n' := rfl
@[simp] theorem setCtxAt_homeOf (s : State) (k : Nat) (c : Ctx) (n' : Nat) : homeOf (setCtxAt s k c) n' = homeOf s n' := rfl
@[simp] theorem setCtxAt_hartOf (s : State) (k : Nat) (c : Ctx) (h' : HartId) : hartOf (setCtxAt s k c) h' = hartOf s h' := rfl
@[simp] theorem setCtxAt_itemOf (s : State) (k : Nat) (c : Ctx) (n' : Nat) : itemOf (setCtxAt s k c) n' = itemOf s n' := rfl

/-! ### setCtx -/

@[simp] theorem setCtx_cycle (s : State) (sc : ScullId) (slot : Slot) (c : Ctx) : (setCtx s sc slot c).cycle = s.cycle := rfl
@[simp] theorem setCtx_gtcNum (s : State) (sc : ScullId) (slot : Slot) (c : Ctx) : (setCtx s sc slot c).gtcNum = s.gtcNum := rfl
@[simp] theorem setCtx_agenda (s : State) (sc : ScullId) (slot : Slot) (c : Ctx) : (setCtx s sc slot c).agenda = s.agenda := rfl
@[simp] theorem setCtx_turn (s : State) (sc : ScullId) (slot : Slot) (c : Ctx) : (setCtx s sc slot c).turn = s.turn := rfl
@[simp] theorem setCtx_actor (s : State) (sc : ScullId) (slot : Slot) (c : Ctx) : (setCtx s sc slot c).actor = s.actor := rfl
@[simp] theorem setCtx_draws (s : State) (sc : ScullId) (slot : Slot) (c : Ctx) : (setCtx s sc slot c).draws = s.draws := rfl
@[simp] theorem setCtx_nextId (s : State) (sc : ScullId) (slot : Slot) (c : Ctx) : (setCtx s sc slot c).nextId = s.nextId := rfl
@[simp] theorem setCtx_fatal (s : State) (sc : ScullId) (slot : Slot) (c : Ctx) : (setCtx s sc slot c).fatal = s.fatal := rfl
@[simp] theorem setCtx_ctxs (s : State) (sc : ScullId) (slot : Slot) (c : Ctx) : (setCtx s sc slot c).ctxs = tabSet s.ctxs (ctxKey sc slot) c := rfl
@[simp] theorem setCtx_sculls (s : State) (sc : ScullId) (slot : Slot) (c : Ctx) : (setCtx s sc slot c).sculls = s.sculls := rfl
@[simp] theorem setCtx_engines (s : State) (sc : ScullId) (slot : Slot) (c : Ctx) : (setCtx s sc slot c).engines = s.engines := rfl
@[simp] theorem setCtx_shadows (s : State) (sc : ScullId) (slot : Slot) (c : Ctx) : (setCtx s sc slot c).shadows = s.shadows := rfl
@[simp] theorem setCtx_items (s : State) (sc : ScullId) (slot : Slot) (c : Ctx) : (setCtx s sc slot c).items = s.items := rfl
@[simp] theorem setCtx_walkers (s : State) (sc : ScullId) (slot : Slot) (c : Ctx) : (setCtx s sc slot c).walkers = s.walkers := rfl
@[simp] theorem setCtx_isolated (s : State) (sc : ScullId) (slot : Slot) (c : Ctx) : (setCtx s sc slot c).isolated = s.isolated := rfl
@[simp] theorem setCtx_coxFailed (s : State) (sc : ScullId) (slot : Slot) (c : Ctx) : (setCtx s sc slot c).coxFailed = s.coxFailed := rfl
@[simp] theorem setCtx_agents (s : State) (sc : ScullId) (slot : Slot) (c : Ctx) : (setCtx s sc slot c).agents = s.agents := rfl
@[simp] theorem setCtx_homes (s : State) (sc : ScullId) (slot : Slot) (c : Ctx) : (setCtx s sc slot c).homes = s.homes := rfl
@[simp] theorem setCtx_memory (s : State) (sc : ScullId) (slot : Slot) (c : Ctx) : (setCtx s sc slot c).memory = s.memory := rfl
@[simp] theorem setCtx_linePoison (s : State) (sc : ScullId) (slot : Slot) (c : Ctx) : (setCtx s sc slot c).linePoison = s.linePoison := rfl
@[simp] theorem setCtx_mc (s : State) (sc : ScullId) (slot : Slot) (c : Ctx) : (setCtx s sc slot c).mc = s.mc := rfl
@[simp] theorem setCtx_queues (s : State) (sc : ScullId) (slot : Slot) (c : Ctx) : (setCtx s sc slot c).queues = s.queues := rfl
@[simp] theorem setCtx_unit (s : State) (sc : ScullId) (slot : Slot) (c : Ctx) : (setCtx s sc slot c).unit = s.unit := rfl
@[simp] theorem setCtx_crews (s : State) (sc : ScullId) (slot : Slot) (c : Ctx) : (setCtx s sc slot c).crews = s.crews := rfl
@[simp] theorem setCtx_roots (s : State) (sc : ScullId) (slot : Slot) (c : Ctx) : (setCtx s sc slot c).roots = s.roots := rfl
@[simp] theorem setCtx_directory (s : State) (sc : ScullId) (slot : Slot) (c : Ctx) : (setCtx s sc slot c).directory = s.directory := rfl
@[simp] theorem setCtx_table (s : State) (sc : ScullId) (slot : Slot) (c : Ctx) : (setCtx s sc slot c).table = s.table := rfl
@[simp] theorem setCtx_harts (s : State) (sc : ScullId) (slot : Slot) (c : Ctx) : (setCtx s sc slot c).harts = s.harts := rfl
@[simp] theorem setCtx_fs (s : State) (sc : ScullId) (slot : Slot) (c : Ctx) : (setCtx s sc slot c).fs = s.fs := rfl
@[simp] theorem setCtx_host (s : State) (sc : ScullId) (slot : Slot) (c : Ctx) : (setCtx s sc slot c).host = s.host := rfl
@[simp] theorem setCtx_ep (s : State) (sc : ScullId) (slot : Slot) (c : Ctx) : (setCtx s sc slot c).ep = s.ep := rfl
@[simp] theorem setCtx_power (s : State) (sc : ScullId) (slot : Slot) (c : Ctx) : (setCtx s sc slot c).power = s.power := rfl
@[simp] theorem setCtx_config (s : State) (sc : ScullId) (slot : Slot) (c : Ctx) : (setCtx s sc slot c).config = s.config := rfl
@[simp] theorem setCtx_flash (s : State) (sc : ScullId) (slot : Slot) (c : Ctx) : (setCtx s sc slot c).flash = s.flash := rfl
@[simp] theorem setCtx_scullOf (s : State) (sc : ScullId) (slot : Slot) (c : Ctx) (sc' : ScullId) : scullOf (setCtx s sc slot c) sc' = scullOf s sc' := rfl
@[simp] theorem setCtx_engineOf (s : State) (sc : ScullId) (slot : Slot) (c : Ctx) (sc' : ScullId) (e' : EngineId) : engineOf (setCtx s sc slot c) sc' e' = engineOf s sc' e' := rfl
@[simp] theorem setCtx_crewOf (s : State) (sc : ScullId) (slot : Slot) (c : Ctx) (c' : CrewId) : crewOf (setCtx s sc slot c) c' = crewOf s c' := rfl
@[simp] theorem setCtx_queueOf (s : State) (sc : ScullId) (slot : Slot) (c : Ctx) (q' : QueueId) : queueOf (setCtx s sc slot c) q' = queueOf s q' := rfl
@[simp] theorem setCtx_agentOf (s : State) (sc : ScullId) (slot : Slot) (c : Ctx) (n' : Node) : agentOf (setCtx s sc slot c) n' = agentOf s n' := rfl
@[simp] theorem setCtx_homeOf (s : State) (sc : ScullId) (slot : Slot) (c : Ctx) (n' : Nat) : homeOf (setCtx s sc slot c) n' = homeOf s n' := rfl
@[simp] theorem setCtx_hartOf (s : State) (sc : ScullId) (slot : Slot) (c : Ctx) (h' : HartId) : hartOf (setCtx s sc slot c) h' = hartOf s h' := rfl
@[simp] theorem setCtx_itemOf (s : State) (sc : ScullId) (slot : Slot) (c : Ctx) (n' : Nat) : itemOf (setCtx s sc slot c) n' = itemOf s n' := rfl

/-! ### setScull -/

@[simp] theorem setScull_cycle (s : State) (sc : ScullId) (x : Scull) : (setScull s sc x).cycle = s.cycle := rfl
@[simp] theorem setScull_gtcNum (s : State) (sc : ScullId) (x : Scull) : (setScull s sc x).gtcNum = s.gtcNum := rfl
@[simp] theorem setScull_agenda (s : State) (sc : ScullId) (x : Scull) : (setScull s sc x).agenda = s.agenda := rfl
@[simp] theorem setScull_turn (s : State) (sc : ScullId) (x : Scull) : (setScull s sc x).turn = s.turn := rfl
@[simp] theorem setScull_actor (s : State) (sc : ScullId) (x : Scull) : (setScull s sc x).actor = s.actor := rfl
@[simp] theorem setScull_draws (s : State) (sc : ScullId) (x : Scull) : (setScull s sc x).draws = s.draws := rfl
@[simp] theorem setScull_nextId (s : State) (sc : ScullId) (x : Scull) : (setScull s sc x).nextId = s.nextId := rfl
@[simp] theorem setScull_fatal (s : State) (sc : ScullId) (x : Scull) : (setScull s sc x).fatal = s.fatal := rfl
@[simp] theorem setScull_ctxs (s : State) (sc : ScullId) (x : Scull) : (setScull s sc x).ctxs = s.ctxs := rfl
@[simp] theorem setScull_sculls (s : State) (sc : ScullId) (x : Scull) : (setScull s sc x).sculls = tabSet s.sculls sc.toNat x := rfl
@[simp] theorem setScull_engines (s : State) (sc : ScullId) (x : Scull) : (setScull s sc x).engines = s.engines := rfl
@[simp] theorem setScull_shadows (s : State) (sc : ScullId) (x : Scull) : (setScull s sc x).shadows = s.shadows := rfl
@[simp] theorem setScull_items (s : State) (sc : ScullId) (x : Scull) : (setScull s sc x).items = s.items := rfl
@[simp] theorem setScull_walkers (s : State) (sc : ScullId) (x : Scull) : (setScull s sc x).walkers = s.walkers := rfl
@[simp] theorem setScull_isolated (s : State) (sc : ScullId) (x : Scull) : (setScull s sc x).isolated = s.isolated := rfl
@[simp] theorem setScull_coxFailed (s : State) (sc : ScullId) (x : Scull) : (setScull s sc x).coxFailed = s.coxFailed := rfl
@[simp] theorem setScull_agents (s : State) (sc : ScullId) (x : Scull) : (setScull s sc x).agents = s.agents := rfl
@[simp] theorem setScull_homes (s : State) (sc : ScullId) (x : Scull) : (setScull s sc x).homes = s.homes := rfl
@[simp] theorem setScull_memory (s : State) (sc : ScullId) (x : Scull) : (setScull s sc x).memory = s.memory := rfl
@[simp] theorem setScull_linePoison (s : State) (sc : ScullId) (x : Scull) : (setScull s sc x).linePoison = s.linePoison := rfl
@[simp] theorem setScull_mc (s : State) (sc : ScullId) (x : Scull) : (setScull s sc x).mc = s.mc := rfl
@[simp] theorem setScull_queues (s : State) (sc : ScullId) (x : Scull) : (setScull s sc x).queues = s.queues := rfl
@[simp] theorem setScull_unit (s : State) (sc : ScullId) (x : Scull) : (setScull s sc x).unit = s.unit := rfl
@[simp] theorem setScull_crews (s : State) (sc : ScullId) (x : Scull) : (setScull s sc x).crews = s.crews := rfl
@[simp] theorem setScull_roots (s : State) (sc : ScullId) (x : Scull) : (setScull s sc x).roots = s.roots := rfl
@[simp] theorem setScull_directory (s : State) (sc : ScullId) (x : Scull) : (setScull s sc x).directory = s.directory := rfl
@[simp] theorem setScull_table (s : State) (sc : ScullId) (x : Scull) : (setScull s sc x).table = s.table := rfl
@[simp] theorem setScull_harts (s : State) (sc : ScullId) (x : Scull) : (setScull s sc x).harts = s.harts := rfl
@[simp] theorem setScull_fs (s : State) (sc : ScullId) (x : Scull) : (setScull s sc x).fs = s.fs := rfl
@[simp] theorem setScull_host (s : State) (sc : ScullId) (x : Scull) : (setScull s sc x).host = s.host := rfl
@[simp] theorem setScull_ep (s : State) (sc : ScullId) (x : Scull) : (setScull s sc x).ep = s.ep := rfl
@[simp] theorem setScull_power (s : State) (sc : ScullId) (x : Scull) : (setScull s sc x).power = s.power := rfl
@[simp] theorem setScull_config (s : State) (sc : ScullId) (x : Scull) : (setScull s sc x).config = s.config := rfl
@[simp] theorem setScull_flash (s : State) (sc : ScullId) (x : Scull) : (setScull s sc x).flash = s.flash := rfl
@[simp] theorem setScull_ctxAt (s : State) (sc : ScullId) (x : Scull) (k' : Nat) : ctxAt (setScull s sc x) k' = ctxAt s k' := rfl
@[simp] theorem setScull_engineOf (s : State) (sc : ScullId) (x : Scull) (sc' : ScullId) (e' : EngineId) : engineOf (setScull s sc x) sc' e' = engineOf s sc' e' := rfl
@[simp] theorem setScull_crewOf (s : State) (sc : ScullId) (x : Scull) (c' : CrewId) : crewOf (setScull s sc x) c' = crewOf s c' := rfl
@[simp] theorem setScull_queueOf (s : State) (sc : ScullId) (x : Scull) (q' : QueueId) : queueOf (setScull s sc x) q' = queueOf s q' := rfl
@[simp] theorem setScull_agentOf (s : State) (sc : ScullId) (x : Scull) (n' : Node) : agentOf (setScull s sc x) n' = agentOf s n' := rfl
@[simp] theorem setScull_homeOf (s : State) (sc : ScullId) (x : Scull) (n' : Nat) : homeOf (setScull s sc x) n' = homeOf s n' := rfl
@[simp] theorem setScull_hartOf (s : State) (sc : ScullId) (x : Scull) (h' : HartId) : hartOf (setScull s sc x) h' = hartOf s h' := rfl
@[simp] theorem setScull_itemOf (s : State) (sc : ScullId) (x : Scull) (n' : Nat) : itemOf (setScull s sc x) n' = itemOf s n' := rfl
@[simp] theorem setScull_ctxOf (s : State) (sc : ScullId) (x : Scull) (sc' : ScullId) (slot' : Slot) : ctxOf (setScull s sc x) sc' slot' = ctxOf s sc' slot' := rfl

/-! ### setEngine -/

@[simp] theorem setEngine_cycle (s : State) (sc : ScullId) (e : EngineId) (x : Engine) : (setEngine s sc e x).cycle = s.cycle := rfl
@[simp] theorem setEngine_gtcNum (s : State) (sc : ScullId) (e : EngineId) (x : Engine) : (setEngine s sc e x).gtcNum = s.gtcNum := rfl
@[simp] theorem setEngine_agenda (s : State) (sc : ScullId) (e : EngineId) (x : Engine) : (setEngine s sc e x).agenda = s.agenda := rfl
@[simp] theorem setEngine_turn (s : State) (sc : ScullId) (e : EngineId) (x : Engine) : (setEngine s sc e x).turn = s.turn := rfl
@[simp] theorem setEngine_actor (s : State) (sc : ScullId) (e : EngineId) (x : Engine) : (setEngine s sc e x).actor = s.actor := rfl
@[simp] theorem setEngine_draws (s : State) (sc : ScullId) (e : EngineId) (x : Engine) : (setEngine s sc e x).draws = s.draws := rfl
@[simp] theorem setEngine_nextId (s : State) (sc : ScullId) (e : EngineId) (x : Engine) : (setEngine s sc e x).nextId = s.nextId := rfl
@[simp] theorem setEngine_fatal (s : State) (sc : ScullId) (e : EngineId) (x : Engine) : (setEngine s sc e x).fatal = s.fatal := rfl
@[simp] theorem setEngine_ctxs (s : State) (sc : ScullId) (e : EngineId) (x : Engine) : (setEngine s sc e x).ctxs = s.ctxs := rfl
@[simp] theorem setEngine_sculls (s : State) (sc : ScullId) (e : EngineId) (x : Engine) : (setEngine s sc e x).sculls = s.sculls := rfl
@[simp] theorem setEngine_engines (s : State) (sc : ScullId) (e : EngineId) (x : Engine) : (setEngine s sc e x).engines = tabSet s.engines (engineKey sc e) x := rfl
@[simp] theorem setEngine_shadows (s : State) (sc : ScullId) (e : EngineId) (x : Engine) : (setEngine s sc e x).shadows = s.shadows := rfl
@[simp] theorem setEngine_items (s : State) (sc : ScullId) (e : EngineId) (x : Engine) : (setEngine s sc e x).items = s.items := rfl
@[simp] theorem setEngine_walkers (s : State) (sc : ScullId) (e : EngineId) (x : Engine) : (setEngine s sc e x).walkers = s.walkers := rfl
@[simp] theorem setEngine_isolated (s : State) (sc : ScullId) (e : EngineId) (x : Engine) : (setEngine s sc e x).isolated = s.isolated := rfl
@[simp] theorem setEngine_coxFailed (s : State) (sc : ScullId) (e : EngineId) (x : Engine) : (setEngine s sc e x).coxFailed = s.coxFailed := rfl
@[simp] theorem setEngine_agents (s : State) (sc : ScullId) (e : EngineId) (x : Engine) : (setEngine s sc e x).agents = s.agents := rfl
@[simp] theorem setEngine_homes (s : State) (sc : ScullId) (e : EngineId) (x : Engine) : (setEngine s sc e x).homes = s.homes := rfl
@[simp] theorem setEngine_memory (s : State) (sc : ScullId) (e : EngineId) (x : Engine) : (setEngine s sc e x).memory = s.memory := rfl
@[simp] theorem setEngine_linePoison (s : State) (sc : ScullId) (e : EngineId) (x : Engine) : (setEngine s sc e x).linePoison = s.linePoison := rfl
@[simp] theorem setEngine_mc (s : State) (sc : ScullId) (e : EngineId) (x : Engine) : (setEngine s sc e x).mc = s.mc := rfl
@[simp] theorem setEngine_queues (s : State) (sc : ScullId) (e : EngineId) (x : Engine) : (setEngine s sc e x).queues = s.queues := rfl
@[simp] theorem setEngine_unit (s : State) (sc : ScullId) (e : EngineId) (x : Engine) : (setEngine s sc e x).unit = s.unit := rfl
@[simp] theorem setEngine_crews (s : State) (sc : ScullId) (e : EngineId) (x : Engine) : (setEngine s sc e x).crews = s.crews := rfl
@[simp] theorem setEngine_roots (s : State) (sc : ScullId) (e : EngineId) (x : Engine) : (setEngine s sc e x).roots = s.roots := rfl
@[simp] theorem setEngine_directory (s : State) (sc : ScullId) (e : EngineId) (x : Engine) : (setEngine s sc e x).directory = s.directory := rfl
@[simp] theorem setEngine_table (s : State) (sc : ScullId) (e : EngineId) (x : Engine) : (setEngine s sc e x).table = s.table := rfl
@[simp] theorem setEngine_harts (s : State) (sc : ScullId) (e : EngineId) (x : Engine) : (setEngine s sc e x).harts = s.harts := rfl
@[simp] theorem setEngine_fs (s : State) (sc : ScullId) (e : EngineId) (x : Engine) : (setEngine s sc e x).fs = s.fs := rfl
@[simp] theorem setEngine_host (s : State) (sc : ScullId) (e : EngineId) (x : Engine) : (setEngine s sc e x).host = s.host := rfl
@[simp] theorem setEngine_ep (s : State) (sc : ScullId) (e : EngineId) (x : Engine) : (setEngine s sc e x).ep = s.ep := rfl
@[simp] theorem setEngine_power (s : State) (sc : ScullId) (e : EngineId) (x : Engine) : (setEngine s sc e x).power = s.power := rfl
@[simp] theorem setEngine_config (s : State) (sc : ScullId) (e : EngineId) (x : Engine) : (setEngine s sc e x).config = s.config := rfl
@[simp] theorem setEngine_flash (s : State) (sc : ScullId) (e : EngineId) (x : Engine) : (setEngine s sc e x).flash = s.flash := rfl
@[simp] theorem setEngine_ctxAt (s : State) (sc : ScullId) (e : EngineId) (x : Engine) (k' : Nat) : ctxAt (setEngine s sc e x) k' = ctxAt s k' := rfl
@[simp] theorem setEngine_scullOf (s : State) (sc : ScullId) (e : EngineId) (x : Engine) (sc' : ScullId) : scullOf (setEngine s sc e x) sc' = scullOf s sc' := rfl
@[simp] theorem setEngine_crewOf (s : State) (sc : ScullId) (e : EngineId) (x : Engine) (c' : CrewId) : crewOf (setEngine s sc e x) c' = crewOf s c' := rfl
@[simp] theorem setEngine_queueOf (s : State) (sc : ScullId) (e : EngineId) (x : Engine) (q' : QueueId) : queueOf (setEngine s sc e x) q' = queueOf s q' := rfl
@[simp] theorem setEngine_agentOf (s : State) (sc : ScullId) (e : EngineId) (x : Engine) (n' : Node) : agentOf (setEngine s sc e x) n' = agentOf s n' := rfl
@[simp] theorem setEngine_homeOf (s : State) (sc : ScullId) (e : EngineId) (x : Engine) (n' : Nat) : homeOf (setEngine s sc e x) n' = homeOf s n' := rfl
@[simp] theorem setEngine_hartOf (s : State) (sc : ScullId) (e : EngineId) (x : Engine) (h' : HartId) : hartOf (setEngine s sc e x) h' = hartOf s h' := rfl
@[simp] theorem setEngine_itemOf (s : State) (sc : ScullId) (e : EngineId) (x : Engine) (n' : Nat) : itemOf (setEngine s sc e x) n' = itemOf s n' := rfl
@[simp] theorem setEngine_ctxOf (s : State) (sc : ScullId) (e : EngineId) (x : Engine) (sc' : ScullId) (slot' : Slot) : ctxOf (setEngine s sc e x) sc' slot' = ctxOf s sc' slot' := rfl

/-! ### setCrew -/

@[simp] theorem setCrew_cycle (s : State) (c : CrewId) (x : Crew) : (setCrew s c x).cycle = s.cycle := rfl
@[simp] theorem setCrew_gtcNum (s : State) (c : CrewId) (x : Crew) : (setCrew s c x).gtcNum = s.gtcNum := rfl
@[simp] theorem setCrew_agenda (s : State) (c : CrewId) (x : Crew) : (setCrew s c x).agenda = s.agenda := rfl
@[simp] theorem setCrew_turn (s : State) (c : CrewId) (x : Crew) : (setCrew s c x).turn = s.turn := rfl
@[simp] theorem setCrew_actor (s : State) (c : CrewId) (x : Crew) : (setCrew s c x).actor = s.actor := rfl
@[simp] theorem setCrew_draws (s : State) (c : CrewId) (x : Crew) : (setCrew s c x).draws = s.draws := rfl
@[simp] theorem setCrew_nextId (s : State) (c : CrewId) (x : Crew) : (setCrew s c x).nextId = s.nextId := rfl
@[simp] theorem setCrew_fatal (s : State) (c : CrewId) (x : Crew) : (setCrew s c x).fatal = s.fatal := rfl
@[simp] theorem setCrew_ctxs (s : State) (c : CrewId) (x : Crew) : (setCrew s c x).ctxs = s.ctxs := rfl
@[simp] theorem setCrew_sculls (s : State) (c : CrewId) (x : Crew) : (setCrew s c x).sculls = s.sculls := rfl
@[simp] theorem setCrew_engines (s : State) (c : CrewId) (x : Crew) : (setCrew s c x).engines = s.engines := rfl
@[simp] theorem setCrew_shadows (s : State) (c : CrewId) (x : Crew) : (setCrew s c x).shadows = s.shadows := rfl
@[simp] theorem setCrew_items (s : State) (c : CrewId) (x : Crew) : (setCrew s c x).items = s.items := rfl
@[simp] theorem setCrew_walkers (s : State) (c : CrewId) (x : Crew) : (setCrew s c x).walkers = s.walkers := rfl
@[simp] theorem setCrew_isolated (s : State) (c : CrewId) (x : Crew) : (setCrew s c x).isolated = s.isolated := rfl
@[simp] theorem setCrew_coxFailed (s : State) (c : CrewId) (x : Crew) : (setCrew s c x).coxFailed = s.coxFailed := rfl
@[simp] theorem setCrew_agents (s : State) (c : CrewId) (x : Crew) : (setCrew s c x).agents = s.agents := rfl
@[simp] theorem setCrew_homes (s : State) (c : CrewId) (x : Crew) : (setCrew s c x).homes = s.homes := rfl
@[simp] theorem setCrew_memory (s : State) (c : CrewId) (x : Crew) : (setCrew s c x).memory = s.memory := rfl
@[simp] theorem setCrew_linePoison (s : State) (c : CrewId) (x : Crew) : (setCrew s c x).linePoison = s.linePoison := rfl
@[simp] theorem setCrew_mc (s : State) (c : CrewId) (x : Crew) : (setCrew s c x).mc = s.mc := rfl
@[simp] theorem setCrew_queues (s : State) (c : CrewId) (x : Crew) : (setCrew s c x).queues = s.queues := rfl
@[simp] theorem setCrew_unit (s : State) (c : CrewId) (x : Crew) : (setCrew s c x).unit = s.unit := rfl
@[simp] theorem setCrew_crews (s : State) (c : CrewId) (x : Crew) : (setCrew s c x).crews = tabSet s.crews c.toNat x := rfl
@[simp] theorem setCrew_roots (s : State) (c : CrewId) (x : Crew) : (setCrew s c x).roots = s.roots := rfl
@[simp] theorem setCrew_directory (s : State) (c : CrewId) (x : Crew) : (setCrew s c x).directory = s.directory := rfl
@[simp] theorem setCrew_table (s : State) (c : CrewId) (x : Crew) : (setCrew s c x).table = s.table := rfl
@[simp] theorem setCrew_harts (s : State) (c : CrewId) (x : Crew) : (setCrew s c x).harts = s.harts := rfl
@[simp] theorem setCrew_fs (s : State) (c : CrewId) (x : Crew) : (setCrew s c x).fs = s.fs := rfl
@[simp] theorem setCrew_host (s : State) (c : CrewId) (x : Crew) : (setCrew s c x).host = s.host := rfl
@[simp] theorem setCrew_ep (s : State) (c : CrewId) (x : Crew) : (setCrew s c x).ep = s.ep := rfl
@[simp] theorem setCrew_power (s : State) (c : CrewId) (x : Crew) : (setCrew s c x).power = s.power := rfl
@[simp] theorem setCrew_config (s : State) (c : CrewId) (x : Crew) : (setCrew s c x).config = s.config := rfl
@[simp] theorem setCrew_flash (s : State) (c : CrewId) (x : Crew) : (setCrew s c x).flash = s.flash := rfl
@[simp] theorem setCrew_ctxAt (s : State) (c : CrewId) (x : Crew) (k' : Nat) : ctxAt (setCrew s c x) k' = ctxAt s k' := rfl
@[simp] theorem setCrew_scullOf (s : State) (c : CrewId) (x : Crew) (sc' : ScullId) : scullOf (setCrew s c x) sc' = scullOf s sc' := rfl
@[simp] theorem setCrew_engineOf (s : State) (c : CrewId) (x : Crew) (sc' : ScullId) (e' : EngineId) : engineOf (setCrew s c x) sc' e' = engineOf s sc' e' := rfl
@[simp] theorem setCrew_queueOf (s : State) (c : CrewId) (x : Crew) (q' : QueueId) : queueOf (setCrew s c x) q' = queueOf s q' := rfl
@[simp] theorem setCrew_agentOf (s : State) (c : CrewId) (x : Crew) (n' : Node) : agentOf (setCrew s c x) n' = agentOf s n' := rfl
@[simp] theorem setCrew_homeOf (s : State) (c : CrewId) (x : Crew) (n' : Nat) : homeOf (setCrew s c x) n' = homeOf s n' := rfl
@[simp] theorem setCrew_hartOf (s : State) (c : CrewId) (x : Crew) (h' : HartId) : hartOf (setCrew s c x) h' = hartOf s h' := rfl
@[simp] theorem setCrew_itemOf (s : State) (c : CrewId) (x : Crew) (n' : Nat) : itemOf (setCrew s c x) n' = itemOf s n' := rfl
@[simp] theorem setCrew_ctxOf (s : State) (c : CrewId) (x : Crew) (sc' : ScullId) (slot' : Slot) : ctxOf (setCrew s c x) sc' slot' = ctxOf s sc' slot' := rfl

/-! ### setQueue -/

@[simp] theorem setQueue_cycle (s : State) (q : QueueId) (x : Queue) : (setQueue s q x).cycle = s.cycle := rfl
@[simp] theorem setQueue_gtcNum (s : State) (q : QueueId) (x : Queue) : (setQueue s q x).gtcNum = s.gtcNum := rfl
@[simp] theorem setQueue_agenda (s : State) (q : QueueId) (x : Queue) : (setQueue s q x).agenda = s.agenda := rfl
@[simp] theorem setQueue_turn (s : State) (q : QueueId) (x : Queue) : (setQueue s q x).turn = s.turn := rfl
@[simp] theorem setQueue_actor (s : State) (q : QueueId) (x : Queue) : (setQueue s q x).actor = s.actor := rfl
@[simp] theorem setQueue_draws (s : State) (q : QueueId) (x : Queue) : (setQueue s q x).draws = s.draws := rfl
@[simp] theorem setQueue_nextId (s : State) (q : QueueId) (x : Queue) : (setQueue s q x).nextId = s.nextId := rfl
@[simp] theorem setQueue_fatal (s : State) (q : QueueId) (x : Queue) : (setQueue s q x).fatal = s.fatal := rfl
@[simp] theorem setQueue_ctxs (s : State) (q : QueueId) (x : Queue) : (setQueue s q x).ctxs = s.ctxs := rfl
@[simp] theorem setQueue_sculls (s : State) (q : QueueId) (x : Queue) : (setQueue s q x).sculls = s.sculls := rfl
@[simp] theorem setQueue_engines (s : State) (q : QueueId) (x : Queue) : (setQueue s q x).engines = s.engines := rfl
@[simp] theorem setQueue_shadows (s : State) (q : QueueId) (x : Queue) : (setQueue s q x).shadows = s.shadows := rfl
@[simp] theorem setQueue_items (s : State) (q : QueueId) (x : Queue) : (setQueue s q x).items = s.items := rfl
@[simp] theorem setQueue_walkers (s : State) (q : QueueId) (x : Queue) : (setQueue s q x).walkers = s.walkers := rfl
@[simp] theorem setQueue_isolated (s : State) (q : QueueId) (x : Queue) : (setQueue s q x).isolated = s.isolated := rfl
@[simp] theorem setQueue_coxFailed (s : State) (q : QueueId) (x : Queue) : (setQueue s q x).coxFailed = s.coxFailed := rfl
@[simp] theorem setQueue_agents (s : State) (q : QueueId) (x : Queue) : (setQueue s q x).agents = s.agents := rfl
@[simp] theorem setQueue_homes (s : State) (q : QueueId) (x : Queue) : (setQueue s q x).homes = s.homes := rfl
@[simp] theorem setQueue_memory (s : State) (q : QueueId) (x : Queue) : (setQueue s q x).memory = s.memory := rfl
@[simp] theorem setQueue_linePoison (s : State) (q : QueueId) (x : Queue) : (setQueue s q x).linePoison = s.linePoison := rfl
@[simp] theorem setQueue_mc (s : State) (q : QueueId) (x : Queue) : (setQueue s q x).mc = s.mc := rfl
@[simp] theorem setQueue_queues (s : State) (q : QueueId) (x : Queue) : (setQueue s q x).queues = tabSet s.queues q.toNat x := rfl
@[simp] theorem setQueue_unit (s : State) (q : QueueId) (x : Queue) : (setQueue s q x).unit = s.unit := rfl
@[simp] theorem setQueue_crews (s : State) (q : QueueId) (x : Queue) : (setQueue s q x).crews = s.crews := rfl
@[simp] theorem setQueue_roots (s : State) (q : QueueId) (x : Queue) : (setQueue s q x).roots = s.roots := rfl
@[simp] theorem setQueue_directory (s : State) (q : QueueId) (x : Queue) : (setQueue s q x).directory = s.directory := rfl
@[simp] theorem setQueue_table (s : State) (q : QueueId) (x : Queue) : (setQueue s q x).table = s.table := rfl
@[simp] theorem setQueue_harts (s : State) (q : QueueId) (x : Queue) : (setQueue s q x).harts = s.harts := rfl
@[simp] theorem setQueue_fs (s : State) (q : QueueId) (x : Queue) : (setQueue s q x).fs = s.fs := rfl
@[simp] theorem setQueue_host (s : State) (q : QueueId) (x : Queue) : (setQueue s q x).host = s.host := rfl
@[simp] theorem setQueue_ep (s : State) (q : QueueId) (x : Queue) : (setQueue s q x).ep = s.ep := rfl
@[simp] theorem setQueue_power (s : State) (q : QueueId) (x : Queue) : (setQueue s q x).power = s.power := rfl
@[simp] theorem setQueue_config (s : State) (q : QueueId) (x : Queue) : (setQueue s q x).config = s.config := rfl
@[simp] theorem setQueue_flash (s : State) (q : QueueId) (x : Queue) : (setQueue s q x).flash = s.flash := rfl
@[simp] theorem setQueue_ctxAt (s : State) (q : QueueId) (x : Queue) (k' : Nat) : ctxAt (setQueue s q x) k' = ctxAt s k' := rfl
@[simp] theorem setQueue_scullOf (s : State) (q : QueueId) (x : Queue) (sc' : ScullId) : scullOf (setQueue s q x) sc' = scullOf s sc' := rfl
@[simp] theorem setQueue_engineOf (s : State) (q : QueueId) (x : Queue) (sc' : ScullId) (e' : EngineId) : engineOf (setQueue s q x) sc' e' = engineOf s sc' e' := rfl
@[simp] theorem setQueue_crewOf (s : State) (q : QueueId) (x : Queue) (c' : CrewId) : crewOf (setQueue s q x) c' = crewOf s c' := rfl
@[simp] theorem setQueue_agentOf (s : State) (q : QueueId) (x : Queue) (n' : Node) : agentOf (setQueue s q x) n' = agentOf s n' := rfl
@[simp] theorem setQueue_homeOf (s : State) (q : QueueId) (x : Queue) (n' : Nat) : homeOf (setQueue s q x) n' = homeOf s n' := rfl
@[simp] theorem setQueue_hartOf (s : State) (q : QueueId) (x : Queue) (h' : HartId) : hartOf (setQueue s q x) h' = hartOf s h' := rfl
@[simp] theorem setQueue_itemOf (s : State) (q : QueueId) (x : Queue) (n' : Nat) : itemOf (setQueue s q x) n' = itemOf s n' := rfl
@[simp] theorem setQueue_ctxOf (s : State) (q : QueueId) (x : Queue) (sc' : ScullId) (slot' : Slot) : ctxOf (setQueue s q x) sc' slot' = ctxOf s sc' slot' := rfl

/-! ### setAgent -/

@[simp] theorem setAgent_cycle (s : State) (n : Node) (x : Agent) : (setAgent s n x).cycle = s.cycle := rfl
@[simp] theorem setAgent_gtcNum (s : State) (n : Node) (x : Agent) : (setAgent s n x).gtcNum = s.gtcNum := rfl
@[simp] theorem setAgent_agenda (s : State) (n : Node) (x : Agent) : (setAgent s n x).agenda = s.agenda := rfl
@[simp] theorem setAgent_turn (s : State) (n : Node) (x : Agent) : (setAgent s n x).turn = s.turn := rfl
@[simp] theorem setAgent_actor (s : State) (n : Node) (x : Agent) : (setAgent s n x).actor = s.actor := rfl
@[simp] theorem setAgent_draws (s : State) (n : Node) (x : Agent) : (setAgent s n x).draws = s.draws := rfl
@[simp] theorem setAgent_nextId (s : State) (n : Node) (x : Agent) : (setAgent s n x).nextId = s.nextId := rfl
@[simp] theorem setAgent_fatal (s : State) (n : Node) (x : Agent) : (setAgent s n x).fatal = s.fatal := rfl
@[simp] theorem setAgent_ctxs (s : State) (n : Node) (x : Agent) : (setAgent s n x).ctxs = s.ctxs := rfl
@[simp] theorem setAgent_sculls (s : State) (n : Node) (x : Agent) : (setAgent s n x).sculls = s.sculls := rfl
@[simp] theorem setAgent_engines (s : State) (n : Node) (x : Agent) : (setAgent s n x).engines = s.engines := rfl
@[simp] theorem setAgent_shadows (s : State) (n : Node) (x : Agent) : (setAgent s n x).shadows = s.shadows := rfl
@[simp] theorem setAgent_items (s : State) (n : Node) (x : Agent) : (setAgent s n x).items = s.items := rfl
@[simp] theorem setAgent_walkers (s : State) (n : Node) (x : Agent) : (setAgent s n x).walkers = s.walkers := rfl
@[simp] theorem setAgent_isolated (s : State) (n : Node) (x : Agent) : (setAgent s n x).isolated = s.isolated := rfl
@[simp] theorem setAgent_coxFailed (s : State) (n : Node) (x : Agent) : (setAgent s n x).coxFailed = s.coxFailed := rfl
@[simp] theorem setAgent_agents (s : State) (n : Node) (x : Agent) : (setAgent s n x).agents = tabSet s.agents n.toNat x := rfl
@[simp] theorem setAgent_homes (s : State) (n : Node) (x : Agent) : (setAgent s n x).homes = s.homes := rfl
@[simp] theorem setAgent_memory (s : State) (n : Node) (x : Agent) : (setAgent s n x).memory = s.memory := rfl
@[simp] theorem setAgent_linePoison (s : State) (n : Node) (x : Agent) : (setAgent s n x).linePoison = s.linePoison := rfl
@[simp] theorem setAgent_mc (s : State) (n : Node) (x : Agent) : (setAgent s n x).mc = s.mc := rfl
@[simp] theorem setAgent_queues (s : State) (n : Node) (x : Agent) : (setAgent s n x).queues = s.queues := rfl
@[simp] theorem setAgent_unit (s : State) (n : Node) (x : Agent) : (setAgent s n x).unit = s.unit := rfl
@[simp] theorem setAgent_crews (s : State) (n : Node) (x : Agent) : (setAgent s n x).crews = s.crews := rfl
@[simp] theorem setAgent_roots (s : State) (n : Node) (x : Agent) : (setAgent s n x).roots = s.roots := rfl
@[simp] theorem setAgent_directory (s : State) (n : Node) (x : Agent) : (setAgent s n x).directory = s.directory := rfl
@[simp] theorem setAgent_table (s : State) (n : Node) (x : Agent) : (setAgent s n x).table = s.table := rfl
@[simp] theorem setAgent_harts (s : State) (n : Node) (x : Agent) : (setAgent s n x).harts = s.harts := rfl
@[simp] theorem setAgent_fs (s : State) (n : Node) (x : Agent) : (setAgent s n x).fs = s.fs := rfl
@[simp] theorem setAgent_host (s : State) (n : Node) (x : Agent) : (setAgent s n x).host = s.host := rfl
@[simp] theorem setAgent_ep (s : State) (n : Node) (x : Agent) : (setAgent s n x).ep = s.ep := rfl
@[simp] theorem setAgent_power (s : State) (n : Node) (x : Agent) : (setAgent s n x).power = s.power := rfl
@[simp] theorem setAgent_config (s : State) (n : Node) (x : Agent) : (setAgent s n x).config = s.config := rfl
@[simp] theorem setAgent_flash (s : State) (n : Node) (x : Agent) : (setAgent s n x).flash = s.flash := rfl
@[simp] theorem setAgent_ctxAt (s : State) (n : Node) (x : Agent) (k' : Nat) : ctxAt (setAgent s n x) k' = ctxAt s k' := rfl
@[simp] theorem setAgent_scullOf (s : State) (n : Node) (x : Agent) (sc' : ScullId) : scullOf (setAgent s n x) sc' = scullOf s sc' := rfl
@[simp] theorem setAgent_engineOf (s : State) (n : Node) (x : Agent) (sc' : ScullId) (e' : EngineId) : engineOf (setAgent s n x) sc' e' = engineOf s sc' e' := rfl
@[simp] theorem setAgent_crewOf (s : State) (n : Node) (x : Agent) (c' : CrewId) : crewOf (setAgent s n x) c' = crewOf s c' := rfl
@[simp] theorem setAgent_queueOf (s : State) (n : Node) (x : Agent) (q' : QueueId) : queueOf (setAgent s n x) q' = queueOf s q' := rfl
@[simp] theorem setAgent_homeOf (s : State) (n : Node) (x : Agent) (n' : Nat) : homeOf (setAgent s n x) n' = homeOf s n' := rfl
@[simp] theorem setAgent_hartOf (s : State) (n : Node) (x : Agent) (h' : HartId) : hartOf (setAgent s n x) h' = hartOf s h' := rfl
@[simp] theorem setAgent_itemOf (s : State) (n : Node) (x : Agent) (n' : Nat) : itemOf (setAgent s n x) n' = itemOf s n' := rfl
@[simp] theorem setAgent_ctxOf (s : State) (n : Node) (x : Agent) (sc' : ScullId) (slot' : Slot) : ctxOf (setAgent s n x) sc' slot' = ctxOf s sc' slot' := rfl

/-! ### setHome -/

@[simp] theorem setHome_cycle (s : State) (n : Nat) (x : HomeLine) : (setHome s n x).cycle = s.cycle := rfl
@[simp] theorem setHome_gtcNum (s : State) (n : Nat) (x : HomeLine) : (setHome s n x).gtcNum = s.gtcNum := rfl
@[simp] theorem setHome_agenda (s : State) (n : Nat) (x : HomeLine) : (setHome s n x).agenda = s.agenda := rfl
@[simp] theorem setHome_turn (s : State) (n : Nat) (x : HomeLine) : (setHome s n x).turn = s.turn := rfl
@[simp] theorem setHome_actor (s : State) (n : Nat) (x : HomeLine) : (setHome s n x).actor = s.actor := rfl
@[simp] theorem setHome_draws (s : State) (n : Nat) (x : HomeLine) : (setHome s n x).draws = s.draws := rfl
@[simp] theorem setHome_nextId (s : State) (n : Nat) (x : HomeLine) : (setHome s n x).nextId = s.nextId := rfl
@[simp] theorem setHome_fatal (s : State) (n : Nat) (x : HomeLine) : (setHome s n x).fatal = s.fatal := rfl
@[simp] theorem setHome_ctxs (s : State) (n : Nat) (x : HomeLine) : (setHome s n x).ctxs = s.ctxs := rfl
@[simp] theorem setHome_sculls (s : State) (n : Nat) (x : HomeLine) : (setHome s n x).sculls = s.sculls := rfl
@[simp] theorem setHome_engines (s : State) (n : Nat) (x : HomeLine) : (setHome s n x).engines = s.engines := rfl
@[simp] theorem setHome_shadows (s : State) (n : Nat) (x : HomeLine) : (setHome s n x).shadows = s.shadows := rfl
@[simp] theorem setHome_items (s : State) (n : Nat) (x : HomeLine) : (setHome s n x).items = s.items := rfl
@[simp] theorem setHome_walkers (s : State) (n : Nat) (x : HomeLine) : (setHome s n x).walkers = s.walkers := rfl
@[simp] theorem setHome_isolated (s : State) (n : Nat) (x : HomeLine) : (setHome s n x).isolated = s.isolated := rfl
@[simp] theorem setHome_coxFailed (s : State) (n : Nat) (x : HomeLine) : (setHome s n x).coxFailed = s.coxFailed := rfl
@[simp] theorem setHome_agents (s : State) (n : Nat) (x : HomeLine) : (setHome s n x).agents = s.agents := rfl
@[simp] theorem setHome_homes (s : State) (n : Nat) (x : HomeLine) : (setHome s n x).homes = tabSet s.homes n x := rfl
@[simp] theorem setHome_memory (s : State) (n : Nat) (x : HomeLine) : (setHome s n x).memory = s.memory := rfl
@[simp] theorem setHome_linePoison (s : State) (n : Nat) (x : HomeLine) : (setHome s n x).linePoison = s.linePoison := rfl
@[simp] theorem setHome_mc (s : State) (n : Nat) (x : HomeLine) : (setHome s n x).mc = s.mc := rfl
@[simp] theorem setHome_queues (s : State) (n : Nat) (x : HomeLine) : (setHome s n x).queues = s.queues := rfl
@[simp] theorem setHome_unit (s : State) (n : Nat) (x : HomeLine) : (setHome s n x).unit = s.unit := rfl
@[simp] theorem setHome_crews (s : State) (n : Nat) (x : HomeLine) : (setHome s n x).crews = s.crews := rfl
@[simp] theorem setHome_roots (s : State) (n : Nat) (x : HomeLine) : (setHome s n x).roots = s.roots := rfl
@[simp] theorem setHome_directory (s : State) (n : Nat) (x : HomeLine) : (setHome s n x).directory = s.directory := rfl
@[simp] theorem setHome_table (s : State) (n : Nat) (x : HomeLine) : (setHome s n x).table = s.table := rfl
@[simp] theorem setHome_harts (s : State) (n : Nat) (x : HomeLine) : (setHome s n x).harts = s.harts := rfl
@[simp] theorem setHome_fs (s : State) (n : Nat) (x : HomeLine) : (setHome s n x).fs = s.fs := rfl
@[simp] theorem setHome_host (s : State) (n : Nat) (x : HomeLine) : (setHome s n x).host = s.host := rfl
@[simp] theorem setHome_ep (s : State) (n : Nat) (x : HomeLine) : (setHome s n x).ep = s.ep := rfl
@[simp] theorem setHome_power (s : State) (n : Nat) (x : HomeLine) : (setHome s n x).power = s.power := rfl
@[simp] theorem setHome_config (s : State) (n : Nat) (x : HomeLine) : (setHome s n x).config = s.config := rfl
@[simp] theorem setHome_flash (s : State) (n : Nat) (x : HomeLine) : (setHome s n x).flash = s.flash := rfl
@[simp] theorem setHome_ctxAt (s : State) (n : Nat) (x : HomeLine) (k' : Nat) : ctxAt (setHome s n x) k' = ctxAt s k' := rfl
@[simp] theorem setHome_scullOf (s : State) (n : Nat) (x : HomeLine) (sc' : ScullId) : scullOf (setHome s n x) sc' = scullOf s sc' := rfl
@[simp] theorem setHome_engineOf (s : State) (n : Nat) (x : HomeLine) (sc' : ScullId) (e' : EngineId) : engineOf (setHome s n x) sc' e' = engineOf s sc' e' := rfl
@[simp] theorem setHome_crewOf (s : State) (n : Nat) (x : HomeLine) (c' : CrewId) : crewOf (setHome s n x) c' = crewOf s c' := rfl
@[simp] theorem setHome_queueOf (s : State) (n : Nat) (x : HomeLine) (q' : QueueId) : queueOf (setHome s n x) q' = queueOf s q' := rfl
@[simp] theorem setHome_agentOf (s : State) (n : Nat) (x : HomeLine) (n' : Node) : agentOf (setHome s n x) n' = agentOf s n' := rfl
@[simp] theorem setHome_hartOf (s : State) (n : Nat) (x : HomeLine) (h' : HartId) : hartOf (setHome s n x) h' = hartOf s h' := rfl
@[simp] theorem setHome_itemOf (s : State) (n : Nat) (x : HomeLine) (n' : Nat) : itemOf (setHome s n x) n' = itemOf s n' := rfl
@[simp] theorem setHome_ctxOf (s : State) (n : Nat) (x : HomeLine) (sc' : ScullId) (slot' : Slot) : ctxOf (setHome s n x) sc' slot' = ctxOf s sc' slot' := rfl

/-! ### setHart -/

@[simp] theorem setHart_cycle (s : State) (h : HartId) (x : Hart) : (setHart s h x).cycle = s.cycle := rfl
@[simp] theorem setHart_gtcNum (s : State) (h : HartId) (x : Hart) : (setHart s h x).gtcNum = s.gtcNum := rfl
@[simp] theorem setHart_agenda (s : State) (h : HartId) (x : Hart) : (setHart s h x).agenda = s.agenda := rfl
@[simp] theorem setHart_turn (s : State) (h : HartId) (x : Hart) : (setHart s h x).turn = s.turn := rfl
@[simp] theorem setHart_actor (s : State) (h : HartId) (x : Hart) : (setHart s h x).actor = s.actor := rfl
@[simp] theorem setHart_draws (s : State) (h : HartId) (x : Hart) : (setHart s h x).draws = s.draws := rfl
@[simp] theorem setHart_nextId (s : State) (h : HartId) (x : Hart) : (setHart s h x).nextId = s.nextId := rfl
@[simp] theorem setHart_fatal (s : State) (h : HartId) (x : Hart) : (setHart s h x).fatal = s.fatal := rfl
@[simp] theorem setHart_ctxs (s : State) (h : HartId) (x : Hart) : (setHart s h x).ctxs = s.ctxs := rfl
@[simp] theorem setHart_sculls (s : State) (h : HartId) (x : Hart) : (setHart s h x).sculls = s.sculls := rfl
@[simp] theorem setHart_engines (s : State) (h : HartId) (x : Hart) : (setHart s h x).engines = s.engines := rfl
@[simp] theorem setHart_shadows (s : State) (h : HartId) (x : Hart) : (setHart s h x).shadows = s.shadows := rfl
@[simp] theorem setHart_items (s : State) (h : HartId) (x : Hart) : (setHart s h x).items = s.items := rfl
@[simp] theorem setHart_walkers (s : State) (h : HartId) (x : Hart) : (setHart s h x).walkers = s.walkers := rfl
@[simp] theorem setHart_isolated (s : State) (h : HartId) (x : Hart) : (setHart s h x).isolated = s.isolated := rfl
@[simp] theorem setHart_coxFailed (s : State) (h : HartId) (x : Hart) : (setHart s h x).coxFailed = s.coxFailed := rfl
@[simp] theorem setHart_agents (s : State) (h : HartId) (x : Hart) : (setHart s h x).agents = s.agents := rfl
@[simp] theorem setHart_homes (s : State) (h : HartId) (x : Hart) : (setHart s h x).homes = s.homes := rfl
@[simp] theorem setHart_memory (s : State) (h : HartId) (x : Hart) : (setHart s h x).memory = s.memory := rfl
@[simp] theorem setHart_linePoison (s : State) (h : HartId) (x : Hart) : (setHart s h x).linePoison = s.linePoison := rfl
@[simp] theorem setHart_mc (s : State) (h : HartId) (x : Hart) : (setHart s h x).mc = s.mc := rfl
@[simp] theorem setHart_queues (s : State) (h : HartId) (x : Hart) : (setHart s h x).queues = s.queues := rfl
@[simp] theorem setHart_unit (s : State) (h : HartId) (x : Hart) : (setHart s h x).unit = s.unit := rfl
@[simp] theorem setHart_crews (s : State) (h : HartId) (x : Hart) : (setHart s h x).crews = s.crews := rfl
@[simp] theorem setHart_roots (s : State) (h : HartId) (x : Hart) : (setHart s h x).roots = s.roots := rfl
@[simp] theorem setHart_directory (s : State) (h : HartId) (x : Hart) : (setHart s h x).directory = s.directory := rfl
@[simp] theorem setHart_table (s : State) (h : HartId) (x : Hart) : (setHart s h x).table = s.table := rfl
@[simp] theorem setHart_harts (s : State) (h : HartId) (x : Hart) : (setHart s h x).harts = tabSet s.harts h.toNat x := rfl
@[simp] theorem setHart_fs (s : State) (h : HartId) (x : Hart) : (setHart s h x).fs = s.fs := rfl
@[simp] theorem setHart_host (s : State) (h : HartId) (x : Hart) : (setHart s h x).host = s.host := rfl
@[simp] theorem setHart_ep (s : State) (h : HartId) (x : Hart) : (setHart s h x).ep = s.ep := rfl
@[simp] theorem setHart_power (s : State) (h : HartId) (x : Hart) : (setHart s h x).power = s.power := rfl
@[simp] theorem setHart_config (s : State) (h : HartId) (x : Hart) : (setHart s h x).config = s.config := rfl
@[simp] theorem setHart_flash (s : State) (h : HartId) (x : Hart) : (setHart s h x).flash = s.flash := rfl
@[simp] theorem setHart_ctxAt (s : State) (h : HartId) (x : Hart) (k' : Nat) : ctxAt (setHart s h x) k' = ctxAt s k' := rfl
@[simp] theorem setHart_scullOf (s : State) (h : HartId) (x : Hart) (sc' : ScullId) : scullOf (setHart s h x) sc' = scullOf s sc' := rfl
@[simp] theorem setHart_engineOf (s : State) (h : HartId) (x : Hart) (sc' : ScullId) (e' : EngineId) : engineOf (setHart s h x) sc' e' = engineOf s sc' e' := rfl
@[simp] theorem setHart_crewOf (s : State) (h : HartId) (x : Hart) (c' : CrewId) : crewOf (setHart s h x) c' = crewOf s c' := rfl
@[simp] theorem setHart_queueOf (s : State) (h : HartId) (x : Hart) (q' : QueueId) : queueOf (setHart s h x) q' = queueOf s q' := rfl
@[simp] theorem setHart_agentOf (s : State) (h : HartId) (x : Hart) (n' : Node) : agentOf (setHart s h x) n' = agentOf s n' := rfl
@[simp] theorem setHart_homeOf (s : State) (h : HartId) (x : Hart) (n' : Nat) : homeOf (setHart s h x) n' = homeOf s n' := rfl
@[simp] theorem setHart_itemOf (s : State) (h : HartId) (x : Hart) (n' : Nat) : itemOf (setHart s h x) n' = itemOf s n' := rfl
@[simp] theorem setHart_ctxOf (s : State) (h : HartId) (x : Hart) (sc' : ScullId) (slot' : Slot) : ctxOf (setHart s h x) sc' slot' = ctxOf s sc' slot' := rfl

/-! ### setItem -/

@[simp] theorem setItem_cycle (s : State) (n : Nat) (x : Item) : (setItem s n x).cycle = s.cycle := rfl
@[simp] theorem setItem_gtcNum (s : State) (n : Nat) (x : Item) : (setItem s n x).gtcNum = s.gtcNum := rfl
@[simp] theorem setItem_agenda (s : State) (n : Nat) (x : Item) : (setItem s n x).agenda = s.agenda := rfl
@[simp] theorem setItem_turn (s : State) (n : Nat) (x : Item) : (setItem s n x).turn = s.turn := rfl
@[simp] theorem setItem_actor (s : State) (n : Nat) (x : Item) : (setItem s n x).actor = s.actor := rfl
@[simp] theorem setItem_draws (s : State) (n : Nat) (x : Item) : (setItem s n x).draws = s.draws := rfl
@[simp] theorem setItem_nextId (s : State) (n : Nat) (x : Item) : (setItem s n x).nextId = s.nextId := rfl
@[simp] theorem setItem_fatal (s : State) (n : Nat) (x : Item) : (setItem s n x).fatal = s.fatal := rfl
@[simp] theorem setItem_ctxs (s : State) (n : Nat) (x : Item) : (setItem s n x).ctxs = s.ctxs := rfl
@[simp] theorem setItem_sculls (s : State) (n : Nat) (x : Item) : (setItem s n x).sculls = s.sculls := rfl
@[simp] theorem setItem_engines (s : State) (n : Nat) (x : Item) : (setItem s n x).engines = s.engines := rfl
@[simp] theorem setItem_shadows (s : State) (n : Nat) (x : Item) : (setItem s n x).shadows = s.shadows := rfl
@[simp] theorem setItem_items (s : State) (n : Nat) (x : Item) : (setItem s n x).items = tabSet s.items n x := rfl
@[simp] theorem setItem_walkers (s : State) (n : Nat) (x : Item) : (setItem s n x).walkers = s.walkers := rfl
@[simp] theorem setItem_isolated (s : State) (n : Nat) (x : Item) : (setItem s n x).isolated = s.isolated := rfl
@[simp] theorem setItem_coxFailed (s : State) (n : Nat) (x : Item) : (setItem s n x).coxFailed = s.coxFailed := rfl
@[simp] theorem setItem_agents (s : State) (n : Nat) (x : Item) : (setItem s n x).agents = s.agents := rfl
@[simp] theorem setItem_homes (s : State) (n : Nat) (x : Item) : (setItem s n x).homes = s.homes := rfl
@[simp] theorem setItem_memory (s : State) (n : Nat) (x : Item) : (setItem s n x).memory = s.memory := rfl
@[simp] theorem setItem_linePoison (s : State) (n : Nat) (x : Item) : (setItem s n x).linePoison = s.linePoison := rfl
@[simp] theorem setItem_mc (s : State) (n : Nat) (x : Item) : (setItem s n x).mc = s.mc := rfl
@[simp] theorem setItem_queues (s : State) (n : Nat) (x : Item) : (setItem s n x).queues = s.queues := rfl
@[simp] theorem setItem_unit (s : State) (n : Nat) (x : Item) : (setItem s n x).unit = s.unit := rfl
@[simp] theorem setItem_crews (s : State) (n : Nat) (x : Item) : (setItem s n x).crews = s.crews := rfl
@[simp] theorem setItem_roots (s : State) (n : Nat) (x : Item) : (setItem s n x).roots = s.roots := rfl
@[simp] theorem setItem_directory (s : State) (n : Nat) (x : Item) : (setItem s n x).directory = s.directory := rfl
@[simp] theorem setItem_table (s : State) (n : Nat) (x : Item) : (setItem s n x).table = s.table := rfl
@[simp] theorem setItem_harts (s : State) (n : Nat) (x : Item) : (setItem s n x).harts = s.harts := rfl
@[simp] theorem setItem_fs (s : State) (n : Nat) (x : Item) : (setItem s n x).fs = s.fs := rfl
@[simp] theorem setItem_host (s : State) (n : Nat) (x : Item) : (setItem s n x).host = s.host := rfl
@[simp] theorem setItem_ep (s : State) (n : Nat) (x : Item) : (setItem s n x).ep = s.ep := rfl
@[simp] theorem setItem_power (s : State) (n : Nat) (x : Item) : (setItem s n x).power = s.power := rfl
@[simp] theorem setItem_config (s : State) (n : Nat) (x : Item) : (setItem s n x).config = s.config := rfl
@[simp] theorem setItem_flash (s : State) (n : Nat) (x : Item) : (setItem s n x).flash = s.flash := rfl
@[simp] theorem setItem_ctxAt (s : State) (n : Nat) (x : Item) (k' : Nat) : ctxAt (setItem s n x) k' = ctxAt s k' := rfl
@[simp] theorem setItem_scullOf (s : State) (n : Nat) (x : Item) (sc' : ScullId) : scullOf (setItem s n x) sc' = scullOf s sc' := rfl
@[simp] theorem setItem_engineOf (s : State) (n : Nat) (x : Item) (sc' : ScullId) (e' : EngineId) : engineOf (setItem s n x) sc' e' = engineOf s sc' e' := rfl
@[simp] theorem setItem_crewOf (s : State) (n : Nat) (x : Item) (c' : CrewId) : crewOf (setItem s n x) c' = crewOf s c' := rfl
@[simp] theorem setItem_queueOf (s : State) (n : Nat) (x : Item) (q' : QueueId) : queueOf (setItem s n x) q' = queueOf s q' := rfl
@[simp] theorem setItem_agentOf (s : State) (n : Nat) (x : Item) (n' : Node) : agentOf (setItem s n x) n' = agentOf s n' := rfl
@[simp] theorem setItem_homeOf (s : State) (n : Nat) (x : Item) (n' : Nat) : homeOf (setItem s n x) n' = homeOf s n' := rfl
@[simp] theorem setItem_hartOf (s : State) (n : Nat) (x : Item) (h' : HartId) : hartOf (setItem s n x) h' = hartOf s h' := rfl
@[simp] theorem setItem_ctxOf (s : State) (n : Nat) (x : Item) (sc' : ScullId) (slot' : Slot) : ctxOf (setItem s n x) sc' slot' = ctxOf s sc' slot' := rfl

/-! ### dropItem -/

@[simp] theorem dropItem_cycle (s : State) (n : Nat) : (dropItem s n).cycle = s.cycle := rfl
@[simp] theorem dropItem_gtcNum (s : State) (n : Nat) : (dropItem s n).gtcNum = s.gtcNum := rfl
@[simp] theorem dropItem_agenda (s : State) (n : Nat) : (dropItem s n).agenda = s.agenda := rfl
@[simp] theorem dropItem_turn (s : State) (n : Nat) : (dropItem s n).turn = s.turn := rfl
@[simp] theorem dropItem_actor (s : State) (n : Nat) : (dropItem s n).actor = s.actor := rfl
@[simp] theorem dropItem_draws (s : State) (n : Nat) : (dropItem s n).draws = s.draws := rfl
@[simp] theorem dropItem_nextId (s : State) (n : Nat) : (dropItem s n).nextId = s.nextId := rfl
@[simp] theorem dropItem_fatal (s : State) (n : Nat) : (dropItem s n).fatal = s.fatal := rfl
@[simp] theorem dropItem_ctxs (s : State) (n : Nat) : (dropItem s n).ctxs = s.ctxs := rfl
@[simp] theorem dropItem_sculls (s : State) (n : Nat) : (dropItem s n).sculls = s.sculls := rfl
@[simp] theorem dropItem_engines (s : State) (n : Nat) : (dropItem s n).engines = s.engines := rfl
@[simp] theorem dropItem_shadows (s : State) (n : Nat) : (dropItem s n).shadows = s.shadows := rfl
@[simp] theorem dropItem_items (s : State) (n : Nat) : (dropItem s n).items = tabDrop s.items n := rfl
@[simp] theorem dropItem_walkers (s : State) (n : Nat) : (dropItem s n).walkers = s.walkers := rfl
@[simp] theorem dropItem_isolated (s : State) (n : Nat) : (dropItem s n).isolated = s.isolated := rfl
@[simp] theorem dropItem_coxFailed (s : State) (n : Nat) : (dropItem s n).coxFailed = s.coxFailed := rfl
@[simp] theorem dropItem_agents (s : State) (n : Nat) : (dropItem s n).agents = s.agents := rfl
@[simp] theorem dropItem_homes (s : State) (n : Nat) : (dropItem s n).homes = s.homes := rfl
@[simp] theorem dropItem_memory (s : State) (n : Nat) : (dropItem s n).memory = s.memory := rfl
@[simp] theorem dropItem_linePoison (s : State) (n : Nat) : (dropItem s n).linePoison = s.linePoison := rfl
@[simp] theorem dropItem_mc (s : State) (n : Nat) : (dropItem s n).mc = s.mc := rfl
@[simp] theorem dropItem_queues (s : State) (n : Nat) : (dropItem s n).queues = s.queues := rfl
@[simp] theorem dropItem_unit (s : State) (n : Nat) : (dropItem s n).unit = s.unit := rfl
@[simp] theorem dropItem_crews (s : State) (n : Nat) : (dropItem s n).crews = s.crews := rfl
@[simp] theorem dropItem_roots (s : State) (n : Nat) : (dropItem s n).roots = s.roots := rfl
@[simp] theorem dropItem_directory (s : State) (n : Nat) : (dropItem s n).directory = s.directory := rfl
@[simp] theorem dropItem_table (s : State) (n : Nat) : (dropItem s n).table = s.table := rfl
@[simp] theorem dropItem_harts (s : State) (n : Nat) : (dropItem s n).harts = s.harts := rfl
@[simp] theorem dropItem_fs (s : State) (n : Nat) : (dropItem s n).fs = s.fs := rfl
@[simp] theorem dropItem_host (s : State) (n : Nat) : (dropItem s n).host = s.host := rfl
@[simp] theorem dropItem_ep (s : State) (n : Nat) : (dropItem s n).ep = s.ep := rfl
@[simp] theorem dropItem_power (s : State) (n : Nat) : (dropItem s n).power = s.power := rfl
@[simp] theorem dropItem_config (s : State) (n : Nat) : (dropItem s n).config = s.config := rfl
@[simp] theorem dropItem_flash (s : State) (n : Nat) : (dropItem s n).flash = s.flash := rfl
@[simp] theorem dropItem_ctxAt (s : State) (n : Nat) (k' : Nat) : ctxAt (dropItem s n) k' = ctxAt s k' := rfl
@[simp] theorem dropItem_scullOf (s : State) (n : Nat) (sc' : ScullId) : scullOf (dropItem s n) sc' = scullOf s sc' := rfl
@[simp] theorem dropItem_engineOf (s : State) (n : Nat) (sc' : ScullId) (e' : EngineId) : engineOf (dropItem s n) sc' e' = engineOf s sc' e' := rfl
@[simp] theorem dropItem_crewOf (s : State) (n : Nat) (c' : CrewId) : crewOf (dropItem s n) c' = crewOf s c' := rfl
@[simp] theorem dropItem_queueOf (s : State) (n : Nat) (q' : QueueId) : queueOf (dropItem s n) q' = queueOf s q' := rfl
@[simp] theorem dropItem_agentOf (s : State) (n : Nat) (n' : Node) : agentOf (dropItem s n) n' = agentOf s n' := rfl
@[simp] theorem dropItem_homeOf (s : State) (n : Nat) (n' : Nat) : homeOf (dropItem s n) n' = homeOf s n' := rfl
@[simp] theorem dropItem_hartOf (s : State) (n : Nat) (h' : HartId) : hartOf (dropItem s n) h' = hartOf s h' := rfl
@[simp] theorem dropItem_ctxOf (s : State) (n : Nat) (sc' : ScullId) (slot' : Slot) : ctxOf (dropItem s n) sc' slot' = ctxOf s sc' slot' := rfl

/-! ### freshId -/

@[simp] theorem freshId_cycle (s : State) : (freshId s).cycle = s.cycle := rfl
@[simp] theorem freshId_gtcNum (s : State) : (freshId s).gtcNum = s.gtcNum := rfl
@[simp] theorem freshId_agenda (s : State) : (freshId s).agenda = s.agenda := rfl
@[simp] theorem freshId_turn (s : State) : (freshId s).turn = s.turn := rfl
@[simp] theorem freshId_actor (s : State) : (freshId s).actor = s.actor := rfl
@[simp] theorem freshId_draws (s : State) : (freshId s).draws = s.draws := rfl
@[simp] theorem freshId_nextId (s : State) : (freshId s).nextId = s.nextId + 1 := rfl
@[simp] theorem freshId_fatal (s : State) : (freshId s).fatal = s.fatal := rfl
@[simp] theorem freshId_ctxs (s : State) : (freshId s).ctxs = s.ctxs := rfl
@[simp] theorem freshId_sculls (s : State) : (freshId s).sculls = s.sculls := rfl
@[simp] theorem freshId_engines (s : State) : (freshId s).engines = s.engines := rfl
@[simp] theorem freshId_shadows (s : State) : (freshId s).shadows = s.shadows := rfl
@[simp] theorem freshId_items (s : State) : (freshId s).items = s.items := rfl
@[simp] theorem freshId_walkers (s : State) : (freshId s).walkers = s.walkers := rfl
@[simp] theorem freshId_isolated (s : State) : (freshId s).isolated = s.isolated := rfl
@[simp] theorem freshId_coxFailed (s : State) : (freshId s).coxFailed = s.coxFailed := rfl
@[simp] theorem freshId_agents (s : State) : (freshId s).agents = s.agents := rfl
@[simp] theorem freshId_homes (s : State) : (freshId s).homes = s.homes := rfl
@[simp] theorem freshId_memory (s : State) : (freshId s).memory = s.memory := rfl
@[simp] theorem freshId_linePoison (s : State) : (freshId s).linePoison = s.linePoison := rfl
@[simp] theorem freshId_mc (s : State) : (freshId s).mc = s.mc := rfl
@[simp] theorem freshId_queues (s : State) : (freshId s).queues = s.queues := rfl
@[simp] theorem freshId_unit (s : State) : (freshId s).unit = s.unit := rfl
@[simp] theorem freshId_crews (s : State) : (freshId s).crews = s.crews := rfl
@[simp] theorem freshId_roots (s : State) : (freshId s).roots = s.roots := rfl
@[simp] theorem freshId_directory (s : State) : (freshId s).directory = s.directory := rfl
@[simp] theorem freshId_table (s : State) : (freshId s).table = s.table := rfl
@[simp] theorem freshId_harts (s : State) : (freshId s).harts = s.harts := rfl
@[simp] theorem freshId_fs (s : State) : (freshId s).fs = s.fs := rfl
@[simp] theorem freshId_host (s : State) : (freshId s).host = s.host := rfl
@[simp] theorem freshId_ep (s : State) : (freshId s).ep = s.ep := rfl
@[simp] theorem freshId_power (s : State) : (freshId s).power = s.power := rfl
@[simp] theorem freshId_config (s : State) : (freshId s).config = s.config := rfl
@[simp] theorem freshId_flash (s : State) : (freshId s).flash = s.flash := rfl
@[simp] theorem freshId_ctxAt (s : State) (k' : Nat) : ctxAt (freshId s) k' = ctxAt s k' := rfl
@[simp] theorem freshId_scullOf (s : State) (sc' : ScullId) : scullOf (freshId s) sc' = scullOf s sc' := rfl
@[simp] theorem freshId_engineOf (s : State) (sc' : ScullId) (e' : EngineId) : engineOf (freshId s) sc' e' = engineOf s sc' e' := rfl
@[simp] theorem freshId_crewOf (s : State) (c' : CrewId) : crewOf (freshId s) c' = crewOf s c' := rfl
@[simp] theorem freshId_queueOf (s : State) (q' : QueueId) : queueOf (freshId s) q' = queueOf s q' := rfl
@[simp] theorem freshId_agentOf (s : State) (n' : Node) : agentOf (freshId s) n' = agentOf s n' := rfl
@[simp] theorem freshId_homeOf (s : State) (n' : Nat) : homeOf (freshId s) n' = homeOf s n' := rfl
@[simp] theorem freshId_hartOf (s : State) (h' : HartId) : hartOf (freshId s) h' = hartOf s h' := rfl
@[simp] theorem freshId_itemOf (s : State) (n' : Nat) : itemOf (freshId s) n' = itemOf s n' := rfl
@[simp] theorem freshId_ctxOf (s : State) (sc' : ScullId) (slot' : Slot) : ctxOf (freshId s) sc' slot' = ctxOf s sc' slot' := rfl

/-! ### addItem -/

@[simp] theorem addItem_cycle (s : State) (x : Item) : (addItem s x).cycle = s.cycle := rfl
@[simp] theorem addItem_gtcNum (s : State) (x : Item) : (addItem s x).gtcNum = s.gtcNum := rfl
@[simp] theorem addItem_agenda (s : State) (x : Item) : (addItem s x).agenda = s.agenda := rfl
@[simp] theorem addItem_turn (s : State) (x : Item) : (addItem s x).turn = s.turn := rfl
@[simp] theorem addItem_actor (s : State) (x : Item) : (addItem s x).actor = s.actor := rfl
@[simp] theorem addItem_draws (s : State) (x : Item) : (addItem s x).draws = s.draws := rfl
@[simp] theorem addItem_nextId (s : State) (x : Item) : (addItem s x).nextId = s.nextId + 1 := rfl
@[simp] theorem addItem_fatal (s : State) (x : Item) : (addItem s x).fatal = s.fatal := rfl
@[simp] theorem addItem_ctxs (s : State) (x : Item) : (addItem s x).ctxs = s.ctxs := rfl
@[simp] theorem addItem_sculls (s : State) (x : Item) : (addItem s x).sculls = s.sculls := rfl
@[simp] theorem addItem_engines (s : State) (x : Item) : (addItem s x).engines = s.engines := rfl
@[simp] theorem addItem_shadows (s : State) (x : Item) : (addItem s x).shadows = s.shadows := rfl
@[simp] theorem addItem_items (s : State) (x : Item) : (addItem s x).items = tabSet s.items s.nextId x := rfl
@[simp] theorem addItem_walkers (s : State) (x : Item) : (addItem s x).walkers = s.walkers := rfl
@[simp] theorem addItem_isolated (s : State) (x : Item) : (addItem s x).isolated = s.isolated := rfl
@[simp] theorem addItem_coxFailed (s : State) (x : Item) : (addItem s x).coxFailed = s.coxFailed := rfl
@[simp] theorem addItem_agents (s : State) (x : Item) : (addItem s x).agents = s.agents := rfl
@[simp] theorem addItem_homes (s : State) (x : Item) : (addItem s x).homes = s.homes := rfl
@[simp] theorem addItem_memory (s : State) (x : Item) : (addItem s x).memory = s.memory := rfl
@[simp] theorem addItem_linePoison (s : State) (x : Item) : (addItem s x).linePoison = s.linePoison := rfl
@[simp] theorem addItem_mc (s : State) (x : Item) : (addItem s x).mc = s.mc := rfl
@[simp] theorem addItem_queues (s : State) (x : Item) : (addItem s x).queues = s.queues := rfl
@[simp] theorem addItem_unit (s : State) (x : Item) : (addItem s x).unit = s.unit := rfl
@[simp] theorem addItem_crews (s : State) (x : Item) : (addItem s x).crews = s.crews := rfl
@[simp] theorem addItem_roots (s : State) (x : Item) : (addItem s x).roots = s.roots := rfl
@[simp] theorem addItem_directory (s : State) (x : Item) : (addItem s x).directory = s.directory := rfl
@[simp] theorem addItem_table (s : State) (x : Item) : (addItem s x).table = s.table := rfl
@[simp] theorem addItem_harts (s : State) (x : Item) : (addItem s x).harts = s.harts := rfl
@[simp] theorem addItem_fs (s : State) (x : Item) : (addItem s x).fs = s.fs := rfl
@[simp] theorem addItem_host (s : State) (x : Item) : (addItem s x).host = s.host := rfl
@[simp] theorem addItem_ep (s : State) (x : Item) : (addItem s x).ep = s.ep := rfl
@[simp] theorem addItem_power (s : State) (x : Item) : (addItem s x).power = s.power := rfl
@[simp] theorem addItem_config (s : State) (x : Item) : (addItem s x).config = s.config := rfl
@[simp] theorem addItem_flash (s : State) (x : Item) : (addItem s x).flash = s.flash := rfl
@[simp] theorem addItem_ctxAt (s : State) (x : Item) (k' : Nat) : ctxAt (addItem s x) k' = ctxAt s k' := rfl
@[simp] theorem addItem_scullOf (s : State) (x : Item) (sc' : ScullId) : scullOf (addItem s x) sc' = scullOf s sc' := rfl
@[simp] theorem addItem_engineOf (s : State) (x : Item) (sc' : ScullId) (e' : EngineId) : engineOf (addItem s x) sc' e' = engineOf s sc' e' := rfl
@[simp] theorem addItem_crewOf (s : State) (x : Item) (c' : CrewId) : crewOf (addItem s x) c' = crewOf s c' := rfl
@[simp] theorem addItem_queueOf (s : State) (x : Item) (q' : QueueId) : queueOf (addItem s x) q' = queueOf s q' := rfl
@[simp] theorem addItem_agentOf (s : State) (x : Item) (n' : Node) : agentOf (addItem s x) n' = agentOf s n' := rfl
@[simp] theorem addItem_homeOf (s : State) (x : Item) (n' : Nat) : homeOf (addItem s x) n' = homeOf s n' := rfl
@[simp] theorem addItem_hartOf (s : State) (x : Item) (h' : HartId) : hartOf (addItem s x) h' = hartOf s h' := rfl
@[simp] theorem addItem_ctxOf (s : State) (x : Item) (sc' : ScullId) (slot' : Slot) : ctxOf (addItem s x) sc' slot' = ctxOf s sc' slot' := rfl

/-! ### post -/

@[simp] theorem post_cycle (s : State) (n : Nat) (a : Actor) (i : Instr) : (post s n a i).cycle = s.cycle := rfl
@[simp] theorem post_gtcNum (s : State) (n : Nat) (a : Actor) (i : Instr) : (post s n a i).gtcNum = s.gtcNum := rfl
@[simp] theorem post_agenda (s : State) (n : Nat) (a : Actor) (i : Instr) : (post s n a i).agenda = s.agenda ++ [{ due := s.cycle + n, actor := a, instr := i }] := rfl
@[simp] theorem post_turn (s : State) (n : Nat) (a : Actor) (i : Instr) : (post s n a i).turn = s.turn := rfl
@[simp] theorem post_actor (s : State) (n : Nat) (a : Actor) (i : Instr) : (post s n a i).actor = s.actor := rfl
@[simp] theorem post_draws (s : State) (n : Nat) (a : Actor) (i : Instr) : (post s n a i).draws = s.draws := rfl
@[simp] theorem post_nextId (s : State) (n : Nat) (a : Actor) (i : Instr) : (post s n a i).nextId = s.nextId := rfl
@[simp] theorem post_fatal (s : State) (n : Nat) (a : Actor) (i : Instr) : (post s n a i).fatal = s.fatal := rfl
@[simp] theorem post_ctxs (s : State) (n : Nat) (a : Actor) (i : Instr) : (post s n a i).ctxs = s.ctxs := rfl
@[simp] theorem post_sculls (s : State) (n : Nat) (a : Actor) (i : Instr) : (post s n a i).sculls = s.sculls := rfl
@[simp] theorem post_engines (s : State) (n : Nat) (a : Actor) (i : Instr) : (post s n a i).engines = s.engines := rfl
@[simp] theorem post_shadows (s : State) (n : Nat) (a : Actor) (i : Instr) : (post s n a i).shadows = s.shadows := rfl
@[simp] theorem post_items (s : State) (n : Nat) (a : Actor) (i : Instr) : (post s n a i).items = s.items := rfl
@[simp] theorem post_walkers (s : State) (n : Nat) (a : Actor) (i : Instr) : (post s n a i).walkers = s.walkers := rfl
@[simp] theorem post_isolated (s : State) (n : Nat) (a : Actor) (i : Instr) : (post s n a i).isolated = s.isolated := rfl
@[simp] theorem post_coxFailed (s : State) (n : Nat) (a : Actor) (i : Instr) : (post s n a i).coxFailed = s.coxFailed := rfl
@[simp] theorem post_agents (s : State) (n : Nat) (a : Actor) (i : Instr) : (post s n a i).agents = s.agents := rfl
@[simp] theorem post_homes (s : State) (n : Nat) (a : Actor) (i : Instr) : (post s n a i).homes = s.homes := rfl
@[simp] theorem post_memory (s : State) (n : Nat) (a : Actor) (i : Instr) : (post s n a i).memory = s.memory := rfl
@[simp] theorem post_linePoison (s : State) (n : Nat) (a : Actor) (i : Instr) : (post s n a i).linePoison = s.linePoison := rfl
@[simp] theorem post_mc (s : State) (n : Nat) (a : Actor) (i : Instr) : (post s n a i).mc = s.mc := rfl
@[simp] theorem post_queues (s : State) (n : Nat) (a : Actor) (i : Instr) : (post s n a i).queues = s.queues := rfl
@[simp] theorem post_unit (s : State) (n : Nat) (a : Actor) (i : Instr) : (post s n a i).unit = s.unit := rfl
@[simp] theorem post_crews (s : State) (n : Nat) (a : Actor) (i : Instr) : (post s n a i).crews = s.crews := rfl
@[simp] theorem post_roots (s : State) (n : Nat) (a : Actor) (i : Instr) : (post s n a i).roots = s.roots := rfl
@[simp] theorem post_directory (s : State) (n : Nat) (a : Actor) (i : Instr) : (post s n a i).directory = s.directory := rfl
@[simp] theorem post_table (s : State) (n : Nat) (a : Actor) (i : Instr) : (post s n a i).table = s.table := rfl
@[simp] theorem post_harts (s : State) (n : Nat) (a : Actor) (i : Instr) : (post s n a i).harts = s.harts := rfl
@[simp] theorem post_fs (s : State) (n : Nat) (a : Actor) (i : Instr) : (post s n a i).fs = s.fs := rfl
@[simp] theorem post_host (s : State) (n : Nat) (a : Actor) (i : Instr) : (post s n a i).host = s.host := rfl
@[simp] theorem post_ep (s : State) (n : Nat) (a : Actor) (i : Instr) : (post s n a i).ep = s.ep := rfl
@[simp] theorem post_power (s : State) (n : Nat) (a : Actor) (i : Instr) : (post s n a i).power = s.power := rfl
@[simp] theorem post_config (s : State) (n : Nat) (a : Actor) (i : Instr) : (post s n a i).config = s.config := rfl
@[simp] theorem post_flash (s : State) (n : Nat) (a : Actor) (i : Instr) : (post s n a i).flash = s.flash := rfl
@[simp] theorem post_ctxAt (s : State) (n : Nat) (a : Actor) (i : Instr) (k' : Nat) : ctxAt (post s n a i) k' = ctxAt s k' := rfl
@[simp] theorem post_scullOf (s : State) (n : Nat) (a : Actor) (i : Instr) (sc' : ScullId) : scullOf (post s n a i) sc' = scullOf s sc' := rfl
@[simp] theorem post_engineOf (s : State) (n : Nat) (a : Actor) (i : Instr) (sc' : ScullId) (e' : EngineId) : engineOf (post s n a i) sc' e' = engineOf s sc' e' := rfl
@[simp] theorem post_crewOf (s : State) (n : Nat) (a : Actor) (i : Instr) (c' : CrewId) : crewOf (post s n a i) c' = crewOf s c' := rfl
@[simp] theorem post_queueOf (s : State) (n : Nat) (a : Actor) (i : Instr) (q' : QueueId) : queueOf (post s n a i) q' = queueOf s q' := rfl
@[simp] theorem post_agentOf (s : State) (n : Nat) (a : Actor) (i : Instr) (n' : Node) : agentOf (post s n a i) n' = agentOf s n' := rfl
@[simp] theorem post_homeOf (s : State) (n : Nat) (a : Actor) (i : Instr) (n' : Nat) : homeOf (post s n a i) n' = homeOf s n' := rfl
@[simp] theorem post_hartOf (s : State) (n : Nat) (a : Actor) (i : Instr) (h' : HartId) : hartOf (post s n a i) h' = hartOf s h' := rfl
@[simp] theorem post_itemOf (s : State) (n : Nat) (a : Actor) (i : Instr) (n' : Nat) : itemOf (post s n a i) n' = itemOf s n' := rfl
@[simp] theorem post_ctxOf (s : State) (n : Nat) (a : Actor) (i : Instr) (sc' : ScullId) (slot' : Slot) : ctxOf (post s n a i) sc' slot' = ctxOf s sc' slot' := rfl

/-! ### postLater -/

@[simp] theorem postLater_cycle (s : State) (a : Actor) (i : Instr) : (postLater s a i).cycle = s.cycle := rfl
@[simp] theorem postLater_gtcNum (s : State) (a : Actor) (i : Instr) : (postLater s a i).gtcNum = s.gtcNum := rfl
@[simp] theorem postLater_agenda (s : State) (a : Actor) (i : Instr) : (postLater s a i).agenda = s.agenda ++ [{ due := s.cycle + (1 + Config.delay s.draws), actor := a, instr := i }] := rfl
@[simp] theorem postLater_turn (s : State) (a : Actor) (i : Instr) : (postLater s a i).turn = s.turn := rfl
@[simp] theorem postLater_actor (s : State) (a : Actor) (i : Instr) : (postLater s a i).actor = s.actor := rfl
@[simp] theorem postLater_draws (s : State) (a : Actor) (i : Instr) : (postLater s a i).draws = s.draws + 1 := rfl
@[simp] theorem postLater_nextId (s : State) (a : Actor) (i : Instr) : (postLater s a i).nextId = s.nextId := rfl
@[simp] theorem postLater_fatal (s : State) (a : Actor) (i : Instr) : (postLater s a i).fatal = s.fatal := rfl
@[simp] theorem postLater_ctxs (s : State) (a : Actor) (i : Instr) : (postLater s a i).ctxs = s.ctxs := rfl
@[simp] theorem postLater_sculls (s : State) (a : Actor) (i : Instr) : (postLater s a i).sculls = s.sculls := rfl
@[simp] theorem postLater_engines (s : State) (a : Actor) (i : Instr) : (postLater s a i).engines = s.engines := rfl
@[simp] theorem postLater_shadows (s : State) (a : Actor) (i : Instr) : (postLater s a i).shadows = s.shadows := rfl
@[simp] theorem postLater_items (s : State) (a : Actor) (i : Instr) : (postLater s a i).items = s.items := rfl
@[simp] theorem postLater_walkers (s : State) (a : Actor) (i : Instr) : (postLater s a i).walkers = s.walkers := rfl
@[simp] theorem postLater_isolated (s : State) (a : Actor) (i : Instr) : (postLater s a i).isolated = s.isolated := rfl
@[simp] theorem postLater_coxFailed (s : State) (a : Actor) (i : Instr) : (postLater s a i).coxFailed = s.coxFailed := rfl
@[simp] theorem postLater_agents (s : State) (a : Actor) (i : Instr) : (postLater s a i).agents = s.agents := rfl
@[simp] theorem postLater_homes (s : State) (a : Actor) (i : Instr) : (postLater s a i).homes = s.homes := rfl
@[simp] theorem postLater_memory (s : State) (a : Actor) (i : Instr) : (postLater s a i).memory = s.memory := rfl
@[simp] theorem postLater_linePoison (s : State) (a : Actor) (i : Instr) : (postLater s a i).linePoison = s.linePoison := rfl
@[simp] theorem postLater_mc (s : State) (a : Actor) (i : Instr) : (postLater s a i).mc = s.mc := rfl
@[simp] theorem postLater_queues (s : State) (a : Actor) (i : Instr) : (postLater s a i).queues = s.queues := rfl
@[simp] theorem postLater_unit (s : State) (a : Actor) (i : Instr) : (postLater s a i).unit = s.unit := rfl
@[simp] theorem postLater_crews (s : State) (a : Actor) (i : Instr) : (postLater s a i).crews = s.crews := rfl
@[simp] theorem postLater_roots (s : State) (a : Actor) (i : Instr) : (postLater s a i).roots = s.roots := rfl
@[simp] theorem postLater_directory (s : State) (a : Actor) (i : Instr) : (postLater s a i).directory = s.directory := rfl
@[simp] theorem postLater_table (s : State) (a : Actor) (i : Instr) : (postLater s a i).table = s.table := rfl
@[simp] theorem postLater_harts (s : State) (a : Actor) (i : Instr) : (postLater s a i).harts = s.harts := rfl
@[simp] theorem postLater_fs (s : State) (a : Actor) (i : Instr) : (postLater s a i).fs = s.fs := rfl
@[simp] theorem postLater_host (s : State) (a : Actor) (i : Instr) : (postLater s a i).host = s.host := rfl
@[simp] theorem postLater_ep (s : State) (a : Actor) (i : Instr) : (postLater s a i).ep = s.ep := rfl
@[simp] theorem postLater_power (s : State) (a : Actor) (i : Instr) : (postLater s a i).power = s.power := rfl
@[simp] theorem postLater_config (s : State) (a : Actor) (i : Instr) : (postLater s a i).config = s.config := rfl
@[simp] theorem postLater_flash (s : State) (a : Actor) (i : Instr) : (postLater s a i).flash = s.flash := rfl
@[simp] theorem postLater_ctxAt (s : State) (a : Actor) (i : Instr) (k' : Nat) : ctxAt (postLater s a i) k' = ctxAt s k' := rfl
@[simp] theorem postLater_scullOf (s : State) (a : Actor) (i : Instr) (sc' : ScullId) : scullOf (postLater s a i) sc' = scullOf s sc' := rfl
@[simp] theorem postLater_engineOf (s : State) (a : Actor) (i : Instr) (sc' : ScullId) (e' : EngineId) : engineOf (postLater s a i) sc' e' = engineOf s sc' e' := rfl
@[simp] theorem postLater_crewOf (s : State) (a : Actor) (i : Instr) (c' : CrewId) : crewOf (postLater s a i) c' = crewOf s c' := rfl
@[simp] theorem postLater_queueOf (s : State) (a : Actor) (i : Instr) (q' : QueueId) : queueOf (postLater s a i) q' = queueOf s q' := rfl
@[simp] theorem postLater_agentOf (s : State) (a : Actor) (i : Instr) (n' : Node) : agentOf (postLater s a i) n' = agentOf s n' := rfl
@[simp] theorem postLater_homeOf (s : State) (a : Actor) (i : Instr) (n' : Nat) : homeOf (postLater s a i) n' = homeOf s n' := rfl
@[simp] theorem postLater_hartOf (s : State) (a : Actor) (i : Instr) (h' : HartId) : hartOf (postLater s a i) h' = hartOf s h' := rfl
@[simp] theorem postLater_itemOf (s : State) (a : Actor) (i : Instr) (n' : Nat) : itemOf (postLater s a i) n' = itemOf s n' := rfl
@[simp] theorem postLater_ctxOf (s : State) (a : Actor) (i : Instr) (sc' : ScullId) (slot' : Slot) : ctxOf (postLater s a i) sc' slot' = ctxOf s sc' slot' := rfl

/-! ### postWithin -/

@[simp] theorem postWithin_cycle (s : State) (n : Nat) (a : Actor) (i : Instr) : (postWithin s n a i).cycle = s.cycle := rfl
@[simp] theorem postWithin_gtcNum (s : State) (n : Nat) (a : Actor) (i : Instr) : (postWithin s n a i).gtcNum = s.gtcNum := rfl
@[simp] theorem postWithin_agenda (s : State) (n : Nat) (a : Actor) (i : Instr) : (postWithin s n a i).agenda = s.agenda ++ [{ due := s.cycle + (1 + Config.delay s.draws % n), actor := a, instr := i }] := rfl
@[simp] theorem postWithin_turn (s : State) (n : Nat) (a : Actor) (i : Instr) : (postWithin s n a i).turn = s.turn := rfl
@[simp] theorem postWithin_actor (s : State) (n : Nat) (a : Actor) (i : Instr) : (postWithin s n a i).actor = s.actor := rfl
@[simp] theorem postWithin_draws (s : State) (n : Nat) (a : Actor) (i : Instr) : (postWithin s n a i).draws = s.draws + 1 := rfl
@[simp] theorem postWithin_nextId (s : State) (n : Nat) (a : Actor) (i : Instr) : (postWithin s n a i).nextId = s.nextId := rfl
@[simp] theorem postWithin_fatal (s : State) (n : Nat) (a : Actor) (i : Instr) : (postWithin s n a i).fatal = s.fatal := rfl
@[simp] theorem postWithin_ctxs (s : State) (n : Nat) (a : Actor) (i : Instr) : (postWithin s n a i).ctxs = s.ctxs := rfl
@[simp] theorem postWithin_sculls (s : State) (n : Nat) (a : Actor) (i : Instr) : (postWithin s n a i).sculls = s.sculls := rfl
@[simp] theorem postWithin_engines (s : State) (n : Nat) (a : Actor) (i : Instr) : (postWithin s n a i).engines = s.engines := rfl
@[simp] theorem postWithin_shadows (s : State) (n : Nat) (a : Actor) (i : Instr) : (postWithin s n a i).shadows = s.shadows := rfl
@[simp] theorem postWithin_items (s : State) (n : Nat) (a : Actor) (i : Instr) : (postWithin s n a i).items = s.items := rfl
@[simp] theorem postWithin_walkers (s : State) (n : Nat) (a : Actor) (i : Instr) : (postWithin s n a i).walkers = s.walkers := rfl
@[simp] theorem postWithin_isolated (s : State) (n : Nat) (a : Actor) (i : Instr) : (postWithin s n a i).isolated = s.isolated := rfl
@[simp] theorem postWithin_coxFailed (s : State) (n : Nat) (a : Actor) (i : Instr) : (postWithin s n a i).coxFailed = s.coxFailed := rfl
@[simp] theorem postWithin_agents (s : State) (n : Nat) (a : Actor) (i : Instr) : (postWithin s n a i).agents = s.agents := rfl
@[simp] theorem postWithin_homes (s : State) (n : Nat) (a : Actor) (i : Instr) : (postWithin s n a i).homes = s.homes := rfl
@[simp] theorem postWithin_memory (s : State) (n : Nat) (a : Actor) (i : Instr) : (postWithin s n a i).memory = s.memory := rfl
@[simp] theorem postWithin_linePoison (s : State) (n : Nat) (a : Actor) (i : Instr) : (postWithin s n a i).linePoison = s.linePoison := rfl
@[simp] theorem postWithin_mc (s : State) (n : Nat) (a : Actor) (i : Instr) : (postWithin s n a i).mc = s.mc := rfl
@[simp] theorem postWithin_queues (s : State) (n : Nat) (a : Actor) (i : Instr) : (postWithin s n a i).queues = s.queues := rfl
@[simp] theorem postWithin_unit (s : State) (n : Nat) (a : Actor) (i : Instr) : (postWithin s n a i).unit = s.unit := rfl
@[simp] theorem postWithin_crews (s : State) (n : Nat) (a : Actor) (i : Instr) : (postWithin s n a i).crews = s.crews := rfl
@[simp] theorem postWithin_roots (s : State) (n : Nat) (a : Actor) (i : Instr) : (postWithin s n a i).roots = s.roots := rfl
@[simp] theorem postWithin_directory (s : State) (n : Nat) (a : Actor) (i : Instr) : (postWithin s n a i).directory = s.directory := rfl
@[simp] theorem postWithin_table (s : State) (n : Nat) (a : Actor) (i : Instr) : (postWithin s n a i).table = s.table := rfl
@[simp] theorem postWithin_harts (s : State) (n : Nat) (a : Actor) (i : Instr) : (postWithin s n a i).harts = s.harts := rfl
@[simp] theorem postWithin_fs (s : State) (n : Nat) (a : Actor) (i : Instr) : (postWithin s n a i).fs = s.fs := rfl
@[simp] theorem postWithin_host (s : State) (n : Nat) (a : Actor) (i : Instr) : (postWithin s n a i).host = s.host := rfl
@[simp] theorem postWithin_ep (s : State) (n : Nat) (a : Actor) (i : Instr) : (postWithin s n a i).ep = s.ep := rfl
@[simp] theorem postWithin_power (s : State) (n : Nat) (a : Actor) (i : Instr) : (postWithin s n a i).power = s.power := rfl
@[simp] theorem postWithin_config (s : State) (n : Nat) (a : Actor) (i : Instr) : (postWithin s n a i).config = s.config := rfl
@[simp] theorem postWithin_flash (s : State) (n : Nat) (a : Actor) (i : Instr) : (postWithin s n a i).flash = s.flash := rfl
@[simp] theorem postWithin_ctxAt (s : State) (n : Nat) (a : Actor) (i : Instr) (k' : Nat) : ctxAt (postWithin s n a i) k' = ctxAt s k' := rfl
@[simp] theorem postWithin_scullOf (s : State) (n : Nat) (a : Actor) (i : Instr) (sc' : ScullId) : scullOf (postWithin s n a i) sc' = scullOf s sc' := rfl
@[simp] theorem postWithin_engineOf (s : State) (n : Nat) (a : Actor) (i : Instr) (sc' : ScullId) (e' : EngineId) : engineOf (postWithin s n a i) sc' e' = engineOf s sc' e' := rfl
@[simp] theorem postWithin_crewOf (s : State) (n : Nat) (a : Actor) (i : Instr) (c' : CrewId) : crewOf (postWithin s n a i) c' = crewOf s c' := rfl
@[simp] theorem postWithin_queueOf (s : State) (n : Nat) (a : Actor) (i : Instr) (q' : QueueId) : queueOf (postWithin s n a i) q' = queueOf s q' := rfl
@[simp] theorem postWithin_agentOf (s : State) (n : Nat) (a : Actor) (i : Instr) (n' : Node) : agentOf (postWithin s n a i) n' = agentOf s n' := rfl
@[simp] theorem postWithin_homeOf (s : State) (n : Nat) (a : Actor) (i : Instr) (n' : Nat) : homeOf (postWithin s n a i) n' = homeOf s n' := rfl
@[simp] theorem postWithin_hartOf (s : State) (n : Nat) (a : Actor) (i : Instr) (h' : HartId) : hartOf (postWithin s n a i) h' = hartOf s h' := rfl
@[simp] theorem postWithin_itemOf (s : State) (n : Nat) (a : Actor) (i : Instr) (n' : Nat) : itemOf (postWithin s n a i) n' = itemOf s n' := rfl
@[simp] theorem postWithin_ctxOf (s : State) (n : Nat) (a : Actor) (i : Instr) (sc' : ScullId) (slot' : Slot) : ctxOf (postWithin s n a i) sc' slot' = ctxOf s sc' slot' := rfl

/-! ### finish -/

@[simp] theorem finish_cycle (s : State) (sc : ScullId) (slot : Slot) (c : Ctx) : (finish s sc slot c).cycle = s.cycle := rfl
@[simp] theorem finish_gtcNum (s : State) (sc : ScullId) (slot : Slot) (c : Ctx) : (finish s sc slot c).gtcNum = s.gtcNum := rfl
@[simp] theorem finish_agenda (s : State) (sc : ScullId) (slot : Slot) (c : Ctx) : (finish s sc slot c).agenda = s.agenda := rfl
@[simp] theorem finish_turn (s : State) (sc : ScullId) (slot : Slot) (c : Ctx) : (finish s sc slot c).turn = s.turn := rfl
@[simp] theorem finish_actor (s : State) (sc : ScullId) (slot : Slot) (c : Ctx) : (finish s sc slot c).actor = s.actor := rfl
@[simp] theorem finish_draws (s : State) (sc : ScullId) (slot : Slot) (c : Ctx) : (finish s sc slot c).draws = s.draws := rfl
@[simp] theorem finish_nextId (s : State) (sc : ScullId) (slot : Slot) (c : Ctx) : (finish s sc slot c).nextId = s.nextId := rfl
@[simp] theorem finish_fatal (s : State) (sc : ScullId) (slot : Slot) (c : Ctx) : (finish s sc slot c).fatal = s.fatal := rfl
@[simp] theorem finish_ctxs (s : State) (sc : ScullId) (slot : Slot) (c : Ctx) : (finish s sc slot c).ctxs = tabSet s.ctxs (ctxKey sc slot) (retire c) := rfl
@[simp] theorem finish_sculls (s : State) (sc : ScullId) (slot : Slot) (c : Ctx) : (finish s sc slot c).sculls = s.sculls := rfl
@[simp] theorem finish_engines (s : State) (sc : ScullId) (slot : Slot) (c : Ctx) : (finish s sc slot c).engines = s.engines := rfl
@[simp] theorem finish_shadows (s : State) (sc : ScullId) (slot : Slot) (c : Ctx) : (finish s sc slot c).shadows = s.shadows := rfl
@[simp] theorem finish_items (s : State) (sc : ScullId) (slot : Slot) (c : Ctx) : (finish s sc slot c).items = s.items := rfl
@[simp] theorem finish_walkers (s : State) (sc : ScullId) (slot : Slot) (c : Ctx) : (finish s sc slot c).walkers = s.walkers := rfl
@[simp] theorem finish_isolated (s : State) (sc : ScullId) (slot : Slot) (c : Ctx) : (finish s sc slot c).isolated = s.isolated := rfl
@[simp] theorem finish_coxFailed (s : State) (sc : ScullId) (slot : Slot) (c : Ctx) : (finish s sc slot c).coxFailed = s.coxFailed := rfl
@[simp] theorem finish_agents (s : State) (sc : ScullId) (slot : Slot) (c : Ctx) : (finish s sc slot c).agents = s.agents := rfl
@[simp] theorem finish_homes (s : State) (sc : ScullId) (slot : Slot) (c : Ctx) : (finish s sc slot c).homes = s.homes := rfl
@[simp] theorem finish_memory (s : State) (sc : ScullId) (slot : Slot) (c : Ctx) : (finish s sc slot c).memory = s.memory := rfl
@[simp] theorem finish_linePoison (s : State) (sc : ScullId) (slot : Slot) (c : Ctx) : (finish s sc slot c).linePoison = s.linePoison := rfl
@[simp] theorem finish_mc (s : State) (sc : ScullId) (slot : Slot) (c : Ctx) : (finish s sc slot c).mc = s.mc := rfl
@[simp] theorem finish_queues (s : State) (sc : ScullId) (slot : Slot) (c : Ctx) : (finish s sc slot c).queues = s.queues := rfl
@[simp] theorem finish_unit (s : State) (sc : ScullId) (slot : Slot) (c : Ctx) : (finish s sc slot c).unit = s.unit := rfl
@[simp] theorem finish_crews (s : State) (sc : ScullId) (slot : Slot) (c : Ctx) : (finish s sc slot c).crews = s.crews := rfl
@[simp] theorem finish_roots (s : State) (sc : ScullId) (slot : Slot) (c : Ctx) : (finish s sc slot c).roots = s.roots := rfl
@[simp] theorem finish_directory (s : State) (sc : ScullId) (slot : Slot) (c : Ctx) : (finish s sc slot c).directory = s.directory := rfl
@[simp] theorem finish_table (s : State) (sc : ScullId) (slot : Slot) (c : Ctx) : (finish s sc slot c).table = s.table := rfl
@[simp] theorem finish_harts (s : State) (sc : ScullId) (slot : Slot) (c : Ctx) : (finish s sc slot c).harts = s.harts := rfl
@[simp] theorem finish_fs (s : State) (sc : ScullId) (slot : Slot) (c : Ctx) : (finish s sc slot c).fs = s.fs := rfl
@[simp] theorem finish_host (s : State) (sc : ScullId) (slot : Slot) (c : Ctx) : (finish s sc slot c).host = s.host := rfl
@[simp] theorem finish_ep (s : State) (sc : ScullId) (slot : Slot) (c : Ctx) : (finish s sc slot c).ep = s.ep := rfl
@[simp] theorem finish_power (s : State) (sc : ScullId) (slot : Slot) (c : Ctx) : (finish s sc slot c).power = s.power := rfl
@[simp] theorem finish_config (s : State) (sc : ScullId) (slot : Slot) (c : Ctx) : (finish s sc slot c).config = s.config := rfl
@[simp] theorem finish_flash (s : State) (sc : ScullId) (slot : Slot) (c : Ctx) : (finish s sc slot c).flash = s.flash := rfl
@[simp] theorem finish_scullOf (s : State) (sc : ScullId) (slot : Slot) (c : Ctx) (sc' : ScullId) : scullOf (finish s sc slot c) sc' = scullOf s sc' := rfl
@[simp] theorem finish_engineOf (s : State) (sc : ScullId) (slot : Slot) (c : Ctx) (sc' : ScullId) (e' : EngineId) : engineOf (finish s sc slot c) sc' e' = engineOf s sc' e' := rfl
@[simp] theorem finish_crewOf (s : State) (sc : ScullId) (slot : Slot) (c : Ctx) (c' : CrewId) : crewOf (finish s sc slot c) c' = crewOf s c' := rfl
@[simp] theorem finish_queueOf (s : State) (sc : ScullId) (slot : Slot) (c : Ctx) (q' : QueueId) : queueOf (finish s sc slot c) q' = queueOf s q' := rfl
@[simp] theorem finish_agentOf (s : State) (sc : ScullId) (slot : Slot) (c : Ctx) (n' : Node) : agentOf (finish s sc slot c) n' = agentOf s n' := rfl
@[simp] theorem finish_homeOf (s : State) (sc : ScullId) (slot : Slot) (c : Ctx) (n' : Nat) : homeOf (finish s sc slot c) n' = homeOf s n' := rfl
@[simp] theorem finish_hartOf (s : State) (sc : ScullId) (slot : Slot) (c : Ctx) (h' : HartId) : hartOf (finish s sc slot c) h' = hartOf s h' := rfl
@[simp] theorem finish_itemOf (s : State) (sc : ScullId) (slot : Slot) (c : Ctx) (n' : Nat) : itemOf (finish s sc slot c) n' = itemOf s n' := rfl

/-! ### finishReg -/

@[simp] theorem finishReg_cycle (s : State) (sc : ScullId) (slot : Slot) (c : Ctx) (d : Reg) (v : Word) : (finishReg s sc slot c d v).cycle = s.cycle := rfl
@[simp] theorem finishReg_gtcNum (s : State) (sc : ScullId) (slot : Slot) (c : Ctx) (d : Reg) (v : Word) : (finishReg s sc slot c d v).gtcNum = s.gtcNum := rfl
@[simp] theorem finishReg_agenda (s : State) (sc : ScullId) (slot : Slot) (c : Ctx) (d : Reg) (v : Word) : (finishReg s sc slot c d v).agenda = s.agenda := rfl
@[simp] theorem finishReg_turn (s : State) (sc : ScullId) (slot : Slot) (c : Ctx) (d : Reg) (v : Word) : (finishReg s sc slot c d v).turn = s.turn := rfl
@[simp] theorem finishReg_actor (s : State) (sc : ScullId) (slot : Slot) (c : Ctx) (d : Reg) (v : Word) : (finishReg s sc slot c d v).actor = s.actor := rfl
@[simp] theorem finishReg_draws (s : State) (sc : ScullId) (slot : Slot) (c : Ctx) (d : Reg) (v : Word) : (finishReg s sc slot c d v).draws = s.draws := rfl
@[simp] theorem finishReg_nextId (s : State) (sc : ScullId) (slot : Slot) (c : Ctx) (d : Reg) (v : Word) : (finishReg s sc slot c d v).nextId = s.nextId := rfl
@[simp] theorem finishReg_fatal (s : State) (sc : ScullId) (slot : Slot) (c : Ctx) (d : Reg) (v : Word) : (finishReg s sc slot c d v).fatal = s.fatal := rfl
@[simp] theorem finishReg_ctxs (s : State) (sc : ScullId) (slot : Slot) (c : Ctx) (d : Reg) (v : Word) : (finishReg s sc slot c d v).ctxs = tabSet s.ctxs (ctxKey sc slot) (retire (writeReg c d v)) := rfl
@[simp] theorem finishReg_sculls (s : State) (sc : ScullId) (slot : Slot) (c : Ctx) (d : Reg) (v : Word) : (finishReg s sc slot c d v).sculls = s.sculls := rfl
@[simp] theorem finishReg_engines (s : State) (sc : ScullId) (slot : Slot) (c : Ctx) (d : Reg) (v : Word) : (finishReg s sc slot c d v).engines = s.engines := rfl
@[simp] theorem finishReg_shadows (s : State) (sc : ScullId) (slot : Slot) (c : Ctx) (d : Reg) (v : Word) : (finishReg s sc slot c d v).shadows = s.shadows := rfl
@[simp] theorem finishReg_items (s : State) (sc : ScullId) (slot : Slot) (c : Ctx) (d : Reg) (v : Word) : (finishReg s sc slot c d v).items = s.items := rfl
@[simp] theorem finishReg_walkers (s : State) (sc : ScullId) (slot : Slot) (c : Ctx) (d : Reg) (v : Word) : (finishReg s sc slot c d v).walkers = s.walkers := rfl
@[simp] theorem finishReg_isolated (s : State) (sc : ScullId) (slot : Slot) (c : Ctx) (d : Reg) (v : Word) : (finishReg s sc slot c d v).isolated = s.isolated := rfl
@[simp] theorem finishReg_coxFailed (s : State) (sc : ScullId) (slot : Slot) (c : Ctx) (d : Reg) (v : Word) : (finishReg s sc slot c d v).coxFailed = s.coxFailed := rfl
@[simp] theorem finishReg_agents (s : State) (sc : ScullId) (slot : Slot) (c : Ctx) (d : Reg) (v : Word) : (finishReg s sc slot c d v).agents = s.agents := rfl
@[simp] theorem finishReg_homes (s : State) (sc : ScullId) (slot : Slot) (c : Ctx) (d : Reg) (v : Word) : (finishReg s sc slot c d v).homes = s.homes := rfl
@[simp] theorem finishReg_memory (s : State) (sc : ScullId) (slot : Slot) (c : Ctx) (d : Reg) (v : Word) : (finishReg s sc slot c d v).memory = s.memory := rfl
@[simp] theorem finishReg_linePoison (s : State) (sc : ScullId) (slot : Slot) (c : Ctx) (d : Reg) (v : Word) : (finishReg s sc slot c d v).linePoison = s.linePoison := rfl
@[simp] theorem finishReg_mc (s : State) (sc : ScullId) (slot : Slot) (c : Ctx) (d : Reg) (v : Word) : (finishReg s sc slot c d v).mc = s.mc := rfl
@[simp] theorem finishReg_queues (s : State) (sc : ScullId) (slot : Slot) (c : Ctx) (d : Reg) (v : Word) : (finishReg s sc slot c d v).queues = s.queues := rfl
@[simp] theorem finishReg_unit (s : State) (sc : ScullId) (slot : Slot) (c : Ctx) (d : Reg) (v : Word) : (finishReg s sc slot c d v).unit = s.unit := rfl
@[simp] theorem finishReg_crews (s : State) (sc : ScullId) (slot : Slot) (c : Ctx) (d : Reg) (v : Word) : (finishReg s sc slot c d v).crews = s.crews := rfl
@[simp] theorem finishReg_roots (s : State) (sc : ScullId) (slot : Slot) (c : Ctx) (d : Reg) (v : Word) : (finishReg s sc slot c d v).roots = s.roots := rfl
@[simp] theorem finishReg_directory (s : State) (sc : ScullId) (slot : Slot) (c : Ctx) (d : Reg) (v : Word) : (finishReg s sc slot c d v).directory = s.directory := rfl
@[simp] theorem finishReg_table (s : State) (sc : ScullId) (slot : Slot) (c : Ctx) (d : Reg) (v : Word) : (finishReg s sc slot c d v).table = s.table := rfl
@[simp] theorem finishReg_harts (s : State) (sc : ScullId) (slot : Slot) (c : Ctx) (d : Reg) (v : Word) : (finishReg s sc slot c d v).harts = s.harts := rfl
@[simp] theorem finishReg_fs (s : State) (sc : ScullId) (slot : Slot) (c : Ctx) (d : Reg) (v : Word) : (finishReg s sc slot c d v).fs = s.fs := rfl
@[simp] theorem finishReg_host (s : State) (sc : ScullId) (slot : Slot) (c : Ctx) (d : Reg) (v : Word) : (finishReg s sc slot c d v).host = s.host := rfl
@[simp] theorem finishReg_ep (s : State) (sc : ScullId) (slot : Slot) (c : Ctx) (d : Reg) (v : Word) : (finishReg s sc slot c d v).ep = s.ep := rfl
@[simp] theorem finishReg_power (s : State) (sc : ScullId) (slot : Slot) (c : Ctx) (d : Reg) (v : Word) : (finishReg s sc slot c d v).power = s.power := rfl
@[simp] theorem finishReg_config (s : State) (sc : ScullId) (slot : Slot) (c : Ctx) (d : Reg) (v : Word) : (finishReg s sc slot c d v).config = s.config := rfl
@[simp] theorem finishReg_flash (s : State) (sc : ScullId) (slot : Slot) (c : Ctx) (d : Reg) (v : Word) : (finishReg s sc slot c d v).flash = s.flash := rfl
@[simp] theorem finishReg_scullOf (s : State) (sc : ScullId) (slot : Slot) (c : Ctx) (d : Reg) (v : Word) (sc' : ScullId) : scullOf (finishReg s sc slot c d v) sc' = scullOf s sc' := rfl
@[simp] theorem finishReg_engineOf (s : State) (sc : ScullId) (slot : Slot) (c : Ctx) (d : Reg) (v : Word) (sc' : ScullId) (e' : EngineId) : engineOf (finishReg s sc slot c d v) sc' e' = engineOf s sc' e' := rfl
@[simp] theorem finishReg_crewOf (s : State) (sc : ScullId) (slot : Slot) (c : Ctx) (d : Reg) (v : Word) (c' : CrewId) : crewOf (finishReg s sc slot c d v) c' = crewOf s c' := rfl
@[simp] theorem finishReg_queueOf (s : State) (sc : ScullId) (slot : Slot) (c : Ctx) (d : Reg) (v : Word) (q' : QueueId) : queueOf (finishReg s sc slot c d v) q' = queueOf s q' := rfl
@[simp] theorem finishReg_agentOf (s : State) (sc : ScullId) (slot : Slot) (c : Ctx) (d : Reg) (v : Word) (n' : Node) : agentOf (finishReg s sc slot c d v) n' = agentOf s n' := rfl
@[simp] theorem finishReg_homeOf (s : State) (sc : ScullId) (slot : Slot) (c : Ctx) (d : Reg) (v : Word) (n' : Nat) : homeOf (finishReg s sc slot c d v) n' = homeOf s n' := rfl
@[simp] theorem finishReg_hartOf (s : State) (sc : ScullId) (slot : Slot) (c : Ctx) (d : Reg) (v : Word) (h' : HartId) : hartOf (finishReg s sc slot c d v) h' = hartOf s h' := rfl
@[simp] theorem finishReg_itemOf (s : State) (sc : ScullId) (slot : Slot) (c : Ctx) (d : Reg) (v : Word) (n' : Nat) : itemOf (finishReg s sc slot c d v) n' = itemOf s n' := rfl

/-! ### park -/

@[simp] theorem park_cycle (s : State) (sc : ScullId) (slot : Slot) (c : Ctx) (w : Wait) : (park s sc slot c w).cycle = s.cycle := rfl
@[simp] theorem park_gtcNum (s : State) (sc : ScullId) (slot : Slot) (c : Ctx) (w : Wait) : (park s sc slot c w).gtcNum = s.gtcNum := rfl
@[simp] theorem park_agenda (s : State) (sc : ScullId) (slot : Slot) (c : Ctx) (w : Wait) : (park s sc slot c w).agenda = s.agenda := rfl
@[simp] theorem park_turn (s : State) (sc : ScullId) (slot : Slot) (c : Ctx) (w : Wait) : (park s sc slot c w).turn = s.turn := rfl
@[simp] theorem park_actor (s : State) (sc : ScullId) (slot : Slot) (c : Ctx) (w : Wait) : (park s sc slot c w).actor = s.actor := rfl
@[simp] theorem park_draws (s : State) (sc : ScullId) (slot : Slot) (c : Ctx) (w : Wait) : (park s sc slot c w).draws = s.draws := rfl
@[simp] theorem park_nextId (s : State) (sc : ScullId) (slot : Slot) (c : Ctx) (w : Wait) : (park s sc slot c w).nextId = s.nextId := rfl
@[simp] theorem park_fatal (s : State) (sc : ScullId) (slot : Slot) (c : Ctx) (w : Wait) : (park s sc slot c w).fatal = s.fatal := rfl
@[simp] theorem park_ctxs (s : State) (sc : ScullId) (slot : Slot) (c : Ctx) (w : Wait) : (park s sc slot c w).ctxs = tabSet s.ctxs (ctxKey sc slot) { c with st := .waiting w } := rfl
@[simp] theorem park_sculls (s : State) (sc : ScullId) (slot : Slot) (c : Ctx) (w : Wait) : (park s sc slot c w).sculls = s.sculls := rfl
@[simp] theorem park_engines (s : State) (sc : ScullId) (slot : Slot) (c : Ctx) (w : Wait) : (park s sc slot c w).engines = s.engines := rfl
@[simp] theorem park_shadows (s : State) (sc : ScullId) (slot : Slot) (c : Ctx) (w : Wait) : (park s sc slot c w).shadows = s.shadows := rfl
@[simp] theorem park_items (s : State) (sc : ScullId) (slot : Slot) (c : Ctx) (w : Wait) : (park s sc slot c w).items = s.items := rfl
@[simp] theorem park_walkers (s : State) (sc : ScullId) (slot : Slot) (c : Ctx) (w : Wait) : (park s sc slot c w).walkers = s.walkers := rfl
@[simp] theorem park_isolated (s : State) (sc : ScullId) (slot : Slot) (c : Ctx) (w : Wait) : (park s sc slot c w).isolated = s.isolated := rfl
@[simp] theorem park_coxFailed (s : State) (sc : ScullId) (slot : Slot) (c : Ctx) (w : Wait) : (park s sc slot c w).coxFailed = s.coxFailed := rfl
@[simp] theorem park_agents (s : State) (sc : ScullId) (slot : Slot) (c : Ctx) (w : Wait) : (park s sc slot c w).agents = s.agents := rfl
@[simp] theorem park_homes (s : State) (sc : ScullId) (slot : Slot) (c : Ctx) (w : Wait) : (park s sc slot c w).homes = s.homes := rfl
@[simp] theorem park_memory (s : State) (sc : ScullId) (slot : Slot) (c : Ctx) (w : Wait) : (park s sc slot c w).memory = s.memory := rfl
@[simp] theorem park_linePoison (s : State) (sc : ScullId) (slot : Slot) (c : Ctx) (w : Wait) : (park s sc slot c w).linePoison = s.linePoison := rfl
@[simp] theorem park_mc (s : State) (sc : ScullId) (slot : Slot) (c : Ctx) (w : Wait) : (park s sc slot c w).mc = s.mc := rfl
@[simp] theorem park_queues (s : State) (sc : ScullId) (slot : Slot) (c : Ctx) (w : Wait) : (park s sc slot c w).queues = s.queues := rfl
@[simp] theorem park_unit (s : State) (sc : ScullId) (slot : Slot) (c : Ctx) (w : Wait) : (park s sc slot c w).unit = s.unit := rfl
@[simp] theorem park_crews (s : State) (sc : ScullId) (slot : Slot) (c : Ctx) (w : Wait) : (park s sc slot c w).crews = s.crews := rfl
@[simp] theorem park_roots (s : State) (sc : ScullId) (slot : Slot) (c : Ctx) (w : Wait) : (park s sc slot c w).roots = s.roots := rfl
@[simp] theorem park_directory (s : State) (sc : ScullId) (slot : Slot) (c : Ctx) (w : Wait) : (park s sc slot c w).directory = s.directory := rfl
@[simp] theorem park_table (s : State) (sc : ScullId) (slot : Slot) (c : Ctx) (w : Wait) : (park s sc slot c w).table = s.table := rfl
@[simp] theorem park_harts (s : State) (sc : ScullId) (slot : Slot) (c : Ctx) (w : Wait) : (park s sc slot c w).harts = s.harts := rfl
@[simp] theorem park_fs (s : State) (sc : ScullId) (slot : Slot) (c : Ctx) (w : Wait) : (park s sc slot c w).fs = s.fs := rfl
@[simp] theorem park_host (s : State) (sc : ScullId) (slot : Slot) (c : Ctx) (w : Wait) : (park s sc slot c w).host = s.host := rfl
@[simp] theorem park_ep (s : State) (sc : ScullId) (slot : Slot) (c : Ctx) (w : Wait) : (park s sc slot c w).ep = s.ep := rfl
@[simp] theorem park_power (s : State) (sc : ScullId) (slot : Slot) (c : Ctx) (w : Wait) : (park s sc slot c w).power = s.power := rfl
@[simp] theorem park_config (s : State) (sc : ScullId) (slot : Slot) (c : Ctx) (w : Wait) : (park s sc slot c w).config = s.config := rfl
@[simp] theorem park_flash (s : State) (sc : ScullId) (slot : Slot) (c : Ctx) (w : Wait) : (park s sc slot c w).flash = s.flash := rfl
@[simp] theorem park_scullOf (s : State) (sc : ScullId) (slot : Slot) (c : Ctx) (w : Wait) (sc' : ScullId) : scullOf (park s sc slot c w) sc' = scullOf s sc' := rfl
@[simp] theorem park_engineOf (s : State) (sc : ScullId) (slot : Slot) (c : Ctx) (w : Wait) (sc' : ScullId) (e' : EngineId) : engineOf (park s sc slot c w) sc' e' = engineOf s sc' e' := rfl
@[simp] theorem park_crewOf (s : State) (sc : ScullId) (slot : Slot) (c : Ctx) (w : Wait) (c' : CrewId) : crewOf (park s sc slot c w) c' = crewOf s c' := rfl
@[simp] theorem park_queueOf (s : State) (sc : ScullId) (slot : Slot) (c : Ctx) (w : Wait) (q' : QueueId) : queueOf (park s sc slot c w) q' = queueOf s q' := rfl
@[simp] theorem park_agentOf (s : State) (sc : ScullId) (slot : Slot) (c : Ctx) (w : Wait) (n' : Node) : agentOf (park s sc slot c w) n' = agentOf s n' := rfl
@[simp] theorem park_homeOf (s : State) (sc : ScullId) (slot : Slot) (c : Ctx) (w : Wait) (n' : Nat) : homeOf (park s sc slot c w) n' = homeOf s n' := rfl
@[simp] theorem park_hartOf (s : State) (sc : ScullId) (slot : Slot) (c : Ctx) (w : Wait) (h' : HartId) : hartOf (park s sc slot c w) h' = hartOf s h' := rfl
@[simp] theorem park_itemOf (s : State) (sc : ScullId) (slot : Slot) (c : Ctx) (w : Wait) (n' : Nat) : itemOf (park s sc slot c w) n' = itemOf s n' := rfl

/-! ### setMemoryLine -/

@[simp] theorem setMemoryLine_cycle (s : State) (n : Nat) (d : BitVec 512) : (setMemoryLine s n d).cycle = s.cycle := rfl
@[simp] theorem setMemoryLine_gtcNum (s : State) (n : Nat) (d : BitVec 512) : (setMemoryLine s n d).gtcNum = s.gtcNum := rfl
@[simp] theorem setMemoryLine_agenda (s : State) (n : Nat) (d : BitVec 512) : (setMemoryLine s n d).agenda = s.agenda := rfl
@[simp] theorem setMemoryLine_turn (s : State) (n : Nat) (d : BitVec 512) : (setMemoryLine s n d).turn = s.turn := rfl
@[simp] theorem setMemoryLine_actor (s : State) (n : Nat) (d : BitVec 512) : (setMemoryLine s n d).actor = s.actor := rfl
@[simp] theorem setMemoryLine_draws (s : State) (n : Nat) (d : BitVec 512) : (setMemoryLine s n d).draws = s.draws := rfl
@[simp] theorem setMemoryLine_nextId (s : State) (n : Nat) (d : BitVec 512) : (setMemoryLine s n d).nextId = s.nextId := rfl
@[simp] theorem setMemoryLine_fatal (s : State) (n : Nat) (d : BitVec 512) : (setMemoryLine s n d).fatal = s.fatal := rfl
@[simp] theorem setMemoryLine_ctxs (s : State) (n : Nat) (d : BitVec 512) : (setMemoryLine s n d).ctxs = s.ctxs := rfl
@[simp] theorem setMemoryLine_sculls (s : State) (n : Nat) (d : BitVec 512) : (setMemoryLine s n d).sculls = s.sculls := rfl
@[simp] theorem setMemoryLine_engines (s : State) (n : Nat) (d : BitVec 512) : (setMemoryLine s n d).engines = s.engines := rfl
@[simp] theorem setMemoryLine_shadows (s : State) (n : Nat) (d : BitVec 512) : (setMemoryLine s n d).shadows = s.shadows := rfl
@[simp] theorem setMemoryLine_items (s : State) (n : Nat) (d : BitVec 512) : (setMemoryLine s n d).items = s.items := rfl
@[simp] theorem setMemoryLine_walkers (s : State) (n : Nat) (d : BitVec 512) : (setMemoryLine s n d).walkers = s.walkers := rfl
@[simp] theorem setMemoryLine_isolated (s : State) (n : Nat) (d : BitVec 512) : (setMemoryLine s n d).isolated = s.isolated := rfl
@[simp] theorem setMemoryLine_coxFailed (s : State) (n : Nat) (d : BitVec 512) : (setMemoryLine s n d).coxFailed = s.coxFailed := rfl
@[simp] theorem setMemoryLine_agents (s : State) (n : Nat) (d : BitVec 512) : (setMemoryLine s n d).agents = s.agents := rfl
@[simp] theorem setMemoryLine_homes (s : State) (n : Nat) (d : BitVec 512) : (setMemoryLine s n d).homes = s.homes := rfl
@[simp] theorem setMemoryLine_memory (s : State) (n : Nat) (d : BitVec 512) : (setMemoryLine s n d).memory = memWriteNat s.memory (byteLoc s (n * 64)) 64 d.toNat := rfl
@[simp] theorem setMemoryLine_linePoison (s : State) (n : Nat) (d : BitVec 512) : (setMemoryLine s n d).linePoison = s.linePoison := rfl
@[simp] theorem setMemoryLine_mc (s : State) (n : Nat) (d : BitVec 512) : (setMemoryLine s n d).mc = s.mc := rfl
@[simp] theorem setMemoryLine_queues (s : State) (n : Nat) (d : BitVec 512) : (setMemoryLine s n d).queues = s.queues := rfl
@[simp] theorem setMemoryLine_unit (s : State) (n : Nat) (d : BitVec 512) : (setMemoryLine s n d).unit = s.unit := rfl
@[simp] theorem setMemoryLine_crews (s : State) (n : Nat) (d : BitVec 512) : (setMemoryLine s n d).crews = s.crews := rfl
@[simp] theorem setMemoryLine_roots (s : State) (n : Nat) (d : BitVec 512) : (setMemoryLine s n d).roots = s.roots := rfl
@[simp] theorem setMemoryLine_directory (s : State) (n : Nat) (d : BitVec 512) : (setMemoryLine s n d).directory = s.directory := rfl
@[simp] theorem setMemoryLine_table (s : State) (n : Nat) (d : BitVec 512) : (setMemoryLine s n d).table = s.table := rfl
@[simp] theorem setMemoryLine_harts (s : State) (n : Nat) (d : BitVec 512) : (setMemoryLine s n d).harts = s.harts := rfl
@[simp] theorem setMemoryLine_fs (s : State) (n : Nat) (d : BitVec 512) : (setMemoryLine s n d).fs = s.fs := rfl
@[simp] theorem setMemoryLine_host (s : State) (n : Nat) (d : BitVec 512) : (setMemoryLine s n d).host = s.host := rfl
@[simp] theorem setMemoryLine_ep (s : State) (n : Nat) (d : BitVec 512) : (setMemoryLine s n d).ep = s.ep := rfl
@[simp] theorem setMemoryLine_power (s : State) (n : Nat) (d : BitVec 512) : (setMemoryLine s n d).power = s.power := rfl
@[simp] theorem setMemoryLine_config (s : State) (n : Nat) (d : BitVec 512) : (setMemoryLine s n d).config = s.config := rfl
@[simp] theorem setMemoryLine_flash (s : State) (n : Nat) (d : BitVec 512) : (setMemoryLine s n d).flash = s.flash := rfl
@[simp] theorem setMemoryLine_ctxAt (s : State) (n : Nat) (d : BitVec 512) (k' : Nat) : ctxAt (setMemoryLine s n d) k' = ctxAt s k' := rfl
@[simp] theorem setMemoryLine_scullOf (s : State) (n : Nat) (d : BitVec 512) (sc' : ScullId) : scullOf (setMemoryLine s n d) sc' = scullOf s sc' := rfl
@[simp] theorem setMemoryLine_engineOf (s : State) (n : Nat) (d : BitVec 512) (sc' : ScullId) (e' : EngineId) : engineOf (setMemoryLine s n d) sc' e' = engineOf s sc' e' := rfl
@[simp] theorem setMemoryLine_crewOf (s : State) (n : Nat) (d : BitVec 512) (c' : CrewId) : crewOf (setMemoryLine s n d) c' = crewOf s c' := rfl
@[simp] theorem setMemoryLine_queueOf (s : State) (n : Nat) (d : BitVec 512) (q' : QueueId) : queueOf (setMemoryLine s n d) q' = queueOf s q' := rfl
@[simp] theorem setMemoryLine_agentOf (s : State) (n : Nat) (d : BitVec 512) (n' : Node) : agentOf (setMemoryLine s n d) n' = agentOf s n' := rfl
@[simp] theorem setMemoryLine_homeOf (s : State) (n : Nat) (d : BitVec 512) (n' : Nat) : homeOf (setMemoryLine s n d) n' = homeOf s n' := rfl
@[simp] theorem setMemoryLine_hartOf (s : State) (n : Nat) (d : BitVec 512) (h' : HartId) : hartOf (setMemoryLine s n d) h' = hartOf s h' := rfl
@[simp] theorem setMemoryLine_itemOf (s : State) (n : Nat) (d : BitVec 512) (n' : Nat) : itemOf (setMemoryLine s n d) n' = itemOf s n' := rfl
@[simp] theorem setMemoryLine_ctxOf (s : State) (n : Nat) (d : BitVec 512) (sc' : ScullId) (slot' : Slot) : ctxOf (setMemoryLine s n d) sc' slot' = ctxOf s sc' slot' := rfl

/-! ### setMemoryPoison -/

@[simp] theorem setMemoryPoison_cycle (s : State) (n : Nat) (b : Bool) : (setMemoryPoison s n b).cycle = s.cycle := rfl
@[simp] theorem setMemoryPoison_gtcNum (s : State) (n : Nat) (b : Bool) : (setMemoryPoison s n b).gtcNum = s.gtcNum := rfl
@[simp] theorem setMemoryPoison_agenda (s : State) (n : Nat) (b : Bool) : (setMemoryPoison s n b).agenda = s.agenda := rfl
@[simp] theorem setMemoryPoison_turn (s : State) (n : Nat) (b : Bool) : (setMemoryPoison s n b).turn = s.turn := rfl
@[simp] theorem setMemoryPoison_actor (s : State) (n : Nat) (b : Bool) : (setMemoryPoison s n b).actor = s.actor := rfl
@[simp] theorem setMemoryPoison_draws (s : State) (n : Nat) (b : Bool) : (setMemoryPoison s n b).draws = s.draws := rfl
@[simp] theorem setMemoryPoison_nextId (s : State) (n : Nat) (b : Bool) : (setMemoryPoison s n b).nextId = s.nextId := rfl
@[simp] theorem setMemoryPoison_fatal (s : State) (n : Nat) (b : Bool) : (setMemoryPoison s n b).fatal = s.fatal := rfl
@[simp] theorem setMemoryPoison_ctxs (s : State) (n : Nat) (b : Bool) : (setMemoryPoison s n b).ctxs = s.ctxs := rfl
@[simp] theorem setMemoryPoison_sculls (s : State) (n : Nat) (b : Bool) : (setMemoryPoison s n b).sculls = s.sculls := rfl
@[simp] theorem setMemoryPoison_engines (s : State) (n : Nat) (b : Bool) : (setMemoryPoison s n b).engines = s.engines := rfl
@[simp] theorem setMemoryPoison_shadows (s : State) (n : Nat) (b : Bool) : (setMemoryPoison s n b).shadows = s.shadows := rfl
@[simp] theorem setMemoryPoison_items (s : State) (n : Nat) (b : Bool) : (setMemoryPoison s n b).items = s.items := rfl
@[simp] theorem setMemoryPoison_walkers (s : State) (n : Nat) (b : Bool) : (setMemoryPoison s n b).walkers = s.walkers := rfl
@[simp] theorem setMemoryPoison_isolated (s : State) (n : Nat) (b : Bool) : (setMemoryPoison s n b).isolated = s.isolated := rfl
@[simp] theorem setMemoryPoison_coxFailed (s : State) (n : Nat) (b : Bool) : (setMemoryPoison s n b).coxFailed = s.coxFailed := rfl
@[simp] theorem setMemoryPoison_agents (s : State) (n : Nat) (b : Bool) : (setMemoryPoison s n b).agents = s.agents := rfl
@[simp] theorem setMemoryPoison_homes (s : State) (n : Nat) (b : Bool) : (setMemoryPoison s n b).homes = s.homes := rfl
@[simp] theorem setMemoryPoison_memory (s : State) (n : Nat) (b : Bool) : (setMemoryPoison s n b).memory = s.memory := rfl
@[simp] theorem setMemoryPoison_linePoison (s : State) (n : Nat) (b : Bool) : (setMemoryPoison s n b).linePoison = setPut s.linePoison n b := rfl
@[simp] theorem setMemoryPoison_mc (s : State) (n : Nat) (b : Bool) : (setMemoryPoison s n b).mc = s.mc := rfl
@[simp] theorem setMemoryPoison_queues (s : State) (n : Nat) (b : Bool) : (setMemoryPoison s n b).queues = s.queues := rfl
@[simp] theorem setMemoryPoison_unit (s : State) (n : Nat) (b : Bool) : (setMemoryPoison s n b).unit = s.unit := rfl
@[simp] theorem setMemoryPoison_crews (s : State) (n : Nat) (b : Bool) : (setMemoryPoison s n b).crews = s.crews := rfl
@[simp] theorem setMemoryPoison_roots (s : State) (n : Nat) (b : Bool) : (setMemoryPoison s n b).roots = s.roots := rfl
@[simp] theorem setMemoryPoison_directory (s : State) (n : Nat) (b : Bool) : (setMemoryPoison s n b).directory = s.directory := rfl
@[simp] theorem setMemoryPoison_table (s : State) (n : Nat) (b : Bool) : (setMemoryPoison s n b).table = s.table := rfl
@[simp] theorem setMemoryPoison_harts (s : State) (n : Nat) (b : Bool) : (setMemoryPoison s n b).harts = s.harts := rfl
@[simp] theorem setMemoryPoison_fs (s : State) (n : Nat) (b : Bool) : (setMemoryPoison s n b).fs = s.fs := rfl
@[simp] theorem setMemoryPoison_host (s : State) (n : Nat) (b : Bool) : (setMemoryPoison s n b).host = s.host := rfl
@[simp] theorem setMemoryPoison_ep (s : State) (n : Nat) (b : Bool) : (setMemoryPoison s n b).ep = s.ep := rfl
@[simp] theorem setMemoryPoison_power (s : State) (n : Nat) (b : Bool) : (setMemoryPoison s n b).power = s.power := rfl
@[simp] theorem setMemoryPoison_config (s : State) (n : Nat) (b : Bool) : (setMemoryPoison s n b).config = s.config := rfl
@[simp] theorem setMemoryPoison_flash (s : State) (n : Nat) (b : Bool) : (setMemoryPoison s n b).flash = s.flash := rfl
@[simp] theorem setMemoryPoison_ctxAt (s : State) (n : Nat) (b : Bool) (k' : Nat) : ctxAt (setMemoryPoison s n b) k' = ctxAt s k' := rfl
@[simp] theorem setMemoryPoison_scullOf (s : State) (n : Nat) (b : Bool) (sc' : ScullId) : scullOf (setMemoryPoison s n b) sc' = scullOf s sc' := rfl
@[simp] theorem setMemoryPoison_engineOf (s : State) (n : Nat) (b : Bool) (sc' : ScullId) (e' : EngineId) : engineOf (setMemoryPoison s n b) sc' e' = engineOf s sc' e' := rfl
@[simp] theorem setMemoryPoison_crewOf (s : State) (n : Nat) (b : Bool) (c' : CrewId) : crewOf (setMemoryPoison s n b) c' = crewOf s c' := rfl
@[simp] theorem setMemoryPoison_queueOf (s : State) (n : Nat) (b : Bool) (q' : QueueId) : queueOf (setMemoryPoison s n b) q' = queueOf s q' := rfl
@[simp] theorem setMemoryPoison_agentOf (s : State) (n : Nat) (b : Bool) (n' : Node) : agentOf (setMemoryPoison s n b) n' = agentOf s n' := rfl
@[simp] theorem setMemoryPoison_homeOf (s : State) (n : Nat) (b : Bool) (n' : Nat) : homeOf (setMemoryPoison s n b) n' = homeOf s n' := rfl
@[simp] theorem setMemoryPoison_hartOf (s : State) (n : Nat) (b : Bool) (h' : HartId) : hartOf (setMemoryPoison s n b) h' = hartOf s h' := rfl
@[simp] theorem setMemoryPoison_itemOf (s : State) (n : Nat) (b : Bool) (n' : Nat) : itemOf (setMemoryPoison s n b) n' = itemOf s n' := rfl
@[simp] theorem setMemoryPoison_ctxOf (s : State) (n : Nat) (b : Bool) (sc' : ScullId) (slot' : Slot) : ctxOf (setMemoryPoison s n b) sc' slot' = ctxOf s sc' slot' := rfl

/-! ### Reading back -/

theorem ctxKey_inj {sc sc' : ScullId} {slot slot' : Slot} (h : ctxKey sc slot = ctxKey sc' slot') : sc = sc' ∧ slot = slot' := by
  unfold ctxKey at h
  have h1 := slot.isLt
  have h2 := slot'.isLt
  exact ⟨BitVec.eq_of_toNat_eq (by omega), BitVec.eq_of_toNat_eq (by omega)⟩

theorem engineKey_inj {sc sc' : ScullId} {e e' : EngineId} (h : engineKey sc e = engineKey sc' e') : sc = sc' ∧ e = e' := by
  unfold engineKey at h
  have h1 : engineIndex e < 4 := by cases e <;> decide
  have h2 : engineIndex e' < 4 := by cases e' <;> decide
  refine ⟨BitVec.eq_of_toNat_eq (by omega), ?_⟩
  have h3 : engineIndex e = engineIndex e' := by omega
  cases e <;> cases e' <;> first | rfl | simp [engineIndex] at h3

@[simp] theorem ctxAt_setCtxAt_self (s : State) (k : Nat) (c : Ctx) : ctxAt (setCtxAt s k c) k = c := by simp [ctxAt]
theorem ctxAt_setCtxAt_ne (s : State) {k k' : Nat} (c : Ctx) (h : k' ≠ k) : ctxAt (setCtxAt s k c) k' = ctxAt s k' := by
  simp [ctxAt, tabGet_tabSet_ne _ _ _ h]
@[simp] theorem ctxOf_setCtx_self (s : State) (sc : ScullId) (slot : Slot) (c : Ctx) : ctxOf (setCtx s sc slot c) sc slot = c := by
  simp [ctxOf, setCtx]
theorem ctxOf_setCtx_ne (s : State) {sc sc' : ScullId} {slot slot' : Slot} (c : Ctx) (h : ¬(sc' = sc ∧ slot' = slot)) :
    ctxOf (setCtx s sc slot c) sc' slot' = ctxOf s sc' slot' :=
  ctxAt_setCtxAt_ne s c fun e => h (ctxKey_inj e)
@[simp] theorem ctxOf_finish_self (s : State) (sc : ScullId) (slot : Slot) (c : Ctx) : ctxOf (finish s sc slot c) sc slot = retire c := by
  simp [finish]
theorem ctxOf_finish_ne (s : State) {sc sc' : ScullId} {slot slot' : Slot} (c : Ctx) (h : ¬(sc' = sc ∧ slot' = slot)) :
    ctxOf (finish s sc slot c) sc' slot' = ctxOf s sc' slot' := ctxOf_setCtx_ne s (retire c) h
@[simp] theorem ctxOf_finishReg_self (s : State) (sc : ScullId) (slot : Slot) (c : Ctx) (d : Reg) (v : Word) :
    ctxOf (finishReg s sc slot c d v) sc slot = retire (writeReg c d v) := by simp [finishReg]
theorem ctxOf_finishReg_ne (s : State) {sc sc' : ScullId} {slot slot' : Slot} (c : Ctx) (d : Reg) (v : Word)
    (h : ¬(sc' = sc ∧ slot' = slot)) : ctxOf (finishReg s sc slot c d v) sc' slot' = ctxOf s sc' slot' :=
  ctxOf_setCtx_ne s (retire (writeReg c d v)) h
@[simp] theorem ctxOf_park_self (s : State) (sc : ScullId) (slot : Slot) (c : Ctx) (w : Wait) :
    ctxOf (park s sc slot c w) sc slot = { c with st := .waiting w } := by simp [park]
theorem ctxOf_park_ne (s : State) {sc sc' : ScullId} {slot slot' : Slot} (c : Ctx) (w : Wait) (h : ¬(sc' = sc ∧ slot' = slot)) :
    ctxOf (park s sc slot c w) sc' slot' = ctxOf s sc' slot' := ctxOf_setCtx_ne s { c with st := .waiting w } h
@[simp] theorem scullOf_setScull_self (s : State) (sc : ScullId) (x : Scull) : scullOf (setScull s sc x) sc = x := by simp [scullOf]
theorem scullOf_setScull_ne (s : State) {sc sc' : ScullId} (x : Scull) (h : sc' ≠ sc) : scullOf (setScull s sc x) sc' = scullOf s sc' := by
  have h' : sc'.toNat ≠ sc.toNat := fun e => h (BitVec.eq_of_toNat_eq e)
  simp [scullOf, tabGet_tabSet_ne _ _ _ h']
@[simp] theorem engineOf_setEngine_self (s : State) (sc : ScullId) (e : EngineId) (x : Engine) :
    engineOf (setEngine s sc e x) sc e = x := by simp [engineOf]
theorem engineOf_setEngine_ne (s : State) {sc sc' : ScullId} {e e' : EngineId} (x : Engine) (h : ¬(sc' = sc ∧ e' = e)) :
    engineOf (setEngine s sc e x) sc' e' = engineOf s sc' e' := by
  have h' : engineKey sc' e' ≠ engineKey sc e := fun k => h (engineKey_inj k)
  simp [engineOf, tabGet_tabSet_ne _ _ _ h']
@[simp] theorem crewOf_setCrew_self (s : State) (c : CrewId) (x : Crew) : crewOf (setCrew s c x) c = some x := by simp [crewOf]
theorem crewOf_setCrew_ne (s : State) {c c' : CrewId} (x : Crew) (h : c' ≠ c) : crewOf (setCrew s c x) c' = crewOf s c' := by
  have h' : c'.toNat ≠ c.toNat := fun e => h (BitVec.eq_of_toNat_eq e)
  simp [crewOf, tabFind_tabSet_ne _ _ h']
@[simp] theorem hartOf_setHart_self (s : State) (h : HartId) (x : Hart) : hartOf (setHart s h x) h = x := by simp [hartOf]
@[simp] theorem queueOf_setQueue_self (s : State) (q : QueueId) (x : Queue) : queueOf (setQueue s q x) q = x := by simp [queueOf]
@[simp] theorem homeOf_setHome_self (s : State) (n : Nat) (x : HomeLine) : homeOf (setHome s n x) n = x := by simp [homeOf]
@[simp] theorem agentOf_setAgent_self (s : State) (n : Node) (x : Agent) : agentOf (setAgent s n x) n = x := by simp [agentOf]
@[simp] theorem itemOf_setItem_self (s : State) (n : Nat) (x : Item) : itemOf (setItem s n x) n = some x := by simp [itemOf]
@[simp] theorem itemOf_dropItem_self (s : State) (n : Nat) : itemOf (dropItem s n) n = none := by
  simp [itemOf, tabFind_tabDrop]

end Sys2Proof.Machine
end

