-- ==== Sys2Proof/Laws/Ops.lean ====
section
/-! SUPPORT. What the shared operations can do, said once: register writes, the end of an instruction, the checks before an instruction's
own, and taking a trap and returning from one. -/

namespace Sys2Proof.Machine

/-! ### Registers (R42) -/

@[simp] theorem readReg_zero (c : Ctx) : readReg c 0#7 = 0#64 := rfl

@[simp] theorem writeReg_st (c : Ctx) (d : Reg) (v : Word) : (writeReg c d v).st = c.st := by unfold writeReg; split <;> rfl
@[simp] theorem writeReg_base (c : Ctx) (d : Reg) (v : Word) : (writeReg c d v).base = c.base := by unfold writeReg; split <;> rfl
@[simp] theorem writeReg_size (c : Ctx) (d : Reg) (v : Word) : (writeReg c d v).size = c.size := by unfold writeReg; split <;> rfl
@[simp] theorem writeReg_hdr (c : Ctx) (d : Reg) (v : Word) : (writeReg c d v).hdr = c.hdr := by unfold writeReg; split <;> rfl
@[simp] theorem writeReg_crew (c : Ctx) (d : Reg) (v : Word) : (writeReg c d v).crew = c.crew := by unfold writeReg; split <;> rfl
@[simp] theorem writeReg_csz (c : Ctx) (d : Reg) (v : Word) : (writeReg c d v).csz = c.csz := by unfold writeReg; split <;> rfl
@[simp] theorem writeReg_cidx (c : Ctx) (d : Reg) (v : Word) : (writeReg c d v).cidx = c.cidx := by unfold writeReg; split <;> rfl
@[simp] theorem writeReg_k (c : Ctx) (d : Reg) (v : Word) : (writeReg c d v).k = c.k := by unfold writeReg; split <;> rfl
@[simp] theorem writeReg_pc (c : Ctx) (d : Reg) (v : Word) : (writeReg c d v).pc = c.pc := by unfold writeReg; split <;> rfl
@[simp] theorem writeReg_back (c : Ctx) (d : Reg) (v : Word) : (writeReg c d v).back = c.back := by unfold writeReg; split <;> rfl
@[simp] theorem writeReg_caps (c : Ctx) (d : Reg) (v : Word) : (writeReg c d v).caps = c.caps := by unfold writeReg; split <;> rfl
@[simp] theorem writeReg_prv (c : Ctx) (d : Reg) (v : Word) : (writeReg c d v).prv = c.prv := by unfold writeReg; split <;> rfl
@[simp] theorem writeReg_hnd (c : Ctx) (d : Reg) (v : Word) : (writeReg c d v).hnd = c.hnd := by unfold writeReg; split <;> rfl
@[simp] theorem writeReg_ppnd (c : Ctx) (d : Reg) (v : Word) : (writeReg c d v).ppnd = c.ppnd := by unfold writeReg; split <;> rfl
@[simp] theorem writeReg_tvec (c : Ctx) (d : Reg) (v : Word) : (writeReg c d v).tvec = c.tvec := by unfold writeReg; split <;> rfl
@[simp] theorem writeReg_tpc (c : Ctx) (d : Reg) (v : Word) : (writeReg c d v).tpc = c.tpc := by unfold writeReg; split <;> rfl
@[simp] theorem writeReg_cause (c : Ctx) (d : Reg) (v : Word) : (writeReg c d v).cause = c.cause := by unfold writeReg; split <;> rfl
@[simp] theorem writeReg_tval (c : Ctx) (d : Reg) (v : Word) : (writeReg c d v).tval = c.tval := by unfold writeReg; split <;> rfl
@[simp] theorem writeReg_tsave (c : Ctx) (d : Reg) (v : Word) : (writeReg c d v).tsave = c.tsave := by unfold writeReg; split <;> rfl
@[simp] theorem writeReg_fflags (c : Ctx) (d : Reg) (v : Word) : (writeReg c d v).fflags = c.fflags := by unfold writeReg; split <;> rfl
@[simp] theorem writeReg_fen (c : Ctx) (d : Reg) (v : Word) : (writeReg c d v).fen = c.fen := by unfold writeReg; split <;> rfl
@[simp] theorem writeReg_asid (c : Ctx) (d : Reg) (v : Word) : (writeReg c d v).asid = c.asid := by unfold writeReg; split <;> rfl
@[simp] theorem writeReg_ptroot (c : Ctx) (d : Reg) (v : Word) : (writeReg c d v).ptroot = c.ptroot := by unfold writeReg; split <;> rfl
@[simp] theorem writeReg_icnt (c : Ctx) (d : Reg) (v : Word) : (writeReg c d v).icnt = c.icnt := by unfold writeReg; split <;> rfl
@[simp] theorem writeReg_overlap (c : Ctx) (d : Reg) (v : Word) : (writeReg c d v).overlap = c.overlap := by unfold writeReg; split <;> rfl
@[simp] theorem writeReg_deferred (c : Ctx) (d : Reg) (v : Word) : (writeReg c d v).deferred = c.deferred := by unfold writeReg; split <;> rfl
@[simp] theorem writeReg_touched (c : Ctx) (d : Reg) (v : Word) : (writeReg c d v).touched = c.touched := by unfold writeReg; split <;> rfl
@[simp] theorem writeReg_engineTraps (c : Ctx) (d : Reg) (v : Word) : (writeReg c d v).engineTraps = c.engineTraps := by unfold writeReg; split <;> rfl
@[simp] theorem writeReg_resv (c : Ctx) (d : Reg) (v : Word) : (writeReg c d v).resv = c.resv := by unfold writeReg; split <;> rfl
@[simp] theorem writeReg_barrier (c : Ctx) (d : Reg) (v : Word) : (writeReg c d v).barrier = c.barrier := by unfold writeReg; split <;> rfl
@[simp] theorem writeReg_fetched (c : Ctx) (d : Reg) (v : Word) : (writeReg c d v).fetched = c.fetched := by unfold writeReg; split <;> rfl
@[simp] theorem writeReg_lastIssue (c : Ctx) (d : Reg) (v : Word) : (writeReg c d v).lastIssue = c.lastIssue := by unfold writeReg; split <;> rfl
@[simp] theorem writeReg_armed (c : Ctx) (d : Reg) (v : Word) : (writeReg c d v).armed = c.armed := by unfold writeReg; split <;> rfl

@[simp] theorem retire_st (c : Ctx) : (retire c).st = c.st := rfl
@[simp] theorem retire_base (c : Ctx) : (retire c).base = c.base := rfl
@[simp] theorem retire_size (c : Ctx) : (retire c).size = c.size := rfl
@[simp] theorem retire_hdr (c : Ctx) : (retire c).hdr = c.hdr := rfl
@[simp] theorem retire_crew (c : Ctx) : (retire c).crew = c.crew := rfl
@[simp] theorem retire_csz (c : Ctx) : (retire c).csz = c.csz := rfl
@[simp] theorem retire_cidx (c : Ctx) : (retire c).cidx = c.cidx := rfl
@[simp] theorem retire_g (c : Ctx) : (retire c).g = c.g := rfl
@[simp] theorem retire_gPoison (c : Ctx) : (retire c).gPoison = c.gPoison := rfl
@[simp] theorem retire_k (c : Ctx) : (retire c).k = c.k := rfl
@[simp] theorem retire_pc (c : Ctx) : (retire c).pc = c.pc + 8 := rfl
@[simp] theorem retire_back (c : Ctx) : (retire c).back = c.back := rfl
@[simp] theorem retire_caps (c : Ctx) : (retire c).caps = c.caps := rfl
@[simp] theorem retire_prv (c : Ctx) : (retire c).prv = c.prv := rfl
@[simp] theorem retire_hnd (c : Ctx) : (retire c).hnd = c.hnd := rfl
@[simp] theorem retire_ppnd (c : Ctx) : (retire c).ppnd = c.ppnd := rfl
@[simp] theorem retire_tvec (c : Ctx) : (retire c).tvec = c.tvec := rfl
@[simp] theorem retire_tpc (c : Ctx) : (retire c).tpc = c.tpc := rfl
@[simp] theorem retire_cause (c : Ctx) : (retire c).cause = c.cause := rfl
@[simp] theorem retire_tval (c : Ctx) : (retire c).tval = c.tval := rfl
@[simp] theorem retire_tsave (c : Ctx) : (retire c).tsave = c.tsave := rfl
@[simp] theorem retire_fflags (c : Ctx) : (retire c).fflags = c.fflags := rfl
@[simp] theorem retire_fen (c : Ctx) : (retire c).fen = c.fen := rfl
@[simp] theorem retire_asid (c : Ctx) : (retire c).asid = c.asid := rfl
@[simp] theorem retire_ptroot (c : Ctx) : (retire c).ptroot = c.ptroot := rfl
@[simp] theorem retire_icnt (c : Ctx) : (retire c).icnt = c.icnt + 1 := rfl
@[simp] theorem retire_overlap (c : Ctx) : (retire c).overlap = c.overlap := rfl
@[simp] theorem retire_deferred (c : Ctx) : (retire c).deferred = c.deferred := rfl
@[simp] theorem retire_touched (c : Ctx) : (retire c).touched = c.touched := rfl
@[simp] theorem retire_engineTraps (c : Ctx) : (retire c).engineTraps = c.engineTraps := rfl
@[simp] theorem retire_resv (c : Ctx) : (retire c).resv = c.resv := rfl
@[simp] theorem retire_barrier (c : Ctx) : (retire c).barrier = c.barrier := rfl
@[simp] theorem retire_fetched (c : Ctx) : (retire c).fetched = c.fetched := rfl
@[simp] theorem retire_lastIssue (c : Ctx) : (retire c).lastIssue = c.lastIssue := rfl
@[simp] theorem retire_armed (c : Ctx) : (retire c).armed = c.armed := rfl
@[simp] theorem readReg_retire (c : Ctx) (r : Reg) : readReg (retire c) r = readReg c r := rfl

/-- A register after a register write: g0 reads as zero whatever is written to it (R42). -/
theorem readReg_writeReg (c : Ctx) (d r : Reg) (v : Word) :
    readReg (writeReg c d v) r = if r = 0 then 0 else if r = d then v else readReg c r := by
  by_cases hr : r = 0
  · rw [if_pos hr]
    subst hr
    rfl
  · rw [if_neg hr]
    unfold readReg
    rw [if_neg hr, if_neg hr]
    by_cases hd : d = 0
    · rw [if_neg fun h => hr (h.trans hd)]
      unfold writeReg
      rw [if_pos hd]
    · unfold writeReg
      rw [if_neg hd]
      by_cases h : r = d
      · subst h
        simp
      · rw [if_neg h]
        exact tabGet_tabSet_ne _ _ _ fun e => h (BitVec.eq_of_toNat_eq e)

theorem readReg_writeReg_ne (c : Ctx) {d r : Reg} (v : Word) (h : r ≠ d) : readReg (writeReg c d v) r = readReg c r := by
  rw [readReg_writeReg, if_neg h]
  split
  · rename_i h0
    subst h0
    rfl
  · rfl

/-- Poison after a register write: a whole entry's write clears its poison (R331). -/
theorem gPoison_writeReg (c : Ctx) (d r : Reg) (v : Word) (hr : r ≠ 0) :
    setHas (writeReg c d v).gPoison r.toNat = if r = d then false else setHas c.gPoison r.toNat := by
  unfold writeReg
  by_cases hd : d = 0
  · rw [if_pos hd, if_neg fun h => hr (h.trans hd)]
  · rw [if_neg hd]
    by_cases h : r = d
    · subst h
      simp [setHas_setDel]
    · have h' : (r.toNat == d.toNat) = false := by simpa using fun e => h (BitVec.eq_of_toNat_eq e)
      simp [h, h', setHas_setDel]

/-! ### The checks before an instruction's own (R56) -/

/-- With nothing in its way an instruction does what its body says. -/
theorem issueBy_of_issues {i : Instr} {reads writes : List Reg} {privileged : Bool} {body : State → ScullId → Slot → Ctx → State}
    {s : State} {sc : ScullId} {slot : Slot} (h : Issues s sc slot reads writes privileged) :
    issueBy i reads writes privileged body s = body s sc slot (ctxOf s sc slot) := by
  obtain ⟨ha, hl, hp, ho, hg⟩ := h
  have hp' : ¬(privileged = true ∧ (!(ctxOf s sc slot).prv) = true) := by
    rintro ⟨h1, h2⟩
    rw [hp h1] at h2
    exact absurd h2 (by decide)
  simp only [issueBy, ha, hl, ho, hg]
  rw [if_neg (by decide), if_neg hp', if_neg (by decide)]

/-- Everything an issued instruction can come to: its body, a trap on a register beyond the limit, on privilege or on a poisoned source, or
a wait for an outstanding overlap load; and nothing at all where no context issues it. -/
theorem issueBy_cases (i : Instr) (reads writes : List Reg) (privileged : Bool) (body : State → ScullId → Slot → Ctx → State) (s : State) :
    issueBy i reads writes privileged body s = s
    ∨ ∃ sc slot, s.actor = .context sc slot
      ∧ (issueBy i reads writes privileged body s = body s sc slot (ctxOf s sc slot)
        ∨ issueBy i reads writes privileged body s = trapIllegal s sc slot i
        ∨ issueBy i reads writes privileged body s = trap s sc slot 0x02 0 ((encode i).getD 0)
        ∨ issueBy i reads writes privileged body s = park s sc slot (ctxOf s sc slot) (.reissue .overlap)
        ∨ ∃ r, issueBy i reads writes privileged body s = trap s sc slot 0x09 0x05 (BitVec.setWidth 64 (r : Reg))) := by
  unfold issueBy
  cases h : s.actor with
  | context sc slot =>
    refine .inr ⟨sc, slot, rfl, ?_⟩
    dsimp only
    split
    · exact .inr (.inl rfl)
    · split
      · exact .inr (.inr (.inl rfl))
      · split
        · exact .inr (.inr (.inr (.inl rfl)))
        · split
          · exact .inr (.inr (.inr (.inr ⟨_, rfl⟩)))
          · exact .inl rfl
  | _ => exact .inl rfl

/-! ### Traps (R116, R118) -/

/-- A trap with a handler, outside one: the context enters it; nothing but the context changes. -/
theorem takeTrap_enters (s : State) (sc : ScullId) (slot : Slot) (t : Trap) (ret : Word)
    (hh : (ctxOf s sc slot).hnd = false) (ht : (ctxOf s sc slot).tvec ≠ 0) :
    takeTrap s sc slot t ret = setCtx s sc slot { ctxOf s sc slot with
      cause := causeWord t, tval := t.tval, st := .ready, tpc := ret, hnd := true, pc := (ctxOf s sc slot).tvec } := by
  have h : ¬((ctxOf s sc slot).hnd = true ∨ (ctxOf s sc slot).tvec = 0) := by
    rintro (h | h)
    · rw [hh] at h
      exact absurd h (by decide)
    · exact ht h
  simp only [takeTrap]
  rw [if_neg h]

/-- A trap in a handler, or with none, freezes the context (R116, R329). -/
theorem takeTrap_freezes (s : State) (sc : ScullId) (slot : Slot) (t : Trap) (ret : Word)
    (h : (ctxOf s sc slot).hnd = true ∨ (ctxOf s sc slot).tvec = 0) :
    takeTrap s sc slot t ret =
      freezeCtx (setCtx s sc slot { ctxOf s sc slot with cause := causeWord t, tval := t.tval }) sc slot .ready 0x03 0 t.tval
        (trapDetail (ctxOf s sc slot) t) (t.code.setWidth 8) t.aux t.tval := by
  simp only [takeTrap]
  rw [if_pos h]

/-! ### Reads by instructions (R155, R310, R363) -/

/-- The state once the mask of the context holds the access to a global address (R158). -/
def glbTouched (s : State) (sc : ScullId) (slot : Slot) (pa : Nat) : State :=
  setCtx s sc slot (touch s sc (ctxOf s sc slot) (.global pa))

/-- A glb read whose checks pass, of bytes that the shell L2 holds, goes on with its address; only the mask of the context follows. -/
theorem withGlb_reads {s : State} {sc : ScullId} {slot : Slot} {c : Ctx} {ea : Word} {n align pa : Nat} {k : State → Nat → State}
    (check : ∀ k, checkAccess s sc slot c { mode := .glb, a := 0, b := 0, off := 0 } ea n align .load rightsRead k = k s (.global pa))
    (clear : (inRegisters pa || overlapsEarlier s c (.global pa) n || globalPoison s pa || globalPoison s (pa + n - 1)) = false)
    (held : fetchRange (glbTouched s sc slot pa) (shellNode sc) pa n = glbTouched s sc slot pa) :
    withGlb s sc slot c ea n align k = k (glbTouched s sc slot pa) pa := by
  simp only [Bool.or_eq_false_iff] at clear
  obtain ⟨⟨⟨h1, h2⟩, h3⟩, h4⟩ := clear
  unfold withGlb
  rw [check]
  simp only [glbTouched] at held ⊢
  simp [h1, h2, h3, h4, held]

/-- A block whose words all read so is read in order. -/
theorem readBlock_reads {s : State} {sc : ScullId} {slot : Slot} {a : Word} {f : Nat → Nat} :
    ∀ (n : Nat) (l : List Word) (k : State → List Word → State),
      (∀ i, l.length ≤ i → i < l.length + n →
        ∀ k, withGlb s sc slot (ctxOf s sc slot) (a + BitVec.ofNat 64 (8 * i)) 8 8 k = k s (f i)) →
      readBlock sc slot a n l k s = k s (l ++ (List.range n).map fun i => agentWord s (shellNode sc) (f (l.length + i)))
  | 0, l, k, _ => by simp [readBlock]
  | n + 1, l, k, h => by
    rw [readBlock, h l.length (Nat.le_refl _) (by omega), readBlock_reads (f := f) n _ k]
    · simp [List.range_succ_eq_map, List.map_map, Function.comp_def, Nat.add_assoc, Nat.add_comm 1]
    · intro i h1 h2
      simp only [List.length_append, List.length_singleton] at h1 h2
      exact h i (by omega) (by omega)

end Sys2Proof.Machine
end

