-- ==== Sys2Proof/Laws/PerInstr.lean ====
section
/-! SUPPORT. Statements for all instructions, made one instruction at a time. -/

namespace Sys2Proof.Laws.OneCoding

/-- No instruction is both a 64-bit word of a context (R45) and a 32-bit word of a tool hart (R374). -/
def Statement (i : Instr) : Prop := encode i = none ∨ encodeHart i = none

theorem add (d a b : Reg) : Statement (.add d a b) := .inr rfl
theorem sub (d a b : Reg) : Statement (.sub d a b) := .inr rfl
theorem addw (d a b : Reg) : Statement (.addw d a b) := .inr rfl
theorem subw (d a b : Reg) : Statement (.subw d a b) := .inr rfl
theorem min (d a b : Reg) : Statement (.min d a b) := .inr rfl
theorem max (d a b : Reg) : Statement (.max d a b) := .inr rfl
theorem minu (d a b : Reg) : Statement (.minu d a b) := .inr rfl
theorem maxu (d a b : Reg) : Statement (.maxu d a b) := .inr rfl
theorem abs (d a : Reg) : Statement (.abs d a) := .inr rfl
theorem adds (d a b : Reg) : Statement (.adds d a b) := .inr rfl
theorem subs (d a b : Reg) : Statement (.subs d a b) := .inr rfl
theorem addi (d a : Reg) (imm : BitVec 36) : Statement (.addi d a imm) := .inr rfl
theorem addwi (d a : Reg) (imm : BitVec 36) : Statement (.addwi d a imm) := .inr rfl
theorem andi (d a : Reg) (imm : BitVec 36) : Statement (.andi d a imm) := .inr rfl
theorem ori (d a : Reg) (imm : BitVec 36) : Statement (.ori d a imm) := .inr rfl
theorem xori (d a : Reg) (imm : BitVec 36) : Statement (.xori d a imm) := .inr rfl
theorem mul (d a b : Reg) : Statement (.mul d a b) := .inr rfl
theorem mulh (d a b : Reg) : Statement (.mulh d a b) := .inr rfl
theorem mulhu (d a b : Reg) : Statement (.mulhu d a b) := .inr rfl
theorem mulhsu (d a b : Reg) : Statement (.mulhsu d a b) := .inr rfl
theorem mulw (d a b : Reg) : Statement (.mulw d a b) := .inr rfl
theorem div (d a b : Reg) : Statement (.div d a b) := .inr rfl
theorem divu (d a b : Reg) : Statement (.divu d a b) := .inr rfl
theorem rem (d a b : Reg) : Statement (.rem d a b) := .inr rfl
theorem remu (d a b : Reg) : Statement (.remu d a b) := .inr rfl
theorem divw (d a b : Reg) : Statement (.divw d a b) := .inr rfl
theorem divuw (d a b : Reg) : Statement (.divuw d a b) := .inr rfl
theorem and (d a b : Reg) : Statement (.and d a b) := .inr rfl
theorem or (d a b : Reg) : Statement (.or d a b) := .inr rfl
theorem xor (d a b : Reg) : Statement (.xor d a b) := .inr rfl
theorem andn (d a b : Reg) : Statement (.andn d a b) := .inr rfl
theorem orn (d a b : Reg) : Statement (.orn d a b) := .inr rfl
theorem xnor (d a b : Reg) : Statement (.xnor d a b) := .inr rfl
theorem sll (d a b : Reg) : Statement (.sll d a b) := .inr rfl
theorem srl (d a b : Reg) : Statement (.srl d a b) := .inr rfl
theorem sra (d a b : Reg) : Statement (.sra d a b) := .inr rfl
theorem rol (d a b : Reg) : Statement (.rol d a b) := .inr rfl
theorem ror (d a b : Reg) : Statement (.ror d a b) := .inr rfl
theorem slli (d a : Reg) (count : BitVec 6) : Statement (.slli d a count) := .inr rfl
theorem srli (d a : Reg) (count : BitVec 6) : Statement (.srli d a count) := .inr rfl
theorem srai (d a : Reg) (count : BitVec 6) : Statement (.srai d a count) := .inr rfl
theorem rori (d a : Reg) (count : BitVec 6) : Statement (.rori d a count) := .inr rfl
theorem clz (d a : Reg) : Statement (.clz d a) := .inr rfl
theorem ctz (d a : Reg) : Statement (.ctz d a) := .inr rfl
theorem popc (d a : Reg) : Statement (.popc d a) := .inr rfl
theorem brev (d a : Reg) : Statement (.brev d a) := .inr rfl
theorem bswap (d a : Reg) : Statement (.bswap d a) := .inr rfl
theorem sextb (d a : Reg) : Statement (.sextb d a) := .inr rfl
theorem sextq (d a : Reg) : Statement (.sextq d a) := .inr rfl
theorem sexth (d a : Reg) : Statement (.sexth d a) := .inr rfl
theorem zextb (d a : Reg) : Statement (.zextb d a) := .inr rfl
theorem zextq (d a : Reg) : Statement (.zextq d a) := .inr rfl
theorem zexth (d a : Reg) : Statement (.zexth d a) := .inr rfl
theorem bfx (d a : Reg) (pos widthM1 : BitVec 6) : Statement (.bfx d a pos widthM1) := .inr rfl
theorem bfxu (d a : Reg) (pos widthM1 : BitVec 6) : Statement (.bfxu d a pos widthM1) := .inr rfl
theorem bfi (d a : Reg) (pos widthM1 : BitVec 6) : Statement (.bfi d a pos widthM1) := .inr rfl
theorem movi (d : Reg) (imm : BitVec 43) : Statement (.movi d imm) := .inr rfl
theorem movhi (d : Reg) (imm : BitVec 21) : Statement (.movhi d imm) := .inr rfl
theorem addpc (d : Reg) (imm : BitVec 43) : Statement (.addpc d imm) := .inr rfl
theorem mkcore (d a b : Reg) : Statement (.mkcore d a b) := .inr rfl
theorem fadd (d a b : Reg) (p : Prec) (rm : Rounding) : Statement (.fadd d a b p rm) := .inr rfl
theorem fsub (d a b : Reg) (p : Prec) (rm : Rounding) : Statement (.fsub d a b p rm) := .inr rfl
theorem fmul (d a b : Reg) (p : Prec) (rm : Rounding) : Statement (.fmul d a b p rm) := .inr rfl
theorem fdiv (d a b : Reg) (p : Prec) (rm : Rounding) : Statement (.fdiv d a b p rm) := .inr rfl
theorem fsqrt (d a : Reg) (p : Prec) (rm : Rounding) : Statement (.fsqrt d a p rm) := .inr rfl
theorem fmin (d a b : Reg) (p : Prec) : Statement (.fmin d a b p) := .inr rfl
theorem fmax (d a b : Reg) (p : Prec) : Statement (.fmax d a b p) := .inr rfl
theorem fabs (d a : Reg) (p : Prec) : Statement (.fabs d a p) := .inr rfl
theorem fneg (d a : Reg) (p : Prec) : Statement (.fneg d a p) := .inr rfl
theorem fma (d a b c : Reg) (p : Prec) (rm : Rounding) : Statement (.fma d a b c p rm) := .inr rfl
theorem fms (d a b c : Reg) (p : Prec) (rm : Rounding) : Statement (.fms d a b c p rm) := .inr rfl
theorem fnma (d a b c : Reg) (p : Prec) (rm : Rounding) : Statement (.fnma d a b c p rm) := .inr rfl
theorem fnms (d a b c : Reg) (p : Prec) (rm : Rounding) : Statement (.fnms d a b c p rm) := .inr rfl
theorem fcvtff (d a : Reg) (p : Prec) (rm : Rounding) : Statement (.fcvtff d a p rm) := .inr rfl
theorem fcvtfi (d a : Reg) (p : Prec) (rm : Rounding) : Statement (.fcvtfi d a p rm) := .inr rfl
theorem fcvtfu (d a : Reg) (p : Prec) (rm : Rounding) : Statement (.fcvtfu d a p rm) := .inr rfl
theorem fcvtif (d a : Reg) (p : Prec) (rm : Rounding) : Statement (.fcvtif d a p rm) := .inr rfl
theorem fcvtuf (d a : Reg) (p : Prec) (rm : Rounding) : Statement (.fcvtuf d a p rm) := .inr rfl
theorem fclass (d a : Reg) (p : Prec) : Statement (.fclass d a p) := .inr rfl
theorem feq (d a b : Reg) (p : Prec) : Statement (.feq d a b p) := .inr rfl
theorem flt (d a b : Reg) (p : Prec) : Statement (.flt d a b p) := .inr rfl
theorem fle (d a b : Reg) (p : Prec) : Statement (.fle d a b p) := .inr rfl
theorem b (cond : Cond) (a b : Reg) (off : BitVec 29) : Statement (.b cond a b off) := .inr rfl
theorem slt (d a b : Reg) : Statement (.slt d a b) := .inr rfl
theorem sltu (d a b : Reg) : Statement (.sltu d a b) := .inr rfl
theorem seq (d a b : Reg) : Statement (.seq d a b) := .inr rfl
theorem sne (d a b : Reg) : Statement (.sne d a b) := .inr rfl
theorem slti (d a : Reg) (imm : BitVec 36) : Statement (.slti d a imm) := .inr rfl
theorem sltui (d a : Reg) (imm : BitVec 36) : Statement (.sltui d a imm) := .inr rfl
theorem seqi (d a : Reg) (imm : BitVec 36) : Statement (.seqi d a imm) := .inr rfl
theorem jl (d : Reg) (imm : BitVec 43) : Statement (.jl d imm) := .inr rfl
theorem jlr (d a : Reg) (imm : BitVec 36) : Statement (.jlr d a imm) := .inr rfl
theorem sel (d a b c : Reg) : Statement (.sel d a b c) := .inr rfl
theorem ld (d : Reg) (m : MemRef) (size : Size) (fe : FullEmpty) (ov : Bool) : Statement (.ld d m size fe ov) := .inr rfl
theorem lds (d : Reg) (m : MemRef) (size : Size) (fe : FullEmpty) (ov : Bool) : Statement (.lds d m size fe ov) := .inr rfl
theorem ldAq (d : Reg) (m : MemRef) (size : Size) (scope : Scope) : Statement (.ldAq d m size scope) := .inr rfl
theorem ldsAq (d : Reg) (m : MemRef) (size : Size) (scope : Scope) : Statement (.ldsAq d m size scope) := .inr rfl
theorem st (d : Reg) (m : MemRef) (size : Size) (fe : FullEmpty) (ov : Bool) : Statement (.st d m size fe ov) := .inr rfl
theorem stRl (d : Reg) (m : MemRef) (size : Size) (scope : Scope) : Statement (.stRl d m size scope) := .inr rfl
theorem fbrd (d : Reg) (m : MemRef) : Statement (.fbrd d m) := .inr rfl
theorem fbset (m : MemRef) : Statement (.fbset m) := .inr rfl
theorem fbclr (m : MemRef) : Statement (.fbclr m) := .inr rfl
theorem aqr (d : Reg) (m : MemRef) : Statement (.aqr d m) := .inr rfl
theorem arl (d : Reg) (m : MemRef) : Statement (.arl d m) := .inr rfl
theorem arc (m : MemRef) : Statement (.arc m) := .inr rfl
theorem aadd (d a b : Reg) (off : BitVec 18) (size : AtomSize) (scope : Scope) : Statement (.aadd d a b off size scope) := .inr rfl
theorem aand (d a b : Reg) (off : BitVec 18) (size : AtomSize) (scope : Scope) : Statement (.aand d a b off size scope) := .inr rfl
theorem aor (d a b : Reg) (off : BitVec 18) (size : AtomSize) (scope : Scope) : Statement (.aor d a b off size scope) := .inr rfl
theorem axor (d a b : Reg) (off : BitVec 18) (size : AtomSize) (scope : Scope) : Statement (.axor d a b off size scope) := .inr rfl
theorem amin (d a b : Reg) (off : BitVec 18) (size : AtomSize) (scope : Scope) : Statement (.amin d a b off size scope) := .inr rfl
theorem amax (d a b : Reg) (off : BitVec 18) (size : AtomSize) (scope : Scope) : Statement (.amax d a b off size scope) := .inr rfl
theorem aminu (d a b : Reg) (off : BitVec 18) (size : AtomSize) (scope : Scope) : Statement (.aminu d a b off size scope) := .inr rfl
theorem amaxu (d a b : Reg) (off : BitVec 18) (size : AtomSize) (scope : Scope) : Statement (.amaxu d a b off size scope) := .inr rfl
theorem aswp (d a b : Reg) (off : BitVec 18) (size : AtomSize) (scope : Scope) : Statement (.aswp d a b off size scope) := .inr rfl
theorem acas (d a b : Reg) (off : BitVec 18) (size : AtomSize) (scope : Scope) : Statement (.acas d a b off size scope) := .inr rfl
theorem depAdd (d : Reg) (m : MemRef) : Statement (.depAdd d m) := .inr rfl
theorem depFadds (d : Reg) (m : MemRef) : Statement (.depFadds d m) := .inr rfl
theorem depFaddd (d : Reg) (m : MemRef) : Statement (.depFaddd d m) := .inr rfl
theorem depMin (d : Reg) (m : MemRef) : Statement (.depMin d m) := .inr rfl
theorem depMax (d : Reg) (m : MemRef) : Statement (.depMax d m) := .inr rfl
theorem depOr (d : Reg) (m : MemRef) : Statement (.depOr d m) := .inr rfl
theorem fence (scope : Scope) : Statement (.fence scope) := .inr rfl
theorem fenceProbe (sc : ScullId) (slot : Slot) (target : ScullId) : Statement (.fenceProbe sc slot target) := .inr rfl
theorem fenceEcho (sc : ScullId) (slot : Slot) (target : ScullId) : Statement (.fenceEcho sc slot target) := .inr rfl
theorem sipw (d : Reg) (m : MemRef) : Statement (.sipw d m) := .inr rfl
theorem sipp (d : Reg) (m : MemRef) : Statement (.sipp d m) := .inr rfl
theorem sipr (d : Reg) (m : MemRef) : Statement (.sipr d m) := .inr rfl
theorem sipf (m : MemRef) : Statement (.sipf m) := .inr rfl
theorem sipi (d : Reg) (m : MemRef) : Statement (.sipi d m) := .inr rfl
theorem send (k : BitVec 2) (a b : Reg) : Statement (.send k a b) := .inr rfl
theorem krd (d : Reg) (k : BitVec 2) : Statement (.krd d k) := .inr rfl
theorem ktst (d : Reg) (k : BitVec 2) : Statement (.ktst d k) := .inr rfl
theorem launch (d a b c e : Reg) : Statement (.launch d a b c e) := .inr rfl
theorem claunch (d a : Reg) : Statement (.claunch d a) := .inr rfl
theorem lwait (a : Reg) : Statement (.lwait a) := .inr rfl
theorem bar (level : BarLevel) (settle : Bool) : Statement (.bar level settle) := .inr rfl
theorem barrierSettle (crew : CrewId) (level : BarLevel) (group : Nat) : Statement (.barrierSettle crew level group) := .inr rfl
theorem barrierComplete (crew : CrewId) (level : BarLevel) (group : Nat) : Statement (.barrierComplete crew level group) := .inr rfl
theorem semp (n : BitVec 5) : Statement (.semp n) := .inr rfl
theorem semv (n : BitVec 5) : Statement (.semv n) := .inr rfl
theorem semrd (d : Reg) (n : BitVec 5) : Statement (.semrd d n) := .inr rfl
theorem semset (n : BitVec 5) (a : Reg) : Statement (.semset n a) := .inr rfl
theorem ebind (e : EngineId) : Statement (.ebind e) := .inr rfl
theorem efree (e : EngineId) : Statement (.efree e) := .inr rfl
theorem mpost (a : Reg) (off : BitVec 18) : Statement (.mpost a off) := .inr rfl
theorem vpost (a : Reg) (off : BitVec 18) : Statement (.vpost a off) := .inr rfl
theorem cpost (d a : Reg) (off : BitVec 18) : Statement (.cpost d a off) := .inr rfl
theorem esync (mask : BitVec 3) : Statement (.esync mask) := .inr rfl
theorem esaveM (a : Reg) (off : BitVec 18) : Statement (.esaveM a off) := .inr rfl
theorem esaveV (a : Reg) (off : BitVec 18) : Statement (.esaveV a off) := .inr rfl
theorem esaveC (a : Reg) (off : BitVec 18) : Statement (.esaveC a off) := .inr rfl
theorem erestoreM (a : Reg) (off : BitVec 18) : Statement (.erestoreM a off) := .inr rfl
theorem erestoreV (a : Reg) (off : BitVec 18) : Statement (.erestoreV a off) := .inr rfl
theorem erestoreC (a : Reg) (off : BitVec 18) : Statement (.erestoreC a off) := .inr rfl
theorem fabricWritePacket (flow : BitVec 24) (window : BitVec 16) (offset : Nat) (data : List Word) (poisoned : Bool) : Statement (.fabricWritePacket flow window offset data poisoned) := .inr rfl
theorem apertureWrite (m : Master) (offset : Nat) (data : List Word) : Statement (.apertureWrite m offset data) := .inr rfl
theorem cmake (d a b : Reg) : Statement (.cmake d a b) := .inr rfl
theorem catt (d a b : Reg) : Statement (.catt d a b) := .inr rfl
theorem cdet (a b : Reg) : Statement (.cdet a b) := .inr rfl
theorem cdrop (a : Reg) : Statement (.cdrop a) := .inr rfl
theorem cqry (d a : Reg) : Statement (.cqry d a) := .inr rfl
theorem cevt (a : Reg) : Statement (.cevt a) := .inr rfl
theorem falloc (d a : Reg) : Statement (.falloc d a) := .inr rfl
theorem fcall (a b c : Reg) : Statement (.fcall a b c) := .inr rfl
theorem fwait (d a : Reg) (evict : Bool) : Statement (.fwait d a evict) := .inr rfl
theorem fpoll (d a : Reg) : Statement (.fpoll d a) := .inr rfl
theorem fput (d a b : Reg) : Statement (.fput d a b) := .inr rfl
theorem fcan (d a : Reg) : Statement (.fcan d a) := .inr rfl
theorem hfutTake (rd rs1 : BitVec 5) : Statement (.hfutTake rd rs1) := .inl rfl
theorem hfutPut (rd rs1 rs2 : BitVec 5) : Statement (.hfutPut rd rs1 rs2) := .inl rfl
theorem hfutPoll (rd rs1 : BitVec 5) : Statement (.hfutPoll rd rs1) := .inl rfl
theorem hfutFail (rd rs1 rs2 : BitVec 5) : Statement (.hfutFail rd rs1 rs2) := .inl rfl
theorem remoteCallMessage (flow : BitVec 24) (handle deadline rtool : Word) (arg : List Byte) : Statement (.remoteCallMessage flow handle deadline rtool arg) := .inr rfl
theorem remoteReplyMessage (flow : BitVec 24) (handle : Word) (reply : List Byte) : Statement (.remoteReplyMessage flow handle reply) := .inr rfl
theorem remoteFailMessage (flow : BitVec 24) (handle : Word) (reason : BitVec 16) : Statement (.remoteFailMessage flow handle reason) := .inr rfl
theorem remoteCancelMessage (flow : BitVec 24) (handle : Word) : Statement (.remoteCancelMessage flow handle) := .inr rfl
theorem ctlr (d : Reg) (n : BitVec 16) : Statement (.ctlr d n) := .inr rfl
theorem ctlw (a : Reg) (n : BitVec 16) : Statement (.ctlw a n) := .inr rfl
theorem ctls (d a : Reg) (n : BitVec 16) : Statement (.ctls d a n) := .inr rfl
theorem ctlc (d a : Reg) (n : BitVec 16) : Statement (.ctlc d a n) := .inr rfl
theorem trap (code : BitVec 16) : Statement (.trap code) := .inr rfl
theorem haltKeep (a : Reg) : Statement (.haltKeep a) := .inr rfl
theorem heartbeatLostMessage (sc : ScullId) (crew : CrewId) : Statement (.heartbeatLostMessage sc crew) := .inr rfl
theorem rdgtc (d : Reg) : Statement (.rdgtc d) := .inr rfl
theorem waitt (d a : Reg) : Statement (.waitt d a) := .inr rfl
theorem tlbi (a : Reg) : Statement (.tlbi a) := .inr rfl
theorem tlbiasid (a : Reg) : Statement (.tlbiasid a) := .inr rfl
theorem tlbInvalidateReport (sc : ScullId) (slot : Slot) (agent : Nat) : Statement (.tlbInvalidateReport sc slot agent) := .inr rfl
theorem capld (cap : BitVec 3) (a : Reg) : Statement (.capld cap a) := .inr rfl
theorem capst (cap : BitVec 3) (a : Reg) : Statement (.capst cap a) := .inr rfl
theorem capclr (cap : BitVec 3) : Statement (.capclr cap) := .inr rfl
theorem mthaw (d a : Reg) : Statement (.mthaw d a) := .inr rfl
theorem mkill (d a : Reg) : Statement (.mkill d a) := .inr rfl
theorem fsHeadWrite (v : BitVec 32) : Statement (.fsHeadWrite v) := .inr rfl
theorem verdictRetry (seq : BitVec 32) : Statement (.verdictRetry seq) := .inr rfl
theorem verdictFail (seq : BitVec 32) (reason : BitVec 8) : Statement (.verdictFail seq reason) := .inr rfl
theorem pageUnpin (sc : ScullId) (crew : CrewId) (page : Nat) : Statement (.pageUnpin sc crew page) := .inr rfl
theorem pageParked (sc : ScullId) (crew : CrewId) (page : Nat) : Statement (.pageParked sc crew page) := .inr rfl
theorem pageRefillComplete (sc : ScullId) (crew : CrewId) (page : Nat) : Statement (.pageRefillComplete sc crew page) := .inr rfl
theorem harvestResume (shell : ShellId) : Statement (.harvestResume shell) := .inr rfl
theorem queueWindowWrite (q : QueueId) (data : List Word) : Statement (.queueWindowWrite q data) := .inr rfl
theorem queueDisable (q : QueueId) : Statement (.queueDisable q) := .inr rfl
theorem queueEnable (q : QueueId) : Statement (.queueEnable q) := .inr rfl
theorem crewCommitArrival (crew : CrewId) (sc : ScullId) : Statement (.crewCommitArrival crew sc) := .inr rfl
theorem markerPacket (q : QueueId) : Statement (.markerPacket q) := .inr rfl
theorem taskComplete (crew : CrewId) : Statement (.taskComplete crew) := .inr rfl
theorem hsHeadWrite (v : BitVec 32) : Statement (.hsHeadWrite v) := .inr rfl
theorem preemptPacket (q : QueueId) : Statement (.preemptPacket q) := .inr rfl
theorem crewDrainComplete (crew : CrewId) : Statement (.crewDrainComplete crew) := .inr rfl
theorem resumePacket (q : QueueId) : Statement (.resumePacket q) := .inr rfl
theorem coxFailure (shell : ShellId) : Statement (.coxFailure shell) := .inr rfl
theorem shellReturnToService (shell : ShellId) : Statement (.shellReturnToService shell) := .inr rfl
theorem uncorrectableError (site : ErrorSite) : Statement (.uncorrectableError site) := .inr rfl
theorem correctableError (die : BitVec 4) : Statement (.correctableError die) := .inr rfl
theorem cohRead (node : Node) (line : Nat) (inc : BitVec 8) : Statement (.cohRead node line inc) := .inr rfl
theorem cohWrite (node : Node) (line : Nat) (inc : BitVec 8) : Statement (.cohWrite node line inc) := .inr rfl
theorem cohForward (node req : Node) (line : Nat) (write : Bool) : Statement (.cohForward node req line write) := .inr rfl
theorem cohInvalidateHop (node req : Node) (line : Nat) : Statement (.cohInvalidateHop node req line) := .inr rfl
theorem cohInvalidateAck (req : Node) (line : Nat) (sender : Node) (inc : BitVec 8) : Statement (.cohInvalidateAck req line sender inc) := .inr rfl
theorem cohCompletionReport (node : Node) (line : Nat) (inc : BitVec 8) : Statement (.cohCompletionReport node line inc) := .inr rfl
theorem cohEvict (node : Node) (line : Nat) : Statement (.cohEvict node line) := .inr rfl
theorem cohUnlink (dst : Option Node) (line : Nat) (sender : Node) (inc : BitVec 8) (side : Bool) (link : Option Node) : Statement (.cohUnlink dst line sender inc side link) := .inr rfl
theorem cohWriteback (node : Node) (line : Nat) (inc : BitVec 8) : Statement (.cohWriteback node line inc) := .inr rfl
theorem cohWritebackAck (node : Node) (line : Nat) : Statement (.cohWritebackAck node line) := .inr rfl
theorem agentDeathSweep (node : Node) : Statement (.agentDeathSweep node) := .inr rfl
theorem agentRetire (node : Node) : Statement (.agentRetire node) := .inr rfl
theorem memcapWrite (v : Word) : Statement (.memcapWrite v) := .inr rfl
theorem retire (f : BitVec 4) : Statement (.retire f) := .inr rfl
theorem hbmRequestReplay (pa : Nat) (phase chunk : BitVec 32) : Statement (.hbmRequestReplay pa phase chunk) := .inr rfl
theorem gtcStep (v : BitVec 32) : Statement (.gtcStep v) := .inr rfl
theorem powerThrottle (watts : Nat) (temps : List Nat) : Statement (.powerThrottle watts temps) := .inr rfl
theorem thermalTrip (die : BitVec 3) : Statement (.thermalTrip die) := .inr rfl
theorem inspectionWindowWrite (off : Nat) (v : Word) : Statement (.inspectionWindowWrite off v) := .inr rfl
theorem registerWrite (off : Nat) (v : Word) : Statement (.registerWrite off v) := .inr rfl
theorem hartInterrupt (h : HartId) : Statement (.hartInterrupt h) := .inr rfl
theorem hartAccess (h : HartId) (kind : AccessKind) (va : Word) (size : Nat) : Statement (.hartAccess h kind va size) := .inr rfl
theorem supervisorFreezeMessage (crew : CrewId) (copy : Bool) (slot : Slot) (sc : ScullId) : Statement (.supervisorFreezeMessage crew copy slot sc) := .inr rfl
theorem ptpEventMessage (port : BitVec 3) : Statement (.ptpEventMessage port) := .inr rfl
theorem divideComplete : Statement .divideComplete := .inr rfl
theorem atomicAtHome : Statement .atomicAtHome := .inr rfl
theorem depositSpill : Statement .depositSpill := .inr rfl
theorem scratchpadAccessArrival : Statement .scratchpadAccessArrival := .inr rfl
theorem accessResponse : Statement .accessResponse := .inr rfl
theorem sendDelivery : Statement .sendDelivery := .inr rfl
theorem sendReport : Statement .sendReport := .inr rfl
theorem activeMessageArrival : Statement .activeMessageArrival := .inr rfl
theorem launchStatusReturn : Statement .launchStatusReturn := .inr rfl
theorem contextStart : Statement .contextStart := .inr rfl
theorem scrubComplete : Statement .scrubComplete := .inr rfl
theorem commandStart : Statement .commandStart := .inr rfl
theorem sequencerUnitIssue : Statement .sequencerUnitIssue := .inr rfl
theorem commandComplete : Statement .commandComplete := .inr rfl
theorem vadd : Statement .vadd := .inr rfl
theorem vsub : Statement .vsub := .inr rfl
theorem vmul : Statement .vmul := .inr rfl
theorem vdiv : Statement .vdiv := .inr rfl
theorem vfma : Statement .vfma := .inr rfl
theorem vmin : Statement .vmin := .inr rfl
theorem vmax : Statement .vmax := .inr rfl
theorem vabs : Statement .vabs := .inr rfl
theorem vneg : Statement .vneg := .inr rfl
theorem vsqrt : Statement .vsqrt := .inr rfl
theorem vrcp : Statement .vrcp := .inr rfl
theorem vscalb : Statement .vscalb := .inr rfl
theorem vrint : Statement .vrint := .inr rfl
theorem vand : Statement .vand := .inr rfl
theorem vor : Statement .vor := .inr rfl
theorem vxor : Statement .vxor := .inr rfl
theorem vandn : Statement .vandn := .inr rfl
theorem vshl : Statement .vshl := .inr rfl
theorem vshr : Statement .vshr := .inr rfl
theorem vsra : Statement .vsra := .inr rfl
theorem vcnt : Statement .vcnt := .inr rfl
theorem vceq : Statement .vceq := .inr rfl
theorem vclt : Statement .vclt := .inr rfl
theorem vcle : Statement .vcle := .inr rfl
theorem vsel : Statement .vsel := .inr rfl
theorem vcvt : Statement .vcvt := .inr rfl
theorem vexp : Statement .vexp := .inr rfl
theorem vexp2 : Statement .vexp2 := .inr rfl
theorem vlog : Statement .vlog := .inr rfl
theorem vlog2 : Statement .vlog2 := .inr rfl
theorem vsin : Statement .vsin := .inr rfl
theorem vcos : Statement .vcos := .inr rfl
theorem vtanh : Statement .vtanh := .inr rfl
theorem vrsqrt : Statement .vrsqrt := .inr rfl
theorem vsigm : Statement .vsigm := .inr rfl
theorem vrsum : Statement .vrsum := .inr rfl
theorem vrmin : Statement .vrmin := .inr rfl
theorem vrmax : Statement .vrmax := .inr rfl
theorem vrand : Statement .vrand := .inr rfl
theorem vror : Statement .vror := .inr rfl
theorem vrxor : Statement .vrxor := .inr rfl
theorem vbfly : Statement .vbfly := .inr rfl
theorem vtwid : Statement .vtwid := .inr rfl
theorem vcmul : Statement .vcmul := .inr rfl
theorem vunp3 : Statement .vunp3 := .inr rfl
theorem viota : Statement .viota := .inr rfl
theorem ccopy : Statement .ccopy := .inr rfl
theorem cgath : Statement .cgath := .inr rfl
theorem cscat : Statement .cscat := .inr rfl
theorem cclr : Statement .cclr := .inr rfl
theorem csetf : Statement .csetf := .inr rfl
theorem csipw : Statement .csipw := .inr rfl
theorem csipr : Statement .csipr := .inr rfl
theorem cpref : Statement .cpref := .inr rfl
theorem mmul : Statement .mmul := .inr rfl
theorem mmuln : Statement .mmuln := .inr rfl
theorem mlda : Statement .mlda := .inr rfl
theorem mdrn : Statement .mdrn := .inr rfl
theorem mdrnBypass : Statement .mdrnBypass := .inr rfl
theorem madda : Statement .madda := .inr rfl
theorem mclr : Statement .mclr := .inr rfl
theorem fabricWrite : Statement .fabricWrite := .inr rfl
theorem fabricWriteAck : Statement .fabricWriteAck := .inr rfl
theorem aperturePacketTimeout : Statement .aperturePacketTimeout := .inr rfl
theorem chamberEvictComplete : Statement .chamberEvictComplete := .inr rfl
theorem chamberRefillComplete : Statement .chamberRefillComplete := .inr rfl
theorem chamberLeaseExpiry : Statement .chamberLeaseExpiry := .inr rfl
theorem futureTimeout : Statement .futureTimeout := .inr rfl
theorem futureSlotInject : Statement .futureSlotInject := .inr rfl
theorem fwaitEvictResume : Statement .fwaitEvictResume := .inr rfl
theorem futureEntryError : Statement .futureEntryError := .inr rfl
theorem keepRelease : Statement .keepRelease := .inr rfl
theorem keepTimeout : Statement .keepTimeout := .inr rfl
theorem rte : Statement .rte := .inr rfl
theorem halt : Statement .halt := .inr rfl
theorem beat : Statement .beat := .inr rfl
theorem heartbeatMissed : Statement .heartbeatMissed := .inr rfl
theorem waittDeadline : Statement .waittDeadline := .inr rfl
theorem tlbWalkComplete : Statement .tlbWalkComplete := .inr rfl
theorem ifetchMissFill : Statement .ifetchMissFill := .inr rfl
theorem faultRecordWrite : Statement .faultRecordWrite := .inr rfl
theorem revocation : Statement .revocation := .inr rfl
theorem revocationGrant : Statement .revocationGrant := .inr rfl
theorem harvestImageMove : Statement .harvestImageMove := .inr rfl
theorem harvestAdmission : Statement .harvestAdmission := .inr rfl
theorem launchUnitStart : Statement .launchUnitStart := .inr rfl
theorem crewReservationRequest : Statement .crewReservationRequest := .inr rfl
theorem crewCommit : Statement .crewCommit := .inr rfl
theorem crewReservationWithdraw : Statement .crewReservationWithdraw := .inr rfl
theorem hostSignal : Statement .hostSignal := .inr rfl
theorem preemptDiversion : Statement .preemptDiversion := .inr rfl
theorem vack : Statement .vack := .inr rfl
theorem vacateComplete : Statement .vacateComplete := .inr rfl
theorem swapChunk : Statement .swapChunk := .inr rfl
theorem compactChunk : Statement .compactChunk := .inr rfl
theorem reset : Statement .reset := .inr rfl
theorem spdmRequest : Statement .spdmRequest := .inr rfl
theorem scullUnfence : Statement .scullUnfence := .inr rfl
theorem futureTableRequest : Statement .futureTableRequest := .inr rfl
theorem chamberDirectoryRequest : Statement .chamberDirectoryRequest := .inr rfl

end Sys2Proof.Laws.OneCoding
end

