-- ==== Sys2Proof/Tests/Slice0.lean ====
section
/-! SUPPORT. The model's own tests: words of the manual's encodings, terms the well-formedness check refuses, single steps, and for every
statement states and operands that meet its hypotheses. -/

namespace Sys2Proof.Tests

set_option Elab.async false

open Sys2Proof Sys2Proof.Machine

/-! ### Small states -/

/-- A capability that grants everything below 2^47 to domain 0. -/
def allCap : BitVec 128 := (0x0000800000000000 : BitVec 64) ++ (0x801F000000000000 : BitVec 64)

/-- A privileged owner context of crew 1 with every register and engine, and some values in its registers. -/
def ctx0 : Ctx :=
  { Ctx.absent with
    st := .ready
    size := 128
    hdr := { frm := 2, rgn := 16, cls := .owner, em := true, ev := true, ec := true }
    crew := 1
    csz := 1
    g := [(1, 0x1000), (2, 8), (3, 3), (4, 0xFFFFFFFFFFFFFFFF), (5, 64), (6, 0x4000000000000000), (7, 1),
      (8, 0x7FF0000000000000), (9, 0x8000000000000000), (10, 0x7FF8000000000000), (11, 0x7FF0000000000001), (12, 8191), (13, 0x1008)]
    caps := [(0, allCap)]
    prv := true
    pc := 0x100000
    tvec := 0x200000
    touched := { Touched.none with glb := true }
    armed := true }

/-- Scull 64: pages 0 and 1 of crew 1 pinned in frames 0 and 1, and the global page at 0x1000 mapped to itself. -/
def scull0 : Scull :=
  { Scull.reset with
    frames := [(0, .page 1 0), (1, .page 1 1)]
    tlb := [(0, { vpn := 1, level := 0, ppn := 1, r := true, w := true, x := true, u := true, glob := true, dirty := true, asid := 0, slot := 0, used := 0 })]
    groups := [(1, { cls := .owner, frm := 2, pages := [(0, .pinned 0), (1, .pinned 1)], kept := none, waiters := [], imagePoison := [], images := [] })] }

/-- Crew 1, of two members. -/
def crew0 : Crew := { Crew.none with members := [64, 65], views := [true, true] }

/-- A package booted some cycles ago, whose only context is ctx0, at its turn, with the line at 0x1000 in its shell L2. -/
def base : State :=
  { State.reset with
    agenda := []
    actor := .context 64 0
    power := { Power.reset with bootSt := 1 }
    ctxs := [(4096, ctx0)]
    sculls := [(64, scull0)]
    crews := [(1, crew0)]
    agents := [(8, { Agent.reset with lines := [(64, freshLine .e 0 false)] })]
    homes := [(64, { HomeLine.reset with head := some 8 })] }

/-- The eight words at 0x1000 that an instruction reads, where its checks pass and the shell L2 has the line. -/
theorem reads_words {s : State} {l : List Word}
    (check : ∀ i < 8, ∀ k, checkAccess s 64 0 (ctxOf s 64 0) { mode := .glb, a := 0, b := 0, off := 0 } (0x1000 + BitVec.ofNat 64 (8 * i)) 8 8
      .load rightsRead k = k s (.global (0x1000 + 8 * i)))
    (clear : (List.range 8).all (fun i => !(inRegisters (0x1000 + 8 * i) || overlapsEarlier s (ctxOf s 64 0) (.global (0x1000 + 8 * i)) 8
      || globalPoison s (0x1000 + 8 * i) || globalPoison s (0x1000 + 8 * i + 8 - 1))) = true)
    (held : (List.range 8).all (fun i =>
      decide (glbTouched s 64 0 (0x1000 + 8 * i) = s ∧ fetchRange s (shellNode 64) (0x1000 + 8 * i) 8 = s)) = true)
    (words : (List.range 8).map (fun i => agentWord s (shellNode 64) (0x1000 + 8 * i)) = l) : ReadsBlock s s 64 0 0x1000 8 l := by
  intro k
  simp only [List.all_eq_true, List.mem_range, Bool.not_eq_true', decide_eq_true_eq] at clear held
  rw [readBlock_reads (f := fun i => 0x1000 + 8 * i) 8 [] k
    (fun i _ h k => by
      have g := held i (by simpa using h)
      rw [withGlb_reads (check i (by simpa using h)) (clear i (by simpa using h)) (by rw [g.1, g.2]), g.1]), ← words]
  simp

def withCtx (f : Ctx → Ctx) : State := setCtx base 64 0 (f ctx0)
def withScull (f : Scull → Scull) : State := setScull base 64 (f scull0)



/-! ### A word of every context instruction, its fields placed as R46 to R55 and the instruction's own rule place them -/

/-- Major 0x01, format A (R46, R55). -/
theorem word_major_01 :
    decode 0x01001840A0000000 = .ok (.add 3 4 5) ∧
    decode 0x01041840A0000000 = .ok (.sub 3 4 5) ∧
    decode 0x01081840A0000000 = .ok (.addw 3 4 5) ∧
    decode 0x010C1840A0000000 = .ok (.subw 3 4 5) ∧
    decode 0x01101840A0000000 = .ok (.min 3 4 5) ∧
    decode 0x01141840A0000000 = .ok (.max 3 4 5) ∧
    decode 0x01181840A0000000 = .ok (.minu 3 4 5) ∧
    decode 0x011C1840A0000000 = .ok (.maxu 3 4 5) ∧
    decode 0x0120184000000000 = .ok (.abs 3 4) ∧
    decode 0x01241840A0000000 = .ok (.adds 3 4 5) ∧
    decode 0x01281840A0000000 = .ok (.subs 3 4 5) := by
  exact ⟨rfl, rfl, rfl, rfl, rfl, rfl, rfl, rfl, rfl, rfl, rfl⟩

/-- Major 0x02, format I (R46, R55). -/
theorem word_major_02 :
    decode 0x0200184F23456789 = .ok (.addi 3 4 0xf23456789) ∧
    decode 0x0204184F23456789 = .ok (.addwi 3 4 0xf23456789) ∧
    decode 0x0208184F23456789 = .ok (.andi 3 4 0xf23456789) ∧
    decode 0x020C184F23456789 = .ok (.ori 3 4 0xf23456789) ∧
    decode 0x0210184F23456789 = .ok (.xori 3 4 0xf23456789) := by
  exact ⟨rfl, rfl, rfl, rfl, rfl⟩

/-- Major 0x03, format A (R46, R55). -/
theorem word_major_03 :
    decode 0x03001840A0000000 = .ok (.mul 3 4 5) ∧
    decode 0x03041840A0000000 = .ok (.mulh 3 4 5) ∧
    decode 0x03081840A0000000 = .ok (.mulhu 3 4 5) ∧
    decode 0x030C1840A0000000 = .ok (.mulhsu 3 4 5) ∧
    decode 0x03101840A0000000 = .ok (.mulw 3 4 5) := by
  exact ⟨rfl, rfl, rfl, rfl, rfl⟩

/-- Major 0x04, format A (R46, R55). -/
theorem word_major_04 :
    decode 0x04001840A0000000 = .ok (.div 3 4 5) ∧
    decode 0x04041840A0000000 = .ok (.divu 3 4 5) ∧
    decode 0x04081840A0000000 = .ok (.rem 3 4 5) ∧
    decode 0x040C1840A0000000 = .ok (.remu 3 4 5) ∧
    decode 0x04101840A0000000 = .ok (.divw 3 4 5) ∧
    decode 0x04141840A0000000 = .ok (.divuw 3 4 5) := by
  exact ⟨rfl, rfl, rfl, rfl, rfl, rfl⟩

/-- Major 0x05, format A (R46, R55). -/
theorem word_major_05 :
    decode 0x05001840A0000000 = .ok (.and 3 4 5) ∧
    decode 0x05041840A0000000 = .ok (.or 3 4 5) ∧
    decode 0x05081840A0000000 = .ok (.xor 3 4 5) ∧
    decode 0x050C1840A0000000 = .ok (.andn 3 4 5) ∧
    decode 0x05101840A0000000 = .ok (.orn 3 4 5) ∧
    decode 0x05141840A0000000 = .ok (.xnor 3 4 5) := by
  exact ⟨rfl, rfl, rfl, rfl, rfl, rfl⟩

/-- Major 0x06, format A (R46, R55). -/
theorem word_major_06 :
    decode 0x06001840A0000000 = .ok (.sll 3 4 5) ∧
    decode 0x06041840A0000000 = .ok (.srl 3 4 5) ∧
    decode 0x06081840A0000000 = .ok (.sra 3 4 5) ∧
    decode 0x060C1840A0000000 = .ok (.rol 3 4 5) ∧
    decode 0x06101840A0000000 = .ok (.ror 3 4 5) := by
  exact ⟨rfl, rfl, rfl, rfl, rfl⟩

/-- Major 0x07, format I (R46, R55). -/
theorem word_major_07 :
    decode 0x070018400000002A = .ok (.slli 3 4 0x2A) ∧
    decode 0x070418400000002A = .ok (.srli 3 4 0x2A) ∧
    decode 0x070818400000002A = .ok (.srai 3 4 0x2A) ∧
    decode 0x070C18400000002A = .ok (.rori 3 4 0x2A) := by
  exact ⟨rfl, rfl, rfl, rfl⟩

/-- Major 0x08, format A (R46, R55). -/
theorem word_major_08 :
    decode 0x0800184000000000 = .ok (.clz 3 4) ∧
    decode 0x0804184000000000 = .ok (.ctz 3 4) ∧
    decode 0x0808184000000000 = .ok (.popc 3 4) ∧
    decode 0x080C184000000000 = .ok (.brev 3 4) ∧
    decode 0x0810184000000000 = .ok (.bswap 3 4) ∧
    decode 0x0814184000000000 = .ok (.sextb 3 4) ∧
    decode 0x0818184000000000 = .ok (.sextq 3 4) ∧
    decode 0x081C184000000000 = .ok (.sexth 3 4) ∧
    decode 0x0820184000000000 = .ok (.zextb 3 4) ∧
    decode 0x0824184000000000 = .ok (.zextq 3 4) ∧
    decode 0x0828184000000000 = .ok (.zexth 3 4) := by
  exact ⟨rfl, rfl, rfl, rfl, rfl, rfl, rfl, rfl, rfl, rfl, rfl⟩

/-- Major 0x09, format I (R46, R55). -/
theorem word_major_09 :
    decode 0x09001840000001C5 = .ok (.bfx 3 4 5 7) ∧
    decode 0x09041840000001C5 = .ok (.bfxu 3 4 5 7) ∧
    decode 0x09081840000001C5 = .ok (.bfi 3 4 5 7) := by
  exact ⟨rfl, rfl, rfl⟩

/-- Major 0x0A, format L (R46, R55). -/
theorem word_major_0A :
    decode 0x0A001D123456789A = .ok (.movi 3 0x5123456789a) ∧
    decode 0x0A04180000123456 = .ok (.movhi 3 0x123456) := by
  exact ⟨rfl, rfl⟩

/-- Major 0x0B, format L (R46, R55). -/
theorem word_major_0B :
    decode 0x0B001D123456789A = .ok (.addpc 3 0x5123456789a) := by
  rfl

/-- Major 0x0C, format A (R46, R55). -/
theorem word_major_0C :
    decode 0x0C001840A0000000 = .ok (.mkcore 3 4 5) := by
  rfl

/-- Major 0x20, format A (R46, R55). -/
theorem word_major_20 :
    decode 0x20001840A000000A = .ok (.fadd 3 4 5 .s .rup) ∧
    decode 0x20041840A000000A = .ok (.fsub 3 4 5 .s .rup) ∧
    decode 0x20081840A000000A = .ok (.fmul 3 4 5 .s .rup) ∧
    decode 0x200C1840A000000A = .ok (.fdiv 3 4 5 .s .rup) ∧
    decode 0x201018400000000A = .ok (.fsqrt 3 4 .s .rup) ∧
    decode 0x20141840A0000008 = .ok (.fmin 3 4 5 .s) ∧
    decode 0x20181840A0000008 = .ok (.fmax 3 4 5 .s) ∧
    decode 0x201C184000000008 = .ok (.fabs 3 4 .s) ∧
    decode 0x2020184000000008 = .ok (.fneg 3 4 .s) := by
  exact ⟨rfl, rfl, rfl, rfl, rfl, rfl, rfl, rfl, rfl⟩

/-- Major 0x21, format A (R46, R55). -/
theorem word_major_21 :
    decode 0x21001840A180000A = .ok (.fma 3 4 5 6 .s .rup) ∧
    decode 0x21041840A180000A = .ok (.fms 3 4 5 6 .s .rup) ∧
    decode 0x21081840A180000A = .ok (.fnma 3 4 5 6 .s .rup) ∧
    decode 0x210C1840A180000A = .ok (.fnms 3 4 5 6 .s .rup) := by
  exact ⟨rfl, rfl, rfl, rfl⟩

/-- Major 0x22, format A (R46, R55). -/
theorem word_major_22 :
    decode 0x220018400000000A = .ok (.fcvtff 3 4 .s .rup) ∧
    decode 0x220418400000000A = .ok (.fcvtfi 3 4 .s .rup) ∧
    decode 0x220818400000000A = .ok (.fcvtfu 3 4 .s .rup) ∧
    decode 0x220C18400000000A = .ok (.fcvtif 3 4 .s .rup) ∧
    decode 0x221018400000000A = .ok (.fcvtuf 3 4 .s .rup) ∧
    decode 0x2214184000000008 = .ok (.fclass 3 4 .s) := by
  exact ⟨rfl, rfl, rfl, rfl, rfl, rfl⟩

/-- Major 0x23, format A (R46, R55). -/
theorem word_major_23 :
    decode 0x23001840A0000008 = .ok (.feq 3 4 5 .s) ∧
    decode 0x23041840A0000008 = .ok (.flt 3 4 5 .s) ∧
    decode 0x23081840A0000008 = .ok (.fle 3 4 5 .s) := by
  exact ⟨rfl, rfl, rfl⟩

/-- Major 0x30, format B (R46, R55). -/
theorem word_major_30 :
    decode 0x30001840BFFFFFFD = .ok (.b .ge 4 5 0x1ffffffd) := by
  rfl

/-- Major 0x31, format A (R46, R55). -/
theorem word_major_31 :
    decode 0x31001840A0000000 = .ok (.slt 3 4 5) ∧
    decode 0x31041840A0000000 = .ok (.sltu 3 4 5) ∧
    decode 0x31081840A0000000 = .ok (.seq 3 4 5) ∧
    decode 0x310C1840A0000000 = .ok (.sne 3 4 5) := by
  exact ⟨rfl, rfl, rfl, rfl⟩

/-- Major 0x32, format I (R46, R55). -/
theorem word_major_32 :
    decode 0x3200184F23456789 = .ok (.slti 3 4 0xf23456789) ∧
    decode 0x3204184F23456789 = .ok (.sltui 3 4 0xf23456789) ∧
    decode 0x3208184F23456789 = .ok (.seqi 3 4 0xf23456789) := by
  exact ⟨rfl, rfl, rfl⟩

/-- Major 0x33, format L (R46, R55). -/
theorem word_major_33 :
    decode 0x33001D123456789A = .ok (.jl 3 0x5123456789a) := by
  rfl

/-- Major 0x34, format I (R46, R55). -/
theorem word_major_34 :
    decode 0x3400184F23456789 = .ok (.jlr 3 4 0xf23456789) := by
  rfl

/-- Major 0x35, format A (R46, R55). -/
theorem word_major_35 :
    decode 0x35001840A1800000 = .ok (.sel 3 4 5 6) := by
  rfl

/-- Major 0x40, format M (R46, R55). -/
theorem word_major_40 :
    decode 0x40001840A8740015 = .ok (.ld 3 { mode := .shl, a := 4, b := 5, off := 0x15 } .w .take true) ∧
    decode 0x40041840A8740015 = .ok (.lds 3 { mode := .shl, a := 4, b := 5, off := 0x15 } .w .take true) ∧
    decode 0x40081840AA600015 = .ok (.ldAq 3 { mode := .shl, a := 4, b := 5, off := 0x15 } .w .package) ∧
    decode 0x400C1840AA600015 = .ok (.ldsAq 3 { mode := .shl, a := 4, b := 5, off := 0x15 } .w .package) := by
  exact ⟨rfl, rfl, rfl, rfl⟩

/-- Major 0x41, format M (R46, R55). -/
theorem word_major_41 :
    decode 0x41001840A8740015 = .ok (.st 3 { mode := .shl, a := 4, b := 5, off := 0x15 } .w .take true) ∧
    decode 0x41041840AA600015 = .ok (.stRl 3 { mode := .shl, a := 4, b := 5, off := 0x15 } .w .package) := by
  exact ⟨rfl, rfl⟩

/-- Major 0x42, format M (R46, R55). -/
theorem word_major_42 :
    decode 0x42001840A8600015 = .ok (.fbrd 3 { mode := .shl, a := 4, b := 5, off := 0x15 }) ∧
    decode 0x42040040A8600015 = .ok (.fbset { mode := .shl, a := 4, b := 5, off := 0x15 }) ∧
    decode 0x42080040A8600015 = .ok (.fbclr { mode := .shl, a := 4, b := 5, off := 0x15 }) := by
  exact ⟨rfl, rfl, rfl⟩

/-- Major 0x43, format M (R46, R55). -/
theorem word_major_43 :
    decode 0x43001840A8600015 = .ok (.aqr 3 { mode := .shl, a := 4, b := 5, off := 0x15 }) ∧
    decode 0x43041840A8600015 = .ok (.arl 3 { mode := .shl, a := 4, b := 5, off := 0x15 }) ∧
    decode 0x43080040A8600015 = .ok (.arc { mode := .shl, a := 4, b := 5, off := 0x15 }) := by
  exact ⟨rfl, rfl, rfl⟩

/-- Major 0x44, format M (R46, R55). -/
theorem word_major_44 :
    decode 0x44001840B2420015 = .ok (.aadd 3 4 5 0x20015 .h .package) ∧
    decode 0x44041840B2420015 = .ok (.aand 3 4 5 0x20015 .h .package) ∧
    decode 0x44081840B2420015 = .ok (.aor 3 4 5 0x20015 .h .package) ∧
    decode 0x440C1840B2420015 = .ok (.axor 3 4 5 0x20015 .h .package) ∧
    decode 0x44101840B2420015 = .ok (.amin 3 4 5 0x20015 .h .package) ∧
    decode 0x44141840B2420015 = .ok (.amax 3 4 5 0x20015 .h .package) ∧
    decode 0x44181840B2420015 = .ok (.aminu 3 4 5 0x20015 .h .package) ∧
    decode 0x441C1840B2420015 = .ok (.amaxu 3 4 5 0x20015 .h .package) ∧
    decode 0x44201840B2420015 = .ok (.aswp 3 4 5 0x20015 .h .package) ∧
    decode 0x44241840B2420015 = .ok (.acas 3 4 5 0x20015 .h .package) := by
  exact ⟨rfl, rfl, rfl, rfl, rfl, rfl, rfl, rfl, rfl, rfl⟩

/-- Major 0x45, format M (R46, R55). -/
theorem word_major_45 :
    decode 0x45001840A8600015 = .ok (.depAdd 3 { mode := .shl, a := 4, b := 5, off := 0x15 }) ∧
    decode 0x45041840A8400015 = .ok (.depFadds 3 { mode := .shl, a := 4, b := 5, off := 0x15 }) ∧
    decode 0x45081840A8600015 = .ok (.depFaddd 3 { mode := .shl, a := 4, b := 5, off := 0x15 }) ∧
    decode 0x450C1840A8600015 = .ok (.depMin 3 { mode := .shl, a := 4, b := 5, off := 0x15 }) ∧
    decode 0x45101840A8600015 = .ok (.depMax 3 { mode := .shl, a := 4, b := 5, off := 0x15 }) ∧
    decode 0x45141840A8600015 = .ok (.depOr 3 { mode := .shl, a := 4, b := 5, off := 0x15 }) := by
  exact ⟨rfl, rfl, rfl, rfl, rfl, rfl⟩

/-- Major 0x46, format M (R46, R55). -/
theorem word_major_46 :
    decode 0x4600000002000000 = .ok (.fence .package) := by
  rfl

/-- Major 0x47, format M (R46, R55). -/
theorem word_major_47 :
    decode 0x47001840A8600015 = .ok (.sipw 3 { mode := .shl, a := 4, b := 5, off := 0x15 }) ∧
    decode 0x47041840A8600015 = .ok (.sipp 3 { mode := .shl, a := 4, b := 5, off := 0x15 }) ∧
    decode 0x47081840A8600015 = .ok (.sipr 3 { mode := .shl, a := 4, b := 5, off := 0x15 }) ∧
    decode 0x470C0040A8600015 = .ok (.sipf { mode := .shl, a := 4, b := 5, off := 0x15 }) ∧
    decode 0x47101840A8600015 = .ok (.sipi 3 { mode := .shl, a := 4, b := 5, off := 0x15 }) := by
  exact ⟨rfl, rfl, rfl, rfl, rfl⟩

/-- Major 0x60, format A (R46, R55). -/
theorem word_major_60 :
    decode 0x60000040A0000002 = .ok (.send 2 4 5) ∧
    decode 0x6004180000000002 = .ok (.krd 3 2) ∧
    decode 0x6008180000000002 = .ok (.ktst 3 2) := by
  exact ⟨rfl, rfl, rfl⟩

/-- Major 0x61, format A (R46, R55). -/
theorem word_major_61 :
    decode 0x61001840A1838000 = .ok (.launch 3 4 5 6 7) ∧
    decode 0x6104184000000000 = .ok (.claunch 3 4) ∧
    decode 0x6108004000000000 = .ok (.lwait 4) := by
  exact ⟨rfl, rfl, rfl⟩

/-- Major 0x62, format A (R46, R55). -/
theorem word_major_62 :
    decode 0x6200000000000006 = .ok (.bar .crew true) := by
  rfl

/-- Major 0x63, format A (R46, R55). -/
theorem word_major_63 :
    decode 0x6300000000000011 = .ok (.semp 0x11) ∧
    decode 0x6304000000000011 = .ok (.semv 0x11) ∧
    decode 0x6308180000000011 = .ok (.semrd 3 0x11) ∧
    decode 0x630C004000000011 = .ok (.semset 0x11 4) := by
  exact ⟨rfl, rfl, rfl, rfl⟩

/-- Major 0x70, format A (R46, R55). -/
theorem word_major_70 :
    decode 0x7000000000000002 = .ok (.ebind .copy) ∧
    decode 0x7004000000000002 = .ok (.efree .copy) := by
  exact ⟨rfl, rfl⟩

/-- Major 0x71, format E (R46, R55). -/
theorem word_major_71 :
    decode 0x7100004000020015 = .ok (.mpost 4 0x20015) ∧
    decode 0x7104004000020015 = .ok (.vpost 4 0x20015) ∧
    decode 0x7108184000020015 = .ok (.cpost 3 4 0x20015) := by
  exact ⟨rfl, rfl, rfl⟩

/-- Major 0x72, format A (R46, R55). -/
theorem word_major_72 :
    decode 0x7200000000000005 = .ok (.esync 5) := by
  rfl

/-- Major 0x73, format E (R46, R55). -/
theorem word_major_73 :
    decode 0x7300004000020015 = .ok (.esaveM 4 0x20015) ∧
    decode 0x7304004000020015 = .ok (.esaveV 4 0x20015) ∧
    decode 0x7308004000020015 = .ok (.esaveC 4 0x20015) ∧
    decode 0x730C004000020015 = .ok (.erestoreM 4 0x20015) ∧
    decode 0x7310004000020015 = .ok (.erestoreV 4 0x20015) ∧
    decode 0x7314004000020015 = .ok (.erestoreC 4 0x20015) := by
  exact ⟨rfl, rfl, rfl, rfl, rfl, rfl⟩

/-- Major 0x78, format A (R46, R55). -/
theorem word_major_78 :
    decode 0x78001840A0000000 = .ok (.cmake 3 4 5) ∧
    decode 0x78041840A0000000 = .ok (.catt 3 4 5) ∧
    decode 0x78080040A0000000 = .ok (.cdet 4 5) ∧
    decode 0x780C004000000000 = .ok (.cdrop 4) ∧
    decode 0x7810184000000000 = .ok (.cqry 3 4) ∧
    decode 0x7814004000000000 = .ok (.cevt 4) := by
  exact ⟨rfl, rfl, rfl, rfl, rfl, rfl⟩

/-- Major 0x7C, format A (R46, R55). -/
theorem word_major_7C :
    decode 0x7C00184000000000 = .ok (.falloc 3 4) ∧
    decode 0x7C040040A1800000 = .ok (.fcall 4 5 6) ∧
    decode 0x7C08184000000001 = .ok (.fwait 3 4 true) ∧
    decode 0x7C0C184000000000 = .ok (.fpoll 3 4) ∧
    decode 0x7C101840A0000000 = .ok (.fput 3 4 5) ∧
    decode 0x7C14184000000000 = .ok (.fcan 3 4) := by
  exact ⟨rfl, rfl, rfl, rfl, rfl, rfl⟩

/-- Major 0x80, format S (R46, R55). -/
theorem word_major_80 :
    decode 0x8000180000000005 = .ok (.ctlr 3 5) ∧
    decode 0x8004004000000005 = .ok (.ctlw 4 5) ∧
    decode 0x8008184000000005 = .ok (.ctls 3 4 5) ∧
    decode 0x800C184000000005 = .ok (.ctlc 3 4 5) := by
  exact ⟨rfl, rfl, rfl, rfl⟩

/-- Major 0x81, format S (R46, R55). -/
theorem word_major_81 :
    decode 0x810000000000BEEF = .ok (.trap 0xBEEF) ∧
    decode 0x8104000000000000 = .ok (.rte) := by
  exact ⟨rfl, rfl⟩

/-- Major 0x82, format S (R46, R55). -/
theorem word_major_82 :
    decode 0x8200000000000000 = .ok (.halt) ∧
    decode 0x8204004000000000 = .ok (.haltKeep 4) := by
  exact ⟨rfl, rfl⟩

/-- Major 0x83, format S (R46, R55). -/
theorem word_major_83 :
    decode 0x8300000000000000 = .ok (.beat) := by
  rfl

/-- Major 0x84, format S (R46, R55). -/
theorem word_major_84 :
    decode 0x8400180000000000 = .ok (.rdgtc 3) ∧
    decode 0x8404184000000000 = .ok (.waitt 3 4) := by
  exact ⟨rfl, rfl⟩

/-- Major 0x85, format S (R46, R55). -/
theorem word_major_85 :
    decode 0x8500004000000000 = .ok (.tlbi 4) ∧
    decode 0x8504004000000000 = .ok (.tlbiasid 4) := by
  exact ⟨rfl, rfl⟩

/-- Major 0x86, format S (R46, R55). -/
theorem word_major_86 :
    decode 0x8600304000000000 = .ok (.capld 6 4) ∧
    decode 0x8604304000000000 = .ok (.capst 6 4) ∧
    decode 0x8608300000000000 = .ok (.capclr 6) := by
  exact ⟨rfl, rfl, rfl⟩

/-- Major 0x87, format S (R46, R55). -/
theorem word_major_87 :
    decode 0x8700184000000000 = .ok (.mthaw 3 4) ∧
    decode 0x8704184000000000 = .ok (.mkill 3 4) := by
  exact ⟨rfl, rfl⟩


/-! ### The words the manual writes out (R49, R54, R64, R85, R95, R101 and the lines of its examples) -/

theorem words_of_examples :
    decode 0x0200382000000064 = .ok (.addi 7 2 100) ∧
    decode 0x0A00500000001234 = .ok (.movi 10 0x1234) ∧
    decode 0x300008401FFFFFFD = .ok (.b .ne 4 0 0x1FFFFFFD) ∧
    decode 0x7104006000000080 = .ok (.vpost 6 128) ∧
    decode 0x8400400000000000 = .ok (.rdgtc 8) ∧
    decode 0x2100409142C00009 = .ok (.fma 8 9 10 11 .s .rtz) ∧
    decode 0x35002050C1C00000 = .ok (.sel 4 5 6 7) ∧
    decode 0x0A000D6789ABCDEF = .ok (.movi 1 0x56789ABCDEF) ∧
    decode 0x0A04080000002468 = .ok (.movhi 1 0x2468) := by
  exact ⟨rfl, rfl, rfl, rfl, rfl, rfl, rfl, rfl, rfl⟩

theorem words_of_memory_examples :
    decode 0x40004840A8680010 = .ok (.ld 9 { mode := .shl, a := 4, b := 5, off := 16 } .w .sync false) ∧
    decode 0x4008184012600008 = .ok (.ldAq 3 { mode := .glb, a := 4, b := 0, off := 8 } .w .package) ∧
    decode 0x45089000E4600100 = .ok (.depFaddd 18 { mode := .core, a := 0, b := 7, off := 0x100 }) ∧
    decode 0x4600000002000000 = .ok (.fence .package) ∧
    decode 0x60000040A0000002 = .ok (.send 2 4 5) ∧
    decode 0x6004180000000001 = .ok (.krd 3 1) ∧
    decode 0x610458A000000000 = .ok (.claunch 11 10) ∧
    decode 0x6200000000000006 = .ok (.bar .crew true) ∧
    decode 0x6304000000000003 = .ok (.semv 3) ∧
    decode 0x7000000000000002 = .ok (.ebind .copy) ∧
    decode 0x7108486000000000 = .ok (.cpost 9 6 0) ∧
    decode 0x7200000000000007 = .ok (.esync 7) ∧
    decode 0x730C00C000000400 = .ok (.erestoreM 12 0x400) := by
  exact ⟨rfl, rfl, rfl, rfl, rfl, rfl, rfl, rfl, rfl, rfl, rfl, rfl, rfl⟩

/-- R374: opcode 0x2B, funct3 0, funct7 0 to 3, rd in 11:7, rs1 in 19:15, rs2 in 24:20. -/
theorem words_of_harts :
    decodeHart 0x0002852B = .ok (.hfutTake 10 5) ∧ decodeHart 0x0262852B = .ok (.hfutPut 10 5 6) ∧
    decodeHart 0x0402852B = .ok (.hfutPoll 10 5) ∧ decodeHart 0x0662852B = .ok (.hfutFail 10 5 6) := by
  exact ⟨rfl, rfl, rfl, rfl⟩

/-- The record of "A product worked through": MOD 0x1680_0022_CC22, and the ends of its 64 bytes. -/
def workedRecord : Record :=
  { op := 0x0100, t3 := 1, t2 := 32, t1 := 32, t0 := 96,
    d3 := { s3 := 292, s2 := 36, s1 := 24, s0 := 0, base := 0x6000 },
    d2 := { s3 := 0, s2 := 32, s1 := 0, s0 := 1, base := 0x5000 },
    d1 := { s3 := 0, s2 := 0, s1 := 96, s0 := 1, base := 0x4000 },
    d0 := { s3 := 0, s2 := 0, s1 := 0, s0 := 0, base := 0 },
    res := 0, opx := 45, spc3 := 0, spc2 := 0, spc1 := 0, spc0 := 0, fe3 := 0, fe2 := 0, fe1 := 0, fe0 := 0, scm := 1,
    fmtd := 1, fmtb := 6, fmta := 6, sat := 0, rnd := 0, semen := 1, semn := 2 }

theorem record_mod : workedRecord.bits.setWidth 48 = (0x16800022CC22 : BitVec 48) := by decide
theorem record_trips : workedRecord.bits.extractLsb' 432 80 = (0x01000001002000200060 : BitVec 80) := by decide
theorem record_read : Record.ofBits workedRecord.bits = workedRecord ∧ recordInstr workedRecord = some .mmul := by decide +kernel
/-- R266, R268: the post accepts it and refuses each of the four edits the manual lists. -/
theorem record_accepted : recordLegal .matrix workedRecord 0 = true := by decide +kernel
theorem record_refused :
    recordLegal .matrix { workedRecord with t0 := 64 } 0 = false ∧ recordLegal .matrix { workedRecord with fmtb := 1 } 0 = false
      ∧ recordLegal .matrix { workedRecord with opx := 61 } 0 = false
      ∧ recordLegal .matrix { workedRecord with d3 := { workedRecord.d3 with s2 := 37 } } 0 = false := by decide +kernel

/-! ### Words the decoder refuses (R51, R52, R54 to R56) -/

theorem refused_words :
    decode 0 = .error .majorZero ∧ decode 0x0D00000000000000 = .error .majorUnassigned ∧
    decode 0x012C184000000000 = .error .minorUnassigned ∧ decode 0x01001840A0000001 = .error .reserved ∧
    decode 0x40004840A9680010 = .error .accessForm ∧ decode 0x3000304000000000 = .error .illegalCode ∧
    decode 0x2000184000000004 = .error .illegalCode ∧ decode 0x4000004018000000 = .error .illegalCode ∧
    decode 0x8000180000000300 = .error .ctlUnassigned ∧ decode 0x7000000000000003 = .error .illegalCode ∧
    decode 0x6200000000000004 = .error .illegalCode ∧ decode 0x8604400000000000 = .error .illegalCode := by
  exact ⟨rfl, rfl, rfl, rfl, rfl, rfl, rfl, rfl, rfl, rfl, rfl, rfl⟩

/-! ### Ill-formed terms, one for each check of wellFormed -/

def glbRef : MemRef := { mode := .glb, a := 4, b := 0, off := 0 }
def locRef : MemRef := { mode := .loc, a := 4, b := 0, off := 0 }

theorem smoke_memory :
    (Instr.ld 3 locRef .h .sync false).wellFormed = false ∧ (Instr.st 3 glbRef .w .take false).wellFormed = false ∧
    (Instr.lds 3 glbRef .w .sync false).wellFormed = false ∧ (Instr.ldAq 3 glbRef .w .plain).wellFormed = false ∧
    (Instr.ldsAq 3 glbRef .w .plain).wellFormed = false ∧ (Instr.stRl 3 glbRef .w .plain).wellFormed = false ∧
    (Instr.fbrd 3 glbRef).wellFormed = false ∧ (Instr.fbset glbRef).wellFormed = false ∧ (Instr.fbclr glbRef).wellFormed = false ∧
    (Instr.aqr 3 glbRef).wellFormed = false ∧ (Instr.arl 3 glbRef).wellFormed = false ∧ (Instr.arc glbRef).wellFormed = false := by
  decide

theorem smoke_synchronisation :
    (Instr.depAdd 3 glbRef).wellFormed = false ∧ (Instr.depFadds 3 glbRef).wellFormed = false ∧
    (Instr.depFaddd 3 glbRef).wellFormed = false ∧ (Instr.depMin 3 glbRef).wellFormed = false ∧
    (Instr.depMax 3 glbRef).wellFormed = false ∧ (Instr.depOr 3 glbRef).wellFormed = false ∧
    (Instr.sipw 3 glbRef).wellFormed = false ∧ (Instr.sipp 3 glbRef).wellFormed = false ∧ (Instr.sipr 3 glbRef).wellFormed = false ∧
    (Instr.sipf glbRef).wellFormed = false ∧ (Instr.sipi 3 glbRef).wellFormed = false ∧ (Instr.fence .plain).wellFormed = false ∧
    (Instr.esync 0).wellFormed = false ∧ (Instr.bar .sgrp true).wellFormed = false := by decide

theorem smoke_fields :
    (Instr.bfx 3 4 60 4).wellFormed = false ∧ (Instr.bfxu 3 4 63 1).wellFormed = false ∧ (Instr.bfi 3 4 1 63).wellFormed = false ∧
    (Instr.ctlr 3 0x000E).wellFormed = false ∧ (Instr.ctlw 3 0x0106).wellFormed = false ∧
    (Instr.ctls 3 4 0x0202).wellFormed = false ∧ (Instr.ctlc 3 4 0x0300).wellFormed = false := by decide

theorem smoke_events :
    (Instr.pageUnpin 64 1 96).wellFormed = false ∧ (Instr.pageParked 64 1 96).wellFormed = false ∧
    (Instr.pageRefillComplete 64 1 96).wellFormed = false ∧ (Instr.correctableError 9).wellFormed = false ∧
    (Instr.cohRead 258 0 0).wellFormed = false ∧ (Instr.agentRetire 258).wellFormed = false ∧
    (Instr.hartAccess 0 .load 0 3).wellFormed = false ∧ (Instr.uncorrectableError (.spadWord 64 49152)).wellFormed = false := by decide

theorem smoke_coherence :
    (Instr.cohWrite 258 0 0).wellFormed = false ∧ (Instr.cohForward 3 258 0 true).wellFormed = false ∧
    (Instr.cohInvalidateHop 258 3 0).wellFormed = false ∧ (Instr.cohInvalidateAck 3 0 258 0).wellFormed = false ∧
    (Instr.cohCompletionReport 258 0 0).wellFormed = false ∧ (Instr.cohEvict 258 0).wellFormed = false ∧
    (Instr.cohWriteback 258 0 0).wellFormed = false ∧ (Instr.cohWritebackAck 258 0).wellFormed = false ∧
    (Instr.agentDeathSweep 258).wellFormed = false := by decide


/-! ### Number formats: the tables of "Arithmetic Worked Through" -/

/-- Bits and flags of an FP32 value's conversion. -/
def conv (src dst : FpFmt) (rm : Rounding) (sat : Bool) (bits : Nat) : Nat × BitVec 5 :=
  convertLane (.fp src) (.fp dst) rm sat bits

theorem convert_to_halves :
    conv fp32 fp16 .rne false 0x477FF000 = (0x7C00, flagOF ||| flagNX) ∧ conv fp32 fp16 .rtz false 0x477FF000 = (0x7BFF, flagNX) ∧
    conv bf16 fp16 .rne false 0x4780 = (0x7C00, flagOF ||| flagNX) ∧ conv fp16 bf16 .rdn false 0x0001 = (0x3380, 0) ∧
    conv fp32 bf16 .rne false 0x3F808000 = (0x3F80, flagNX) ∧ conv fp32 bf16 .rne false 0x3F818000 = (0x3F82, flagNX) := by decide +kernel

theorem convert_to_narrow :
    conv fp32 e4m3 .rne false 0x43E80000 = (0x7E, flagNX) ∧ conv fp32 e4m3 .rne false 0x3A800000 = (0x00, flagUF ||| flagNX) ∧
    conv fp32 e4m3 .rup false 0x3A800000 = (0x01, flagUF ||| flagNX) ∧ conv fp32 e2m1 .rne false 0x40A00000 = (0x6, flagNX) ∧
    conv fp32 e2m1 .rne false 0x40E00000 = (0x7, flagOF ||| flagNX) ∧ conv fp32 e4m3 .rne false 0x7F800000 = (0x7F, flagOF ||| flagNX) ∧
    conv fp32 e4m3 .rtz false 0x7F800000 = (0x7E, flagOF ||| flagNX) ∧ conv fp32 e2m1 .rup false 0xFF800000 = (0xF, flagOF ||| flagNX) := by
  decide +kernel

theorem convert_to_int8 :
    convertLane (.fp fp32) (.int 8 true) .rne false 0x42FF0000 = (127, flagNV) ∧
    convertLane (.fp fp32) (.int 8 true) .rtz false 0x42FF0000 = (127, flagNX) ∧
    convertLane (.fp fp32) (.int 8 true) .rdn false 0x7FC00000 = (127, flagNV) := by decide +kernel

/-- The FP8 overflow table: 600, -600, 70,000 and -70,000 under RNE, RTZ, RUP, RDN, and with SAT. -/
theorem overflow_e4m3 :
    ([Rounding.rne, .rtz, .rup, .rdn].map fun m => (conv fp32 e4m3 m false 0x44160000).1) = [0x7F, 0x7E, 0x7F, 0x7E] ∧
    ([Rounding.rne, .rtz, .rup, .rdn].map fun m => (conv fp32 e4m3 m false 0xC4160000).1) = [0xFF, 0xFE, 0xFE, 0xFF] ∧
    ([Rounding.rne, .rtz, .rup, .rdn].map fun m => (conv fp32 e4m3 m true 0x44160000).1) = [0x7E, 0x7E, 0x7E, 0x7E] := by decide +kernel
theorem overflow_e5m2 :
    ([Rounding.rne, .rtz, .rup, .rdn].map fun m => (conv fp32 e5m2 m false 0x4788B800).1) = [0x7C, 0x7B, 0x7C, 0x7B] ∧
    ([Rounding.rne, .rtz, .rup, .rdn].map fun m => (conv fp32 e5m2 m false 0xC788B800).1) = [0xFC, 0xFB, 0xFB, 0xFC] ∧
    ([Rounding.rne, .rtz, .rup, .rdn].map fun m => (conv fp32 e5m2 m true 0xC788B800).1) = [0xFB, 0xFB, 0xFB, 0xFB] := by decide +kernel

/-- R212: 2^24 and four ones, added by the tree. -/
def addLane (a b : Nat) : Nat × BitVec 5 := fp32.deliver .rne false (fpAdd .rne (fp32.read a) (fp32.read b))
theorem reduction_tree : (treeReduce addLane 5 [0x4B800000, 0x3F800000, 0x3F800000, 0x3F800000, 0x3F800000]).1 = 0x4B800002 := by decide +kernel

/-- R213: a group of four products of 0.5 is added to 2^24 with one rounding. -/
theorem product_group :
    accumulateFp fp32 false 0x4B800000 (groupSum (List.replicate 4 (fpMul (e4m3.read 0x30) (e4m3.read 0x38)))).1 = (0x4B800001, 0) := by decide +kernel

/-- R214: a block of 32 × 2^127 overflows; with SAT the accumulator stays at its bound. -/
theorem scaled_block :
    accumulateFp fp32 false 0x42000000 (scaleSum (.fin false 32 0) 127) = (0x7F800000, flagOF ||| flagNX) ∧
    accumulateFp fp32 true 0x42000000 (scaleSum (.fin false 32 0) 127) = (0x7F7FFFFF, flagOF ||| flagNX) ∧
    accumulateFp fp32 true 0x7F7FFFFF (.fin false 32 0) = (0x7F7FFFFF, flagNX) := by decide +kernel

/-- R208: the byte 0x58. -/
theorem trits_of_byte : trits 0x58 = some [1, -1, 0, 0, 1] ∧ trits 243 = none := by decide

/-! ### Single steps -/

/-- A register of the context after a step. -/
def regAfter (r : Result) (g : Reg) : Option Word :=
  match r with
  | .next t => some (readReg (ctxOf t 64 0) g)
  | _ => none
def withReg (g : Reg) (v : Word) : State := withCtx fun c => writeReg c g v
def withRegs (g h : Reg) (v w : Word) : State := withCtx fun c => writeReg (writeReg c g v) h w

/-- R85: the pair that builds 0x0123_4567_89AB_CDEF. -/
theorem test_movi : regAfter (exec (.movi 1 0x56789ABCDEF) base) 1 = some 0xFFFFFD6789ABCDEF := by decide
theorem test_movhi : regAfter (exec (.movhi 1 0x2468) (withReg 1 0xFFFFFD6789ABCDEF)) 1 = some 0x0123456789ABCDEF := by decide
theorem test_add_wraps : regAfter (exec (.add 4 4 4) base) 4 = some 0xFFFFFFFFFFFFFFFE := by decide
theorem test_add_discards : regAfter (exec (.add 0 4 4) base) 0 = some 0 := by decide
theorem test_sub_order : regAfter (exec (.sub 3 2 3) base) 3 = some 5 := by decide
theorem test_addw_extends : regAfter (exec (.addw 3 4 4) (withReg 4 0x40000000)) 3 = some 0xFFFFFFFF80000000 := by decide
theorem test_adds_clamps : regAfter (exec (.adds 3 4 5) (withRegs 4 5 0x7FFFFFFFFFFFFFFF 1)) 3 = some 0x7FFFFFFFFFFFFFFF := by decide
theorem test_mulh : regAfter (exec (.mulh 3 4 5) (withRegs 4 5 0x8000000000000000 2)) 3 = some 0xFFFFFFFFFFFFFFFF := by decide
theorem test_mulhsu : regAfter (exec (.mulhsu 3 4 5) (withRegs 4 5 0xFFFFFFFFFFFFFFFF 0xFFFFFFFFFFFFFFFF)) 3 = some 0xFFFFFFFFFFFFFFFF := by decide
theorem test_sll_count : regAfter (exec (.sll 3 2 5) base) 3 = some 8 := by decide
theorem test_sra : regAfter (exec (.srai 3 9 63) base) 3 = some 0xFFFFFFFFFFFFFFFF := by decide
theorem test_bfi : regAfter (exec (.bfi 3 4 8 7) (withRegs 3 4 0x1111111111111111 0xAB)) 3 = some 0x111111111111AB11 := by decide
theorem test_bfx : regAfter (exec (.bfx 3 4 4 3) (withReg 4 0x80)) 3 = some 0xFFFFFFFFFFFFFFF8 := by decide
theorem test_clz_zero : regAfter (exec (.clz 3 0) base) 3 = some 64 := by decide
theorem test_bswap : regAfter (exec (.bswap 3 4) (withReg 4 0x0123456789ABCDEF)) 3 = some 0xEFCDAB8967452301 := by decide
theorem test_mkcore : regAfter (exec (.mkcore 3 4 4) (withReg 4 0xFFFFFFFFFFFFFFFF)) 3 = some 0x0007FFFFFFFFFFFF := by decide
theorem test_sltui : regAfter (exec (.sltui 3 2 0xFFFFFFFFF) base) 3 = some 1 := by decide
theorem test_sel : regAfter (exec (.sel 3 4 5 0) base) 3 = some 64 := by decide
theorem test_jl_links : regAfter (exec (.jl 3 0x7FFFFFFFFFF) base) 3 = some 0x100008 := by decide

def pcAfter (r : Result) : Option Word :=
  match r with
  | .next t => some (ctxOf t 64 0).pc
  | _ => none
theorem test_jl_target : pcAfter (exec (.jl 3 0x7FFFFFFFFFF) base) = some 0xFFFF8 := by decide
theorem test_branch : pcAfter (exec (.b .lt 4 0 0x1FFFFFFD) base) = some 0xFFFE8 := by decide
theorem test_branch_unsigned : pcAfter (exec (.b .ltu 4 0 0x1FFFFFFD) base) = some 0x100008 := by decide
theorem test_trap_vector : pcAfter (exec (.trap 0x2A) base) = some 0x200000 := by decide

/-- R81: the corners of division. -/
theorem test_divide_corners :
    divideResult 64 true false 7 0 = 0xFFFFFFFFFFFFFFFF ∧ divideResult 64 true true 7 0 = 7 ∧
    divideResult 64 true false 0x8000000000000000 0xFFFFFFFFFFFFFFFF = 0x8000000000000000 ∧
    divideResult 64 true true 0x8000000000000000 0xFFFFFFFFFFFFFFFF = 0 ∧ divideResult 64 true false 0xFFFFFFFFFFFFFFF9 2 = 0xFFFFFFFFFFFFFFFD := by
  decide +kernel

/-- R95, R96: one and a half plus one; the sign of a NaN is inverted like any other. -/
theorem test_fadd : regAfter (exec (.fadd 3 4 5 .d .rne) (withRegs 4 5 0x3FF8000000000000 0x3FF0000000000000)) 3 = some 0x4004000000000000 := by decide +kernel
theorem test_fneg_nan : regAfter (exec (.fneg 3 10 .d) base) 3 = some 0xFFF8000000000000 := by decide +kernel

/-- R138, the worked example: a crew of 12 whose page 1 of each core group is allocated. -/
def crew12 : State :=
  { base with
    sculls := (List.range 16).map fun n => (64 + n, scull0)
    crews := [(1, { crew0 with members := (List.range 12).map fun n => BitVec.ofNat 11 (64 + n) })] }
theorem place_crw :
    scratchForm crew12 64 { ctx0 with csz := 11 } { mode := .crw, a := 4, b := 0, off := 0 } 0x12348 = .ok (.page 65 1 6216) := by decide +kernel
theorem place_shl :
    scratchForm crew12 64 { ctx0 with csz := 11 } { mode := .shl, a := 4, b := 0, off := 0 } 0x1238 = .ok (.page 71 1 576) := by decide +kernel

/-! ### States that meet the statements' hypotheses -/

/-- Any instruction of these registers issues, the highest number and g0 among them. -/
theorem wit_issues_abc : Issues base 64 0 [127, 1, 0] [127] true := by unfold Issues; decide

theorem wit_IntegerArithmetic : Issues base 64 0 [127, 1] [0] false := by unfold Issues; decide

theorem wit_ShiftsBitsAndConstants :
    Issues base 64 0 [1, 127] [3] false ∧ Issues base 64 0 [1] [127] false ∧ Issues base 64 0 [] [0] false ∧ Issues base 64 0 [3] [3] false
      ∧ Issues base 64 0 [3, 1] [3] false ∧ (0 : BitVec 6).toNat + (63 : BitVec 6).toNat + 1 ≤ 64
      ∧ (63 : BitVec 6).toNat + (0 : BitVec 6).toNat + 1 ≤ 64 := by
  unfold Issues; decide

/-- A context that waits for a quotient. -/
def dividing : State := withCtx fun c => { c with st := .waiting (.divide 3 7) }

theorem wit_DivisionsAndComparisons :
    Issues base 64 0 [4, 0] [127] false ∧ Issues base 64 0 [4] [0] false ∧ Issues base 64 0 [1, 2, 127] [0] false
      ∧ dividing.actor = .context 64 0 ∧ (ctxOf dividing 64 0).st = .waiting (.divide 3 7) ∧ (ctxOf dividing 64 0).back = none := by
  unfold Issues; decide

/-- A target that is a multiple of 8 and one that is not, 0x1000 and 0x1001. -/
theorem wit_BranchesAndJumps :
    Issues base 64 0 [127, 1] [] false ∧ Issues base 64 0 [] [127] false ∧ Issues base 64 0 [1] [0] false
      ∧ (readReg (ctxOf base 64 0) 1 + (0 : BitVec 36).signExtend 64).toNat % 8 = 0
      ∧ (readReg (ctxOf base 64 0) 1 + (1 : BitVec 36).signExtend 64).toNat % 8 ≠ 0 := by
  unfold Issues; decide

/-- Operands that are finite, zero of either sign, infinite, and not numbers. -/
theorem wit_FloatingPointArithmetic :
    Issues base 64 0 [6, 0, 8] [127] false ∧ Issues base 64 0 [6] [0] false
      ∧ (∃ k e, fpOperand .d (readReg (ctxOf base 64 0) 6) = .fin false k e ∧ k ≠ 0)
      ∧ (∃ e, fpOperand .d (readReg (ctxOf base 64 0) 0) = .fin false 0 e) ∧ (∃ e, fpOperand .d (readReg (ctxOf base 64 0) 9) = .fin true 0 e)
      ∧ fpOperand .d (readReg (ctxOf base 64 0) 8) = .inf false :=
  ⟨by unfold Issues; decide, by unfold Issues; decide, ⟨_, _, rfl, by decide⟩, ⟨_, rfl⟩, ⟨_, rfl⟩, by decide⟩

/-- Nothing traps, and the registers of every form pass. -/
theorem wit_FloatingPointCompletions :
    ctx0.fen = 0 ∧ Issues base 64 0 [4, 1, 6] [127] false ∧ Issues base 64 0 [4, 1] [127] false ∧ Issues base 64 0 [4] [127] false := by
  unfold Issues; decide

theorem wit_FloatingPointSelections :
    Issues base 64 0 [10, 11] [127] false ∧ Issues base 64 0 [10] [0] false ∧ (fpOperand .d (readReg (ctxOf base 64 0) 10)).isNan = true
      ∧ (fpOperand .d (readReg (ctxOf base 64 0) 11)).isSnan = true ∧ fpOperand .d (readReg (ctxOf base 64 0) 8) = .inf false
      ∧ fpOperand .s (readReg (ctxOf base 64 0) 3) = .fin false 3 (-149) := by
  unfold Issues; decide

/-- Zeros of both signs, and a finite number of many binades for the conversions. -/
theorem wit_FloatingPointSelections_zeros :
    Issues base 64 0 [0, 9] [127] false ∧ (fpOperand .d (readReg (ctxOf base 64 0) 0)).isZero = true
      ∧ (fpOperand .d (readReg (ctxOf base 64 0) 9)).isZero = true ∧ (fpOperand .d (readReg (ctxOf base 64 0) 9)).sign = true
      ∧ fpOperand .d (readReg (ctxOf base 64 0) 6) = .fin false (2 ^ 52) (-51) := by
  unfold Issues; decide

/-- Scull and engine registers: the bounds, and engine registers of an engine that is not the context's, in both views. -/
theorem wit_ControlRegisters_others :
    0x100 ≤ (0x105 : BitVec 16).toNat ∧ (0x105 : BitVec 16).toNat ≤ 0x105 ∧ Issues base 64 0 [] [127] true ∧ Issues base 64 0 [9] [127] true
      ∧ Issues (withCtx fun c => { c with prv := false }) 64 0 [9] [127] false ∧ boundBy (withCtx fun c => { c with prv := false }) 64 .vector 0 = false
      ∧ (ctxOf base 64 0).prv = true ∧ Issues base 64 0 [9] [127] false := by
  unfold Issues; decide

/-- Every register number of the bounds, the privileged one in the runtime view and the others in both. -/
theorem wit_ControlRegisters :
    Issues base 64 0 [] [127] ((0x0B : BitVec 16) == 0x0B) ∧ Issues (withCtx fun c => { c with prv := false }) 64 0 [] [1] ((0x0A : BitVec 16) == 0x0B)
      ∧ (0x0 : BitVec 16).toNat ≤ 0x0C ∧ (0x0C : BitVec 16).toNat ≤ 0x0C ∧ Issues base 64 0 [9] [] true ∧ Issues base 64 0 [4] [1] true
      ∧ (readReg (ctxOf base 64 0) 4).getLsbD 63 = true ∧ (readReg (ctxOf base 64 0) 1).getLsbD 63 = false := by
  unfold Issues; decide

theorem wit_TrapsAndReturn :
    ((ctxOf base 64 0).hnd = false ∧ (ctxOf base 64 0).tvec ≠ 0) ∧ (ctxOf (withCtx fun c => { c with hnd := true }) 64 0).hnd = true
      ∧ (ctxOf (withCtx fun c => { c with tvec := 0 }) 64 0).tvec = 0 ∧ Issues base 64 0 [] [] false
      ∧ Issues (withCtx fun c => { c with hnd := true }) 64 0 [] [] false := by
  unfold Issues; decide

/-- A context of eight registers in the crew view. -/
def crewView : State := withCtx fun c => { c with prv := false, hdr := { c.hdr with rgn := 1 } }
/-- A context with an overlap load of g3 outstanding, and with g1 and g2 poisoned. -/
def overlapping : State :=
  setItem (withCtx fun c => { c with overlap := [0], gPoison := [1, 2] }) 0 (.access {
    sc := 64, slot := 0, op := .load false, place := .page 64 1 0, ea := 0, size := 8, fe := .plain, ov := true, d := 3,
    scope := .plain, asid := 0, phase := .inFlight, sent := 0, crew := 1 })

theorem wit_IllegalPrivilegedAndPoisoned :
    crewView.actor = .context 64 0 ∧ 8 * (ctxOf crewView 64 0).hdr.rgn ≤ (8 : Reg).toNat ∧ ¬8 * (ctxOf crewView 64 0).hdr.rgn ≤ (7 : Reg).toNat
      ∧ (ctxOf crewView 64 0).prv = false ∧ overlapping.actor = .context 64 0 ∧ regInLimit (ctxOf overlapping 64 0) 127 = true
      ∧ mustWaitOverlap overlapping (ctxOf overlapping 64 0) [3, 1, 2] = true ∧ mustWaitOverlap overlapping (ctxOf overlapping 64 0) [1, 2, 4] = false
      ∧ setHas (ctxOf overlapping 64 0).gPoison (1 : Reg).toNat = true ∧ setHas (ctxOf overlapping 64 0).gPoison (4 : Reg).toNat = false
      ∧ setHas (ctxOf overlapping 64 0).gPoison (2 : Reg).toNat = true := by
  decide

/-- A context that waits for GTC 0. -/
def timing : State := withCtx fun c => { c with st := .waiting (.time 3 0) }

theorem wit_TimeAndCapabilities :
    Issues base 64 0 [] [] false ∧ Issues base 64 0 [] [127] false ∧ Issues base 64 0 [0] [1] false
      ∧ (readReg (ctxOf base 64 0) 0).toNat ≤ (BitVec.ofNat 64 (gtcOf base) : Word).toNat
      ∧ (BitVec.ofNat 64 (gtcOf base) : Word).toNat < (readReg (ctxOf base 64 0) 7).toNat
      ∧ timing.actor = .context 64 0 ∧ (ctxOf timing 64 0).st = .waiting (.time 3 0) ∧ (ctxOf timing 64 0).back = none ∧ (0 : Word).toNat ≤ gtcOf timing
      ∧ Issues base 64 0 [] [] true ∧ (readReg (ctxOf base 64 0) 1).toNat % 16 = 0
      ∧ ownRange base 64 (ctxOf base 64 0) (readReg (ctxOf base 64 0) 1) 16 = .at_ ∧ Issues base 64 0 [1] [] true
      ∧ setHas (scullOf base 64).poison (ownByte base 64 (ctxOf base 64 0) 0x1000 / 8) = false
      ∧ setHas (scullOf base 64).poison (ownByte base 64 (ctxOf base 64 0) 0x1000 / 8 + 1) = false
      ∧ (readReg (ctxOf base 64 0) 2).toNat % 16 ≠ 0 ∧ Issues base 64 0 [2] [] true := by
  unfold Issues; decide

/-- g1, in a mode, with an offset. -/
def at1 (m : Mode) (off : BitVec 18) : MemRef := { mode := m, a := 1, b := 0, off := off }

/-- The first byte and the last of a pinned page, and the last word of it. -/
theorem wit_ScratchpadAccesses :
    (effAddr ctx0 (at1 .loc 0) 1).toNat = 4096 ∧ (effAddr ctx0 (at1 .loc 4095) 1).toNat = 8191 ∧ 8191 < 393216
      ∧ pageState base 64 (ctxOf base 64 0).crew (4096 / 4096) = some (.pinned 1) ∧ pageState base 64 (ctxOf base 64 0).crew (8191 / 4096) = some (.pinned 1)
      ∧ (effAddr ctx0 (at1 .loc 4088) 8).toNat % sizeBytes .w = 0 ∧ (scullOf base 64).fenced = false
      ∧ Issues base 64 0 [1, 0] [0] false ∧ Issues base 64 0 [4, 1, 0] [] false ∧ setHas (scullOf base 64).poison (8191 / 8) = false := by
  unfold Issues; decide

/-- An access at a word of frame 1, with its number the actor. -/
def atBank (op : AccessOp) (fe : FullEmpty) : Access :=
  { sc := 64, slot := 0, op := op, place := .page 64 1 0x1000, ea := 0x1000, size := 8, fe := fe, ov := false, d := 3, scope := .plain,
    asid := 0, phase := .inFlight, sent := 0, crew := 1 }
def arriving (a : Access) (full : Bool) : State :=
  setItem { withScull (fun x => { x with full := if full then [512] else [] }) with actor := .item 0 } 0 (.access a)

/-- A sync store to a full and to an empty word, a take load of each, and a plain one. -/
theorem wit_ScratchpadAccesses_bank :
    ∀ op ∈ [AccessOp.store 5, .load false], ∀ fe ∈ [FullEmpty.plain, .sync, .take], ∀ full ∈ [true, false],
      let s := arriving (atBank op fe) full
      s.actor = .item 0 ∧ accessOf s 0 = some (atBank op fe) ∧ locateFor (some 64) s (.page 64 1 0x1000) 0x1000 = .at_ 64 4096
        ∧ setHas (scullOf s 64).full 512 = full ∧ tabGet [] (scullOf s 64).wordQueues 512 = [] ∧ setHas (scullOf s 64).poison 512 = false := by
  decide

/-- A word at 0x1004, and a chamber offset 1. -/
theorem wit_MisalignedAccesses :
    (effAddr ctx0 (at1 .loc 4) 8).toNat % sizeBytes .w ≠ 0 ∧ (effAddr ctx0 (at1 .chm 1) 2 - readReg ctx0 1).toNat % sizeBytes .q ≠ 0
      ∧ Issues base 64 0 [1, 0] [127] false ∧ Issues base 64 0 [127, 1, 0] [] false := by
  unfold Issues; decide

/-- Crew and global places, and the own scratchpad with an F code and in overlap form. -/
theorem wit_AccessesInFlight :
    Passes base base 64 0 (at1 .glb 0) 8 .load { rightsRead with f := false } (.global 0x1000)
      ∧ Passes base base 64 0 (at1 .glb 0) 8 .store { rightsWrite with f := false } (.global 0x1000)
      ∧ Passes base base 64 0 (at1 .loc 0) 8 .load { rightsRead with f := true } (.page 64 1 0x1000)
      ∧ Passes base base 64 0 (at1 .loc 0) 8 .store { rightsWrite with f := true } (.page 64 1 0x1000) :=
  ⟨fun _ => rfl, fun _ => rfl, fun _ => rfl, fun _ => rfl⟩

theorem wit_AccessesInFlight_issues :
    Issues base 64 0 [1, 0] [127] false ∧ Issues base 64 0 [4, 1, 0] [] false ∧ (ctxOf base 64 0).overlap.length < 8
      ∧ overlapsEarlier base (touch base 64 (ctxOf base 64 0) (.page 64 1 0x1000)) (.page 64 1 0x1000) 8 = false
      ∧ drained base 64 0 (ctxOf base 64 0) .system = true ∧ drained overlapping 64 0 (ctxOf overlapping 64 0) .core = false
      ∧ Issues overlapping 64 0 [4, 5, 0] [] false := by
  unfold Issues; decide

/-- A context whose access has an answer: a value, an acceptance, or a trap. -/
def answered (ph : AccessPhase) : State :=
  setItem { withCtx (fun c => { c with st := .waiting (.access 0) }) with actor := .item 0 } 0 (.access { atBank (.load true) .plain with phase := ph })

theorem wit_AccessesInFlight_answers :
    ∀ ph ∈ [AccessPhase.value 5, .accepted, .trapped { code := 0x09, aux := 0x01, tval := 0x1000 }],
      (answered ph).actor = .item 0 ∧ accessOf (answered ph) 0 = some { atBank (.load true) .plain with phase := ph }
        ∧ (ctxOf (answered ph) 64 0).st = .waiting (.access 0) ∧ (ctxOf (answered ph) 64 0).back = none := by
  decide

theorem wit_FullBitInstructions :
    Passes base base 64 0 (at1 .loc 0) 8 .fullEmpty rightsRead (.page 64 1 0x1000)
      ∧ Passes base base 64 0 (at1 .loc 0) 8 .fullEmpty rightsWrite (.page 64 1 0x1000) :=
  ⟨fun _ => rfl, fun _ => rfl⟩

theorem wit_FullBitInstructions_issues :
    Issues base 64 0 [1, 0] [127] false ∧ locate base (.page 64 1 0x1000) (effAddr (ctxOf base 64 0) (at1 .loc 0) 8) = .at_ 64 4096
      ∧ setHas (scullOf base 64).poison (4096 / 8) = false ∧ tabGet [] (scullOf base 64).wordQueues (4096 / 8) = [] := by
  unfold Issues; decide

/-- Word 512 reserved by another context, and by this one. -/
def reserved (k : Nat) (r : Option Reservation) : State :=
  setScull (withCtx fun c => { c with resv := r }) 64 { scull0 with resvs := [{ word := 512, holder := some k, queue := [] }] }
def mine : Reservation := { sc := 64, word := 512, held := true, pc := 0, ea := 0x1000 }

theorem wit_QueuedReservations :
    Passes base base 64 0 (at1 .loc 0) 8 .atomic rightsAtomic (.page 64 1 0x1000)
      ∧ Passes (reserved 4097 none) (reserved 4097 none) 64 0 (at1 .loc 0) 8 .atomic rightsAtomic (.page 64 1 0x1000)
      ∧ Passes (reserved 4096 (some mine)) (reserved 4096 (some mine)) 64 0 (at1 .loc 0) 8 .atomic rightsAtomic (.page 64 1 0x1000) :=
  ⟨fun _ => rfl, fun _ => rfl, fun _ => rfl⟩

theorem wit_QueuedReservations_words :
    (∀ s ∈ [base, reserved 4097 none], Issues s 64 0 [1, 0] [127] false ∧ (ctxOf s 64 0).resv = none
      ∧ locate s (.page 64 1 0x1000) (effAddr (ctxOf s 64 0) (at1 .loc 0) 8) = .at_ 64 4096 ∧ setHas (scullOf s 64).poison 512 = false)
      ∧ (scullOf base 64).resvs = [] ∧ (∃ r, (scullOf (reserved 4097 none) 64).resvs = [r] ∧ r.word = 512 ∧ r.holder = some 4097)
      ∧ Issues (reserved 4096 (some mine)) 64 0 [4, 1, 0] [] false ∧ (ctxOf (reserved 4096 (some mine)) 64 0).resv = some mine
      ∧ (scullOf (reserved 4096 (some mine)) 64).resvs = [{ word := 4096 / 8, holder := some (ctxKey 64 0), queue := [] }]
      ∧ (scullOf (reserved 4096 (some mine)) 64).resvOverflow = []
      ∧ locate (reserved 4096 (some mine)) (.page 64 1 0x1000) 0x1000 = .at_ 64 4096 :=
  ⟨by unfold Issues; decide, by decide, ⟨_, rfl, by decide, by decide⟩, by unfold Issues; decide, by decide, by decide, by decide, by decide⟩

/-- A bank that has its eight reserved words, none of them the one wanted. -/
def crowded : State :=
  withScull fun x => { x with resvs := (List.range 8).map fun i => { word := 512 + 96 * (i + 1), holder := some 4097, queue := [] } }

/-- Word 512 held by this context, with one that waits for it. -/
def handing : State :=
  setCtx (setScull (withCtx fun c => { c with resv := some mine }) 64
    { scull0 with resvs := [{ word := 512, holder := some 4096, queue := [4097] }] }) 64 1
    { ctx0 with st := .waiting (.reservation 3), resv := some { mine with held := false } }

theorem wit_QueuedReservations_banks :
    (∀ r ∈ (scullOf crowded 64).resvs, r.word ≠ 512) ∧ ((scullOf crowded 64).resvs.filter fun r => r.word % 96 == 512 % 96).length = 8
      ∧ Issues crowded 64 0 [1, 0] [127] false ∧ (ctxOf crowded 64 0).resv = none
      ∧ locate crowded (.page 64 1 0x1000) (effAddr (ctxOf crowded 64 0) (at1 .loc 0) 8) = .at_ 64 4096
      ∧ Issues handing 64 0 [4, 1, 0] [] false ∧ (ctxOf handing 64 0).resv = some mine
      ∧ (scullOf handing 64).resvs = [{ word := 512, holder := some (ctxKey 64 0), queue := [4097] }]
      ∧ (ctxAt handing 4097).st = .waiting (.reservation 3) ∧ (ctxAt handing 4097).back = none
      ∧ (ctxAt handing 4097).resv = some { mine with held := false } ∧ bankOutstanding handing (ctxOf handing 64 0) 64 4096 = false
      ∧ setHas (scullOf handing 64).poison 512 = false := by
  unfold Issues; decide +kernel

theorem wit_QueuedReservations_passes :
    Passes crowded crowded 64 0 (at1 .loc 0) 8 .atomic rightsAtomic (.page 64 1 0x1000)
      ∧ Passes handing handing 64 0 (at1 .loc 0) 8 .atomic rightsAtomic (.page 64 1 0x1000) :=
  ⟨fun _ => rfl, fun _ => rfl⟩

theorem wit_QueuedReservations_releases :
    ∀ s ∈ [base, reserved 4096 (some mine)], releasePlace s (.page 64 1 0x1000) 0x1000 = .at_ 64 4096 ∧ bankOutstanding s (ctxOf s 64 0) 64 4096 = false
      ∧ (scullOf s 64).resvOverflow = [] := by
  decide +kernel

theorem wit_GlobalAtomics : Passes base base 64 0 (at1 .glb 0) 8 .atomic rightsAtomic (.global 0x1000) := fun _ => rfl

/-- A plain atomic and one of system scope may leave; a plain one arrives at its home. -/
theorem wit_GlobalAtomics_home :
    Issues base 64 0 [4, 1, 0] [4] false ∧ inRegisters 0x1000 = false ∧ drained base 64 0 (ctxOf base 64 0) .system = true
      ∧ (let a := { atBank (.atomic .add 5 0) .plain with place := .global 0x1000 }
        let s := arriving a false
        s.actor = .item 0 ∧ accessOf s 0 = some a ∧ globalPoison s 0x1000 = false ∧ (agentOf s (shellNode 64)).stores = []
          ∧ behindEarlier s 0 a = false) := by
  unfold Issues; decide +kernel

theorem wit_DepositLog : Passes base base 64 0 (at1 .crw 0) 8 .atomic rightsAtomic (.page 64 1 0x800) := fun _ => rfl

theorem wit_DepositLog_issues :
    Issues base 64 0 [4, 1, 0] [] false ∧ (scullOf base 64).fenced = false ∧ (scullOf base 64).deposits.length < 2048
      ∧ crewOf base (ctxOf base 64 0).crew = some crew0 ∧ tabGet 0 crew0.depSeq ((ctxOf base 64 0).cidx.toNat * 64 + (0 : Slot).toNat) = 0 := by
  unfold Issues; decide

/-- 1,537 entries of crew 1, the fewest that spill. -/
def manyDeposits : State :=
  { withScull (fun x => { x with deposits := List.replicate 1537 { crew := 1, chamber := none, off := 0, op := .add, value := 1, cidx := 0, slot := 0, seq := 0, image := [] } })
    with actor := .scull 64 }

theorem wit_DepositLog_spills :
    manyDeposits.actor = .scull 64 ∧ (scullOf manyDeposits 64).deposits.length = 1537 ∧ (∀ e ∈ (scullOf manyDeposits 64).deposits, e.crew = 1)
      ∧ crewOf manyDeposits 1 = some crew0 ∧ memberIndex manyDeposits 1 64 = some 0 ∧ (tabGet [] crew0.spills 0).length + 64 ≤ 2048 :=
  ⟨rfl, List.length_replicate .., fun _ h => by rw [List.eq_of_mem_replicate h], rfl, by decide, by decide⟩

/-- A context that has touched nothing, and with a packet of its own on the way; and one that has touched scull 65 and the global space. -/
def untouched : State := withCtx fun c => { c with touched := .none }
def sendingOut : State :=
  setItem untouched 0 (.packet {
    master := .context 64 0, flow := 0, win := 0, aperture := 0, off := 0, data := [5], opened := 0, closed := true, crew := 1, held := none })
def touched65 : State := withCtx fun c => { c with touched := { Touched.none with remote := [65], glb := true } }
def fencing : State := withCtx fun c => { c with st := .waiting (.fence .system [65]) }

theorem wit_Fences :
    Issues untouched 64 0 [] [] false ∧ (ctxOf untouched 64 0).touched = .none ∧ aperturePending untouched 64 0 = false
      ∧ Issues sendingOut 64 0 [] [] false ∧ (ctxOf sendingOut 64 0).touched = .none ∧ aperturePending sendingOut 64 0 = true ∧ Issues touched65 64 0 [] [] false
      ∧ (ctxOf touched65 64 0).touched ≠ .none ∧ probeTargets 64 (ctxOf touched65 64 0).touched = [65] ∧ (ctxOf untouched 64 0).overlap = []
      ∧ (ctxOf fencing 64 0).st = .waiting (.fence .system [65]) ∧ (ctxOf fencing 64 0).back = none ∧ drained fencing 64 0 (ctxOf fencing 64 0) .system = true := by
  unfold Issues; decide

/-- A siphon of two slots of 64 bytes at 0x1000, with free and filled slots as given. -/
def siphon (free filled : Nat) : State :=
  withScull fun x => { x with data := memWriteNat (memWriteNat (memWriteNat [] 4096 8 0x80002) 4104 8 free) 4112 8 filled }

theorem wit_Siphons :
    (∀ op ∈ [rightsRead, rightsWrite], ∀ k, checkAccess (siphon 1 1) 64 0 (ctxOf (siphon 1 1) 64 0) (at1 .loc 0) 0x1000 8 64 .siphon op k
        = k (siphon 1 1) (.page 64 1 0x1000)) := by
  intro op h k
  simp only [List.mem_cons, List.mem_nil_iff, or_false] at h
  rcases h with rfl | rfl <;> rfl

/-- One slot free and one filled, none free, and none filled. -/
theorem wit_Siphons_header :
    (∀ s ∈ [siphon 1 1, siphon 0 2, siphon 2 0], (scullOf s 64).sipWaiters = [] ∧ (scullOf s 64).wordQueues = [] ∧ (scullOf s 64).poison = []
      ∧ siphonCfgOk (spadRead (scullOf s 64) 4096 8) = true ∧ locate s (.page 64 1 0x1000) 0x1000 = .at_ 64 4096
      ∧ alignAddr (ctxOf s 64 0) (at1 .loc 0) 0x1000 % 64 = 0 ∧ Issues s 64 0 [1, 0] [127] false ∧ Issues s 64 0 [4, 1, 0] [] false
      ∧ scratchOutstanding s (ctxOf s 64 0) = false)
      ∧ spadRead (scullOf (siphon 0 2) 64) 4104 8 = 0 ∧ spadRead (scullOf (siphon 1 1) 64) 4104 8 = 1
      ∧ spadRead (scullOf (siphon 1 1) 64) 4112 8 = 1
      ∧ (0x1000 : Word).toNat + 64 + 64 * ((spadRead (scullOf (siphon 1 1) 64) 4128 8 + spadRead (scullOf (siphon 1 1) 64) 4112 8).toNat % 2) = 0x1080
      ∧ siphonCfgOk 0x10002 = true := by
  unfold Issues; decide

/-- A SEND to index 1 of the crew, the highest one, and its message at a READY target, and reported. -/
def sendTo : SendMsg :=
  { sc := 64, slot := 0, target := 64, targetSlot := 1, crew := 1, k := 3, value := 5, ga := 0x10001, arrived := none, held := none, report := none }
def sending (m : SendMsg) : State :=
  setItem (setCtx { withCtx (fun c => { c with st := .waiting (.send 0) }) with actor := .item 0 } 64 1 ctx0) 0 (.send m)

/-- g1 names index 1, slot 1; k2 is present. -/
def links : State := withCtx fun c => { c with g := [(1, 0x10001)], k := [(2, { value := 9, present := true })] }

theorem wit_LinkRegisters :
    Issues links 64 0 [1, 127] [] false ∧ ((readReg (ctxOf links 64 0) 1).extractLsb' 16 11 : BitVec 11).toNat ≤ (ctxOf links 64 0).csz.toNat
      ∧ scratchOutstanding links (ctxOf links 64 0) = false ∧ Issues links 64 0 [] [127] false ∧ (linkOf (ctxOf links 64 0) 2).present = true
      ∧ links.items = [] ∧ (linkOf (ctxOf links 64 0) 3).present = false
      ∧ (sending sendTo).actor = .item 0 ∧ (sending sendTo).items = [(0, .send sendTo)] ∧ (ctxOf (sending sendTo) 64 1).st = .ready
      ∧ (ctxOf (sending sendTo) 64 1).crew = 1 ∧ (scullOf (sending sendTo) 64).fenced = false
      ∧ (linkOf (ctxOf (sending sendTo) 64 1) 3).present = false ∧ isFrozen (ctxOf (sending sendTo) 64 0) = false
      ∧ itemOf (sending { sendTo with report := some none }) 0 = some (.send { sendTo with report := some none })
      ∧ (ctxOf (sending { sendTo with report := some none }) 64 0).st = .waiting (.send 0)
      ∧ (ctxOf (sending { sendTo with report := some none }) 64 0).back = none := by
  unfold Issues; decide

/-- A barrier of the crew at which its only context has arrived, with a deposit to settle. -/
def bar0 (settle : Bool) : Barrier := { level := .crew, group := 0, arrived := [4096], away := [], parked := [], settle := settle, settled := false }
def dep0 : Deposit := { crew := 1, chamber := none, off := 0x1008, op := .add, value := 5, cidx := 0, slot := 0, seq := 0, image := [] }
def arrived (settle : Bool) : State :=
  setCrew (setScull (withCtx fun c => { c with st := .waiting (.barrier .crew 0), barrier := [(.crew, false)] }) 64
    { scull0 with deposits := if settle then [dep0] else [] }) 1 { crew0 with barriers := [bar0 settle] }

theorem wit_Barriers :
    Issues base 64 0 [] [] false ∧ (ctxOf base 64 0).barrier = [] ∧ crewOf base (ctxOf base 64 0).crew = some crew0
      ∧ drained base 64 0 (ctxOf base 64 0) .package = true
      ∧ (∀ settle ∈ [false, true], ∃ x, crewOf (arrived settle) 1 = some x ∧ barrierOf x .crew 0 = some (bar0 settle)
        ∧ allArrived (arrived settle) 1 x (bar0 settle) = true)
      ∧ (bar0 false).arrived.Nodup ∧ (∀ k ∈ (bar0 false).arrived, (ctxAt (arrived false) k).st = .waiting (.barrier .crew 0) ∧ (ctxAt (arrived false) k).back = none)
      ∧ (crewOf (arrived true) 1).map (·.spills) = some [] ∧ unitDeposits (arrived true) 1 = [(64, dep0)] ∧ (scullOf (arrived true) 64).fenced = false
      ∧ pageState (arrived true) 64 1 (dep0.off / 4096) = some (.pinned 1)
      ∧ tabGet [] (scullOf (arrived true) 64).wordQueues ((4096 + dep0.off % 4096) / 8) = [] := by
  refine ⟨by unfold Issues; decide, by decide, by decide, by decide, ?_, by decide, by decide, by decide, by decide, by decide, by decide, by decide⟩
  intro settle h; cases settle <;> exact ⟨_, rfl, by decide, by decide⟩

/-- A BAR that is issued again after its arrival at the crew's level, the arrival at its scull's being over. -/
def reissuing (done : Bool) : State := withCtx fun c => { c with barrier := [(.cgrp, true), (.crew, done)] }
theorem wit_Barriers_reissue :
    ∀ done ∈ [false, true], Issues (reissuing done) 64 0 [] [] false ∧ (ctxOf (reissuing done) 64 0).barrier = [(.cgrp, true)] ++ (.crew, done) :: []
      ∧ ∀ e ∈ [(BarLevel.cgrp, true)] ++ [], e.1 ≠ .crew := by
  unfold Issues; decide

/-- Semaphore 31 with a count: none, one, and full. -/
def counting (n : BitVec 32) : State := withScull fun x => { x with sems := [(31, n)] }

theorem wit_Semaphores_empty : Issues (counting 0) 64 0 [] [127] false ∧ tabGet 0 (scullOf (counting 0) 64).sems (31 : BitVec 5).toNat = 0 := by
  unfold Issues; decide
theorem wit_Semaphores_one :
    Issues (counting 1) 64 0 [4] [] false ∧ tabGet 0 (scullOf (counting 1) 64).sems (31 : BitVec 5).toNat ≠ 0
      ∧ tabGet [] (scullOf (counting 1) 64).semQueues (31 : BitVec 5).toNat = [] ∧ scratchOutstanding (counting 1) (ctxOf (counting 1) 64 0) = false := by
  unfold Issues; decide
theorem wit_Semaphores_full :
    Issues (counting 0xFFFFFFFF) 64 0 [] [] false ∧ tabGet 0 (scullOf (counting 0xFFFFFFFF) 64).sems (31 : BitVec 5).toNat = 0xFFFFFFFF
      ∧ tabGet [] (scullOf (counting 0xFFFFFFFF) 64).semQueues (31 : BitVec 5).toNat = []
      ∧ scratchOutstanding (counting 0xFFFFFFFF) (ctxOf (counting 0xFFFFFFFF) 64 0) = false := by
  unfold Issues; decide

/-- The header before the entry at 0x1008. -/
theorem wit_Launches_header : ReadsHeader base base 64 0 0x1008 0 := by
  intro k
  have t : translate base 64 0 (ctxOf base 64 0) (0x1008 - 8) .fetch = .hit base 0x1000 := rfl
  have m : contextMay base 64 0x1000 8 rightsFetch = true := by decide +kernel
  have r : inRegisters 0x1000 = false := by decide +kernel
  have p : globalPoison base 0x1000 = false := by decide +kernel
  have f : fetchLine base (shellNode 64) (lineOf 0x1000) = base := by decide +kernel
  have w : agentWord base (shellNode 64) 0x1000 = 0 := by decide +kernel
  have c : canonical (0x1008 - 8) = true := by decide +kernel
  have g : capsGrant (ctxOf base 64 0).caps (ctxOf base 64 0).asid rightsFetch ((0x1008 - 8 : Word)).toNat 8 = true := by decide +kernel
  simp only [withHeader, c, g, t, m, r, p, f, w]
  simp

/-- A block of eight words at 0x1000. -/
theorem wit_Launches_reads : ReadsBlock base base 64 0 0x1000 8 [0, 0, 0, 0, 0, 0, 0, 0] :=
  reads_words (by intro i h k; rcases i with _ | _ | _ | _ | _ | _ | _ | _ | i <;> first | rfl | omega) (by decide +kernel) (by decide +kernel) (by decide +kernel)

/-- A launch message for scull 65 whose status is item 1. -/
def launch0 : LaunchMsg :=
  { sender := some 1, target := 65, crew := 1, entry := 0x1008, g1 := 1, g2 := 2, header := some Header.none, caps := [], asid := 0, ptroot := 0,
    prv := false, accepted := false }
def status0 : StatusMsg := { sc := 64, slot := 0, d := 3, ga := 1, value := 0, trap := none }
def launching : State :=
  setItem (setItem { withCtx (fun c => { c with st := .waiting (.status 3 1) }) with actor := .item 0 } 0 (.launch launch0)) 1 (.status status0)
def starting : State := withCtx fun c => { c with st := .starting, size := 0 }

theorem wit_Launches :
    Issues base 64 0 [7, 13, 1, 2] [127] false ∧ (readReg (ctxOf base 64 0) 7).toNat = ((readReg (ctxOf base 64 0) 7).extractLsb' 0 11 : BitVec 11).toNat
      ∧ ((readReg (ctxOf base 64 0) 7).extractLsb' 0 11 : BitVec 11).toNat ≤ (ctxOf base 64 0).csz.toNat
      ∧ (readReg (ctxOf base 64 0) 13).toNat % 8 = 0 ∧ drained base 64 0 (ctxOf base 64 0) .package = true
      ∧ Issues base 64 0 [1] [127] false ∧ (readReg (ctxOf base 64 0) 1).toNat % 64 = 0 ∧ Issues base 64 0 [7] [] false
      ∧ ((readReg (ctxOf base 64 0) 0).extractLsb' 0 2 : BitVec 2) = 0 ∧ ((readReg (ctxOf base 64 0) 7).extractLsb' 0 2 : BitVec 2) = 1
      ∧ (readReg (ctxOf base 64 0) 7).getLsbD 31 = false
      ∧ (scullOf base (memberOf base 1 64 0)).notice = (readReg (ctxOf base 64 0) 7).extractLsb' 32 32
      ∧ launching.actor = .item 0 ∧ itemOf launching 0 = some (.launch launch0) ∧ setHas launching.isolated (65 / 8) = false
      ∧ (scullOf launching 65).fenced = false ∧ (groupOf launching 65 1).bind (·.kept) = none ∧ takesLaunches launching 1 = true
      ∧ roomFor launching 65 1 Header.none 1 = true ∧ freeSlot launching 65 = some 0 ∧ statusOf launching 1 = some status0
      ∧ starting.actor = .context 64 0 ∧ (ctxOf starting 64 0).st = .starting ∧ (ctxOf starting 64 0).size = 0
      ∧ freshLeft starting 64 (ctxOf starting 64 0).crew = false ∧ cleanWindow starting 64 (8 * (ctxOf starting 64 0).hdr.rgn) = some 0
      ∧ (ctxOf launching 64 0).st = .waiting (.status 3 1) ∧ (ctxOf launching 64 0).back = none := by
  unfold Issues; decide +kernel

/-- An LWAIT on the notices of its own scull that has left rotation, its count as it is and another. -/
def noticing (n : BitVec 32) : State := withCtx fun c => { c with st := .waiting (.notice false 64 n) }
theorem wit_Launches_notice :
    (ctxOf base 64 0).st = .ready ∧ (scullOf launching 65).revokes = [] ∧ startsFrozen launching 65 1 = false
      ∧ (noticing 0).actor = .context 64 0 ∧ (ctxOf (noticing 0) 64 0).st = .waiting (.notice false 64 0)
      ∧ (ctxOf (noticing 0) 64 0).back = none ∧ (scullOf (noticing 0) 64).notice = 0
      ∧ (ctxOf (noticing 1) 64 0).st = .waiting (.notice false 64 1) ∧ (scullOf (noticing 1) 64).notice ≠ 1 := by
  decide +kernel

/-- The status word's own step. -/
theorem wit_Launches_status :
    ({ launching with actor := .item 1 }).actor = .item 1 ∧ statusOf { launching with actor := .item 1 } 1 = some status0
      ∧ (ctxOf { launching with actor := .item 1 } 64 0).st = .waiting (.status status0.d 1) := by
  decide

/-- A sibling in slot 1; a window and a frame to scrub; frames kept until cycle 5. -/
def sibling : State := setCtx base 64 1 ctx0
def keeping (cycle : Nat) : State :=
  { withScull (fun x => { x with
      groups := [(1, { cls := .owner, frm := 0, pages := [], kept := some (0x1008, 5), waiters := [], imagePoison := [], images := [] })] }) with
    actor := .scull 64
    cycle := cycle }

/-- The last context of its crew on its scull. -/
theorem wit_ContextEnds_last :
    base.items = [] ∧ base.agenda = [] ∧ (∀ e ∈ base.ctxs, e.1 / 64 = (64 : ScullId).toNat → e.1 ≠ ctxKey 64 0 → e.2.crew = ctx0.crew → e.2.st = .free)
      ∧ (groupOf base 64 (ctxOf base 64 0).crew).isSome = true ∧ (scullOf base 64).keepto ≠ 0 ∧ boundEngines base 64 0 = []
      ∧ (ctxOf base 64 0).resv = none ∧ (ctxOf base 64 0).size ≠ 0 ∧ sibling.agenda = [] := by
  decide

theorem wit_ContextEnds :
    (ctxOf sibling 64 0).overlap = [] ∧ boundEngines sibling 64 0 = [] ∧ (ctxOf sibling 64 0).resv = none ∧ (ctxOf sibling 64 0).size ≠ 0
      ∧ crewOf sibling (ctxOf sibling 64 0).crew = some crew0 ∧ crew0.state = .running ∧ crew0.barriers = [] ∧ sibling.items = []
      ∧ (ctxOf sibling 64 1).crew = (ctxOf sibling 64 0).crew ∧ (ctxOf sibling 64 1).st ≠ .free ∧ Issues sibling 64 0 [] [] false
      ∧ Issues sibling 64 0 [1] [] false ∧ (readReg (ctxOf sibling 64 0) 1).toNat % 8 = 0 ∧ Issues base 64 0 [12] [] false
      ∧ (readReg (ctxOf base 64 0) 12).toNat % 8 ≠ 0
      ∧ (scullOf (withScull fun x => { x with dirtyWindows := [(0, 8)] }) 64).dirtyWindows = [(0, 8)]
      ∧ (scullOf (withScull fun x => { x with dirtyFrames := [95] }) 64).dirtyFrames = [95]
      ∧ (keeping 5).actor = .scull 64 ∧ 5 ≤ (keeping 5).cycle ∧ (keeping 4).cycle < 5
      ∧ (scullOf (keeping 5) 64).groups.map (fun g => (g.1, g.2.kept)) = [(1, some (0x1008, 5))] := by
  unfold Issues; decide

/-- A record of zeros but for its operation, and one that clears accumulator 0. -/
def rec0 (op : BitVec 16) : Record := { Record.ofBits 0 with op := op, t0 := 1, t1 := 1, t2 := 1, t3 := 1 }
def clearRecord : Record := { rec0 0x010B with opx := 1 }
def command (r : Record) : Command := { id := 0, record := r, g := 0, caps := [(0, allCap)], addr := 0x1000 }

/-- The matrix engine bound to slot 0, with a queue. -/
def engined (e : EngineId) (queue : List Command) (slot : Slot) : State :=
  setCtx (setEngine base 64 e { Engine.reset with bound := some slot, queue := queue }) 64 1 ctx0
/-- The record at 0x1000 of the scratchpad. -/
def posting (queue : List Command) : State :=
  setScull (engined .matrix queue 0) 64 { scull0 with data := memWriteNat [] 4096 64 clearRecord.bits.toNat }

/-- A free engine that another context waits for. -/
def queuedFor : State :=
  setCtx (setEngine base 64 .matrix { Engine.reset with bindQueue := [1] }) 64 1 { ctx0 with st := .waiting (.bind .matrix) }
theorem wit_EnginesBoundAndSaved_queue :
    Issues queuedFor 64 0 [] [] false ∧ (engineOf queuedFor 64 .matrix).bound = none ∧ shadowTaken queuedFor 64 .matrix = false
      ∧ (engineOf queuedFor 64 .matrix).bindQueue = [1] ∧ (ctxOf queuedFor 64 1).st = .waiting (.bind .matrix)
      ∧ (ctxOf queuedFor 64 1).back = none ∧ (ctxOf queuedFor 64 1).hdr.cls = .owner ∧ bindWanted base 64 .matrix = false := by
  unfold Issues; decide

theorem wit_EnginesBoundAndSaved :
    Issues base 64 0 [] [] false ∧ (ctxOf base 64 0).hdr.em = true ∧ (engineOf base 64 .matrix).bound = none
      ∧ shadowTaken base 64 .matrix = false ∧ (ctxOf (withCtx fun c => { c with hdr := { c.hdr with ev := false } }) 64 0).hdr.ev = false
      ∧ (engineOf (engined .matrix [] 0) 64 .matrix).bound = some 0 ∧ (engineOf (engined .matrix [] 0) 64 .matrix).queue = []
      ∧ (engineOf (engined .matrix [command clearRecord] 0) 64 .matrix).queue ≠ [] ∧ Issues (engined .matrix [] 0) 64 0 [] [] false
      ∧ (engineOf (engined .matrix [] 1) 64 .matrix).bound = some 1
      ∧ (ctxOf (engined .matrix [] 1) 64 1).hdr.cls = (ctxOf (engined .matrix [] 1) 64 0).hdr.cls
      ∧ ((1 : BitVec 3).getLsbD (engineIndex .matrix) = true ∧ (1 : BitVec 3).getLsbD (engineIndex .vector) = false
        ∧ (1 : BitVec 3).getLsbD (engineIndex .copy) = false) := by
  unfold Issues; decide

/-- Queues with room for one more and with none. -/
theorem wit_EnginesBoundAndSaved_posts :
    ∀ q ∈ [[], [command clearRecord, command clearRecord]],
      ownRange (posting q) 64 (ctxOf (posting q) 64 0) 0x1000 64 = .at_ ∧ (engineOf (posting q) 64 .matrix).bound = some 0
        ∧ (∀ k ∈ List.range 8, setHas (scullOf (posting q) 64).poison (ownByte (posting q) 64 (ctxOf (posting q) 64 0) 0x1000 / 8 + k) = false)
        ∧ Record.ofBits (BitVec.ofNat 512 (memReadNat (scullOf (posting q) 64).data 4096 64)) = clearRecord
        ∧ recordLegal .matrix clearRecord 0 = true ∧ scratchOutstanding (posting q) (ctxOf (posting q) 64 0) = false
        ∧ Issues (posting q) 64 0 [1] [] false ∧ ((engineOf (posting q) 64 .matrix).queue.length < 2 ∨ 2 ≤ (engineOf (posting q) 64 .matrix).queue.length) := by
  unfold Issues; decide +kernel

/-- Five pages pinned, with the matrix engine's signature at 0x1000 for its image. -/
def imaged : State :=
  setScull (engined .matrix [] 0) 64 { scull0 with
    groups := [(1, { cls := .owner, frm := 6, pages := (List.range 6).map fun v => (v, .pinned v), kept := none, waiters := [], imagePoison := [], images := [] })]
    data := memWriteNat [] 4096 8 0x4B39E000 }

theorem wit_EnginesBoundAndSaved_images :
    Issues imaged 64 0 [1] [] false ∧ ownRange imaged 64 (ctxOf imaged 64 0) 0x1000 16448 = .at_
      ∧ (engineOf imaged 64 .matrix).bound = some 0 ∧ (engineOf imaged 64 .matrix).queue = []
      ∧ spadRead (scullOf imaged 64) (ownByte imaged 64 (ctxOf imaged 64 0) 0x1000) 8 = 0x4B39E000 + BitVec.ofNat 64 (engineIndex .matrix)
      ∧ (∀ i ∈ List.range 3, setHas (scullOf imaged 64).poison (ownByte imaged 64 (ctxOf imaged 64 0) (0x1000 + 8 * i) / 8) = false) := by
  unfold Issues; decide +kernel

/-- A command at the head: not started, started with units left, and with all of them done. -/
def commanded (e : EngineId) (started : Bool) (n : Nat) : State :=
  { setEngine base 64 e { Engine.reset with
      bound := some 0, queue := [command (rec0 (if e = .matrix then 0x010B else 0x0049))], started := started, prog := { Progress.none with next := n } } with
    actor := .engine 64 e }

theorem wit_CommandRun :
    (∀ e ∈ [EngineId.matrix, .vector], ∀ b ∈ [false, true], ∀ n ∈ [0, 1], (commanded e b n).actor = .engine 64 e
      ∧ (engineOf (commanded e b n) 64 e).queue ≠ [] ∧ (engineOf (commanded e b n) 64 e).bound = some 0 ∧ (scullOf (commanded e b n) 64).fenced = false
      ∧ (engineOf (commanded e b n) 64 e).started = b ∧ (engineOf (commanded e b n) 64 e).frz = false
      ∧ (engineOf (commanded e b n) 64 e).dropped = none ∧ (engineOf (commanded e b n) 64 e).prog.next = n
      ∧ (engineOf (commanded e b n) 64 e).prog.inflight = [] ∧ (engineOf (commanded e b n) 64 e).prog.owed = [] ∧ completionTrap e (engineOf (commanded e b n) 64 e) = none
      ∧ (ctxOf (commanded e b n) 64 0).st = .ready ∧ (scullOf (commanded e b n) 64).semQueues = [])
      ∧ (isProduct (rec0 0x010B) && latchUnfit Engine.reset (rec0 0x010B)) = false
      ∧ (workOf .vector Engine.reset (command (rec0 0x0049))).total = 1 := by
  decide +kernel

/-- Tables at 0x2000 and 0x3000 that map the first GiB to itself, and what a walk keeps of them. -/
def tables : Memory := memWriteNat (memWriteNat [] 0x2000 8 0xC01) 0x3000 8 0xDF
def rooted : State := { withCtx (fun c => { c with ptroot := 0x2000 }) with memory := tables }
def walked : State := (shellWalk rooted 8 0 0x2000 0 .load false).1
/-- The same with the line at 0 in the shell L2. -/
def mapped : State := fetchLine walked 8 0

/-- A command's first unit, of one element, in flight at an engine of slot 0. -/
def inFlight (s : State) (e : EngineId) (r : Record) (x : Engine) : State :=
  { setEngine s 64 e { x with
      bound := some 0, queue := [command r], started := true
      prog := { x.prog with next := 1, inflight := [{ first := 0, count := 1, mask := [] }] } } with
    actor := .engine 64 e }

def flight (s : State) (e : EngineId) (work : Engine → Command → Work) (r : Record) : Prep :=
  prepareFlight s 64 e (ctxOf s 64 0) (command r) (work (engineOf s 64 e) (command r))

/-- The element, with the places of its accesses. -/
def elementOf (s : State) (e : EngineId) (work : Engine → Command → Work) (r : Record) : Ready :=
  (flight s e work r).ready.headD { n := 0, index := [], parts := [] }

/-- The conditions of OneElement, computed. -/
def oneElement (s : State) (e : EngineId) (op : Instr) (work : Engine → Command → Work) (r : Record) : Bool :=
  decide (engineHead s e op = some (64, 0, command r)) && decide (aheadElems (engineOf s 64 e) = [])
    && decide ((flight s e work r).s = s) && decide ((flight s e work r).ready = [elementOf s e work r])
    && decide ((flight s e work r).stalled = []) && (flight s e work r).snag.isNone

theorem oneElement_meets {s : State} {e : EngineId} {op : Instr} {work : Engine → Command → Work} {r : Record} (h : oneElement s e op work r = true) :
    OneElement s 64 0 e op work (command r) (elementOf s e work r) := by
  simp only [oneElement, Bool.and_eq_true, decide_eq_true_eq, Option.isNone_iff_eq_none] at h
  obtain ⟨⟨⟨⟨⟨h1, h2⟩, h3⟩, h4⟩, h5⟩, h6⟩ := h
  refine ⟨h1, h2, ?_⟩
  change flight s e work r = _
  generalize flight s e work r = p at h3 h4 h5 h6
  cases p
  simp_all

/-- Every vector operation by its opcode. -/
def vectorOps : List (BitVec 16 × Instr) :=
  [(0x01, .vadd), (0x02, .vsub), (0x03, .vmul), (0x04, .vdiv), (0x05, .vfma), (0x06, .vmin), (0x07, .vmax), (0x08, .vabs), (0x09, .vneg), (0x0A, .vsqrt),
   (0x0B, .vrcp), (0x0C, .vscalb), (0x0D, .vrint), (0x10, .vand), (0x11, .vor), (0x12, .vxor), (0x13, .vandn), (0x14, .vshl), (0x15, .vshr), (0x16, .vsra),
   (0x17, .vcnt), (0x18, .vceq), (0x19, .vclt), (0x1A, .vcle), (0x1B, .vsel), (0x20, .vcvt), (0x28, .vexp), (0x29, .vexp2), (0x2A, .vlog), (0x2B, .vlog2),
   (0x2C, .vsin), (0x2D, .vcos), (0x2E, .vtanh), (0x2F, .vrsqrt), (0x30, .vsigm), (0x38, .vrsum), (0x39, .vrmin), (0x3A, .vrmax), (0x3B, .vrand),
   (0x3C, .vror), (0x3D, .vrxor), (0x40, .vbfly), (0x41, .vtwid), (0x42, .vcmul), (0x48, .vunp3), (0x49, .viota)]

theorem wit_VectorRecords_wide : Engine.reset.widePoison = [] := rfl

theorem wit_VectorRecords : vectorOps.all (fun p => oneElement (inFlight base .vector (rec0 p.1) .reset) .vector p.2 vectorWork (rec0 p.1)) = true := by
  decide +kernel

/-- A copy, a gather and a scatter in the scratchpad, CCLR and CSETF of a word, and a prefetch of a global line. -/
theorem wit_CopyRecords :
    ([(0x200, .ccopy), (0x201, .cgath), (0x202, .cscat), (0x203, .cclr), (0x204, .csetf)] : List (BitVec 16 × Instr)).all (fun p =>
        oneElement (inFlight base .copy (rec0 p.1) .reset) .copy p.2 copyWork (rec0 p.1)) = true
      ∧ (scullOf base 64).wordQueues = []
      ∧ (elementOf (inFlight base .copy (rec0 0x200) .reset) .copy copyWork (rec0 0x200)).parts.map (fun p => (p.1.write, p.2)) = [(false, .spad 64 0), (true, .spad 64 0)]
      ∧ (elementOf (inFlight base .copy (rec0 0x203) .reset) .copy copyWork (rec0 0x203)).parts.map Prod.snd = [.spad 64 0]
      ∧ oneElement (inFlight walked .copy { rec0 0x207 with spc1 := 1 } .reset) .copy .cpref copyWork { rec0 0x207 with spc1 := 1 } = true
      ∧ (elementOf (inFlight walked .copy { rec0 0x207 with spc1 := 1 } .reset) .copy copyWork { rec0 0x207 with spc1 := 1 }).parts.map Prod.snd = [.mem 0]
      ∧ copyOf walked (shellNode 64) (lineOf 0) = none := by
  decide +kernel

/-- A siphon at 0x1000 with two free or two filled slots, and a command of four bytes from or to the global space. -/
def slotRecord (writes : Bool) : Record :=
  if writes then { rec0 0x205 with spc1 := 1, d0 := { (rec0 0).d0 with base := 0x1000 } }
  else { rec0 0x206 with spc0 := 1, d1 := { (rec0 0).d1 with base := 0x1000 } }
def slotted (s : State) (writes : Bool) (claim : Option Word) : State :=
  inFlight (setScull s 64 (scullOf (if writes then siphon 2 0 else siphon 0 2) 64)) .copy (slotRecord writes)
    { Engine.reset with prog := { Progress.none with claim := claim } }

theorem wit_CopyRecords_slots (claim : Option Word) (h : claim = none ∨ claim = some 0x1040) :
    ∀ b ∈ [true, false], let s := slotted base b claim
      engineHead s .copy (if b then .csipw else .csipr) = some (64, 0, command (slotRecord b))
      ∧ (slotRecord b).op = (if b then 0x0205 else 0x0206) ∧ (engineOf s 64 .copy).prog.inflight = [{ first := 0, count := 1, mask := [] }]
      ∧ (engineOf s 64 .copy).prog.claim = claim
      ∧ (recDesc (slotRecord b) (if b then 0 else 1)).base.toNat = (0x1000 : Word).toNat
      ∧ pageState s 64 (ctxOf s 64 0).crew (0x1000 / 4096) = some (.pinned 1)
      ∧ siphonCfgOk (spadRead (scullOf s 64) 4096 8) = true ∧ 1 * copyBytes (slotRecord b) ≤ 64
      ∧ spadRead (scullOf s 64) (if b then 4104 else 4112) 8 = 2 ∧ (0x1040 : Word) = BitVec.ofNat 64 ((0x1000 : Word).toNat + 64 + 64 * 0)
      ∧ (spadRead (scullOf (slotted base true claim) 64) 4128 8 + spadRead (scullOf (slotted base true claim) 64) 4112 8).toNat % 2 = 0
      ∧ (scullOf s 64).poison = [] ∧ (scullOf s 64).sipWaiters = [] ∧ (scullOf s 64).wordQueues = [] := by
  rcases h with rfl | rfl <;> decide +kernel

theorem wit_CopyRecords_moves :
    ∀ b ∈ [true, false], let s := slotted mapped b (some 0x1040)
      let p := flight s .copy copyWork (slotRecord b)
      let d := elementOf s .copy copyWork (slotRecord b)
      openElems (engineOf s 64 .copy).prog.inflight = [0] ∧ aheadElems (engineOf s 64 .copy) = []
      ∧ p.s = s ∧ p.ready = [d] ∧ p.stalled = [] ∧ p.snag = none ∧ d.parts.map (fun p => p.1.write) = [false, true]
      ∧ d.parts.map Prod.snd = (if b then [.mem 0, .spad 64 4160] else [.spad 64 4160, .mem 0]) := by
  decide +kernel

/-- The matrix operations on tiles of one entry. -/
def matrixOps : List (Record × Instr) :=
  [(rec0 0x100, .mmul), (rec0 0x101, .mmuln), (rec0 0x108, .mlda), (rec0 0x109, .mdrn), ({ rec0 0x109 with opx := 0x10, fmta := 1, fmtd := 3 }, .mdrnBypass),
   (rec0 0x10A, .madda), (clearRecord, .mclr)]

theorem wit_MatrixRecords :
    matrixOps.all (fun p => let s := inFlight base .matrix p.1 .reset
      let d := elementOf s .matrix matrixWork p.1
      oneElement s .matrix p.2 matrixWork p.1 && (elementFault (elementEngine s 64 .matrix d) p.1 d.n (sourceValues s 64 d)).isNone
      && decide (p.1.t1.toNat ≤ 16) && decide (0 < p.1.t1.toNat) && decide (p.1.t2.toNat ≤ 16) && decide (p.1.t0.toNat ≤ 16)) = true
      ∧ (let s := inFlight base .matrix (rec0 0x108) .reset
        (sourceValues s 64 (elementOf s .matrix matrixWork (rec0 0x108))).length = 1)
      ∧ setHas Engine.reset.accPoison 0 = false ∧ fmtBytes 3 ≤ 2 := by
  decide +kernel

/-- Memory that holds 8-byte words at the addresses given. -/
def poke (l : List (Nat × Nat)) : Memory := l.foldl (fun m e => memWriteNat m e.1 8 e.2) []
/-- Such a memory, with the lines at 0x1000 and 0x1040 in the shell L2. -/
def withMemory (l : List (Nat × Nat)) : State :=
  { base with
    memory := poke l
    agents := [(8, { Agent.reset with lines := [64, 65].map fun n => (n, freshLine .e (memoryLine { base with memory := poke l } n) false) })]
    homes := [64, 65].map fun n => (n, { HomeLine.reset with head := some 8 }) }

/-- CMAKE blocks at 0x1000: one frame of scull 64, of name 5, as a range and as a list whose entry is at 0x1040. -/
def rangeBlock : State := withMemory [(0x1000, 5), (0x1008, 0x184), (0x1010, 64)]
def listBlock : State := withMemory [(0x1000, 5), (0x1008, 4), (0x1010, 0x1040), (0x1040, 0x400002)]

theorem reads_rangeBlock : ReadsBlock rangeBlock rangeBlock 64 0 0x1000 8 [5, 0x184, 64, 0, 0, 0, 0, 0] :=
  reads_words (by intro i h k; rcases i with _ | _ | _ | _ | _ | _ | _ | _ | i <;> first | rfl | omega) (by decide +kernel) (by decide +kernel) (by decide +kernel)
theorem reads_listBlock : ReadsBlock listBlock listBlock 64 0 0x1000 8 [5, 4, 0x1040, 0, 0, 0, 0, 0] :=
  reads_words (by intro i h k; rcases i with _ | _ | _ | _ | _ | _ | _ | _ | i <;> first | rfl | omega) (by decide +kernel) (by decide +kernel) (by decide +kernel)
theorem reads_listEntries (k) : readEntries 64 0 0x1040 1 0 [] k listBlock = k listBlock [0x400002] := by
  have c : ∀ k, checkAccess listBlock 64 0 (ctxOf listBlock 64 0) { mode := .glb, a := 0, b := 0, off := 0 } 0x1040 4 4 .load rightsRead k
      = k listBlock (.global 0x1040) := fun _ => rfl
  have e : BitVec.ofNat 64 (agentRead listBlock (shellNode 64) 0x1040 4) = 0x400002 := by decide +kernel
  have g : glbTouched listBlock 64 0 0x1040 = listBlock := by decide +kernel
  rw [readEntries, show (0x1040 : Word) + BitVec.ofNat 64 (4 * 0) = 0x1040 from rfl, withGlb_reads c (by decide +kernel) (by decide +kernel), g, e]
  rfl

/-- A chamber of name 8 in frame 2 of scull 64, in a state. -/
def chamber0 (st : ChamberState) : Chamber :=
  { owner := 0, name := 8, interleave := false, fps := 1, nfr := 1, holders := [(64, 2)], state := st, life := .lease, writeback := true,
    faultOnMiss := true, prio := 0, backr := 0x8000, deadl := 0, ptroot := 0x2000, atc := 1, lastAttach := 0, creator := 1, jobp := 0, jobAsid := 0,
    waiters := [], chosen := [], victims := [], wanted := false, blank := false, imagePoison := [] }
def chambered (x : Chamber) : State :=
  setCrew { setCtx base 64 0 { ctx0 with g := ctx0.g ++ [(14, 0x8000000000000000), (15, 4)] } with directory := { Directory.reset with live := [(0, x)] } } 1
    { crew0 with attach := [{ slot := 0, gen := 0, count := 1 }] }

theorem wit_Chambers_make :
    (∀ e ∈ [(rangeBlock, ([5, 0x184, 64, 0, 0, 0, 0, 0] : List Word), (64, 2)), (listBlock, [5, 4, 0x1040, 0, 0, 0, 0, 0, 0x400002], (64, 2))],
      Issues e.1 64 0 [0, 1] [127] false ∧ (readReg (ctxOf e.1 64 0) 1).toNat % 64 = 0 ∧ (ctxOf e.1 64 0).st = .ready
        ∧ blockInvalid e.1 (ctxOf e.1 64 0) (e.2.1.take 8) = false ∧ (makeList (e.2.1.getD 1 0) = true → listInvalid e.1 (e.2.1.drop 8) = false)
        ∧ namedChamber e.1 (ctxOf e.1 64 0).asid (e.2.1.getD 0 0) = none ∧ freeChamberSlot e.1 = some 0
        ∧ placeFrames e.1 [] (makeWant e.2.1) = some [e.2.2] ∧ tabFind (scullOf e.1 64).frames 2 = none)
      ∧ makeList 0x184 = false ∧ makeList 4 = true ∧ (namedChamber { rangeBlock with directory := { Directory.reset with live := [(0, { chamber0 .resident with name := 5 })] } } 0 5).isSome = true := by
  unfold Issues; decide +kernel

/-- A request the directory kept, of a context that waits for it. -/
def kept : State :=
  { setCtx rangeBlock 64 0 { ctx0 with st := .waiting .directory } with
    directory := { Directory.reset with requests := [{
      arrived := 0, actor := .context 64 0, instr := .cmake 127 0 1, words := [5, 0x184, 64, 0, 0, 0, 0, 0], victims := [] }] } }

/-- The directory keeps an older request of another context. -/
def queuedBehind : State :=
  { rangeBlock with directory := { Directory.reset with requests := [{ arrived := 0, actor := .context 65 0, instr := .cevt 1, words := [], victims := [] }] } }

theorem wit_Chambers_waits :
    ReadsBlock queuedBehind queuedBehind 64 0 0x1000 8 [5, 0x184, 64, 0, 0, 0, 0, 0] ∧ queuedBehind.directory.requests.any (requestAwake queuedBehind) = true
      ∧ ∀ r ∈ queuedBehind.directory.requests, r.actor ≠ .context 64 0 :=
  ⟨reads_words (by intro i h k; rcases i with _ | _ | _ | _ | _ | _ | _ | _ | i <;> first | rfl | omega) (by decide +kernel) (by decide +kernel)
    (by decide +kernel), by decide +kernel, by decide +kernel⟩

theorem wit_Chambers :
    (ctxOf kept 64 0).st = .waiting .directory ∧ (ctxOf kept 64 0).back = none ∧ rangeBlock.directory.requests = []
      ∧ namedChamber kept (ctxOf kept 64 0).asid 5 = none ∧ freeChamberSlot kept = some 0
      ∧ blockInvalid kept (ctxOf kept 64 0) [5, 0x184, 64, 0, 0, 0, 0, 0] = false
      ∧ placeFrames kept [] (makeWant [5, 0x184, 64, 0, 0, 0, 0, 0]) = some [(64, 2)]
      ∧ scopeOperand 1 3 = some .core ∧ scopeOperand 5 2 = some .system
      ∧ (∀ st ∈ [ChamberState.resident, .evicting, .evicted, .refilling], let s := chambered (chamber0 st)
        Issues s 64 0 [2, 15] [127] false ∧ (ctxOf s 64 0).st = .ready ∧ namedChamber s (ctxOf s 64 0).asid (readReg (ctxOf s 64 0) 2) = some (0, chamber0 st)
          ∧ scopeOperand (readReg (ctxOf s 64 0) 15) 3 = some .package ∧ (readReg (ctxOf s 64 0) 15).getLsbD 3 = false
          ∧ chamberOf s 0 = some (chamber0 st) ∧ namedChamber s (ctxOf s 64 0).asid (readReg (ctxOf s 64 0) 3) = none
          ∧ Issues s 64 0 [14, 15] [] false ∧ openChamber s (ctxOf s 64 0).asid (readReg (ctxOf s 64 0) 14) = some (chamber0 st)
          ∧ (readReg (ctxOf s 64 0) 14).extractLsb' 0 15 = (0 : ChamberSlot) ∧ crewAttached s (ctxOf s 64 0).crew (readReg (ctxOf s 64 0) 14) = true
          ∧ drained s 64 0 (ctxOf s 64 0) .package = true ∧ (chamber0 st).faultOnMiss = true) := by
  unfold Issues; decide +kernel

/-- A chamber at its own step, with the tables of its backing. -/
def chamberStep (x : Chamber) : State := { chambered x with actor := .chamber 0, memory := tables }

theorem wit_ChamberStates :
    (chamber0 .evicting).wanted = false ∧ (chamber0 .evicting).waiters = [] ∧ (chamberStep (chamber0 .evicting)).actor = .chamber 0 ∧ chamberOf (chamberStep (chamber0 .evicting)) 0 = some (chamber0 .evicting)
      ∧ frameReserved (scullOf (chamberStep (chamber0 .evicting)) 64) 2 = false
      ∧ (∀ e ∈ (chamberStep (chamber0 .evicting)).ctxs, waitOf e.2 = none)
      ∧ chosenReady (chamberStep { chamber0 .refilling with chosen := [(64, 3)], blank := true }) { chamber0 .refilling with chosen := [(64, 3)], blank := true } = true
      ∧ (chamber0 .resident).life = .lease ∧ (chamber0 .resident).deadl.toNat ≤ gtcOf (chamberStep (chamber0 .resident)) := by
  decide +kernel

/-- A chamber whose images are all stored; one that is new has none to read back (wit_ChamberStates). -/
theorem wit_ChamberStates_images :
    ((storeImages (chamberStep { chamber0 .evicting with holders := [] }) { chamber0 .evicting with holders := [] } (numbered [])).any fun u =>
        decide (chamberOf u 0 = some { chamber0 .evicting with holders := [] }) && u.ctxs.all fun e => (waitOf e.2).isNone) = true := by
  decide +kernel

/-- A future of crew 1 in a state, under the handle 0xF500000000000000, whose index and generation are 0; g14 holds the handle. -/
def future0 (st : FutState) : Future := { freshFuture 0 with state := st, crew := some 1 }
def handled (f : Future) : State :=
  { setCtx base 64 0 { ctx0 with ptroot := 0x2000, g := ctx0.g ++ [(14, 0xF500000000000000)] } with table := { FutTable.reset with live := [(0, f)] }, memory := tables }

theorem wit_FutureTable :
    tableFree base (.context 64 0) = true ∧ (ctxOf base 64 0).st = .ready ∧ Issues base 64 0 [0] [127] false
      ∧ openFuture base (ctxOf base 64 0).asid (readReg (ctxOf base 64 0) 1) = none ∧ freeFutureIndex base = some 0
      ∧ freeFutureIndex { base with table := { FutTable.reset with retired := [0, 1] } } = some 2
      ∧ (∀ f ∈ [future0 .idle, future0 .armed, future0 .pending, future0 .fulfilled, future0 .timedOut, future0 .cancelled,
            { future0 .armed with committed := true, payload := some (.timeout 0) }],
        tableFree (handled f) (.context 64 0) = true ∧ Issues (handled f) 64 0 [14] [127] false ∧ Issues (handled f) 64 0 [14, 1] [127] false
          ∧ openFuture (handled f) (ctxOf (handled f) 64 0).asid (readReg (ctxOf (handled f) 64 0) 14) = some f
          ∧ mayEvict (tableBusy (handled f)) 64 0 (ctxOf (handled f) 64 0) = true ∧ f.waiters.length + f.evicted.length < 16) := by
  unfold Issues; decide +kernel

theorem setHas_range {n i : Nat} (h : i < n) : setHas (List.range n) i = true := by
  have : ∀ l : List Nat, i ∈ l → setHas l i = true := by
    intro l
    induction l with
    | nil => simp
    | cons a l ih =>
      intro hm
      rcases List.mem_cons.1 hm with rfl | hm
      · simp [setHas]
      · simp [setHas, ih hm]
  exact this _ (List.mem_range.2 h)

/-- A table whose first n indices are retired: none is free where they are all of them. -/
def fullTable (s : State) (n : Nat) : State := { s with table := { s.table with live := [], retired := List.range n } }

theorem wit_FutureTable_full (s : State) (n : Nat) (h : 262144 ≤ n) : freeFutureIndex (fullTable s n) = none := by
  unfold freeFutureIndex
  split
  · rename_i i hi
    have := List.find?_some hi
    have hn : ¬ i < 262144 := fun hlt => by simp [fullTable, setHas_range (Nat.lt_of_lt_of_le hlt h)] at this
    rw [if_neg hn]
  · rfl

theorem wit_FutureTable_open :
    openChamber (chambered (chamber0 .resident)) 0 0x8000000000000000 = some (chamber0 .resident)
      ∧ freeFutureIndex { chambered (chamber0 .resident) with table := .reset } = some 0 := by
  decide +kernel

/-- Word 0 of a reply at 0x1000: 8 bytes, and 9, which is no length. -/
theorem wit_FutureTable_puts :
    ∀ n ∈ [8, 9], let s := { handled (future0 .armed) with memory := memWriteNat tables 0x1000 8 n, agents := [], homes := [] }
      (readAs (tableBusy s) 64 0 0x2000 true (ctxOf s 64 0).caps 0x1000).2 = some (BitVec.ofNat 64 n)
        ∧ drained (tableBusy s) 64 0 (ctxOf s 64 0) .system = true
        ∧ (readReg (ctxOf s 64 0) 1).toNat % 8 = 0 := by
  decide +kernel

/-- An FCALL of tool 1, here or in the far package, its descriptor at 0x1000 and its siphon at the start of chamber 0, whose handle g15 holds. -/
def calling (remote : Bool) : State :=
  { handled (future0 .idle) with
    ctxs := [(4096, { ctx0 with ptroot := 0x2000, g := ctx0.g ++ [(14, 0xF500000000000000), (15, 0x8000000000000000)] })]
    memory := poke [(0x1000, 1), (0x4010, if remote then 0xC000000000000003 else 0x8000000000000003)]
    agents := [(8, { Agent.reset with lines := [(64, freshLine .e 1 false)] })]
    table := { FutTable.reset with live := [(0, future0 .idle)], base := 0x4000, lsz := 1 }
    directory := { Directory.reset with live := [(0, chamber0 .resident)] } }

theorem wit_FutureTable_reads (b : Bool) : ReadsBlock (tableBusy (calling b)) (tableBusy (calling b)) 64 0 0x1000 8 [1, 0, 0, 0, 0, 0, 0, 0] := by
  cases b <;> exact reads_words (by intro i h k; rcases i with _ | _ | _ | _ | _ | _ | _ | _ | i <;> first | rfl | omega) (by decide +kernel)
    (by decide +kernel) (by decide +kernel)

theorem wit_FutureTable_calls :
    ∀ b ∈ [true, false], let u := fetchTool (tableBusy (calling b)) 1
      Issues (calling b) 64 0 [14, 15, 1] [] false ∧ openFuture (calling b) (ctxOf (calling b) 64 0).asid 0xF500000000000000 = some (future0 .idle)
        ∧ descriptorBad [1, 0, 0, 0, 0, 0, 0, 0] = false ∧ toolOf u 1 = some { remote := b, asid := 0, pool := 3, rtool := 0, flow := 0 }
        ∧ openChamber u 0 0x8000000000000000 = some (chamber0 .resident) ∧ 0 + 64 ≤ (chamber0 .resident).nfr * 4096
        ∧ drained u 64 0 (ctxOf u 64 0) .system = true ∧ u.table.takers = [] ∧ tableFree (calling b) (.context 64 0) = true := by
  unfold Issues; decide +kernel

/-- A future at its own step: its deadline reached, committed with no siphon, and settled with a waiter. -/
def futureStep (f : Future) (c : Ctx) : State := { setCtx base 64 0 c with actor := .future 0, table := { FutTable.reset with live := [(0, f)] } }
def due0 : Future := { future0 .pending with deadline := some 0 }
def committed0 : Future := { future0 .pending with committed := true, payload := some (.timeout 7), settleAs := .timedOut }
def waited0 : Future := future0 .fulfilled
/-- A wake that is due for the context that waits. -/
def wake0 : FutureWake := { index := 0, due := 0, word := futureWord waited0, waiters := [4096], evicted := [] }
def waking : State :=
  { futureStep waited0 { ctx0 with st := .waiting (.future 0 3) } with table := { FutTable.reset with live := [(0, waited0)], wakes := [wake0] } }

theorem wit_FutureEvents :
    (∀ f ∈ [due0, committed0, waited0], (futureStep f ctx0).actor = .future 0 ∧ futureOf (futureStep f ctx0) 0 = some f)
      ∧ openToSettle due0 = true ∧ due0.flow = none ∧ due0.deadline = some 0 ∧ 0 ≤ gtcOf (futureStep due0 ctx0)
      ∧ committed0.committed = true ∧ committed0.payload = some (.timeout 7) ∧ committed0.siphon = none
      ∧ waking.actor = .future 0 ∧ futureOf waking 0 = some waited0 ∧ waited0.committed = false ∧ dueWakes waking 0 = [wake0]
      ∧ wake0.waiters = [ctxKey 64 0] ∧ (ctxOf waking 64 0).st = .waiting (.future 0 3) ∧ (ctxOf waking 64 0).back = none := by
  decide +kernel

/-- A siphon of two slots of 16 bytes at the start of the chamber's frame: its one claimed slot about to be published, or none free to claim. -/
def publishing : Future := { committed0 with siphon := some (0, 0, 0), checked := true, claim := some 64, filled := true }
def claiming : Future := { publishing with claim := none, filled := false }
def publishingState (f : Future) (free : Nat) : State :=
  { chambered (chamber0 .resident) with
    actor := .future 0
    table := { FutTable.reset with live := [(0, f)] }
    sculls := [(64, { scull0 with frames := scull0.frames ++ [(2, .chamber 0 0)], data := memWriteNat (memWriteNat [] 8192 8 0x20002) 8200 8 free })] }

theorem wit_FutureEvents_slots :
    (∀ e ∈ [(publishing, 1), (claiming, 0)], futureOf (publishingState e.1 e.2) 0 = some e.1
      ∧ chamberOf (publishingState e.1 e.2) 0 = some (chamber0 .resident) ∧ generation (publishingState e.1 e.2) 0 = 0
      ∧ locate (publishingState e.1 e.2) (.chamber 0 0 0) 0 = .at_ 64 8192 ∧ dueWakes (publishingState e.1 e.2) 0 = []
      ∧ (scullOf (publishingState e.1 e.2) 64).sipWaiters = [] ∧ (scullOf (publishingState e.1 e.2) 64).wordQueues = [])
      ∧ (match siphonAt (scullOf (publishingState publishing 1) 64) 8192 0 (.publish 64) with | .done _ _ => true | _ => false) = true
      ∧ payloadBytes (.timeout 7) ≤ (publishing.slots + 1) * slotPayload (scullOf (publishingState publishing 1) 64) 8192
      ∧ siphonAt (scullOf (publishingState claiming 0) 64) 8192 0 .claimWrite = .wait := by
  decide +kernel

/-- A context that FWAIT with evict parked, ready to come back, and a request that the table kept. -/
def away : Parked := { sc := 64, slot := 1, ctx := ctx0, engines := [], future := some (0, 3), image := some 0, moved := false, trap := none, ready := true, result := 0 }
def returning : State := setItem { base with actor := .item 0 } 0 (.parked away)
def request0 : TableReq := { arrived := 0, actor := .context 64 0, instr := .fpoll 127 14, words := [], victims := [] }
def serving : State :=
  { setCtx base 64 0 { ctx0 with st := .waiting .table, g := [(14, 0xF500000000000000)] } with
    table := { FutTable.reset with live := [(0, waited0)], requests := [request0] } }

theorem wit_FutureEvents_returns :
    returning.actor = .item 0 ∧ itemOf returning 0 = some (.parked away) ∧ crewRunning returning 1 = true ∧ (scullOf returning 64).fenced = false
      ∧ setHas returning.isolated (64 / 8) = false ∧ roomFor returning 64 1 ctx0.hdr 1 = true ∧ freeSlot returning 64 = some 1
      ∧ startsFrozen (loadImage (dropHold returning 64 0) away).1 64 1 = false ∧ (scullOf returning 64).revokes = []
      ∧ serving.table.requests = [request0] ∧ serving.table.busyAt ≠ some serving.cycle ∧ (ctxOf serving 64 0).st = .waiting .table
      ∧ openFuture serving (ctxOf serving 64 0).asid (readReg (ctxOf serving 64 0) 14) = some waited0 := by
  decide +kernel

/-- A running hart 0 with every right, its handle in x1, the address 0x1000 in x2, and pool 3; one in user mode with no capability. -/
def hart0 : Hart :=
  { Hart.reset with st := .running, caps := [(0, allCap)], x := [(1, 0xF500000000000000), (2, 0x1000)], hfpool := 8 }
def harted (h : Hart) (f : Future) (pool : List FutureIndex) : State :=
  { setHart base 0 h with actor := .hart 0, table := { FutTable.reset with live := [(0, f)], pools := [(3, pool)] } }
def called : Hart := { hart0 with call := some 0xF500000000000000 }

theorem wit_HartInstructions :
    (harted hart0 (future0 .armed) [0]).actor = .hart 0 ∧ (hartOf (harted hart0 (future0 .armed) [0]) 0).st = .running
      ∧ tableFree (harted hart0 (future0 .armed) [0]) (.hart 0) = true ∧ (0x1000 : Word).toNat % 64 = 0
      ∧ oldestCall (harted hart0 (future0 .armed) [0]) 8 = some (0, future0 .armed) ∧ oldestCall (harted hart0 (future0 .armed) []) 8 = none
      ∧ hart0.irq = false ∧ hart0.call = none ∧ called.call.isSome = true ∧ called.call = some (readX called 1)
      ∧ liveFuture (harted called (future0 .pending) []) (readX called 1) = some (future0 .pending) ∧ openToSettle (future0 .pending) = true
      ∧ (future0 .pending).flow = none ∧ hart0.call ≠ some (readX hart0 1)
      ∧ (hartOf (harted { hart0 with st := .waitTake 5 0x1000 } (future0 .armed) []) 0).st = .waitTake 5 0x1000
      ∧ hart0.mode = .machine ∧ (hartReg hart0 0x302).getLsbD 8 = false
      ∧ capsGrant [] 0 (hartRights .load) 0x1000 8 = false ∧ replyLengthOk 8 = true ∧ replyLengthOk 65536 = true := by
  decide +kernel

/-- A reply at 0x1000 in memory, its words fetched for the hart. -/
def putting (n : Nat) : State :=
  { harted called (future0 .pending) [] with memory := memWriteNat tables 0x1000 8 n, agents := [], homes := [] }
def putFetched : State := fetchLine (tableBusy (putting 8)) hartNode (lineOf 0x1000)

theorem wit_HartInstructions_reaches :
    hartReach (setHart (tableBusy (harted hart0 (future0 .armed) [0])) 0 hart0) 0 .store 0x1000 64
        = .at_ (setHart (tableBusy (harted hart0 (future0 .armed) [0])) 0 hart0) 0x1000
      ∧ hartReach (tableBusy (putting 8)) 0 .load 0x1000 8 = .at_ (tableBusy (putting 8)) 0x1000 :=
  ⟨rfl, rfl⟩

theorem wit_HartInstructions_put :
    globalWord (tableBusy (putting 8)) 0x1000 = 8 ∧ (match hartWords putFetched 0 0x1008 (8 / 8) [] with
      | .ok (v, l) => l == [0] && hartOf v 0 == called
      | .error _ => false) = true
      ∧ liveFuture (putting 8) (readX called 1) = some (future0 .pending) ∧ (hartOf (putting 8) 0) = called := by
  decide +kernel

/-- Flows 1 and 2 open, of kinds 1 and 2, at 0x5000; a table of two tools, tool 1 local. -/
def flows (live : Tab Future) (r : TableReq) : State :=
  { withMemory [(0x5020, 0x100000000000000), (0x5040, 0x200000000000000), (0x4010, 0x8000000000000003)] with
    actor := .none
    ep := { Endpoint.reset with flow := 0x5000 }
    table := { FutTable.reset with live := live, requests := [r], base := 0x4000, lsz := 1 } }
/-- Flows whose entries lie outside capacity. -/
def outside : State := { base with ep := { Endpoint.reset with flow := 0x5000 }, mc := { MemCtl.reset with lpsz := 0 } }
def message0 (i : Instr) : TableReq := { arrived := 0, actor := .none, instr := i, words := [], victims := [] }
def proxy0 : Future := { future0 .armed with flow := some (2, 9) }

theorem wit_RemoteCalls :
    flowState (flows [] (message0 .futureTableRequest)) 1 = .open_ ∧ flowKind (flows [] (message0 .futureTableRequest)) 1 = 1
      ∧ flowState (flows [] (message0 .futureTableRequest)) 2 = .open_ ∧ flowKind (flows [] (message0 .futureTableRequest)) 2 = 2
      ∧ flowKind (flows [] (message0 .futureTableRequest)) 3 ≠ 2
      ∧ endpointUp (flows [] (message0 .futureTableRequest)) = true ∧ flowOutside (flows [] (message0 .futureTableRequest)) 1 = false
      ∧ endpointUp { base with power := { Power.reset with bootSt := 2 } } = false ∧ flowState outside 1 = .open_ ∧ flowOutside outside 1 = true
      ∧ toolOf (fetchTool (flows [] (message0 .futureTableRequest)) 0) 0 = none
      ∧ (let s := flows [] (message0 (.remoteCallMessage 2 9 0 1 []))
        s.table.busyAt ≠ some s.cycle ∧ freeFutureIndex s = some 0 ∧ toolOf s 1 = some { remote := false, asid := 0, pool := 3, rtool := 0, flow := 0 }
          ∧ flowAsid s 2 = 0 ∧ s.table.takers = [])
      ∧ (let s := flows [(0, future0 .pending)] (message0 (.remoteReplyMessage 1 0xF500000000000000 []))
        openFuture s (flowAsid s 1) 0xF500000000000000 = some (future0 .pending) ∧ openToSettle (future0 .pending) = true ∧ (future0 .pending).flow = none)
      ∧ (let s := flows [(0, proxy0)] (message0 (.remoteCancelMessage 2 9))
        proxyOf s 2 9 = some (0, proxy0) ∧ futureOf s 0 = some proxy0 ∧ openToSettle proxy0 = true) := by
  decide +kernel

/-- Flow 1 open of kind 0 with window 0, which names scull 64, crew 1, semaphore 2 and 4,096 bytes from offset 0. -/
def window0 : State :=
  { withMemory [(0x5030, 0x10000), (0x5100, 0x100408201), (0x5108, 0x1000)] with ep := { Endpoint.reset with flow := 0x5000, win := 0x5100 } }
def fabric0 : FabricWrite := { crew := 1, off := 0x1000, data := [7, 8], sem := some 2, flow := some 1 }
def fabricState : State := { withScull (fun x => { x with fabric := [fabric0] }) with actor := .scull 64 }

theorem wit_FabricWrites :
    endpointUp { base with power := { Power.reset with bootSt := 2 } } = false ∧ endpointUp base = true ∧ flowState outside 1 = .open_
      ∧ flowOutside outside 1 = true ∧ flowState base 1 ≠ .open_ ∧ flowOutside (flows [] (message0 .futureTableRequest)) 1 = false
      ∧ flowKind (flows [] (message0 .futureTableRequest)) 1 ≠ 0 ∧ endpointUp window0 = true ∧ flowOutside window0 1 = false ∧ flowState window0 1 = .open_ ∧ flowKind window0 1 = 0 ∧ windowEntry window0 ((flowWindows window0 1).1 + 0) = some (0x100408201, 0x1000)
      ∧ 0 < (flowWindows window0 1).2 ∧ (0x100408201 : Word).getLsbD 0 = true ∧ 4088 + 8 * 1 ≤ ((0x1000 : Word).setWidth 32 : BitVec 32).toNat
      ∧ fabricRange (((0x1000 : Word).extractLsb' 32 32 : BitVec 32).toNat + 4088) (8 * 1) = true
      ∧ fabricState.actor = .scull 64 ∧ (scullOf fabricState 64).fabric = [fabric0] ∧ (scullOf fabricState 64).fenced = false
      ∧ pageState fabricState 64 fabric0.crew (fabric0.off / 4096) = some (.pinned 1)
      ∧ (∀ k ∈ List.range 2, tabGet [] (scullOf fabricState 64).wordQueues ((4096 + 8 * k) / 8) = [])
      ∧ tabGet [] (scullOf fabricState 64).semQueues (2 : BitVec 5).toNat = [] ∧ tabGet 0 (scullOf fabricState 64).sems (2 : BitVec 5).toNat ≠ 0xFFFFFFFF := by
  decide +kernel

/-- Aperture 0 of flow 1, for a context's write of 8 bytes at its last place, and a packet that is open, and one that has left. -/
def aperture0 : State :=
  { withMemory [(0x5030, 0x10000), (0x5200, 0x8000000000000001)] with ep := { Endpoint.reset with flow := 0x5000, sap := 0x5200 } }
def packet0 (closed : Bool) : OutPacket :=
  { master := .context 64 0, flow := 1, win := 0, aperture := 0, off := 0, data := [7], opened := 0, closed := closed, crew := 1, held := none }
def packing (closed : Bool) : State := setItem { aperture0 with actor := .item 0, cycle := 64 } 0 (.packet (packet0 closed))

theorem wit_SendApertures :
    apertureSay (fetchAperture aperture0 0) (masterDomain aperture0 (.context 64 0)) (65528 / 65536) = .take 1 0 ∧ [(7 : Word)].length = 1 ∧ 65528 % 8 = 0
      ∧ openPacket (fetchAperture aperture0 0) (.context 64 0) = none
      ∧ openPacket (fetchAperture (packing false) 0) (.context 64 0) = some (0, packet0 false)
      ∧ continues (packet0 false) 1 0 0 8 = true ∧ apertureSay (fetchAperture (packing false) 0) (masterDomain (packing false) (.context 64 0)) (8 / 65536) = .take 1 0
      ∧ (packing false).actor = .item 0 ∧ itemOf (packing false) 0 = some (.packet (packet0 false)) ∧ (packet0 false).opened + 64 ≤ (packing false).cycle
      ∧ itemOf (packing true) 0 = some (.packet (packet0 true)) ∧ packetBehind (packing true) 0 (packet0 true) = false := by
  decide +kernel

/-- Queue 0 with a ring of 16 at 0x6000: empty, with one packet, full, and DISABLED. -/
def queue0 (st : QState) (n : BitVec 32) : Queue := { Queue.reset with state := st, ring := 0x6000, tail := n, capt := 0x7000, priv := true }
def queued (st : QState) (n : BitVec 32) : State := setQueue base 0 (queue0 st n)

theorem wit_QueueWrites :
    HostOpen (queued .enabled 15) ∧ (queueOf (queued .enabled 15) 0).state ≠ .disabled ∧ ringFull (queueOf (queued .enabled 15) 0) = false
      ∧ (queueOf (queued .enabled 15) 0).ring % 64 = 0 ∧ hubInside (queued .enabled 15) (ringEntry (queueOf (queued .enabled 15) 0) 15) 64 = true ∧ HostOpen (queued .disabled 0) ∧ (queueOf (queued .disabled 0) 0).state = .disabled
      ∧ HostOpen (queued .frozen 16) ∧ (queueOf (queued .frozen 16) 0).state ≠ .disabled ∧ ringFull (queueOf (queued .frozen 16) 0) = true := by
  unfold HostOpen; decide +kernel

/-- A packet at the head of queue 0, a domain whose tables map the first GiB, capabilities that grant all, and a header at 0x1000. -/
def packetState (w : List (Nat × Nat)) : State :=
  { setQueue base 0 (queue0 .enabled 1) with
    actor := .none
    agents := []
    homes := []
    roots := [(0, 0x8000000000002000)]
    memory := poke ([(0x2000, 0xC01), (0x3000, 0xDF), (0x7000, 0x801F000000000000), (0x7008, 0x800000000000), (0x1000, 0xE9000800000000)] ++ w) }
def crewPacket : State := packetState [(0x6000, 0x1000001), (0x6008, 0x1008), (0x6010, 64), (0x6020, 0x8000)]
def markerPacket : State := packetState [(0x6000, 2)]

/-- What the launch unit judges: the packet at the head of queue 0, its ring and capability table read through the hub L2. -/
def judged0 (s : State) : State × Judged :=
  let s0 : State := { s with unit := { s.unit with scan := some 0 } }
  let s1 := hubFetch (hubFetch s0 0x6000 64) (0x7000 + 128 * ((hubWord s0 0x6000).extractLsb' 40 8 : BitVec 8).toNat) 128
  judge s1 { blankStart with queue := some 0 } (hubWords s1 0x6000 8) 0

/-- The launch unit finds a crew packet that passes its checks, and a marker. -/
theorem wit_LaunchUnitSteps :
    crewPacket.unit.starts = [] ∧ unitBusy crewPacket = false ∧ chooseQueue crewPacket = some 0 ∧ ringEntry (queueOf crewPacket 0) 0 = 0x6000
      ∧ (queueOf crewPacket 0).capt = 0x7000 ∧ (queueOf crewPacket 0).asid = 0
      ∧ globalPoison { crewPacket with unit := { crewPacket.unit with scan := some 0 } } 0x6000 = false
      ∧ (match (judged0 crewPacket).2 with
        | .crew _ => true
        | _ => false) = true
      ∧ unitBusy markerPacket = false ∧ chooseQueue markerPacket = some 0
      ∧ (match (judged0 markerPacket).2 with
        | .marker => true
        | _ => false) = true
      ∧ packetType (hubWords markerPacket 0x6000 8) = 0x02 ∧ packetWord (hubWords markerPacket 0x6000 8) 5 = 0
      ∧ (queueOf markerPacket 0).state = .enabled ∧ (queueOf markerPacket 0).head ≠ (queueOf markerPacket 0).tail := by
  decide +kernel

/-- A start of one member on scull 66: to be asked for its reservation, and agreed. -/
def start0 (agreed : Nat) (committed : Bool) : Start :=
  { blankStart with queue := some 0, packet := [0x1000001, 0x1008, 66, 0, 0x8000, 0, 0, 0], members := [66], agreed := agreed, judged := true, committed := committed, crew := 2 }
def reserving (agreed : Nat) (committed : Bool) : State :=
  { setQueue base 0 (queue0 .enabled 1) with
    actor := .item 0
    unit := { LaunchUnit.reset with starts := [(0, start0 agreed committed)], nextCrew := 0xFFFFFFFF }
    crews := if committed then [(2, { Crew.none with members := [66], settling := [66], packet := (start0 1 true).packet })] else base.crews }

theorem wit_LaunchUnitSteps_members :
    openStart (reserving 0 false) = some (0, start0 0 false) ∧ (start0 0 false).members[0]? = some 66
      ∧ setHas (reserving 0 false).isolated (66 / 8) = false ∧ memberAgrees (reserving 0 false) (start0 0 false) 0 66 = true
      ∧ memberAgrees (setScull (reserving 0 false) 66 { Scull.reset with fenced := true }) (start0 0 false) 0 66 = false
      ∧ (queueOf (reserving 0 false) 0).state = .enabled ∧ (start0 0 false).isolated = false
      ∧ setHas (reserving 0 false).isolated (66 / 8) = false := by
  decide +kernel

/-- The commit of an agreed start, its arrival at the member, and a crew that has ended. -/
theorem wit_CrewLaunch :
    (reserving 1 false).crews.length < 4294967294 ∧ openStart (reserving 1 false) = some (0, start0 1 false) ∧ (start0 1 false).kind = .crew
      ∧ (start0 1 false).agreed = (start0 1 false).members.length ∧ (queueOf (reserving 1 false) 0).state = .enabled
      ∧ setHas (reserving 1 false).isolated (66 / 8) = false ∧ (reserving 1 true).unit.starts = [(0, start0 1 true)]
      ∧ (∃ x, crewOf (reserving 1 true) 2 = some x ∧ x.members = [66] ∧ x.settling = [66] ∧ x.state = .running)
      ∧ packetNctx (start0 1 true).packet ≤ (freeSlots (reserving 1 true) 66).length ∧ (scullOf (reserving 1 true) 66).fenced = false ∧ (scullOf (reserving 1 true) 66).revokes = []
      ∧ (let s := setCrew base 5 { Crew.none with members := [66] }
        (∃ x, crewOf s 5 = some x ∧ x.state = .running ∧ x.settling = [] ∧ crewDrained s 5 x = true ∧ packetWord x.packet 5 = 0) ∧ crewKeys s 5 = []
          ∧ parkedOf s 5 = [] ∧ launchesFor s 5 = false ∧ s.directory.live = [] ∧ s.table.live = []) := by
  refine ⟨by decide, by decide +kernel, rfl, rfl, by decide +kernel, by decide, rfl, ⟨_, rfl, by decide, by decide, by decide⟩, by decide +kernel, by decide +kernel, by decide +kernel, ?_⟩
  exact ⟨⟨_, rfl, by decide, by decide, by decide +kernel, by decide⟩, by decide +kernel, by decide, by decide, rfl, rfl⟩

/-- A PREEMPT and a RESUME at the head of queue 0, for crew 1. -/
def preemptible (st : CrewState) (w : List (Nat × Nat)) : State :=
  setCrew (packetState w) 1 { crew0 with
    members := [64], packet := [0, 0, 0, 0, 0x8000, 0, 0, 0x200000000009000], state := st, caps := [(0, allCap)], ptroot := 0x2000
    acks := if st = .preempted then [(0, 0, 0x1008)] else []
    preemptStatus := if st = .draining then some ([0, 0, 0, 0, 0, 0, 0, 0], some 0, 0) else none }
def preempting : State := preemptible .running [(0x6000, 0x10), (0x6008, 1)]
def diverting : State := { setCtx preempting 64 0 { ctx0 with ppnd := true } with actor := .context 64 0 }
def resuming : State := preemptible .preempted [(0x6000, 0x11), (0x6008, 1), (0x6010, 66)]

theorem wit_Preemption :
    (queueOf preempting 0).state = .enabled ∧ (queueOf preempting 0).head ≠ (queueOf preempting 0).tail
      ∧ packetType (hubWords preempting 0x6000 8) = 0x10 ∧ (packetWord (hubWords preempting 0x6000 8) 1).setWidth 32 = (1 : CrewId)
      ∧ (crewOf preempting 1).any (fun x => x.cls == .owner && packetPreh x.packet != 0 && x.state == .running && x.settling == []
        && !memberStopped preempting 1 x && packetSave x.packet == 1) = true
      ∧ (∀ e ∈ preempting.crews, e.2.ending = []) ∧ crewKeys preempting 1 = [4096] ∧ (ctxAt preempting 4096).st = .ready ∧ (ctxAt preempting 4096).crew = 1
      ∧ pageState diverting 64 1 1 = some (.pinned 1) ∧ diverting.actor = .context 64 0 ∧ (ctxOf diverting 64 0).ppnd = true
      ∧ (ctxOf diverting 64 0).resv = none ∧ (crewOf diverting (ctxOf diverting 64 0).crew).any (fun x => packetSave x.packet == 1) = true
      ∧ crewParked (setScull (preemptible .draining []) 64 Scull.reset) 1 = true
      ∧ (crewOf (preemptible .draining []) 1).any (fun x => x.cls == .owner && x.state == .draining && x.preemptStatus == some ([0, 0, 0, 0, 0, 0, 0, 0], some 0, 0)) = true
      ∧ packetWord [0, 0, 0, 0, 0, 0, 0, 0] 5 = 0 := by
  decide +kernel

theorem wit_Preemption_resume :
    packetType (hubWords resuming 0x6000 8) = 0x11 ∧ (packetWord (hubWords resuming 0x6000 8) 1).setWidth 32 = (1 : CrewId)
      ∧ (plainReader resuming 0 (hubWords resuming 0x6000 8)).any (fun r => match (placement resuming r false (hubWords resuming 0x6000 8)).2 with
        | .sculls l => l == [66]
        | _ => false) = true
      ∧ (queueOf resuming 0).priv = true ∧ (scullOf resuming 66).fenced = false
      ∧ (crewOf resuming 1).any (fun x => x.state == .preempted && x.members.length == 1 && (restartHeaders resuming x x.acks).2.isSome) = true := by
  decide +kernel

/-- A harvest context in slot 0: to be revoked, waiting for an engine that a revocation freed, and parked. -/
def harvest0 : Ctx := { ctx0 with hdr := { ctx0.hdr with cls := .harvest, frm := 0 } }
def revoking : State := { setCtx base 64 0 harvest0 with actor := .scull 64, sculls := [(64, { scull0 with revokes := [.preempt 0] })] }
def granted : State :=
  { setCtx base 64 0 { ctx0 with st := .waiting (.bind .vector) } with
    actor := .scull 64, sculls := [(64, { scull0 with granting := some (.engine .vector 0, 9), revokes := [.engine .vector 0] })] }
def parked0 (moved : Bool) : Parked :=
  { away with ctx := harvest0, future := none, image := if moved then some 0 else none, moved := moved, ready := false }
def parked (moved : Bool) : State :=
  { base with actor := .item 0, ctxs := [], items := [(0, .parked (parked0 moved))], sculls := [(64, { Scull.reset with hbud := 512, reserve := if moved then [] else [0] })] }

theorem wit_Revocations :
    (ctxOf granted 64 0).back = none ∧ freeImage (parked false) 1 harvest0.cidx = some 0
      ∧ startsFrozen (loadImage (parked true) (parked0 true)).1 64 1 = false ∧ revoking.actor = .scull 64 ∧ (scullOf revoking 64).granting = none ∧ (scullOf revoking 64).revokes = [.preempt 0] ∧ (ctxOf revoking 64 0).st = .ready
      ∧ (ctxOf revoking 64 0).hdr.cls = .harvest ∧ (ctxOf revoking 64 0).size ≠ 0 ∧ boundEngines revoking 64 0 = [] ∧ (ctxOf revoking 64 0).resv = none
      ∧ reserveRoom revoking 64 (ctxOf revoking 64 0) = true ∧ classKeys revoking 64 .harvest = [ctxKey 64 0]
      ∧ (scullOf granted 64).granting = some (.engine .vector 0, 9) ∧ (ctxOf granted 64 0).st = .waiting (.bind .vector) ∧ (engineOf granted 64 .vector).bound = none
      ∧ itemOf (parked false) 0 = some (.parked (parked0 false)) ∧ imageBusy (parked false) harvest0 = false ∧ (scullOf (parked false) 64).granting = none
      ∧ (parked true).items = [(0, .parked (parked0 true))] ∧ isFrozen harvest0 = false ∧ mayResume (parked true) 0 (parked0 true) 64 = true
      ∧ freeSlot (parked true) 64 = some 0 := by
  decide +kernel

/-- A page of crew 1 in a state, on a scull without and with a reservation in its frame. -/
def paged (p : PageState) (resvs : List ResvWord) : State :=
  { setScull rooted 64 { scull0 with
      frames := [], groups := [(1, { cls := .owner, frm := 1, pages := [(0, p)], kept := none, waiters := [], imagePoison := [], images := [] })], resvs := resvs } with
    crews := [(1, { crew0 with packet := [0, 0, 0, 0, 0x8000, 0, 0, 0], ptroot := 0x2000 })] }

/-- A plain load of the page's own scull is on its way to it. -/
def outgoing : State :=
  setItem (paged (.pinned 3) []) 0 (.access {
    sc := 64, slot := 0, op := .load true, place := .page 64 1 0x10, ea := 0x10, size := 8, fe := .plain, ov := false, d := 3, scope := .plain, asid := 0,
    sent := 0, phase := .inFlight, crew := 1 })

theorem wit_PageMoves :
    (∀ p ∈ [PageState.pinned 3, .unpinning 3, .refilling none, .refilling (some 3)], ∃ g, groupOf (paged p []) 64 1 = some g ∧ 0 < g.frm ∧ tabFind g.pages 0 = some p)
      ∧ frameReserved (scullOf (paged (.pinned 3) []) 64) 3 = false
      ∧ frameReserved (scullOf (paged (.pinned 3) [{ word := 1536, holder := none, queue := [] }]) 64) 3 = true
      ∧ (scullOf (paged (.unpinning 3) []) 64).wordQueues = [] ∧ (scullOf (paged (.unpinning 3) []) 64).sipWaiters = []
      ∧ pageWanted (paged (.unpinning 3) []) 64 1 0 = false ∧ promisedTo (scullOf (paged (.refilling none) []) 64) (.page 1 0) = []
      ∧ (openFrames (scullOf (paged (.refilling none) []) 64)).head? = some 0 ∧ frameClear (scullOf (paged (.refilling (some 3)) []) 64) 3 = true
      ∧ pageImage (paged (.refilling (some 3)) []) 1 64 0 = some (0x8000, 0, 0x2000) ∧ plainOutstanding (paged (.pinned 3) []) 64 1 0 = false
      ∧ plainOutstanding outgoing 64 1 0 = true := by
  refine ⟨?_, by decide +kernel, by decide +kernel, by decide +kernel, by decide +kernel, by decide, by decide, by decide +kernel, by decide +kernel, by decide +kernel, by decide +kernel, by decide +kernel⟩
  intro p h
  simp only [List.mem_cons, List.mem_nil_iff, or_false] at h
  rcases h with rfl | rfl | rfl | rfl <;> exact ⟨_, rfl, by decide, by decide⟩

/-- The image of 65 beats is there to be read. -/
theorem wit_PageMoves_image : (coxLoad (paged (.refilling (some 3)) []) 64 0 0x2000 0x8000 65).isSome = true := by decide +kernel

/-- A record to write with room in a log of 64 KiB at 0x8000, and a context that waits for verdict 7. -/
def record0 : FaultRec := { type := 3, kind := 0, asid := 0, seq := 0, master := 0, addr := 0, pc := 0, detail := 0, who := 0, gtc := 0 }
def recording : State := { base with fs := { FaultUnit.reset with logBase := 0x8000, svcHost := true, held := [record0] } }
def verdict : State :=
  { withCtx (fun c => { c with st := .waiting (.reissue (.dropped 7 0x1000)) }) with fs := { FaultUnit.reset with awaiting := [(7, .context 64 0)] } }

theorem wit_FaultService :
    recording.fs.held = [record0] ∧ logFull recording.fs = false ∧ recording.fs.logBase % 64 = 0 ∧ HostOpen base
      ∧ hubInside recording (0x8000 + 64 * (recording.fs.tail.toNat % logSlots recording.fs)) 64 = true
      ∧ verdict.fs.awaiting = [(7, .context 64 0)] ∧ (ctxOf verdict 64 0).st = .waiting (.reissue (.dropped 7 0x1000)) ∧ HostOpen verdict
      ∧ 2 ≤ (2 : BitVec 8).toNat ∧ (1 : BitVec 8).toNat < 2 ∧ base.fs.awaiting = [] ∧ (ctxAt base 4096).st = .ready
      ∧ (linkOf (ctxAt base 4096) 3).present = false ∧ supervisorOf base 1 (fun c => !isFrozen c) = some 4096
      ∧ supervisorOf base 1 (fun _ => true) = some 4096 := by
  unfold HostOpen; decide +kernel

/-- g14 names slot 1 of scull 64, g15 its copy engine and g16 hart 0; slot 1 FROZEN, running and FREE, the engine and the hart frozen and not. -/
def mastered (st : CtxState) (frozen : Bool) : State :=
  { setCtx base 64 0 { ctx0 with g := ctx0.g ++ [(14, 0x400001), (15, 0x1000000000400002), (16, 0x2000000000000000), (17, 0x5000000000000000)] } with
    ctxs := [(4096, { ctx0 with g := ctx0.g ++ [(14, 0x400001), (15, 0x1000000000400002), (16, 0x2000000000000000), (17, 0x5000000000000000)] }),
      (4097, { ctx0 with st := st })]
    engines := [(258, { Engine.reset with frz := frozen })]
    harts := [(0, { Hart.reset with st := if frozen then .frozen else .idle })] }

theorem wit_MastersThawedAndKilled_issues :
    Issues (mastered (.frozen .ready) true) 64 0 [14] [3] true ∧ Issues (mastered .ready false) 64 0 [14] [3] true
      ∧ Issues (mastered .free true) 64 0 [14] [3] true ∧ Issues (mastered .ready true) 64 0 [15] [3] true
      ∧ Issues (mastered .ready true) 64 0 [16] [3] true ∧ Issues (mastered .ready true) 64 0 [17] [3] true := by
  unfold Issues; decide

/-- Slot 0 waits for its MTHAW or MKILL of a master to act. -/
def acting (m : Option Master) : State := setCtx (mastered .ready true) 64 0 { ctx0 with st := .waiting (.master 3 m) }

theorem wit_MastersThawedAndKilled_acts :
    [some (Master.context 64 1), some (.engine 64 .copy), some (.engine 64 .matrix), some (.hart 0), some (.pcie 0), some (.pcie 1), some (.flow 1), none].all (fun m => decide ((acting m).actor = .context 64 0)
      && decide ((ctxOf (acting m) 64 0).st = .waiting (.master 3 m)) && decide ((ctxOf (acting m) 64 0).back = none)) = true := by
  decide

theorem wit_MastersThawedAndKilled :
    (ctxOf (mastered (.frozen .ready) true) 64 1).st = .frozen .ready ∧ isFrozen (ctxOf (mastered .ready false) 64 1) = false
      ∧ (ctxOf (mastered .ready false) 64 1).st ≠ .free ∧ (ctxOf (mastered .free true) 64 1).st = .free
      ∧ (engineOf (mastered .ready true) 64 .copy).frz = true ∧ (engineOf (mastered .ready false) 64 .copy).frz = false
      ∧ (hartOf (mastered .ready true) 0).st = .frozen ∧ (hartOf (mastered .ready false) 0).st ≠ .frozen ∧ (hartOf (mastered .ready true) 0).call = none
      ∧ (mastered .ready true).isolated = [] ∧ ctxKey 64 1 ≠ ctxKey 64 0 := by
  decide

/-- A FROZEN context with a sibling, its access on the way; one of a shell that is isolated; an engine bound to slot 1, idle with a command queued. -/
def killing : State :=
  setItem (setCtx (setCtx (acting (some (.context 64 1))) 64 1 { ctx0 with st := .frozen .ready }) 64 2 ctx0) 0 (.access (atBank (.store 5) .plain))
def killingEngine (e : EngineId) : State :=
  setEngine (acting (some (.engine 64 e))) 64 e { Engine.reset with bound := some 1, frz := e == .copy, queue := [command clearRecord] }

theorem wit_MastersThawedAndKilled_kills :
    (ctxOf killing 64 1).st = .frozen .ready ∧ (ctxOf killing 64 1).resv = none ∧ boundEngines killing 64 1 = []
      ∧ crewOf killing 1 = some crew0 ∧ crew0.barriers = [] ∧ 4098 ∈ crewKeys killing 1 ∧ 4098 ≠ ctxKey 64 1 ∧ 4098 / 64 = (64 : ScullId).toNat
      ∧ killing.items = [(0, .access (atBank (.store 5) .plain))] ∧ (ctxOf killing 64 1).size ≠ 0
      ∧ setHas { killing with isolated := [8] }.isolated ((64 : ScullId).toNat / 8) = true := by
  decide +kernel

theorem wit_MastersThawedAndKilled_engines :
    [EngineId.matrix, .vector, .copy].all (fun e => decide ((engineOf (killingEngine e) 64 e).bound = some 1)
      && decide (e = .copy → (engineOf (killingEngine e) 64 e).frz = true) && decide ((engineOf (killingEngine e) 64 e).started = false)
      && decide ((engineOf (killingEngine e) 64 e).bindQueue = []) && decide ((ctxOf (killingEngine e) 64 1).engineTraps = [])
      && decide (waitsEngine (ctxOf (killingEngine e) 64 1) e = false)) = true
      ∧ (engineOf (acting none) 64 .matrix).bound = none := by
  decide +kernel

/-- The PCIe function frozen with a request held, and flow 1 frozen. -/
def frozenPcie : State :=
  { acting (some (.pcie 0)) with host := { HostPort.reset with frozen := [0], requests := [.gtcStep 1] } }
def frozenFlow : State :=
  { acting (some (.flow 1)) with memory := poke [(0x5020, 0x2000000000000000)], agents := [], homes := [], ep := { Endpoint.reset with flow := 0x5000 } }
theorem wit_MastersThawedAndKilled_outside :
    setHas frozenPcie.host.frozen 0 = true ∧ setHas (acting (some (.pcie 0))).host.frozen 0 = false ∧ (1 : BitVec 8) ≠ 0
      ∧ flowState frozenFlow 1 = .frozen ∧ flowEntry frozenFlow 1 = some 0x5020 ∧ 0x5020 % 8 = 0 ∧ frozenFlow.mc.moving = false
      ∧ frozenFlow.table.live = [] ∧ flowState (acting (some (.flow 1))) 1 ≠ .frozen := by
  decide +kernel

theorem wit_MastersThawedAndKilled_operands :
    readReg (ctxOf (mastered .ready true) 64 0) 14 = (0 : BitVec 37) ++ (64 : ScullId) ++ (0 : BitVec 10) ++ (1 : Slot)
      ∧ readReg (ctxOf (mastered .ready true) 64 0) 15 = (1 : BitVec 4) ++ (0 : BitVec 33) ++ (64 : ScullId) ++ (0 : BitVec 14) ++ (2 : BitVec 2)
      ∧ readReg (ctxOf (mastered .ready true) 64 0) 16 = (2 : BitVec 4) ++ (0 : BitVec 53) ++ (0 : HartId)
      ∧ 5 ≤ ((readReg (ctxOf (mastered .ready true) 64 0) 17).extractLsb' 60 4 : BitVec 4).toNat :=
  ⟨rfl, rfl, rfl, by decide⟩

/-- A scull whose heartbeat is missed, with a context and its crew, and an access of scull 65 that waits at a word of it; one that is fenced. -/
def missing : State := { setScull base 64 { scull0 with hbgov := 5, hbcnt := 5 } with actor := .scull 64 }
def foreign0 : Access := { atBank (.load true) .sync with sc := 65, place := .page 64 1 0x1000, phase := .atWord }
def missingOther : State :=
  setItem (setCtx (setScull missing 64 { scull0 with hbgov := 5, hbcnt := 5, wordQueues := [(512, [0])] }) 65 0
    { ctx0 with st := .waiting (.access 0) }) 0 (.access foreign0)
def fencedScull : State := { setScull base 64 { scull0 with fenced := true } with actor := .scull 64 }

theorem wit_FencesAndIsolation :
    [missing, missingOther].all (fun s => decide (s.actor = .scull 64) && decide ((scullOf s 64).hbgov ≠ 0)
        && decide ((scullOf s 64).hbgov.toNat ≤ (scullOf s 64).hbcnt.toNat) && !(scullOf s 64).hbMissed && !(scullOf s 64).fenced
        && decide ((scullOf s 64).sipWaiters = []) && s.items.all (fun e => match e.2 with | .send _ => false | _ => true)
        && s.ctxs.all fun e => e.2.resv.isNone) = true
      ∧ foreignWaiters missing 64 = [] ∧ foreignWaiters missingOther 64 = [0] ∧ accessOf missingOther 0 = some foreign0 ∧ foreign0.ov = false
      ∧ (ctxOf missingOther 65 0).st = .waiting (.access 0) ∧ (ctxOf missingOther 65 0).hnd = false ∧ (ctxOf missingOther 65 0).tvec ≠ 0
      ∧ fencedScull.actor = .scull 64 ∧ (scullOf fencedScull 64).fenced = true ∧ setHas fencedScull.isolated ((64 : ScullId).toNat / 8) = false := by
  decide +kernel

/-- A shell that fails, with a context and its crew, and one that may return. -/
theorem wit_FencesAndIsolation_shell :
    setHas base.isolated (8 : ShellId).toNat = false ∧ base.items = [] ∧ base.directory.live = [] ∧ (∀ e ∈ base.ctxs, e.2.resv = none)
      ∧ (∀ e ∈ base.crews, e.2.barriers = []) ∧ base.engines = [] ∧ (∀ e ∈ base.sculls, e.2.sipWaiters = [])
      ∧ setHas base.coxFailed ((8 : ShellId).toNat ^^^ 1) = false ∧ setHas { base with coxFailed := [9] }.coxFailed ((8 : ShellId).toNat ^^^ 1) = true
      ∧ setHas { State.reset with isolated := [255] }.isolated (255 : ShellId).toNat = true := by
  decide +kernel
theorem wit_FencesAndIsolation_returns (y : ScullId) : scullKeys { State.reset with isolated := [255] } y = [] := rfl

/-- A slot that is not FREE, and limits that are met and exceeded. -/
theorem wit_ErrorsAndPower :
    (ctxOf base 64 0).st ≠ .free ∧ base.power.lim.toNat < 2401 ∧ ¬(base.power.lim.toNat < 2400 ∨ 105 < [105].foldl max 0) ∧ 105 < [106].foldl max 0 := by
  decide

/-- A context that waits for the last report, one that waits for a walk, and one that waits for a line. -/
def invalidating : State := withCtx fun c => { c with st := .waiting (.tlb 0 none [3]) }
def walking : State := { rooted with ctxs := [(4096, { ctx0 with ptroot := 0x2000, st := .waiting (.reissue (.walk 0x1000 .load)) })] }
def walkingOut : State := { rooted with ctxs := [(4096, { ctx0 with ptroot := 0x2000, st := .waiting (.reissue (.walk 0x40000000 .load)) })] }
def filling : State := withCtx fun c => { c with st := .waiting (.reissue (.ifetch 0x1000)) }

theorem wit_TlbMaintenance :
    Issues base 64 0 [127] [] true ∧ (ctxOf invalidating 64 0).st = .waiting (.tlb 0 none [3]) ∧ agentBusy invalidating none 3 = false ∧ (ctxOf invalidating 64 0).back = none
      ∧ walking.actor = .context 64 0 ∧ (ctxOf walking 64 0).st = .waiting (.reissue (.walk 0x1000 .load))
      ∧ (shellWalk walking (shellOf 64) 0 0x2000 0x1000 .load false).2 = .leaf 0x3000 0xDF 2
      ∧ (ctxOf walkingOut 64 0).st = .waiting (.reissue (.walk 0x40000000 .load))
      ∧ (shellWalk walkingOut (shellOf 64) 0 0x2000 0x40000000 .load false).2 = .fault 2 .notValid
      ∧ (ctxOf filling 64 0).st = .waiting (.reissue (.ifetch 0x1000)) ∧ (agentOf filling (shellNode 64)).dead = false := by
  unfold Issues; decide +kernel

/-- Line 64 at nobody, headed by an agent, and with a transaction open. -/
def line0 (st : Moesi) (prev next : Option Node) : Line := { st := st, prev := prev, next := next, data := 5, poison := false }
def holding (n : Node) (l : Line) (h : HomeLine) : State :=
  { setAgent base n { Agent.reset with lines := [(64, l)] } with homes := [(64, h)] }
def headed (n : Node) : HomeLine := { HomeLine.reset with head := some n }

/-- A message that travels for agent 3, or a request with an older progress. -/
def carried (inc : BitVec 8) (s : State) : State := { s with actor := .agent 3 inc }
def stamped (s : State) : State := { s with actor := .request { phase := 0, chunk := 0 } }

theorem wit_CoherenceRequests :
    (agentOf base 3).inc = 0 ∧ copyOf base 3 65 = none ∧ homeOf base 65 = .reset ∧ inMotion base 65 = false
      ∧ inMotion { base with mc := { MemCtl.reset with mphase := 1, fail := 14, moving := true } } (hbmBase / 64 + 16 * 14) = true
      ∧ (stamped { base with mc := { MemCtl.reset with fail := 14, mphase := 1, chunk := 1 } }).actor = .request { phase := 0, chunk := 0 }
      ∧ granulePlace (stampMc (stamped { base with mc := { MemCtl.reset with fail := 14, mphase := 1, chunk := 1 } }).mc { phase := 0, chunk := 0 }) 14
        ≠ granulePlace (stamped { base with mc := { MemCtl.reset with fail := 14, mphase := 1, chunk := 1 } }).mc 14
      ∧ (homeOf (holding 4 (line0 .m none none) (headed 4)) 64).head = some 4 ∧ (homeOf (holding 4 (line0 .m none none) (headed 4)) 64).tx = none
      ∧ (homeOf { base with homes := [(64, { headed 4 with tx := some (.read 3 0) })] } 64).tx = some (.read 3 0)
      ∧ (homeOf { base with homes := [(64, { headed 4 with tx := some (.read 3 0) })] } 64).queue = [] ∧ (agentOf base 3).inc ≠ 1 ∧ (agentOf base 3).dead = false
      ∧ (carried 1 base).actor = .agent 3 1 ∧ (agentOf (carried 1 base) 3).inc ≠ 1 := by
  decide +kernel

theorem wit_CoherenceMoves :
    copyOf (carried 0 (holding 4 (line0 .m none none) (headed 4))) 4 64 = some (line0 .m none none) ∧ (4 : Node) ≠ 3
      ∧ copyOf (carried 0 (holding 4 (line0 .m none none) (headed 4))) 3 64 = none
      ∧ (homeOf (carried 0 (holding 4 (line0 .m none none) (headed 4))) 64).head = some 4
      ∧ (carried 0 (holding 4 (line0 .m none none) (headed 4))).actor = .agent 3 0
      ∧ (agentOf (carried 0 (holding 4 (line0 .m none none) (headed 4))) 3).inc = 0
      ∧ (agentOf (carried 0 (holding 4 (line0 .m none none) (headed 4))) 3).dead = false
      ∧ (homeOf (carried 0 (holding 4 (line0 .m none none) { headed 3 with prior := some 4, tx := some (.write 3 0) })) 64).prior = some 4
      ∧ (homeOf { base with homes := [(64, { headed 4 with tx := some (.writeback 4 0) })] } 64).tx = some (.writeback 4 0)
      ∧ (∀ p ∈ base.agenda, lineMessage 64 p.instr = false)
      ∧ copyOf (carried 0 (holding 4 (line0 .s (some 3) (some 5)) (headed 3))) 4 64 = some (line0 .s (some 3) (some 5))
      ∧ (carried 0 (holding 4 (line0 .s (some 3) (some 5)) (headed 3))).actor = .agent 3 0
      ∧ (agentOf (carried 0 (holding 4 (line0 .s (some 3) (some 5)) (headed 3))) 3).inc = 0
      ∧ (agentOf base 4).inc = 0 ∧ (agentOf base 3).stores = [] ∧ (line0 .m none none).next = none
      ∧ tabFind (agentOf (holding 4 (line0 .o none none) (headed 4)) 4).lines 64 = some (line0 .o none none)
      ∧ (agentOf (holding 4 (line0 .o none none) (headed 4)) 4).leaving.length < 8
      ∧ tabFind (agentOf (holding 4 (line0 .e none none) (headed 4)) 4).lines 64 = some (line0 .e none none)
      ∧ (homeOf (holding 4 (line0 .e none none) (headed 4)) 64).tx = none
      ∧ tabFind (agentOf (setAgent base 4 { Agent.reset with leaving := [(64, line0 .m none none)] }) 4).leaving 64 = some (line0 .m none none)
      ∧ (homeOf base 65).tx = none ∧ (homeOf base 65).queue = [] ∧ inMotion base 64 = false ∧ copyOf (holding 4 (line0 .s (some 3) none) (headed 3)) 4 64 = some (line0 .s (some 3) none)
      ∧ (agentOf base 4).dead = false
      ∧ (let s := setAgent base 4 { Agent.reset with lines := [(64, line0 .m none none)], dead := true }
        (agentOf s 4).dead = true ∧ { s with homes := [] }.homes = [] ∧ (agentOf s 4).lines = [(64, line0 .m none none)] ∧ (agentOf s 4).leaving = []) := by
  decide +kernel

/-- The memory registers in each phase, the stack to retire vacated or not. -/
def retiring (phase chunk : BitVec 32) (vacd vacating : Bool) : State :=
  { base with mc := { MemCtl.reset with mphase := phase, chunk := chunk, vacd := vacd, vacating := vacating, memcap := hbmBase + 15 * stackBytes, fail := 14 } }

theorem wit_MemoryStacks :
    (retiring 0 0 false false).mc.mphase.toNat % 4 = 0 ∧ ((0x20000000000 + 15 * 51539607552 : Word).extractLsb' 0 52 : BitVec 52).toNat = hbmBase + 15 * stackBytes
      ∧ ((0x20000000000 + 16 * 51539607552 : Word).extractLsb' 0 52 : BitVec 52).toNat = hbmBase + 16 * stackBytes ∧ (retiring 1 0 true false).mc.mphase.toNat % 4 ≠ 0
      ∧ (retiring 0 0 false true).mc.vacating = true ∧ aboveCapPending (retiring 0 0 false true) = false
      ∧ retireRefusal (retiring 0 0 false false).mc 14 = some 2 ∧ (retiring 0 0 true false).mc.vacd = true
      ∧ (retiring 0 0 true false).mc.memcap = hbmBase + ((retiring 0 0 true false).mc.s - 1) * stackBytes
      ∧ (14 : BitVec 4).toNat + 1 < (retiring 0 0 true false).mc.s
      ∧ chunkQuiet (retiring 1 3070 true false) = true ∧ chunkQuiet (retiring 3 1 true false) = true ∧ (retiring 1 0 true false).mc.moving = false
      ∧ { (retiring 1 0 true false).mc with moving := true }.moving = true
      ∧ (retiring 1 3070 true false).mc.chunk.toNat < 3071 ∧ (retiring 3 1 true false).mc.chunk ≠ 0 ∧ (retiring 3 0 true false).mc.chunk = 0
      ∧ HostOpen (retiring 0 0 true false) ∧ barOpen State.reset = false ∧ hbmBase ≤ (hbmBase + 1024 * 14) / 64 * 64
      ∧ granulePlace (stampMc (retiring 1 1 true false).mc { stampHere (retiring 1 1 true false) with phase := 0, chunk := 0 }) 14
        ≠ granulePlace (retiring 1 1 true false).mc 14
      ∧ ¬hbmBase ≤ 0x1000 / 64 * 64 := by
  unfold HostOpen; decide +kernel

/-- A migration's first and last chunks, with the map of R391. -/
theorem wit_MigrationKeepsContents :
    Canonical (retiring 1 3070 true false) ∧ (∀ s ∈ [retiring 1 0 true false, retiring 1 3070 true false, retiring 3 1 true false, retiring 3 46079 true false],
      (∀ e ∈ s.homes, e.2.stalled = []) ∧ s.mc.s ≤ 16 ∧ 2 ≤ s.mc.s ∧ s.mc.stkmap.length = 16 ∧ s.mc.stkmap.Nodup ∧ s.mc.fail.toNat + 1 < s.mc.s ∧ hbmBase ≤ hbmBase
        ∧ hbmBase + (s.mc.s - 1) * stackBytes - 1 < hbmBase + (s.mc.s - 1) * stackBytes)
      ∧ (retiring 3 46079 true false).mc.chunk.toNat < ((retiring 3 46079 true false).mc.s - 1) * 3072 := by
  unfold Canonical; decide +kernel

/-- A signal held, with room in a ring at 0x1000. -/
def signalled : State := { base with host := { HostPort.reset with ring := 0x1000, lsz := 4, held := [{ sign := 1, user := 2 }] } }

theorem wit_DeviceRegisters :
    signalled.host.held = [{ sign := 1, user := 2 }] ∧ hostFull signalled.host = false ∧ signalled.host.ring.toNat % 4096 = 0 ∧ HostOpen base
      ∧ HostOpen { base with turn := 1 } ∧ base.turn = 0 ∧ 65535 < 65536 ∧ 4095 < 4096 ∧ (queueOf base 4095).state = .disabled := by
  unfold HostOpen; decide

theorem wit_BootAndManagement :
    HostOpen base ∧ isFrozen (ctxOf (withCtx fun c => { c with st := .frozen .ready }) 64 0) = true ∧ regInLimit (ctxOf base 64 0) 127 = true
      ∧ isFrozen (ctxOf base 64 0) = false ∧ base.config.ports.getLsbD (7 : BitVec 3).toNat = true
      ∧ endpointUp base = true ∧ endpointUp { base with power := { Power.reset with bootSt := 2 } } = false
      ∧ { base with config := { base.config with ports := 0x7F } }.config.ports.getLsbD (7 : BitVec 3).toNat = false := by
  unfold HostOpen; decide

/-- A boot fails or does not, as the signatures say. -/
theorem wit_BootAndManagement_boots (f : Flash) : bootFailure f = none ∨ ∃ code, bootFailure f = some code := by
  cases h : bootFailure f with
  | none => exact .inl rfl
  | some code => exact .inr ⟨code, rfl⟩


/-! ### DecodeEncodeRoundTrip, DecodedIsWellFormed, StepRunsDecoded, StepKeepsCanonical -/

theorem wit_DecodeEncodeRoundTrip :
    (Instr.add 3 4 5).wellFormed = true ∧ encode (.add 3 4 5) = some 0x01001840A0000000
      ∧ encodeHart (.hfutTake 10 11) = some 0x0005852B := by decide

theorem wit_DecodedIsWellFormed : decode 0x01001840A0000000 = .ok (.add 3 4 5) := rfl

/-- After reset the step RESET is due. -/
theorem wit_StepRunsDecoded_due : State.reset.fatal = false ∧ takeDue State.reset = some (.reset, { State.reset with agenda := [] }) :=
  ⟨rfl, rfl⟩

theorem wit_StepRunsDecoded_fatal : ({ State.reset with fatal := true } : State).fatal = true := rfl

/-- ADD g3, g4, g5 placed in memory, its page and line held, and its context's turn. -/
def placed : State := State.reset.withFetchWord 64 0x01001840A0000000
def placedIssue : State := markIssue placed 64 0

theorem wit_StepRunsDecoded_issue : placed.fatal = false ∧ takeDue placed = none ∧ nextIssue placed = some (64, 0) := by decide +kernel
theorem wit_StepRunsDecoded_context :
    let c := ctxOf placedIssue 64 0
    c.deferred = [] ∧ c.engineTraps = [] ∧ c.ppnd = false ∧ canonical c.pc = true ∧ capsGrant c.caps c.asid rightsFetch c.pc.toNat 8 = true := by
  decide +kernel
/-- The state after the translation's hit: the TLB notes the use. -/
def placedHit : State :=
  match translate placedIssue 64 0 (ctxOf placedIssue 64 0) (ctxOf placedIssue 64 0).pc .fetch with
  | .hit s _ => s
  | .miss s => s
theorem wit_StepRunsDecoded_translate :
    translate placedIssue 64 0 (ctxOf placedIssue 64 0) (ctxOf placedIssue 64 0).pc .fetch = .hit placedHit 0x100000 := by decide +kernel
theorem wit_StepRunsDecoded_fetch :
    contextMay placedHit 64 0x100000 8 rightsFetch = true ∧ inRegisters 0x100000 = false
      ∧ setHas (scullOf placedHit 64).icache (0x100000 / 64) = true ∧ globalPoison placedHit 0x100000 = false
      ∧ tabFind (ctxOf placedHit 64 0).fetched 0x100000 = none ∧ agentWord placedHit (shellNode 64) 0x100000 = 0x01001840A0000000
      ∧ decode (agentWord placedHit (shellNode 64) 0x100000) = .ok (.add 3 4 5) := by decide +kernel

/-- HFUT.TAKE, an unassigned word of custom-1, and a floating-point word of RISC-V (FADD.S), each placed for hart 0. -/
def hartTaking : State := State.reset.withFetchWord 32 0x0005852B
def hartIllegal : State := State.reset.withFetchWord 32 0x0205A52B
def hartOther : State := State.reset.withFetchWord 32 0x00007053

theorem wit_StepRunsDecoded_hart :
    hartTaking.fatal = false ∧ takeDue hartTaking = none ∧ nextIssue hartTaking = none ∧ nextHart hartTaking = some 0
      ∧ hartReach { hartTaking with turn := 2049 } 0 .fetch (hartOf hartTaking 0).pc 4 = .at_ { hartTaking with turn := 2049 } 0x100000
      ∧ decodeHart (BitVec.ofNat 32 (globalRead (fetchLine { hartTaking with turn := 2049 } hartNode (lineOf 0x100000)) 0x100000 4)) = .ok (.hfutTake 10 11) := by decide +kernel
theorem wit_StepRunsDecoded_hartIllegal :
    nextIssue hartIllegal = none ∧ nextHart hartIllegal = some 0
      ∧ hartReach { hartIllegal with turn := 2049 } 0 .fetch (hartOf hartIllegal 0).pc 4 = .at_ { hartIllegal with turn := 2049 } 0x100000
      ∧ decodeHart (BitVec.ofNat 32 (globalRead (fetchLine { hartIllegal with turn := 2049 } hartNode (lineOf 0x100000)) 0x100000 4)) = .error .illegalCode := by decide +kernel
theorem wit_StepRunsDecoded_hartOther :
    nextIssue hartOther = none ∧ nextHart hartOther = some 0
      ∧ hartReach { hartOther with turn := 2049 } 0 .fetch (hartOf hartOther 0).pc 4 = .at_ { hartOther with turn := 2049 } 0x100000
      ∧ decodeHart (BitVec.ofNat 32 (globalRead (fetchLine { hartOther with turn := 2049 } hartNode (lineOf 0x100000)) 0x100000 4)) = .error .notCustom1 := by decide +kernel

/-- CSRRW x0, hfpool, x5, written out from RISC-V's encoding and R372's number, placed for hart 0 in machine mode, and the same in user mode. -/
def hartCsrPlaced : State := State.reset.withFetchWord 32 0x5D029073
theorem wit_StepRunsDecoded_hartCsr :
    nextIssue hartCsrPlaced = none ∧ nextHart hartCsrPlaced = some 0
      ∧ (hartWord (fetchLine { hartCsrPlaced with turn := 2049 } hartNode (lineOf 0x100000)) 0
        (BitVec.ofNat 32 (globalRead (fetchLine { hartCsrPlaced with turn := 2049 } hartNode (lineOf 0x100000)) 0x100000 4))).isSome = true
      ∧ hartWord hartOther 0 0x00007053 = none := by decide +kernel
theorem wit_HartInstructions_modes :
    (hartOf hartCsrPlaced 0).mode ≠ .user ∧ (hartOf (setHart hartCsrPlaced 0 { hartOf hartCsrPlaced 0 with mode := .user }) 0).mode = .user := by decide +kernel
/-- A write of hcap0L keeps the reserved bits zero and the other half (R43, R372). -/
theorem test_hart_csr_capability :
    capOf (hartCsrWrite { Hart.reset with caps := [(0, 0x7 <<< 64)] } 0x5C0 0xFFFFFFFFFFFFFFFF).caps 0 = 0x7801FFFFFFFFFFFFF := by decide +kernel

/-- A machine with nothing due and nobody to issue. -/
def idle : State := { State.reset with agenda := [] }
theorem wit_StepRunsDecoded_idle :
    idle.fatal = false ∧ takeDue idle = none ∧ nextIssue idle = none ∧ nextHart idle = none := by decide +kernel

def isNext (r : Result) : Bool :=
  match r with
  | .next _ => true
  | _ => false

theorem wit_StepKeepsCanonical : Memory.wf placed.memory = true ∧ placed.memory ≠ [] ∧ isNext (step placed) = true := by decide +kernel

end Sys2Proof.Tests
end

section
/-! SUPPORT. The scalar and control instructions (R78 to R92, R116 to R118): what each integer function computes, what a division, a branch
and a jump leave, and what a trap that freezes its context leaves of it and of the fault unit. -/

namespace Sys2Proof.Machine

/-! ### Instructions with nothing in their way -/

/-- An instruction whose meaning begins with the checks of R56, and that has nothing in its way, leaves what its body says. -/
theorem exec_of_issues {s : State} {sc : ScullId} {slot : Slot} {i : Instr} {reads writes : List Reg} {privileged : Bool}
    {body : State → ScullId → Slot → Ctx → State} (h : Issues s sc slot reads writes privileged)
    {u : State} (he : exec i s = .next (issueBy i reads writes privileged body s)) (hu : body s sc slot (ctxOf s sc slot) = u) :
    exec i s = .next u :=
  he.trans (congrArg _ ((issueBy_of_issues h).trans hu))

/-- The shared forms of Integer.lean: the instruction gives what its function computes from the registers read. -/
theorem gives_alu3 {s : State} {sc : ScullId} {slot : Slot} {i : Instr} {d a b : Reg} {f : Word → Word → Word} {P : Word → Prop}
    (h : Issues s sc slot [a, b] [d] false) (he : exec i s = .next (alu3 i d a b f s))
    (hP : P (f (readReg (ctxOf s sc slot) a) (readReg (ctxOf s sc slot) b))) : Gives s sc slot i d P :=
  ⟨_, exec_of_issues h he rfl, hP⟩

theorem gives_alu2 {s : State} {sc : ScullId} {slot : Slot} {i : Instr} {d a : Reg} {f : Word → Word} {P : Word → Prop}
    (h : Issues s sc slot [a] [d] false) (he : exec i s = .next (alu2 i d a f s))
    (hP : P (f (readReg (ctxOf s sc slot) a))) : Gives s sc slot i d P :=
  ⟨_, exec_of_issues h he rfl, hP⟩

theorem gives_alu1 {s : State} {sc : ScullId} {slot : Slot} {i : Instr} {reads : List Reg} {d : Reg} {f : Ctx → Word}
    {P : Word → Prop} (h : Issues s sc slot reads [d] false) (he : exec i s = .next (alu1 i reads d f s))
    (hP : P (f (ctxOf s sc slot))) : Gives s sc slot i d P :=
  ⟨_, exec_of_issues h he rfl, hP⟩

/-! ### Shifts and rotates (R80) -/

theorem countOf_eq (y : Word) : countOf y = y.toNat % 64 := by simp [countOf]

theorem toNat_shiftLeft (x : Word) (n : Nat) : (shiftLeft x n).toNat = x.toNat * 2 ^ n % 2 ^ 64 := by
  rw [shiftLeft, BitVec.toNat_shiftLeft, Nat.shiftLeft_eq]

theorem toNat_shiftRight (x : Word) (n : Nat) : (shiftRight x n).toNat = x.toNat / 2 ^ n := by
  rw [shiftRight, BitVec.toNat_ushiftRight, Nat.shiftRight_eq_div_pow]

theorem toInt_shiftArith (x : Word) (n : Nat) : (shiftArith x n).toInt = x.toInt / 2 ^ n := by
  rw [shiftArith, BitVec.toInt_sshiftRight, Int.shiftRight_eq_div_pow]
  norm_cast

theorem getLsbD_rotLeft (x : Word) {n i : Nat} (hn : n < 64) (hi : i < 64) :
    (rotLeft x n).getLsbD ((i + n) % 64) = x.getLsbD i := by
  rw [rotLeft, BitVec.getLsbD_rotateLeft, Nat.mod_eq_of_lt hn]
  by_cases h : i + n < 64
  · rw [Nat.mod_eq_of_lt h]
    simp [h]
  · have e : (i + n) % 64 = i + n - 64 := by omega
    have e' : 64 - n + (i + n - 64) = i := by omega
    simp [e, e', show i + n - 64 < n by omega]

theorem getLsbD_rotRight (x : Word) {n i : Nat} (hn : n < 64) (hi : i < 64) :
    (rotRight x n).getLsbD i = x.getLsbD ((i + n) % 64) := by
  rw [rotRight, BitVec.getLsbD_rotateRight, Nat.mod_eq_of_lt hn]
  by_cases h : i + n < 64
  · rw [Nat.mod_eq_of_lt h, Nat.add_comm]
    simp [show i < 64 - n by omega]
  · have e : (i + n) % 64 = i - (64 - n) := by omega
    simp [e, show ¬ i < 64 - n by omega, hi]

theorem shiftResults : Sys2Proof.Parts.ShiftResults := by
  intro s sc slot d a b n
  refine ⟨fun h => ?_, fun h => ?_⟩
  · have hk : (readReg (ctxOf s sc slot) b).toNat % 64 < 64 := Nat.mod_lt _ (by decide)
    simp only [← countOf_eq] at hk ⊢
    exact ⟨gives_alu3 h rfl (toNat_shiftLeft _ _), gives_alu3 h rfl (toNat_shiftRight _ _),
      gives_alu3 h rfl (toInt_shiftArith _ _), gives_alu3 h rfl fun _ => getLsbD_rotLeft _ hk,
      gives_alu3 h rfl fun _ => getLsbD_rotRight _ hk⟩
  · exact ⟨gives_alu2 h rfl (toNat_shiftLeft _ _), gives_alu2 h rfl (toNat_shiftRight _ _),
      gives_alu2 h rfl (toInt_shiftArith _ _), gives_alu2 h rfl fun _ => getLsbD_rotRight _ n.isLt⟩

/-! ### Immediates and constants (R83, R85, R86, R88) -/

theorem toInt_imm36 (k : BitVec 36) : (imm36 k).toInt = k.toInt := BitVec.toInt_signExtend_of_le (by decide)

theorem add_imm36 (x : Word) (k : BitVec 36) : x + imm36 k = BitVec.ofInt 64 (x.toInt + k.toInt) := by
  rw [BitVec.ofInt_add, BitVec.ofInt_toInt]; rfl

theorem toInt_imm43 (l : BitVec 43) : (imm43 l).toInt = l.toInt := BitVec.toInt_signExtend_of_le (by decide)

theorem add_imm43 (x : Word) (l : BitVec 43) : x + imm43 l = BitVec.ofInt 64 (x.toInt + l.toInt) := by
  rw [BitVec.ofInt_add, BitVec.ofInt_toInt]; rfl

theorem setWidth32_ofInt (z : Int) : (BitVec.ofInt 64 z).setWidth 32 = BitVec.ofInt 32 z := by
  apply BitVec.eq_of_toNat_eq
  simp only [BitVec.toNat_setWidth, BitVec.toNat_ofInt]
  omega

theorem sext32_ofInt (z : Int) : sext32 (BitVec.ofInt 64 z) = (BitVec.ofInt 32 z).signExtend 64 := by
  rw [sext32, setWidth32_ofInt]

theorem toNat_coreAddress (x y : Word) : (coreAddress x y).toNat = x.toNat % 2 ^ 11 * 2 ^ 40 + y.toNat % 2 ^ 40 := by
  have h : y.toNat % 2 ^ 40 < 2 ^ 40 := Nat.mod_lt _ (by decide)
  simp only [coreAddress, BitVec.toNat_append, BitVec.toNat_setWidth]
  rw [← Nat.shiftLeft_add_eq_or_of_lt h, Nat.shiftLeft_eq]
  simp

theorem immediateResults : Sys2Proof.Parts.ImmediateResults := by
  intro s sc slot d a b k l h
  refine ⟨fun hi => ?_, fun hi => ?_, fun hi => ?_, fun hi => ?_⟩
  · exact ⟨gives_alu2 hi rfl (add_imm36 _ _), gives_alu2 hi rfl (by rw [add_imm36, sext32_ofInt]),
      gives_alu2 hi rfl rfl, gives_alu2 hi rfl rfl, gives_alu2 hi rfl rfl⟩
  · exact ⟨gives_alu1 hi rfl (toInt_imm43 l), gives_alu1 hi rfl (add_imm43 _ l)⟩
  · exact gives_alu1 hi rfl ⟨BitVec.extractLsb'_append_eq_left, BitVec.setWidth_append_eq_right⟩
  · exact gives_alu3 hi rfl (toNat_coreAddress _ _)

/-! ### Bit fields (R84) -/

theorem getLsbD_fieldZext (x : Word) {p w i : Nat} (hi : i < 64) :
    (fieldZext x p w).getLsbD i = (decide (i < w) && x.getLsbD (p + i)) := by
  simp only [fieldZext, BitVec.getLsbD_and, BitVec.getLsbD_ushiftRight, BitVec.getLsbD_ofNat, hi, decide_true, Bool.true_and,
    Nat.testBit_two_pow_sub_one, Bool.and_comm]

theorem getLsbD_fieldSext (x : Word) {p w i : Nat} (hw : 0 < w) (hp : p + w ≤ 64) (hi : i < 64) :
    (fieldSext x p w).getLsbD i = x.getLsbD (p + Min.min i (w - 1)) := by
  have top : (x <<< (64 - (p + w))).msb = x.getLsbD (p + (w - 1)) := by
    rw [BitVec.msb_eq_getLsbD_last, BitVec.getLsbD_shiftLeft]
    simp [show ¬ 63 < 64 - (p + w) by omega, show 63 - (64 - (p + w)) = p + (w - 1) by omega]
  rw [fieldSext, BitVec.getLsbD_sshiftRight, top]
  by_cases h : i < w
  · have e : 64 - w + i - (64 - (p + w)) = p + i := by omega
    rw [if_pos (by omega), Nat.min_eq_left (by omega), BitVec.getLsbD_shiftLeft, e]
    simp [show 64 - w + i < 64 by omega, show ¬ 64 - w + i < 64 - (p + w) by omega, hi]
  · rw [if_neg (by omega), Nat.min_eq_right (by omega)]
    simp [hi]

theorem getLsbD_fieldInsert (v x : Word) {p w i : Nat} (hi : i < 64) :
    (fieldInsert v x p w).getLsbD i = if p ≤ i ∧ i < p + w then x.getLsbD (i - p) else v.getLsbD i := by
  have mask : (BitVec.ofNat 64 (2 ^ w - 1) <<< p).getLsbD i = decide (p ≤ i ∧ i < p + w) := by
    simp only [BitVec.getLsbD_shiftLeft, BitVec.getLsbD_ofNat, Nat.testBit_two_pow_sub_one, hi]
    grind
  simp only [fieldInsert, BitVec.getLsbD_or, BitVec.getLsbD_and, BitVec.getLsbD_not, mask, BitVec.getLsbD_shiftLeft, hi]
  by_cases h : p ≤ i ∧ i < p + w
  · simp [h]
  · simp [h]

/-! ### Unary bit instructions and ABS (R78, R87) -/

theorem toNat_absWord (x : Word) : (absWord x).toNat = x.toInt.natAbs := by
  have hx := x.isLt
  unfold absWord
  rw [BitVec.toInt_eq_msb_cond]
  split
  · rw [BitVec.toNat_neg]
    have : 2 ^ 63 ≤ x.toNat := by simpa [BitVec.msb_eq_decide] using ‹x.msb = true›
    omega
  · omega

theorem leadingZeros_le (x : Word) (n : Nat) : leadingZeros x n ≤ n := by
  induction n with
  | zero => exact Nat.le_refl 0
  | succ n ih => unfold leadingZeros; split <;> omega

theorem getLsbD_above_leadingZeros (x : Word) (n : Nat) : ∀ i < n, n - leadingZeros x n ≤ i → x.getLsbD i = false := by
  induction n with
  | zero => intro i hi; omega
  | succ n ih =>
    intro i hi hle
    unfold leadingZeros at hle
    split at hle
    · omega
    · rcases Nat.lt_succ_iff_lt_or_eq.mp hi with h | rfl
      · exact ih i h (by omega)
      · simpa using ‹¬x.getLsbD i = true›

theorem getLsbD_at_leadingZeros (x : Word) (n : Nat) : leadingZeros x n < n → x.getLsbD (n - 1 - leadingZeros x n) = true := by
  induction n with
  | zero => intro h; omega
  | succ n ih =>
    intro h
    unfold leadingZeros at h ⊢
    split
    · simpa
    · rw [if_neg ‹_›] at h
      rw [show n + 1 - 1 - (1 + leadingZeros x n) = n - 1 - leadingZeros x n by omega]
      exact ih (by omega)

theorem trailingZeros_le (x : Word) (k n : Nat) : trailingZeros x k n ≤ n := by
  induction n generalizing k with
  | zero => exact Nat.le_refl 0
  | succ n ih => have := ih (k + 1); unfold trailingZeros; split <;> omega

theorem getLsbD_below_trailingZeros (x : Word) (k n : Nat) : ∀ i < trailingZeros x k n, x.getLsbD (k + i) = false := by
  induction n generalizing k with
  | zero => intro i hi; exact absurd hi (Nat.not_lt_zero i)
  | succ n ih =>
    intro i hi
    unfold trailingZeros at hi
    split at hi
    · omega
    · cases i with
      | zero => simpa using ‹¬x.getLsbD k = true›
      | succ i => rw [← ih (k + 1) i (by omega), Nat.add_assoc, Nat.add_comm 1]

theorem getLsbD_at_trailingZeros (x : Word) (k n : Nat) :
    trailingZeros x k n < n → x.getLsbD (k + trailingZeros x k n) = true := by
  induction n generalizing k with
  | zero => intro h; omega
  | succ n ih =>
    intro h
    unfold trailingZeros at h ⊢
    split
    · simpa
    · rw [if_neg ‹_›] at h
      rw [← Nat.add_assoc]
      exact ih (k + 1) (by omega)

theorem onesIn_eq_countP (x : Word) (n : Nat) : onesIn x n = (List.range n).countP fun i => x.getLsbD i := by
  induction n with
  | zero => rfl
  | succ n ih =>
    rw [onesIn, ih, List.range_succ, List.countP_append, List.countP_singleton, Nat.add_comm]

theorem toNat_ofNat_of_le_64 {n : Nat} (h : n ≤ 64) : (BitVec.ofNat 64 n).toNat = n :=
  Nat.mod_eq_of_lt (by omega)

theorem toNat_clzWord (x : Word) : (clzWord x).toNat = leadingZeros x 64 := toNat_ofNat_of_le_64 (leadingZeros_le x 64)

theorem toNat_ctzWord (x : Word) : (ctzWord x).toNat = trailingZeros x 0 64 := toNat_ofNat_of_le_64 (trailingZeros_le x 0 64)

theorem toNat_popWord (x : Word) : (popWord x).toNat = (List.range 64).countP fun i => x.getLsbD i := by
  rw [popWord, onesIn_eq_countP, toNat_ofNat_of_le_64]
  exact le_of_le_of_eq List.countP_le_length List.length_range

theorem getLsbD_reverseBits (x : Word) {i : Nat} (hi : i < 64) : (reverseBits x).getLsbD i = x.getLsbD (63 - i) := by
  rw [reverseBits, BitVec.getLsbD_reverse, BitVec.getMsbD]
  simp [hi]

theorem extractLsb'_swapBytes (x : Word) : ∀ i < 8, (swapBytes x).extractLsb' (8 * i) 8 = x.extractLsb' (56 - 8 * i) 8 := by
  intro i hi
  interval_cases i <;> simp [swapBytes, BitVec.extractLsb'_append_eq_of_le (w := 8), BitVec.extractLsb'_append_eq_of_add_le (w := 8)]

theorem toNat_zeroExtend (x : Word) {n : Nat} (h : n ≤ 64) : ((x.setWidth n).setWidth 64).toNat = x.toNat % 2 ^ n := by
  rw [BitVec.toNat_setWidth_of_le h, BitVec.toNat_setWidth]

theorem bitResults : Sys2Proof.Parts.BitResults := by
  intro s sc slot d a p w hpw
  refine ⟨fun h => ⟨?_, ?_, ?_, ?_, ?_, ?_, ?_, ?_, ?_, ?_, ?_, ?_, ?_, ?_⟩, fun h => ?_⟩
  · exact gives_alu2 h rfl fun i hi => by rw [getLsbD_fieldZext _ hi, decide_eq_decide.mpr Nat.lt_succ_iff]
  · exact gives_alu2 h rfl fun i hi => getLsbD_fieldSext _ (Nat.succ_pos _) hpw hi
  · exact gives_alu2 h rfl (toNat_absWord _)
  · refine gives_alu2 h rfl ?_
    rw [toNat_clzWord]
    exact ⟨leadingZeros_le _ _, getLsbD_above_leadingZeros _ _, getLsbD_at_leadingZeros _ _⟩
  · refine gives_alu2 h rfl ?_
    rw [toNat_ctzWord]
    refine ⟨trailingZeros_le _ _ _, fun i hi => ?_, fun hi => ?_⟩
    · simpa using getLsbD_below_trailingZeros _ 0 64 i hi
    · simpa using getLsbD_at_trailingZeros _ 0 64 hi
  · exact gives_alu2 h rfl (toNat_popWord _)
  · exact gives_alu2 h rfl fun i => getLsbD_reverseBits _
  · exact gives_alu2 h rfl (extractLsb'_swapBytes _)
  · exact gives_alu2 h rfl rfl
  · exact gives_alu2 h rfl rfl
  · exact gives_alu2 h rfl rfl
  · exact gives_alu2 h rfl (toNat_zeroExtend _ (n := 8) (by decide))
  · exact gives_alu2 h rfl (toNat_zeroExtend _ (n := 16) (by decide))
  · exact gives_alu2 h rfl (toNat_zeroExtend _ (n := 32) (by decide))
  · exact gives_alu1 h rfl fun i hi => by
      rw [getLsbD_fieldInsert _ _ hi]
      simp only [← Nat.add_assoc, Nat.lt_succ_iff]

/-- Settles O2: the function of each instruction has its own lemma above; the rest is that nothing stands in the instruction's way. -/
theorem shiftsBitsAndConstants : Obligations.ShiftsBitsAndConstants := ⟨shiftResults, immediateResults, bitResults⟩

/-! ### Division (R81, R82) -/

/-- An operand of a division as R81 reads it: its low w bits, signed or not. -/
def divOperand (w : Nat) (signed : Bool) (x : Word) : Int := if signed then (x.setWidth w).toInt else (x.setWidth w).toNat

@[simp] theorem divOperand_signed (x : Word) : divOperand 64 true x = x.toInt := by simp [divOperand]

@[simp] theorem divOperand_unsigned (x : Word) : divOperand 64 false x = x.toNat := by simp [divOperand]

theorem divOperand_eq_zero (w : Nat) (signed : Bool) (y : Word) : divOperand w signed y = 0 ↔ y.setWidth w = 0 := by
  cases signed
  · rw [BitVec.toNat_eq, BitVec.ofNat_eq_ofNat, BitVec.toNat_ofNat, Nat.zero_mod]
    exact Int.natCast_eq_zero
  · rw [← BitVec.toInt_inj, BitVec.ofNat_eq_ofNat, BitVec.toInt_zero]
    rfl

/-- The cases of R81: a divisor of zero, and the quotient rounded toward zero with its remainder. -/
theorem divide_eq (w : Nat) (signed : Bool) (x y : Word) :
    divide w signed x y = if y.setWidth w = 0 then (-1, divOperand w signed x)
      else ((divOperand w signed x).tdiv (divOperand w signed y), (divOperand w signed x).tmod (divOperand w signed y)) := by
  rw [Int.tmod_def, Int.mul_comm]
  exact if_congr (divOperand_eq_zero w signed y) rfl rfl

theorem divideResult_quotient (signed : Bool) (x y : Word) : divideResult 64 signed false x y =
    if y = 0 then -1 else BitVec.ofInt 64 ((divOperand 64 signed x).tdiv (divOperand 64 signed y)) := by
  change BitVec.ofInt 64 (divide 64 signed x y).1 = _
  rw [divide_eq, BitVec.setWidth_eq]
  split <;> rfl

theorem divideResult_remainder (signed : Bool) (x y : Word) : divideResult 64 signed true x y =
    if y = 0 then x else BitVec.ofInt 64 ((divOperand 64 signed x).tmod (divOperand 64 signed y)) := by
  change BitVec.ofInt 64 (divide 64 signed x y).2 = _
  rw [divide_eq, BitVec.setWidth_eq]
  split
  · cases signed <;> simp
  · rfl

theorem divideResult_quotient32 (signed : Bool) (x y : Word) : divideResult 32 signed false x y =
    if y.setWidth 32 = (0 : BitVec 32) then -1
      else (BitVec.ofInt 32 ((divOperand 32 signed x).tdiv (divOperand 32 signed y))).signExtend 64 := by
  change sext32 (BitVec.ofInt 64 (divide 32 signed x y).1) = _
  rw [divide_eq, sext32_ofInt]
  split <;> rfl

theorem toNat_ofInt_natCast_of_le {n : Nat} (x : Word) (h : n ≤ x.toNat) : (BitVec.ofInt 64 (n : Int)).toNat = n := by
  rw [BitVec.ofInt_natCast]
  exact Nat.mod_eq_of_lt (lt_of_le_of_lt h x.isLt)

theorem divideUnsigned_quotient (x y : Word) :
    if y = 0 then divideResult 64 false false x y = -1 else (divideResult 64 false false x y).toNat = x.toNat / y.toNat := by
  rw [divideResult_quotient]
  split
  · rfl
  · exact toNat_ofInt_natCast_of_le x (Nat.div_le_self _ _)

theorem divideUnsigned_remainder (x y : Word) :
    if y = 0 then divideResult 64 false true x y = x else (divideResult 64 false true x y).toNat = x.toNat % y.toNat := by
  rw [divideResult_remainder]
  split
  · rfl
  · exact toNat_ofInt_natCast_of_le x (Nat.mod_le _ _)

theorem divideCycles_bounds (x y : Word) : 10 ≤ divideCycles x y ∧ divideCycles x y ≤ 40 := by
  unfold divideCycles
  omega

theorem exists_divIssue {s : State} {sc : ScullId} {slot : Slot} {i : Instr} {w : Nat} {signed rem : Bool} {d a b : Reg}
    {P : Word → Prop} (h : Issues s sc slot [a, b] [d] false) (he : exec i s = .next (divIssue i w signed rem d a b s))
    (hP : P (divideResult w signed rem (readReg (ctxOf s sc slot) a) (readReg (ctxOf s sc slot) b))) :
    ∃ v n, P v ∧ 10 ≤ n ∧ n ≤ 40
      ∧ exec i s = .next (post (park s sc slot (ctxOf s sc slot) (.divide d v)) n (.context sc slot) .divideComplete) :=
  ⟨_, _, hP, (divideCycles_bounds _ _).1, (divideCycles_bounds _ _).2, exec_of_issues h he rfl⟩

theorem execDivideComplete_of_waiting {s : State} {sc : ScullId} {slot : Slot} {d : Reg} {v : Word} (ha : s.actor = .context sc slot)
    (hw : (ctxOf s sc slot).st = .waiting (.divide d v)) (hb : (ctxOf s sc slot).back = none) :
    execDivideComplete s = .next (setCtx s sc slot { retire (writeReg (ctxOf s sc slot) d v) with st := .ready }) := by
  have waits : waitOf (ctxOf s sc slot) = some (.divide d v) := by unfold waitOf; rw [hw]
  have goesOn : goBack (retire (writeReg (ctxOf s sc slot) d v)) = retire (writeReg (ctxOf s sc slot) d v) := by
    unfold goBack; rw [retire_back, writeReg_back, hb]
  have wakes : awake (retire (writeReg (ctxOf s sc slot) d v)) = { retire (writeReg (ctxOf s sc slot) d v) with st := .ready } := by
    unfold awake; rw [retire_st, writeReg_st, hw]
  calc execDivideComplete s = .next (complete s (ctxKey sc slot) (writeReg (ctxOf s sc slot) d v)) := by
        simp only [execDivideComplete, ha, waits]
    _ = _ := by rw [complete, goesOn, wakes, setCtx]

theorem ite_eq_of_eq_ite {α : Type} {p : Prop} [Decidable p] {v x y : α} (h : v = if p then x else y) : if p then v = x else v = y := by
  subst h
  split <;> rfl

theorem divisions : Sys2Proof.Parts.Divisions := by
  intro s sc slot d a b c x y starts word
  refine ⟨fun h => ⟨?_, ?_, ?_, ?_, ?_, ?_⟩, fun v ha hw hb => execDivideComplete_of_waiting ha hw hb⟩
  · refine exists_divIssue h rfl (ite_eq_of_eq_ite ?_)
    rw [divideResult_quotient, divOperand_signed, divOperand_signed]
  · exact exists_divIssue h rfl (divideUnsigned_quotient x y)
  · refine exists_divIssue h rfl (ite_eq_of_eq_ite ?_)
    rw [divideResult_remainder, divOperand_signed, divOperand_signed]
  · exact exists_divIssue h rfl (divideUnsigned_remainder x y)
  · exact exists_divIssue h rfl (ite_eq_of_eq_ite (divideResult_quotient32 true x y))
  · exact exists_divIssue h rfl (ite_eq_of_eq_ite (divideResult_quotient32 false x y))

/-! ### Comparisons and SEL (R89, R90) -/

theorem boolWord_tells {p : Prop} {b : Bool} (h : b = true ↔ p) : (p → boolWord b = 1) ∧ (¬p → boolWord b = 0) := by
  cases b
  · exact ⟨fun hp => absurd (h.mpr hp) (by decide), fun _ => rfl⟩
  · exact ⟨fun _ => rfl, fun hp => absurd (h.mp rfl) hp⟩

theorem compareResults : Sys2Proof.Parts.CompareResults := by
  intro s sc slot d a b g k c x y tells
  refine ⟨fun h => ?_, fun h => ?_, fun h => ?_⟩
  · exact ⟨gives_alu3 h rfl (boolWord_tells BitVec.slt_iff_toInt_lt), gives_alu3 h rfl (boolWord_tells BitVec.ult_iff_toNat_lt),
      gives_alu3 h rfl (boolWord_tells beq_iff_eq), gives_alu3 h rfl (boolWord_tells bne_iff_ne)⟩
  · refine ⟨gives_alu2 h rfl (boolWord_tells ?_), gives_alu2 h rfl (boolWord_tells BitVec.ult_iff_toNat_lt),
      gives_alu2 h rfl (boolWord_tells ?_)⟩
    · rw [BitVec.slt_iff_toInt_lt, toInt_imm36]
    · rw [beq_iff_eq, ← BitVec.toInt_inj, toInt_imm36]
  · exact ⟨_, exec_of_issues h rfl rfl, fun hg => if_pos hg, fun hg => if_neg (not_not.mpr hg)⟩

/-- Settles O3: R81 through `divide_eq`, and R89 through `boolWord_tells`. -/
theorem divisionsAndComparisons : Obligations.DivisionsAndComparisons := ⟨divisions, compareResults⟩

/-! ### Branches and jumps (R49, R91, R92) -/

theorem branches : Sys2Proof.Parts.Branches := by
  intro s sc slot cond a b off h c x y taken
  have holds : condHolds cond x y = true ↔ taken := by
    cases cond with
    | eq => exact beq_iff_eq
    | ne => exact bne_iff_ne
    | lt => exact BitVec.slt_iff_toInt_lt
    | ge => simp [condHolds, taken, BitVec.slt_eq_decide]
    | ltu => exact BitVec.ult_iff_toNat_lt
    | geu => simp [condHolds, taken, BitVec.ult_eq_decide]
  exact ⟨_, exec_of_issues h rfl rfl, fun ht => if_pos (holds.mpr ht), fun ht => if_neg (mt holds.mp ht)⟩

theorem low3_eq_zero_iff (x : Word) : x.setWidth 3 = 0#3 ↔ x.toNat % 8 = 0 := by
  rw [BitVec.toNat_eq]; simp

theorem finishAt_writeReg (s : State) (sc : ScullId) (slot : Slot) (c : Ctx) (d : Reg) (v pc : Word) :
    finishAt s sc slot (writeReg c d v) pc = setCtx s sc slot { writeReg c d v with pc := pc, icnt := c.icnt + 1 } := by
  rw [finishAt, writeReg_icnt]

theorem jumps : Sys2Proof.Parts.Jumps := by
  intro s sc slot d a l k c target jumps
  refine ⟨fun h => ?_, fun h => ⟨fun ht => ?_, fun ht => ?_⟩⟩
  · exact exec_of_issues h rfl (finishAt_writeReg ..)
  · have aligned : ¬target.setWidth 3 ≠ 0#3 := not_not.mpr ((low3_eq_zero_iff target).mpr ht)
    exact exec_of_issues h rfl ((if_neg aligned).trans (finishAt_writeReg ..))
  · have misaligned : target.setWidth 3 ≠ 0#3 := mt (low3_eq_zero_iff target).mp ht
    exact exec_of_issues h rfl (if_pos misaligned)

/-- Settles O5: what the body of each instruction leaves, with the condition and the alignment of the target read as numbers. -/
theorem branchesAndJumps : Obligations.BranchesAndJumps := ⟨branches, jumps⟩

/-! ### The words of a trap (R110, R325) -/

theorem toNat_causeWord (t : Trap) : (causeWord t).toNat = t.aux.toNat * 2 ^ 8 + t.code.toNat := by
  have hc : t.code.toNat < 2 ^ 8 := lt_trans t.code.isLt (by decide)
  rw [← Nat.shiftLeft_eq, Nat.shiftLeft_add_eq_or_of_lt hc]
  simp only [causeWord, BitVec.toNat_append]
  simp [← Nat.shiftLeft_add]

theorem causeWord_eq_ofNat (t : Trap) : causeWord t = BitVec.ofNat 64 (t.aux.toNat * 2 ^ 8 + t.code.toNat) := by
  rw [← toNat_causeWord, BitVec.ofNat_toNat, BitVec.setWidth_eq]

theorem toNat_trapDetail (c : Ctx) (t : Trap) :
    (trapDetail c t).toNat = t.aux.toNat * 2 ^ 8 + t.code.toNat + if c.tvec = 0 then 2 ^ 16 else 0 := by
  have hb : (causeWord t).toNat < 2 ^ 16 := by
    rw [toNat_causeWord]
    have h1 := t.code.isLt
    have h2 := t.aux.isLt
    omega
  have hm : (causeWord t &&& 0xFFFF).toNat = (causeWord t).toNat := by
    rw [BitVec.toNat_and]
    exact (Nat.and_two_pow_sub_one_eq_mod _ 16).trans (Nat.mod_eq_of_lt hb)
  rw [← toNat_causeWord]
  simp only [trapDetail]
  split
  · rw [BitVec.toNat_or, hm, Nat.or_comm, Nat.add_comm]
    exact (Nat.shiftLeft_add_eq_or_of_lt hb 1).symm
  · exact hm

/-! ### What the hub's writes leave alone (R152, R298) -/

/-- Every context that waits for nothing is as before, and so is the fault unit. A task's fault writes its record through the hub's cache,
and such a write may perform stores that contexts wait for (R152, R298): it wakes those, and touches no other. -/
structure KeepsIdle (s t : State) : Prop where
  ctx : ∀ k, waitOf (ctxAt s k) = none → ctxAt t k = ctxAt s k
  fs : t.fs = s.fs

theorem KeepsIdle.refl (s : State) : KeepsIdle s s := ⟨fun _ _ => rfl, rfl⟩

theorem KeepsIdle.trans {s t u : State} (h : KeepsIdle s t) (h' : KeepsIdle t u) : KeepsIdle s u :=
  ⟨fun k hk => (h'.ctx k ((h.ctx k hk).symm ▸ hk)).trans (h.ctx k hk), h'.fs.trans h.fs⟩

theorem KeepsIdle.of_eq {s t u : State} (h : KeepsIdle s t) (hc : u.ctxs = t.ctxs) (hf : u.fs = t.fs) : KeepsIdle s u :=
  h.trans ⟨fun k _ => by rw [ctxAt, hc, ctxAt], hf⟩

/-- Only contexts that wait are let go on (R26). -/
theorem ctxAt_wakeReissue_of_idle (s : State) (p : Reissue → Bool) (k : Nat) (h : waitOf (ctxAt s k) = none) :
    ctxAt (wakeReissue s p) k = ctxAt s k := by
  simp only [ctxAt, tabGet, wakeReissue, tabFind_tabMap] at h ⊢
  cases hc : tabFind s.ctxs k with
  | none => rfl
  | some c =>
    rw [hc, Option.getD_some] at h
    rw [Option.map_some, Option.getD_some, h]
    rfl

section
variable {s t : State}

theorem keepsIdle_wakeReissue {p : Reissue → Bool} (h : KeepsIdle s t) : KeepsIdle s (wakeReissue t p) :=
  h.trans ⟨fun k => ctxAt_wakeReissue_of_idle t p k, rfl⟩

theorem keepsIdle_foldl {α : Type} {f : State → α → State} (hf : ∀ u x, KeepsIdle s u → KeepsIdle s (f u x)) (l : List α)
    (h : KeepsIdle s t) : KeepsIdle s (l.foldl f t) := by
  induction l generalizing t with
  | nil => exact h
  | cons x l ih => exact ih (hf t x h)

theorem keepsIdle_post {n : Nat} {a : Actor} {i : Instr} (h : KeepsIdle s t) : KeepsIdle s (post t n a i) := h.of_eq rfl rfl
theorem keepsIdle_setAgent {n : Node} {x : Agent} (h : KeepsIdle s t) : KeepsIdle s (setAgent t n x) := h.of_eq rfl rfl
theorem keepsIdle_setHome {line : Nat} {x : HomeLine} (h : KeepsIdle s t) : KeepsIdle s (setHome t line x) := h.of_eq rfl rfl
theorem keepsIdle_setMemoryLine {line : Nat} {d : BitVec 512} (h : KeepsIdle s t) : KeepsIdle s (setMemoryLine t line d) :=
  h.of_eq rfl rfl
theorem keepsIdle_setMemoryPoison {line : Nat} {b : Bool} (h : KeepsIdle s t) : KeepsIdle s (setMemoryPoison t line b) :=
  h.of_eq rfl rfl
theorem keepsIdle_dropCopies {line : Nat} (h : KeepsIdle s t) : KeepsIdle s (dropCopies t line) := h.of_eq rfl rfl

theorem keepsIdle_putLine {n : Node} {line : Nat} {l : Line} (h : KeepsIdle s t) : KeepsIdle s (putLine t n line l) := by
  unfold putLine
  dsimp only
  split <;> exact keepsIdle_setAgent h

theorem keepsIdle_dropLine {n : Node} {line : Nat} (h : KeepsIdle s t) : KeepsIdle s (dropLine t n line) := by
  unfold dropLine
  split <;> exact h.of_eq rfl rfl

theorem keepsIdle_modLine {n : Node} {line : Nat} {f : Line → Line} (h : KeepsIdle s t) : KeepsIdle s (modLine t n line f) := by
  unfold modLine
  split
  · exact keepsIdle_putLine h
  · exact h

theorem keepsIdle_installLine {n : Node} {line : Nat} {l : Line} (h : KeepsIdle s t) : KeepsIdle s (installLine t n line l) := by
  unfold installLine
  have hp : KeepsIdle s (putLine t n line l) := keepsIdle_putLine h
  dsimp only
  split
  · split
    · exact keepsIdle_post (hp.of_eq rfl rfl)
    · exact hp
  · exact hp

theorem keepsIdle_supplyFromMemory {n : Node} {line : Nat} {st : Moesi} (h : KeepsIdle s t) :
    KeepsIdle s (supplyFromMemory t n line st) := keepsIdle_setHome (keepsIdle_installLine h)

theorem keepsIdle_linkReader {n req : Node} {line : Nat} {l : Line} (h : KeepsIdle s t) :
    KeepsIdle s (linkReader t n req line l) := by
  unfold linkReader
  refine keepsIdle_installLine ?_
  split
  · exact keepsIdle_modLine (keepsIdle_modLine h)
  · exact keepsIdle_modLine h

theorem keepsIdle_spliceOut {n : Node} {line : Nat} (h : KeepsIdle s t) : KeepsIdle s (spliceOut t n line) := by
  unfold spliceOut
  split
  · exact h
  · rename_i l _
    have hp : KeepsIdle s (match l.prev with
        | some p => modLine t p line fun x => { x with next := l.next }
        | none => departFirst t n line l.next) := by
      split
      · exact keepsIdle_modLine h
      · exact keepsIdle_setHome h
    refine keepsIdle_dropLine ?_
    split
    · exact keepsIdle_modLine hp
    · exact hp

theorem keepsIdle_performStores {n : Node} {line : Nat} (h : KeepsIdle s t) : KeepsIdle s (performStores t n line) := by
  unfold performStores
  dsimp only
  split
  · exact h
  · split
    · exact h
    · exact keepsIdle_wakeReissue (keepsIdle_setAgent h)

theorem keepsIdle_joinLine {n : Node} {line : Nat} (h : KeepsIdle s t) : KeepsIdle s (joinLine t n line) := by
  unfold joinLine
  split
  · exact h
  · split
    · exact keepsIdle_supplyFromMemory h
    · split
      · exact keepsIdle_linkReader h
      · exact keepsIdle_supplyFromMemory h

theorem keepsIdle_takeLine {n : Node} {line : Nat} (h : KeepsIdle s t) : KeepsIdle s (takeLine t n line) :=
  keepsIdle_setHome (keepsIdle_installLine (keepsIdle_dropCopies h))

theorem keepsIdle_restoreHead {line : Nat} (h : KeepsIdle s t) : KeepsIdle s (restoreHead t line) := by
  unfold restoreHead
  dsimp only
  split
  · exact keepsIdle_setHome h
  · exact h

theorem keepsIdle_settleReq {line : Nat} {r : HomeReq} (h : KeepsIdle s t) : KeepsIdle s (settleReq t line r) := by
  unfold settleReq
  cases r with
  | read n q =>
    dsimp only
    split
    · exact h
    · exact keepsIdle_joinLine h
  | write n q =>
    dsimp only
    split
    · exact keepsIdle_restoreHead h
    · exact keepsIdle_performStores (keepsIdle_takeLine h)
  | writeback n q =>
    dsimp only
    split
    · refine keepsIdle_spliceOut ?_
      split
      · exact keepsIdle_setMemoryPoison (keepsIdle_setMemoryLine h)
      · exact h
    · exact h

theorem keepsIdle_repointBy {i : Instr} (h : KeepsIdle s t) : KeepsIdle s (repointBy t i) := by
  unfold repointBy repoint
  split
  · split
    · exact keepsIdle_setHome h
    · exact keepsIdle_modLine h
  · exact h

theorem keepsIdle_quiesceHome {line : Nat} (h : KeepsIdle s t) : KeepsIdle s (quiesceHome t line) := by
  unfold quiesceHome
  dsimp only
  split
  · exact h
  · refine keepsIdle_foldl (fun _ _ => keepsIdle_settleReq) _ (keepsIdle_setHome ?_)
    exact keepsIdle_foldl (fun _ _ => keepsIdle_repointBy) _ (h.of_eq rfl rfl)

theorem keepsIdle_endSwap (h : KeepsIdle s t) : KeepsIdle s (endSwap t) := h.of_eq rfl rfl
theorem keepsIdle_endCompact (h : KeepsIdle s t) : KeepsIdle s (endCompact t) := h.of_eq rfl rfl

theorem keepsIdle_moveChunk (h : KeepsIdle s t) : KeepsIdle s (moveChunk t) := by
  unfold moveChunk
  dsimp only
  split
  · split
    · exact keepsIdle_endSwap (h.of_eq rfl rfl)
    · exact h.of_eq rfl rfl
  · split
    · exact keepsIdle_endCompact (h.of_eq rfl rfl)
    · exact h.of_eq rfl rfl
  · exact h

theorem keepsIdle_finishChunk (h : KeepsIdle s t) : KeepsIdle s (finishChunk t) := by
  refine keepsIdle_foldl (fun u line hu => ?_) _ (keepsIdle_moveChunk (keepsIdle_foldl (fun _ _ => keepsIdle_quiesceHome) _ h))
  dsimp only
  split
  · exact hu
  · exact keepsIdle_quiesceHome (keepsIdle_setHome hu)

theorem keepsIdle_quiesce {line : Nat} (h : KeepsIdle s t) : KeepsIdle s (quiesce t line) := by
  unfold quiesce
  split
  · exact keepsIdle_quiesceHome (keepsIdle_finishChunk h)
  · exact keepsIdle_quiesceHome h

theorem keepsIdle_stampRequest {n : Node} (h : KeepsIdle s t) : KeepsIdle s (stampRequest t n).1 := by
  unfold stampRequest
  dsimp only
  split
  · exact h
  · split
    · exact h.of_eq rfl rfl
    · exact h.of_eq rfl rfl

theorem keepsIdle_atHome {n : Node} {line : Nat} (h : KeepsIdle s t) : KeepsIdle s (atHome t n line) := by
  refine keepsIdle_quiesce ?_
  unfold routeNow routeRequest
  dsimp only
  split
  · exact keepsIdle_post (keepsIdle_stampRequest h)
  · exact keepsIdle_stampRequest h

theorem keepsIdle_collapseLine {line : Nat} (h : KeepsIdle s t) : KeepsIdle s (collapseLine t line) :=
  keepsIdle_setHome (keepsIdle_dropCopies (keepsIdle_setMemoryPoison (keepsIdle_setMemoryLine (keepsIdle_quiesce h))))

theorem keepsIdle_globalWrite {pa n v : Nat} (h : KeepsIdle s t) : KeepsIdle s (globalWrite t pa n v) := by
  unfold globalWrite
  have hc : KeepsIdle s (collapseLine (collapseLine t (lineOf pa)) (lineOf (pa + (n - 1)))) :=
    keepsIdle_collapseLine (keepsIdle_collapseLine h)
  dsimp only
  split
  · exact keepsIdle_setMemoryPoison (hc.of_eq rfl rfl)
  · exact hc.of_eq rfl rfl

theorem keepsIdle_agentStore {n : Node} {pa k v : Nat} (h : KeepsIdle s t) : KeepsIdle s (agentStore t n pa k v) := by
  unfold agentStore
  dsimp only
  split
  · exact keepsIdle_globalWrite h
  · refine keepsIdle_modLine (keepsIdle_performStores ?_)
    split
    · exact h
    · exact keepsIdle_takeLine (keepsIdle_atHome h)

theorem keepsIdle_agentWrite {n : Node} {pa k v : Nat} (h : KeepsIdle s t) : KeepsIdle s (agentWrite t n pa k v) := by
  unfold agentWrite
  dsimp only
  split
  · exact keepsIdle_agentStore h
  · exact keepsIdle_agentStore (keepsIdle_agentStore h)

theorem keepsIdle_hubWriteWords {pa : Nat} {l : List Word} (h : KeepsIdle s t) : KeepsIdle s (hubWriteWords t pa l) := by
  induction l generalizing t pa with
  | nil => exact h
  | cons w l ih =>
    refine ih ?_
    unfold hubWrite
    split
    · exact keepsIdle_agentWrite h
    · exact h

theorem keepsIdle_postPacketSignal {p : List Word} (h : KeepsIdle s t) : KeepsIdle s (postPacketSignal t p) :=
  h.of_eq rfl rfl

theorem keepsIdle_faultQueue {q : QueueId} {crew : CrewId} {kind aux : BitVec 8} {index : BitVec 32} {packet : List Word}
    {w0 master pc tval : Word} (h : KeepsIdle s t) : KeepsIdle s (faultQueue t q crew kind aux index packet w0 master pc tval) := by
  refine keepsIdle_postPacketSignal (keepsIdle_hubWriteWords (keepsIdle_foldl (fun u e hu => ?_) _ (h.of_eq rfl rfl)))
  split
  · exact keepsIdle_post hu
  · exact hu

theorem keepsIdle_taskFault {crew : CrewId} {kind aux : BitVec 8} {master pc tval : Word} (h : KeepsIdle s t) :
    KeepsIdle s (taskFault t crew kind aux master pc tval) := by
  unfold taskFault
  dsimp only
  split
  · exact h
  · split
    · exact keepsIdle_faultQueue (h.of_eq rfl rfl)
    · exact keepsIdle_postPacketSignal (h.of_eq rfl rfl)
end

/-! ### Freezing (R116, R329) -/

theorem ctxOf_freezeCtx_ready (s : State) (sc : ScullId) (slot : Slot) {type kind : BitVec 8} {addr detail : Word}
    {taskKind aux : BitVec 8} {tval : Word} :
    ctxOf (freezeCtx s sc slot .ready type kind addr detail taskKind aux tval) sc slot = { ctxOf s sc slot with st := .frozen .ready } := by
  have frozen : ctxOf (setCtx s sc slot { ctxOf s sc slot with st := .frozen .ready }) sc slot
      = { ctxOf s sc slot with st := .frozen .ready } := ctxOf_setCtx_self ..
  refine ((keepsIdle_taskFault (.refl _)).ctx _ ?_).trans ?_
  · exact congrArg waitOf frozen
  · exact frozen

/-- A freeze sends one record, of the context as it was (R325). -/
theorem freezeCtx_sends_record (s : State) (sc : ScullId) (slot : Slot) (prior : Prior) (type kind : BitVec 8) (addr detail : Word)
    (taskKind aux : BitVec 8) (tval : Word) :
    ∃ r, (freezeCtx s sc slot prior type kind addr detail taskKind aux tval).fs.held = s.fs.held ++ [r]
      ∧ r.type = type ∧ r.pc = (ctxOf s sc slot).pc ∧ r.addr = addr ∧ r.asid = (ctxOf s sc slot).asid ∧ r.seq = s.fs.nextSeq
      ∧ r.detail = detail :=
  ⟨_, congrArg FaultUnit.held (keepsIdle_taskFault (.refl _)).fs, rfl, rfl, rfl, rfl, rfl, rfl⟩

/-! ### Traps, TRAP and RTE (R116 to R118) -/

theorem trapEntry : Sys2Proof.Parts.TrapEntry := by
  intro s sc slot t ret c hh hv u
  have hu : u = _ := takeTrap_enters s sc slot t ret hh hv
  have hc : ctxOf u sc slot = _ := (congrArg (ctxOf · sc slot) hu).trans (ctxOf_setCtx_self ..)
  refine ⟨?_, ?_⟩
  · rw [OnlyContext, hc, hu]
  · rw [hc, causeWord_eq_ofNat]

theorem trapFreeze : Sys2Proof.Parts.TrapFreeze := by
  intro s sc slot t ret c h u
  have hu : u = _ := takeTrap_freezes s sc slot t ret h
  refine ⟨?_, ?_⟩
  · rw [hu, ctxOf_freezeCtx_ready, ctxOf_setCtx_self, causeWord_eq_ofNat]
  · obtain ⟨r, hheld, htype, hpc, haddr, hasid, hseq, hdetail⟩ := freezeCtx_sends_record
      (setCtx s sc slot { c with cause := causeWord t, tval := t.tval })
      sc slot .ready 0x03 0 t.tval (trapDetail c t) (t.code.setWidth 8) t.aux t.tval
    rw [ctxOf_setCtx_self] at hpc hasid
    exact ⟨r, hu ▸ hheld, htype, hpc, haddr, hasid, hseq, hdetail ▸ toNat_trapDetail c t⟩

theorem trapAndReturn : Sys2Proof.Parts.TrapAndReturn := by
  intro s sc slot code h c
  refine ⟨exec_of_issues h rfl rfl, fun hh => ?_, fun hh => ?_⟩
  · exact exec_of_issues h rfl (if_pos hh)
  · have outside : ¬c.hnd = true := by rw [hh]; decide
    exact exec_of_issues h rfl (if_neg outside)

/-- Settles O10: the entry by `takeTrap_enters`; the freeze because a task's fault keeps idle contexts and the fault unit, by
`keepsIdle_taskFault`. -/
theorem trapsAndReturn : Obligations.TrapsAndReturn := ⟨trapEntry, trapFreeze, trapAndReturn⟩

end Sys2Proof.Machine
end
